-- ==== Sys2Proof/Word.lean ====
section
/-! DEFINITION. The word type, the register numbers and the narrowing of spec/00_scope.md R5. -/

namespace Sys2Proof

/-- A 32-bit value: a register, a memory word, an immediate, a pc (R5, `XLEN` = 32). -/
abbrev Word := BitVec 32

/-- The 64-bit record word `IW` that `lookup(pc)` delivers (R81). -/
abbrev RecordWord := BitVec 64

/-- The number of an architectural register `R0`..`R15` (R20). -/
abbrev Reg := Fin 16

/-- The number of a physical register `P0`..`P14` (R28). -/
abbrev Phys := Fin 15

/-- R5: the word whose signed value is congruent to `n` modulo 2^32. -/
def wrap32 (n : Int) : Word := BitVec.ofInt 32 n

end Sys2Proof
end

