-- ==== Sys2Proof/Syntax.lean ====
section
/-! DEFINITION. The nineteen instructions of CORE-ISA (spec/30_encoding.md R83, R85), one constructor
per row of spec/opcode_table.json, each with the record fields its format uses. -/

namespace Sys2Proof

/-- An instruction with the fields its format lists (R83). Register fields are 4-bit numbers and the
immediate is the 32-bit field as it stands (R80, R84), so every term is an instruction of CORE. -/
inductive Instr where
  /-- `ADD Rd,Rs1,Rs2` (R322). -/
  | add (rd rs1 rs2 : Reg)
  /-- `SUB Rd,Rs1,Rs2` (R323). -/
  | sub (rd rs1 rs2 : Reg)
  /-- `MUL Rd,Rs1,Rs2` (R324). -/
  | mul (rd rs1 rs2 : Reg)
  /-- `DIV Rd,Rs1,Rs2` (R325). -/
  | div (rd rs1 rs2 : Reg)
  /-- `AND Rd,Rs1,Rs2` (R328). -/
  | and (rd rs1 rs2 : Reg)
  /-- `OR Rd,Rs1,Rs2` (R329). -/
  | or (rd rs1 rs2 : Reg)
  /-- `XOR Rd,Rs1,Rs2` (R330). -/
  | xor (rd rs1 rs2 : Reg)
  /-- `ADDL Rd,Rs1,#imm` (R326). -/
  | addl (rd rs1 : Reg) (imm : Word)
  /-- `SUBL Rd,Rs1,#imm` (R327). -/
  | subl (rd rs1 : Reg) (imm : Word)
  /-- `MOVC Rd,#imm` (R321). -/
  | movc (rd : Reg) (imm : Word)
  /-- `LOAD Rd,Rs1,#imm` (R361). -/
  | load (rd rs1 : Reg) (imm : Word)
  /-- `STORE Rs1,Rs2,#imm` (R363): `rs1` is the data, `rs2` the base. -/
  | store (rs1 rs2 : Reg) (imm : Word)
  /-- `LDR Rd,Rs1,Rs2` (R362). -/
  | ldr (rd rs1 rs2 : Reg)
  /-- `STR Rs1,Rs2,Rs3` (R364): `rs1` is the data, `rs2` and `rs3` the address. -/
  | str (rs1 rs2 rs3 : Reg)
  /-- `CMP Rs1,Rs2` (R340). -/
  | cmp (rs1 rs2 : Reg)
  /-- `BZ #imm` (R341). -/
  | bz (imm : Word)
  /-- `BNZ #imm` (R342). -/
  | bnz (imm : Word)
  /-- `JUMP Rs1,#imm` (R343). -/
  | jump (rs1 : Reg) (imm : Word)
  /-- `HALT` (R344). -/
  | halt
  deriving DecidableEq, Repr

/-- What a record is once decoded (R82): an instruction, or one of the opcode bytes of R87, which the
machine runs as a no-operation. -/
inductive Fetched where
  /-- One of the nineteen operations of R85. -/
  | op (i : Instr)
  /-- An opcode byte outside R85's first nineteen rows (R87). -/
  | unrecognized (opcode : BitVec 8)
  deriving DecidableEq, Repr

end Sys2Proof
end

