-- ==== Sys2Proof/Decode.lean ====
section
/-! DEFINITION. The 64-bit record word (spec/30_encoding.md R81), its decoder, total on every word
(R82, R87), and its encoder. -/

namespace Sys2Proof

/-- The fields of the record word (R80, R81); bits 39:32 are reserved and ignored. -/
structure RecordFields where
  opcode : BitVec 8
  rd : Reg
  rs1 : Reg
  rs2 : Reg
  rs3 : Reg
  imm : Word
  deriving DecidableEq, Repr

/-- A register field of four bits is used as the register number (R84). -/
def regField (w : RecordWord) (lo : Nat) : Reg := (w.extractLsb' lo 4).toFin

/-- R81: the layout, one for every instruction. -/
def recordFields (w : RecordWord) : RecordFields where
  opcode := w.extractLsb' 56 8
  rd := regField w 52
  rs1 := regField w 48
  rs2 := regField w 44
  rs3 := regField w 40
  imm := w.extractLsb' 0 32

/-- R85: the operation a record's opcode byte names; R87: every other byte is unrecognized, by name. -/
def decodeFields (f : RecordFields) : Fetched :=
  match f.opcode.toNat with
  | 0x01 => .op (.add f.rd f.rs1 f.rs2)
  | 0x02 => .op (.sub f.rd f.rs1 f.rs2)
  | 0x03 => .op (.mul f.rd f.rs1 f.rs2)
  | 0x04 => .op (.div f.rd f.rs1 f.rs2)
  | 0x05 => .op (.and f.rd f.rs1 f.rs2)
  | 0x06 => .op (.or f.rd f.rs1 f.rs2)
  | 0x07 => .op (.xor f.rd f.rs1 f.rs2)
  | 0x08 => .op (.addl f.rd f.rs1 f.imm)
  | 0x09 => .op (.subl f.rd f.rs1 f.imm)
  | 0x0A => .op (.movc f.rd f.imm)
  | 0x0B => .op (.load f.rd f.rs1 f.imm)
  | 0x0C => .op (.store f.rs1 f.rs2 f.imm)
  | 0x0D => .op (.ldr f.rd f.rs1 f.rs2)
  | 0x0E => .op (.str f.rs1 f.rs2 f.rs3)
  | 0x0F => .op (.cmp f.rs1 f.rs2)
  | 0x10 => .op (.bz f.imm)
  | 0x11 => .op (.bnz f.imm)
  | 0x12 => .op (.jump f.rs1 f.imm)
  | 0x13 => .op .halt
  | _ => .unrecognized f.opcode

/-- R82: decoding is total; every 64-bit value is a record. -/
def decodeWord (w : RecordWord) : Fetched := decodeFields (recordFields w)

/-- The instruction the decoder reads from a table row's bits: bit 0 of `w` is `IW[0]`, and every bit
from `nbits` up is 0. `none` for an unrecognized opcode byte. -/
def decodeTableWord (nbits w : Nat) : Option Instr :=
  match decodeWord (BitVec.ofNat 64 (w % 2 ^ nbits)) with
  | .op i => some i
  | .unrecognized _ => none

/-- R81: a word from its fields, the reserved bits 0. -/
def packFields (f : RecordFields) : RecordWord :=
  f.opcode ++ (BitVec.ofFin (w := 4) f.rd) ++ (BitVec.ofFin (w := 4) f.rs1) ++
    (BitVec.ofFin (w := 4) f.rs2) ++ (BitVec.ofFin (w := 4) f.rs3) ++ (0#8) ++ f.imm

/-- R83, R85: an instruction's opcode byte and fields; a field its format does not use is 0 (R82). -/
def instrFields : Instr → RecordFields
  | .add rd rs1 rs2 => ⟨0x01#8, rd, rs1, rs2, 0, 0#32⟩
  | .sub rd rs1 rs2 => ⟨0x02#8, rd, rs1, rs2, 0, 0#32⟩
  | .mul rd rs1 rs2 => ⟨0x03#8, rd, rs1, rs2, 0, 0#32⟩
  | .div rd rs1 rs2 => ⟨0x04#8, rd, rs1, rs2, 0, 0#32⟩
  | .and rd rs1 rs2 => ⟨0x05#8, rd, rs1, rs2, 0, 0#32⟩
  | .or rd rs1 rs2 => ⟨0x06#8, rd, rs1, rs2, 0, 0#32⟩
  | .xor rd rs1 rs2 => ⟨0x07#8, rd, rs1, rs2, 0, 0#32⟩
  | .addl rd rs1 imm => ⟨0x08#8, rd, rs1, 0, 0, imm⟩
  | .subl rd rs1 imm => ⟨0x09#8, rd, rs1, 0, 0, imm⟩
  | .movc rd imm => ⟨0x0A#8, rd, 0, 0, 0, imm⟩
  | .load rd rs1 imm => ⟨0x0B#8, rd, rs1, 0, 0, imm⟩
  | .store rs1 rs2 imm => ⟨0x0C#8, 0, rs1, rs2, 0, imm⟩
  | .ldr rd rs1 rs2 => ⟨0x0D#8, rd, rs1, rs2, 0, 0#32⟩
  | .str rs1 rs2 rs3 => ⟨0x0E#8, 0, rs1, rs2, rs3, 0#32⟩
  | .cmp rs1 rs2 => ⟨0x0F#8, 0, rs1, rs2, 0, 0#32⟩
  | .bz imm => ⟨0x10#8, 0, 0, 0, 0, imm⟩
  | .bnz imm => ⟨0x11#8, 0, 0, 0, 0, imm⟩
  | .jump rs1 imm => ⟨0x12#8, 0, rs1, 0, 0, imm⟩
  | .halt => ⟨0x13#8, 0, 0, 0, 0, 0#32⟩

/-- The record word an assembler writes for an instruction (R81, R82). -/
def encode (i : Instr) : RecordWord := packFields (instrFields i)

end Sys2Proof
end

