-- ==== Sys2Proof/Config.lean ====
section
/-! DEFINITION. The implementation parameters of spec/00_scope.md R4, at the values R4 gives them. -/

namespace Sys2Proof.Config

/-- `IQ_CAP` of R4: issue-queue capacity in entries. -/
def iqCap : Nat := 8

/-- `ROB_CAP` of R4: reorder-buffer capacity in entries. -/
def robCap : Nat := 16

/-- `LSQ_CAP` of R4: load-store-queue capacity in entries. -/
def lsqCap : Nat := 4

/-- `PC_BASE` of R4: the pc of the first instruction record. -/
def pcBase : Word := 4000#32

/-- `INSN_STEP` of R4: the pc distance between consecutive records. -/
def insnStep : Word := 4#32

/-- `DMEM_WORDS` of R4: the number of data-memory locations. -/
def dmemWords : Nat := 4096

/-- The value of `Z` in `State.reset`. `Z_RESET` is the spec's one open parameter (R52, R418):
DESIGN CHOICE 0, unsafe, log 2. `State.start` takes it as an argument instead. -/
def zReset : Word := 0#32

/-- The most cycles one `step` runs when nothing retires. The spec has no such number: it bounds
the model's step, not the machine. DESIGN CHOICE, safe, log 1. -/
def stepCycles : Nat := 16

end Sys2Proof.Config
end

