-- ==== Sys2Proof/Machine/State.lean ====
section
/-! DEFINITION. Every piece of state spec/10_state.md gives CORE, as plain data, and its value after
reset (R52). -/

namespace Sys2Proof.Machine

/-- The two synchronous exceptions of CORE (R380). Both are fatal and have no handler. -/
inductive FaultCode where
  /-- Code 1: a DIV whose divisor is 0 reached the ROB head (R381). -/
  | divideByZero
  /-- Code 2: a load or store with an effective address outside `0..4095` (R382). -/
  | dataAddress
  deriving DecidableEq, Repr

/-- The run status (R27). -/
inductive Status where
  /-- Instructions are still being evaluated. -/
  | running
  /-- A HALT has retired (R288); `pc` is its own, which R25 puts in the status (log 14). -/
  | halted (pc : Word)
  /-- A fault was raised for the instruction at `pc` (R383). -/
  | faulted (code : FaultCode) (pc : Word)
  deriving DecidableEq, Repr

/-- No step of this model ends in a fault outcome: CORE's two faults are states of the machine
(`Status.faulted`, R383), which the host reads, and every other rule gives a next state. Safe. -/
inductive Fault where
  deriving DecidableEq, Repr

/-- Why a step has no next state. -/
inductive Refusal where
  /-- Raised by `exec` for an instruction without a meaning. No arm of this model raises it. Safe. -/
  | notModelled (mnemonic : String)
  /-- Raised by `step` when no program is loaded: R390, an empty instruction stream is fatal at
  initialization and the simulation does not start. Safe: no state exists there to claim about. -/
  | invalidProgram
  deriving DecidableEq, Repr

/-- One entry of the branch target buffer (R44). -/
structure BtbEntry where
  present : Bool
  active : Bool
  taken : Bool
  target : Word
  deriving DecidableEq, Repr

/-- The entry of a branch the BTB does not hold: `present` = 0 (R44). -/
def BtbEntry.absent : BtbEntry := ⟨false, false, false, 0#32⟩

/-- One in-flight instruction record (R34). `fields` are its `opcode`, `rd`, `rs1..rs3` and `imm` as fetch
took them from the program record, those its format does not use included (R80, R131). -/
structure Inflight where
  fields : RecordFields
  pc : Word
  predTaken : Bool
  pd : Option Phys
  ps1 : Option Phys
  ps2 : Option Phys
  ps3 : Option Phys
  seq : Nat
  v1 : Word
  v2 : Word
  v3 : Word
  result : Word
  addr : Word
  data : Word
  done : Bool
  exc : Option FaultCode
  deriving DecidableEq, Repr

/-- A table from location or record numbers to values, as the list of the entries that differ from
the table's default, locations strictly rising. -/
abbrev Sparse (α : Type) := List (Nat × α)

/-- Data memory (R23, R61): the words that are not 0, by location. A location no pair lists reads 0,
the reset content (R52). The smallest unit the spec addresses is the 32-bit word (R61 to R63; log 4). -/
abbrev Memory := Sparse Word

/-- The `PipelineState` (spec/10_state.md), one field per piece of state, and the loaded program. -/
@[ext]
structure State where
  /-- The record words given to `initialize`, record k at pc 4000 + 4k (R67, R91; log 3). -/
  program : List RecordWord
  /-- `x[0..15]` (R20). -/
  x : Vector Word 16
  /-- `xvalid[0..15]` (R21). -/
  xvalid : Vector Bool 16
  /-- The zero-flag register `Z` (R22). -/
  z : Word
  /-- `DMEM` (R23). -/
  dmem : Memory
  /-- The fetch program counter (R24). -/
  pc : Word
  /-- The retired-instruction counter (R26). -/
  retired : Nat
  /-- The run status (R27). -/
  status : Status
  /-- `FL`, head first (R28). -/
  fl : List Phys
  /-- `RM`, newest first (R29). -/
  rm : List (Reg × Phys)
  /-- `ready[0..14]` (R30). -/
  ready : Vector Bool 15
  /-- `value[0..14]` (R31). -/
  value : Vector Word 15
  /-- `mem_ready[0..4095]`, default 1 (R32). -/
  memReady : Sparse Bool
  /-- `agen_ready[idx]`, default 0 (R33). -/
  agenReady : Sparse Bool
  /-- `agen_addr[idx]`, default 0 (R33). -/
  agenAddr : Sparse Word
  /-- `store_done[idx]`, default 0 (R33). -/
  storeDone : Sparse Bool
  /-- `DEC` (R36). -/
  dec : Option Inflight
  /-- `DSP` (R37). -/
  dsp : Option Inflight
  /-- `IQ`, oldest first (R38). -/
  iq : List Inflight
  /-- `LSQ`, head first (R39). -/
  lsq : List Inflight
  /-- `ROB`, head first (R40). -/
  rob : List Inflight
  /-- `INT` (R41). -/
  int : Option Inflight
  /-- `LOG` (R41). -/
  log : Option Inflight
  /-- `MUL1` (R42). -/
  mul1 : Option Inflight
  /-- `MUL2` (R42). -/
  mul2 : Option Inflight
  /-- `MUL3` (R42). -/
  mul3 : Option Inflight
  /-- `MUL4` (R42). -/
  mul4 : Option Inflight
  /-- `DC` (R43). -/
  dc : Option Inflight
  /-- `BTB[idx]`, default absent (R44). -/
  btb : Sparse BtbEntry
  /-- `redirect_pending` (R45). -/
  redirectPending : Bool
  /-- `jump_in_flight` (R45). -/
  jumpInFlight : Bool
  /-- `jump_taken` (R45). -/
  jumpTaken : Bool
  /-- `jump_target` (R45). -/
  jumpTarget : Word
  /-- `branch_recovery` (R45). -/
  branchRecovery : Bool
  /-- `next_seq` (R46). -/
  nextSeq : Nat
  /-- `cycle` (R47). -/
  cycle : Nat
  deriving DecidableEq, Repr

/-- R52, R401: the machine right after reset. Nothing is loaded (log 3); `Z` is the open parameter
`Z_RESET`, here `Config.zReset` (log 2). -/
def State.reset : State where
  program := []
  x := Vector.replicate 16 0#32
  xvalid := Vector.replicate 16 false
  z := Config.zReset
  dmem := []
  pc := Config.pcBase
  retired := 0
  status := .running
  fl := [0, 1, 2, 3, 4, 5, 6, 7, 8, 9, 10, 11, 12, 13, 14]
  rm := []
  ready := Vector.replicate 15 true
  value := Vector.replicate 15 0#32
  memReady := []
  agenReady := []
  agenAddr := []
  storeDone := []
  dec := none
  dsp := none
  iq := []
  lsq := []
  rob := []
  int := none
  log := none
  mul1 := none
  mul2 := none
  mul3 := none
  mul4 := none
  dc := none
  btb := []
  redirectPending := false
  jumpInFlight := false
  jumpTaken := false
  jumpTarget := 0#32
  branchRecovery := false
  nextSeq := 0
  cycle := 0

end Sys2Proof.Machine
end

