-- ==== Sys2Proof/Machine/Operands.lean ====
section
/-! DEFINITION. Operand forms (spec/30_encoding.md R83, R84), the per-opcode tables of the stages (R141,
R182, R184, R185) and the exact results of the units, computed on integers and narrowed by `wrap32`
(R5). -/

namespace Sys2Proof.Machine

/-! ### Results of the units -/

/-- R241: the sum, modulo 2^32. -/
def addResult (a b : Word) : Word := wrap32 (a.toInt + b.toInt)

/-- R241: the difference, modulo 2^32. -/
def subResult (a b : Word) : Word := wrap32 (a.toInt - b.toInt)

/-- R251, R324: the low 32 bits of the signed product. -/
def mulResult (a b : Word) : Word := wrap32 (a.toInt * b.toInt)

/-- R242: 0 for a zero divisor (the fault is marked beside it), else the quotient rounded toward zero,
modulo 2^32. -/
def divResult (a b : Word) : Word := if b = 0#32 then 0#32 else wrap32 (a.toInt.tdiv b.toInt)

/-- R250: bitwise AND. -/
def andResult (a b : Word) : Word := a &&& b

/-- R250: bitwise OR. -/
def orResult (a b : Word) : Word := a ||| b

/-- R250: bitwise XOR. -/
def xorResult (a b : Word) : Word := a ^^^ b

/-! ### Addresses -/

/-- R346: a conditional branch target is `(pc + imm) mod 2^32`, `pc` the branch's own. -/
def branchTarget (pc imm : Word) : Word := pc + imm

/-- R343, R249: a JUMP target is `(x[rs1] + imm) mod 2^32`, the register taken as a bit pattern. -/
def jumpTargetOf (a imm : Word) : Word := a + imm

/-- R346: the pc of the next record. -/
def nextPc (pc : Word) : Word := pc + Config.insnStep

/-- R360, R245: base plus displacement or index, modulo 2^32. -/
def effectiveAddress (base offset : Word) : Word := wrap32 (base.toInt + offset.toInt)

/-- R65: a data address is valid when `0 ≤ a < DMEM_WORDS` as a signed value. -/
def dataAddressValid (a : Word) : Bool :=
  decide (0 ≤ a.toInt) && decide (a.toInt < (Config.dmemWords : Int))

/-- R61: a valid data address is a location number. -/
def location (a : Word) : Nat := a.toNat

/-- R91: `idx(pc) = (pc − PC_BASE)/4`. -/
def recordIndex (pc : Word) : Nat := (pc - Config.pcBase).toNat / Config.insnStep.toNat

/-- R133: a pc on the grid of records, at or above `PC_BASE`. -/
def pcOnGrid (pc : Word) : Bool :=
  decide (Config.pcBase.toNat ≤ pc.toNat) &&
    decide ((pc - Config.pcBase).toNat % Config.insnStep.toNat = 0)

/-! ### Operands of an instruction -/

/-- The number `k` of a source operand `rs_k` (R80). -/
inductive OperandNo where
  | one
  | two
  | three
  deriving DecidableEq, Repr

/-- R83, R141: the source register `rs_k` of the operands an opcode uses, which are the ones decode
renames. -/
def sourceReg : Instr → OperandNo → Option Reg
  | .add _ a _, .one => some a
  | .add _ _ b, .two => some b
  | .add _ _ _, .three => none
  | .sub _ a _, .one => some a
  | .sub _ _ b, .two => some b
  | .sub _ _ _, .three => none
  | .mul _ a _, .one => some a
  | .mul _ _ b, .two => some b
  | .mul _ _ _, .three => none
  | .div _ a _, .one => some a
  | .div _ _ b, .two => some b
  | .div _ _ _, .three => none
  | .and _ a _, .one => some a
  | .and _ _ b, .two => some b
  | .and _ _ _, .three => none
  | .or _ a _, .one => some a
  | .or _ _ b, .two => some b
  | .or _ _ _, .three => none
  | .xor _ a _, .one => some a
  | .xor _ _ b, .two => some b
  | .xor _ _ _, .three => none
  | .ldr _ a _, .one => some a
  | .ldr _ _ b, .two => some b
  | .ldr _ _ _, .three => none
  | .addl _ a _, .one => some a
  | .addl _ _ _, .two => none
  | .addl _ _ _, .three => none
  | .subl _ a _, .one => some a
  | .subl _ _ _, .two => none
  | .subl _ _ _, .three => none
  | .load _ a _, .one => some a
  | .load _ _ _, .two => none
  | .load _ _ _, .three => none
  | .movc _ _, .one => none
  | .movc _ _, .two => none
  | .movc _ _, .three => none
  | .store a _ _, .one => some a
  | .store _ b _, .two => some b
  | .store _ _ _, .three => none
  | .str a _ _, .one => some a
  | .str _ b _, .two => some b
  | .str _ _ c, .three => some c
  | .cmp a _, .one => some a
  | .cmp _ b, .two => some b
  | .cmp _ _, .three => none
  | .bz _, .one => none
  | .bz _, .two => none
  | .bz _, .three => none
  | .bnz _, .one => none
  | .bnz _, .two => none
  | .bnz _, .three => none
  | .jump a _, .one => some a
  | .jump _ _, .two => none
  | .jump _ _, .three => none
  | .halt, .one => none
  | .halt, .two => none
  | .halt, .three => none

/-- R136, R141: the architectural destination that decode binds; CMP and the rest have none. -/
def destReg : Instr → Option Reg
  | .add rd _ _ => some rd
  | .sub rd _ _ => some rd
  | .mul rd _ _ => some rd
  | .div rd _ _ => some rd
  | .and rd _ _ => some rd
  | .or rd _ _ => some rd
  | .xor rd _ _ => some rd
  | .addl rd _ _ => some rd
  | .subl rd _ _ => some rd
  | .movc rd _ => some rd
  | .load rd _ _ => some rd
  | .ldr rd _ _ => some rd
  | .store _ _ _ => none
  | .str _ _ _ => none
  | .cmp _ _ => none
  | .bz _ => none
  | .bnz _ => none
  | .jump _ _ => none
  | .halt => none

/-- R134, R137: `needs_pd`: the instructions with a destination, and CMP for its token. -/
def needsPd : Instr → Bool
  | .add _ _ _ => true
  | .sub _ _ _ => true
  | .mul _ _ _ => true
  | .div _ _ _ => true
  | .and _ _ _ => true
  | .or _ _ _ => true
  | .xor _ _ _ => true
  | .addl _ _ _ => true
  | .subl _ _ _ => true
  | .movc _ _ => true
  | .load _ _ _ => true
  | .ldr _ _ _ => true
  | .cmp _ _ => true
  | .store _ _ _ => false
  | .str _ _ _ => false
  | .bz _ => false
  | .bnz _ => false
  | .jump _ _ => false
  | .halt => false

/-- The functional-unit classes (R182). -/
inductive FuClass where
  | integer
  | logical
  | multiply
  deriving DecidableEq, Repr

/-- R182: the class of an opcode; HALT is in none. -/
def fuClass : Instr → Option FuClass
  | .and _ _ _ => some .logical
  | .or _ _ _ => some .logical
  | .xor _ _ _ => some .logical
  | .mul _ _ _ => some .multiply
  | .add _ _ _ => some .integer
  | .sub _ _ _ => some .integer
  | .div _ _ _ => some .integer
  | .cmp _ _ => some .integer
  | .addl _ _ _ => some .integer
  | .subl _ _ _ => some .integer
  | .movc _ _ => some .integer
  | .load _ _ _ => some .integer
  | .store _ _ _ => some .integer
  | .ldr _ _ _ => some .integer
  | .str _ _ _ => some .integer
  | .bz _ => some .integer
  | .bnz _ => some .integer
  | .jump _ _ => some .integer
  | .halt => none

/-- R184: the operands that must be ready before an opcode issues. -/
def issueGate : Instr → List OperandNo
  | .add _ _ _ => [.one, .two]
  | .sub _ _ _ => [.one, .two]
  | .div _ _ _ => [.one, .two]
  | .cmp _ _ => [.one, .two]
  | .addl _ _ _ => [.one]
  | .subl _ _ _ => [.one]
  | .and _ _ _ => [.one, .two]
  | .or _ _ _ => [.one, .two]
  | .xor _ _ _ => [.one, .two]
  | .mul _ _ _ => [.one, .two]
  | .load _ _ _ => [.one]
  | .ldr _ _ _ => [.one, .two]
  | .store _ _ _ => [.two]
  | .str _ _ _ => [.two, .three]
  | .bz _ => []
  | .bnz _ => []
  | .jump _ _ => []
  | .movc _ _ => []
  | .halt => []

/-- R185: whether operand `k` is captured at issue. -/
def capturedAtIssue : Instr → OperandNo → Bool
  | .add _ _ _, k => k != .three
  | .sub _ _ _, k => k != .three
  | .mul _ _ _, k => k != .three
  | .div _ _ _, k => k != .three
  | .and _ _ _, k => k != .three
  | .or _ _ _, k => k != .three
  | .xor _ _ _, k => k != .three
  | .cmp _ _, k => k != .three
  | .ldr _ _ _, k => k != .three
  | .addl _ _ _, k => k == .one
  | .subl _ _ _, k => k == .one
  | .load _ _ _, k => k == .one
  | .jump _ _, k => k == .one
  | .store _ _ _, k => k == .two
  | .str _ _ _, k => k != .one
  | .movc _ _, _ => false
  | .bz _, _ => false
  | .bnz _, _ => false
  | .halt, _ => false

/-- Whether an opcode is a load, `LOAD` or `LDR`. -/
def isLoad : Instr → Bool
  | .load _ _ _ => true
  | .ldr _ _ _ => true
  | .add _ _ _ => false
  | .sub _ _ _ => false
  | .mul _ _ _ => false
  | .div _ _ _ => false
  | .and _ _ _ => false
  | .or _ _ _ => false
  | .xor _ _ _ => false
  | .addl _ _ _ => false
  | .subl _ _ _ => false
  | .movc _ _ => false
  | .store _ _ _ => false
  | .str _ _ _ => false
  | .cmp _ _ => false
  | .bz _ => false
  | .bnz _ => false
  | .jump _ _ => false
  | .halt => false

/-- Whether an opcode is a store, `STORE` or `STR`. -/
def isStore : Instr → Bool
  | .store _ _ _ => true
  | .str _ _ _ => true
  | .add _ _ _ => false
  | .sub _ _ _ => false
  | .mul _ _ _ => false
  | .div _ _ _ => false
  | .and _ _ _ => false
  | .or _ _ _ => false
  | .xor _ _ _ => false
  | .addl _ _ _ => false
  | .subl _ _ _ => false
  | .movc _ _ => false
  | .load _ _ _ => false
  | .ldr _ _ _ => false
  | .cmp _ _ => false
  | .bz _ => false
  | .bnz _ => false
  | .jump _ _ => false
  | .halt => false

/-- Whether an opcode is a conditional branch, `BZ` or `BNZ` (R419). -/
def isCondBranch : Instr → Bool
  | .bz _ => true
  | .bnz _ => true
  | .add _ _ _ => false
  | .sub _ _ _ => false
  | .mul _ _ _ => false
  | .div _ _ _ => false
  | .and _ _ _ => false
  | .or _ _ _ => false
  | .xor _ _ _ => false
  | .addl _ _ _ => false
  | .subl _ _ _ => false
  | .movc _ _ => false
  | .load _ _ _ => false
  | .store _ _ _ => false
  | .ldr _ _ _ => false
  | .str _ _ _ => false
  | .cmp _ _ => false
  | .jump _ _ => false
  | .halt => false

/-! ### Operands of an in-flight record -/

/-- What the `opcode` of a record names, with the fields its format uses (R82, R85; log 6). -/
def Inflight.insn (r : Inflight) : Fetched := decodeFields r.fields

/-- The renamed source `ps_k` of a record (R34). -/
def Inflight.ps (r : Inflight) : OperandNo → Option Phys
  | .one => r.ps1
  | .two => r.ps2
  | .three => r.ps3

/-- The source register `rs_k` of a record, for an operand its opcode uses. -/
def Inflight.rs (r : Inflight) (k : OperandNo) : Option Reg :=
  match r.insn with
  | .op i => sourceReg i k
  | .unrecognized _ => none

/-- The opcode needs an LSQ slot: LOAD, STORE, LDR, STR (R161). -/
def Inflight.isMemory (r : Inflight) : Bool :=
  match r.insn with
  | .op i => isLoad i || isStore i
  | .unrecognized _ => false

/-- R109: `opready(r, k) = (r.ps_k = NONE) or (ready[r.ps_k] = 1)`. -/
def operandReady (s : State) (r : Inflight) (k : OperandNo) : Bool :=
  match r.ps k with
  | none => true
  | some p => s.ready[p]

/-- R110: `opval(r, k) = x[r.rs_k]` if `r.ps_k = NONE`, else `value[r.ps_k]`. An operand the opcode
does not use is never asked for and reads 0 (log 8). -/
def operandValue (s : State) (r : Inflight) (k : OperandNo) : Word :=
  match r.ps k with
  | some p => s.value[p]
  | none =>
    match r.rs k with
    | some a => s.x[a]
    | none => 0#32

end Sys2Proof.Machine
end

