-- ==== Sys2Proof/Machine/Ops.lean ====
section
/-! DEFINITION. The named operations over CORE's state: the sparse tables, data memory (spec/20_memory.md
R66), the registers, the rename and free-list primitives (spec/40_driver_rename.md R105 to R112), the
instruction space (R67), and raising a fault (spec/60_exceptions.md R383). -/

namespace Sys2Proof.Machine

/-! ### Sparse tables in canonical form -/

/-- The entry of number `k`: the one listed, or the table's default. -/
def Sparse.read {α : Type} (d : α) : Sparse α → Nat → α
  | [], _ => d
  | (j, v) :: m, k => if j = k then v else Sparse.read d m k

/-- Puts a listed entry before the first greater number. -/
def Sparse.insert {α : Type} (k : Nat) (v : α) : Sparse α → Sparse α
  | [] => [(k, v)]
  | (j, w) :: m => if k < j then (k, v) :: (j, w) :: m else (j, w) :: Sparse.insert k v m

/-- Takes every entry of number `k` out. -/
def Sparse.erase {α : Type} (k : Nat) (m : Sparse α) : Sparse α := m.filter fun c => c.1 != k

/-- Sets entry `k`: the default value is not listed, so equal tables are equal lists. -/
def Sparse.write {α : Type} [DecidableEq α] (d : α) (m : Sparse α) (k : Nat) (v : α) : Sparse α :=
  if v = d then Sparse.erase k m else Sparse.insert k v (Sparse.erase k m)

/-- The canonical form: numbers strictly rising and no listed default. -/
def Sparse.wf {α : Type} [DecidableEq α] (d : α) : Sparse α → Bool
  | [] => true
  | [c] => c.2 != d
  | c :: e :: m => c.2 != d && (decide (c.1 < e.1) && Sparse.wf d (e :: m))

/-- Data memory is in canonical form and lists only locations that exist (R61). -/
def Memory.wf (m : Memory) : Bool :=
  Sparse.wf 0#32 m && m.all fun c => decide (c.1 < Config.dmemWords)

/-! ### Data memory -/

/-- `MemRead(a)` (R66): the word at location `a`. -/
def State.memRead (s : State) (a : Nat) : Word := Sparse.read 0#32 s.dmem a

/-- `MemWrite(a, v)` (R66): `DMEM[a] <- v`. -/
def State.memWrite (s : State) (a : Nat) (v : Word) : State :=
  { s with dmem := Sparse.write 0#32 s.dmem a v }

/-- `mem_ready[a] <- b` when `a` is a data location (R32, R186, R213, R217). -/
def State.setMemReady (s : State) (a : Word) (b : Bool) : State :=
  if dataAddressValid a then { s with memReady := Sparse.write true s.memReady (location a) b } else s

/-! ### The pc-indexed tables (R33, R44) -/

/-- `agen_ready[idx(pc)]`. -/
def State.agenReadyAt (s : State) (pc : Word) : Bool := Sparse.read false s.agenReady (recordIndex pc)

/-- `agen_addr[idx(pc)]`. -/
def State.agenAddrAt (s : State) (pc : Word) : Word := Sparse.read 0#32 s.agenAddr (recordIndex pc)

/-- `store_done[idx(pc)]`. -/
def State.storeDoneAt (s : State) (pc : Word) : Bool := Sparse.read false s.storeDone (recordIndex pc)

/-- `BTB[idx(pc)]`. -/
def State.btbAt (s : State) (pc : Word) : BtbEntry := Sparse.read BtbEntry.absent s.btb (recordIndex pc)

/-- R245: `agen_addr[idx(pc)] <- ea; agen_ready[idx(pc)] <- 1`. -/
def State.setAgen (s : State) (pc ea : Word) : State :=
  { s with
    agenAddr := Sparse.write 0#32 s.agenAddr (recordIndex pc) ea
    agenReady := Sparse.write false s.agenReady (recordIndex pc) true }

/-- R162: `agen_ready[idx(pc)] <- 0; store_done[idx(pc)] <- 0`. -/
def State.clearSlot (s : State) (pc : Word) : State :=
  { s with
    agenReady := Sparse.write false s.agenReady (recordIndex pc) false
    storeDone := Sparse.write false s.storeDone (recordIndex pc) false }

/-- R217: `store_done[idx(pc)] <- 1`. -/
def State.setStoreDone (s : State) (pc : Word) : State :=
  { s with storeDone := Sparse.write false s.storeDone (recordIndex pc) true }

/-- `BTB[idx(pc)] <- e`. -/
def State.setBtb (s : State) (pc : Word) (e : BtbEntry) : State :=
  { s with btb := Sparse.write BtbEntry.absent s.btb (recordIndex pc) e }

/-! ### Registers -/

/-- `x[r]`, whatever its valid bit (R6, R21). -/
def State.readReg (s : State) (r : Reg) : Word := s.x[r]

/-- `xvalid[r]` (R21). -/
def State.validBit (s : State) (r : Reg) : Bool := s.xvalid[r]

/-- `ready[p]` (R30). -/
def State.readyBit (s : State) (p : Phys) : Bool := s.ready[p]

/-- `value[p]` (R31). -/
def State.valueOf (s : State) (p : Phys) : Word := s.value[p]

/-- `x[r] <- v; xvalid[r] <- 1` (R6, R282). -/
def State.writeReg (s : State) (r : Reg) (v : Word) : State :=
  { s with x := s.x.set r.val v r.isLt, xvalid := s.xvalid.set r.val true r.isLt }

/-- `ready[p] <- b` (R30). -/
def State.setReady (s : State) (p : Phys) (b : Bool) : State :=
  { s with ready := s.ready.set p.val b p.isLt }

/-- A unit's result: `value[p] <- v; ready[p] <- 1` (R241 to R244, R250, R251, R216). A record without
a physical destination writes nothing (log 8). -/
def State.writeBack (s : State) (pd : Option Phys) (v : Word) : State :=
  match pd with
  | none => s
  | some p => { s with value := s.value.set p.val v p.isLt, ready := s.ready.set p.val true p.isLt }

/-! ### Rename and free-list primitives -/

/-- R107: `bind(a, p)` puts the newest pair first. -/
def State.bind (s : State) (a : Reg) (p : Phys) : State := { s with rm := (a, p) :: s.rm }

/-- R108: the first pair of `a` from the head, else `NONE`. -/
def resolveIn : List (Reg × Phys) → Reg → Option Phys
  | [], _ => none
  | (b, p) :: m, a => if b = a then some p else resolveIn m a

/-- R108: `resolve(a)`. -/
def State.resolve (s : State) (a : Reg) : Option Phys := resolveIn s.rm a

/-- R105: `allocate()` takes the oldest free register; `none` when the pool is empty, where the caller
stalls instead. -/
def State.allocate (s : State) : Option (Phys × State) :=
  match s.fl with
  | [] => none
  | p :: rest => some (p, { s with fl := rest })

/-- R106: `release(p)`. -/
def State.release (s : State) (p : Phys) : State :=
  { s with
    fl := s.fl ++ [p]
    ready := s.ready.set p.val true p.isLt
    rm := s.rm.filter fun c => c.2 != p }

/-- Releases the register a record holds, if any. -/
def State.releaseOf (s : State) (r : Inflight) : State :=
  match r.pd with
  | none => s
  | some p => s.release p

/-- R112 on one operand: `if e.ps_k = p then e.ps_k <- NONE`. -/
def retargetOperand (p : Phys) (ps : Option Phys) : Option Phys := if ps = some p then none else ps

/-- R112 on one record. -/
def Inflight.retarget (p : Phys) (r : Inflight) : Inflight :=
  { r with
    ps1 := retargetOperand p r.ps1
    ps2 := retargetOperand p r.ps2
    ps3 := retargetOperand p r.ps3 }

/-- R112: `retarget(p)`, for the ROB entries, their copies in the IQ and the LSQ, and the `DSP`
occupant (R34, R413). -/
def State.retarget (s : State) (p : Phys) : State :=
  { s with
    rob := s.rob.map (Inflight.retarget p)
    iq := s.iq.map (Inflight.retarget p)
    lsq := s.lsq.map (Inflight.retarget p)
    dsp := s.dsp.map (Inflight.retarget p) }

/-! ### The shared record

R34: the copies of one instruction's record have equal `seq`, and a field written through one copy is
the ROB entry's field (log 9). -/

/-- A queue with `f` done to the copies of age tag `q`. -/
def onTag (q : Nat) (f : Inflight → Inflight) (l : List Inflight) : List Inflight :=
  l.map fun e => if e.seq = q then f e else e

/-- `f` done to the ROB entry with `seq = q` (R34). -/
def State.onRobEntry (s : State) (q : Nat) (f : Inflight → Inflight) : State :=
  { s with rob := onTag q f s.rob }

/-- `(ROB entry with seq = q).exc <- f` (R34, R242, R216). -/
def State.markExc (s : State) (q : Nat) (f : FaultCode) : State :=
  s.onRobEntry q fun e => { e with exc := some f }

/-- `(ROB entry with seq = q).done <- 1` (R34, R246). -/
def State.markDone (s : State) (q : Nat) : State := s.onRobEntry q fun e => { e with done := true }

/-- `ROB.pop_front(); retired <- retired + 1` (R282 to R289). -/
def State.retireHead (s : State) : State :=
  { s with rob := s.rob.tail, retired := s.retired + 1 }

/-! ### Faults -/

/-- R383: `raise F(p)`: `status <- Faulted(F, p)` and nothing else. There is no handler, so there is no
return from one (R386). -/
def State.raise (s : State) (f : FaultCode) (p : Word) : State := { s with status := .faulted f p }

/-! ### The instruction space -/

/-- R67: the record word `lookup(pc)` returns, for a pc of a record of the program (R133). -/
def State.lookupWord (s : State) (pc : Word) : Option RecordWord :=
  if pcOnGrid pc then s.program[recordIndex pc]? else none

/-- `lookup(pc)` (R67): the record at `pc`, with the fields of R81. -/
def State.lookup (s : State) (pc : Word) : Option RecordFields := (s.lookupWord pc).map recordFields

/-- The record at the present pc where it is one of instruction `i`, else the one an assembler writes
for `i` (log 11). -/
def State.recordOf (s : State) (i : Instr) : RecordFields :=
  match s.lookup s.pc with
  | none => instrFields i
  | some f => if decodeFields f = .op i then f else instrFields i

/-- A record just fetched (R131). `NONE`, 0 and `none` where R131 says so; the fields a later stage
sets are 0 until it does (log 7). -/
def freshRecord (f : RecordFields) (pc : Word) (predTaken : Bool) : Inflight where
  fields := f
  pc := pc
  predTaken := predTaken
  pd := none
  ps1 := none
  ps2 := none
  ps3 := none
  seq := 0
  v1 := 0#32
  v2 := 0#32
  v3 := 0#32
  result := 0#32
  addr := 0#32
  data := 0#32
  done := false
  exc := none

end Sys2Proof.Machine
end

