-- ==== Sys2Proof/Machine/Admission.lean ====
section
/-! DEFINITION. The dispatch stage: entry of a renamed record into ROB, IQ and LSQ, all or none
(spec/42_dispatch.md R160 to R165). -/

namespace Sys2Proof.Machine

/-- `need_iq` of R161: every opcode but HALT, unrecognized ones included. -/
def Inflight.needsIq (r : Inflight) : Bool :=
  match r.insn with
  | .op .halt => false
  | .op _ => true
  | .unrecognized _ => true

/-- `slot_free` of R161: no ROB entry has the record's pc (R165), asked of memory opcodes only. -/
def State.slotFree (s : State) (r : Inflight) : Bool :=
  !r.isMemory || s.rob.all fun e => e.pc != r.pc

/-- `ok` of R161. -/
def State.hasRoomFor (s : State) (r : Inflight) : Bool :=
  decide (s.rob.length < Config.robCap) &&
    (!r.needsIq || decide (s.iq.length < Config.iqCap)) &&
    (!r.isMemory || decide (s.lsq.length < Config.lsqCap)) && s.slotFree r

/-- R163, R35: the `DSP` occupant could not move this cycle. -/
def State.dispatchStalled (s : State) : Bool :=
  match s.dsp with
  | none => false
  | some r => !s.hasRoomFor r

/-- R162, with the age tag of R164 and the slot clear of R165. -/
def enterQueues (r : Inflight) (s : State) : State :=
  let r' : Inflight := { r with seq := s.nextSeq, done := false, exc := none }
  let s1 : State :=
    { s with
      nextSeq := s.nextSeq + 1
      rob := s.rob ++ [r']
      iq := if r.needsIq then s.iq ++ [r'] else s.iq
      lsq := if r.isMemory then s.lsq ++ [r'] else s.lsq
      dsp := none }
  if r.isMemory then s1.clearSlot r.pc else s1

/-- R160: under `branch_recovery` the `DSP` occupant is discarded and its register released. -/
def recoverDispatch (s : State) : State :=
  let s1 := match s.dsp with
    | none => s
    | some r => s.releaseOf r
  { s1 with dsp := none, branchRecovery := false }

/-- R160, R161, R163: the dispatch stage. -/
def dispatchStage (s : State) : State :=
  if s.branchRecovery then recoverDispatch s
  else
    match s.dsp with
    | none => s
    | some r => if s.hasRoomFor r then enterQueues r s else s

end Sys2Proof.Machine
end

