-- ==== Sys2Proof/Machine/Flags.lean ====
section
/-! DEFINITION. The one condition code of CORE, the zero-flag register `Z` (spec/10_state.md R22): what
writes it and the conditions read from it. There is no other flag (R331). -/

namespace Sys2Proof.Machine

/-- R22: the zero condition is true exactly when `Z = 0`. -/
def zeroCondition (z : Word) : Bool := decide (z = 0#32)

/-- R340, R244: `CMP` writes `wrap32(a − b)`. -/
def cmpFlag (a b : Word) : Word := wrap32 (a.toInt - b.toInt)

/-- R283: `SUB` and `SUBL` write the committed value itself. -/
def subFlag (v : Word) : Word := v

/-- R246: `BZ` is taken when `Z = 0`. -/
def bzTaken (z : Word) : Bool := zeroCondition z

/-- R246: `BNZ` is taken when `Z != 0`. -/
def bnzTaken (z : Word) : Bool := !zeroCondition z

end Sys2Proof.Machine
end

