-- ==== Sys2Proof/Machine/Units.lean ====
section
/-! DEFINITION. The functional units: what each opcode does in its unit, branch resolution and the flush
(spec/45_functional_units.md R240 to R253). In a unit action `r` is the record and its latch is
already empty. -/

namespace Sys2Proof.Machine

/-! ### Flush (R248) -/

/-- A latch after a squash of everything younger than age tag `q`. -/
def squashLatch (q : Nat) (l : Option Inflight) : Option Inflight :=
  match l with
  | none => none
  | some r => if q < r.seq then none else some r

/-- R248, first loop: the registers of the squashed ROB entries, oldest first. -/
def releaseYounger (q : Nat) : List Inflight → State → State
  | [], s => s
  | e :: es, s => releaseYounger q es (if q < e.seq then s.releaseOf e else s)

/-- A queue without the entries younger than `q`. -/
def olderThan (q : Nat) (l : List Inflight) : List Inflight := l.filter fun e => decide (e.seq ≤ q)

/-- R248: `Flush(q)`. `DSP` is left to the dispatch stage (R160). -/
def flush (q : Nat) (s : State) : State :=
  let s1 := releaseYounger q s.rob s
  { s1 with
    rob := olderThan q s1.rob
    iq := olderThan q s1.iq
    lsq := olderThan q s1.lsq
    log := squashLatch q s1.log
    mul1 := squashLatch q s1.mul1
    mul2 := squashLatch q s1.mul2
    mul3 := squashLatch q s1.mul3
    mul4 := squashLatch q s1.mul4
    dc := squashLatch q s1.dc
    dec := none
    branchRecovery := true
    jumpInFlight := false
    jumpTaken := false }

/-! ### Integer/AGEN unit, by opcode -/

/-- ADD (R241). -/
def unitAdd (r : Inflight) (s : State) : State := s.writeBack r.pd (addResult r.v1 r.v2)

/-- SUB (R241): no flag is written here. -/
def unitSub (r : Inflight) (s : State) : State := s.writeBack r.pd (subResult r.v1 r.v2)

/-- ADDL (R241). -/
def unitAddl (imm : Word) (r : Inflight) (s : State) : State := s.writeBack r.pd (addResult r.v1 imm)

/-- SUBL (R241): no flag is written here. -/
def unitSubl (imm : Word) (r : Inflight) (s : State) : State := s.writeBack r.pd (subResult r.v1 imm)

/-- DIV (R242): a zero divisor marks the ROB entry and delivers 0. -/
def unitDiv (r : Inflight) (s : State) : State :=
  let s1 := if r.v2 = 0#32 then s.markExc r.seq .divideByZero else s
  s1.writeBack r.pd (divResult r.v1 r.v2)

/-- MOVC (R243). -/
def unitMovc (imm : Word) (r : Inflight) (s : State) : State := s.writeBack r.pd imm

/-- CMP (R244): `Z` is written here, at execute, and never restored. -/
def unitCmp (r : Inflight) (s : State) : State :=
  let d := cmpFlag r.v1 r.v2
  ({ s with z := d } : State).writeBack r.pd d

/-- LOAD's address generation (R245). -/
def unitLoad (imm : Word) (r : Inflight) (s : State) : State :=
  s.setAgen r.pc (effectiveAddress r.v1 imm)

/-- LDR's address generation (R245). -/
def unitLdr (r : Inflight) (s : State) : State := s.setAgen r.pc (effectiveAddress r.v1 r.v2)

/-- STORE's address generation (R245). -/
def unitStore (imm : Word) (r : Inflight) (s : State) : State :=
  s.setAgen r.pc (effectiveAddress r.v2 imm)

/-- STR's address generation (R245). -/
def unitStr (r : Inflight) (s : State) : State := s.setAgen r.pc (effectiveAddress r.v2 r.v3)

/-- R247: flush, redirect, one bubble. -/
def mispredict (taken : Bool) (target : Word) (r : Inflight) (s : State) : State :=
  { flush r.seq s with
    pc := if taken then target else nextPc r.pc
    redirectPending := true }

/-- R246: the resolution of a conditional branch with outcome `taken`. -/
def resolveBranch (taken : Bool) (imm : Word) (r : Inflight) (s : State) : State :=
  let target := branchTarget r.pc imm
  let s1 := (s.setBtb r.pc ⟨true, true, taken, target⟩).markDone r.seq
  if taken = r.predTaken then s1 else mispredict taken target r s1

/-- BZ (R246). -/
def unitBz (imm : Word) (r : Inflight) (s : State) : State := resolveBranch (bzTaken s.z) imm r s

/-- BNZ (R246). -/
def unitBnz (imm : Word) (r : Inflight) (s : State) : State := resolveBranch (bnzTaken s.z) imm r s

/-- JUMP (R249): the target and the taken-jump signal; the redirect waits for commit. -/
def unitJump (imm : Word) (r : Inflight) (s : State) : State :=
  { s with jumpTarget := jumpTargetOf r.v1 imm, jumpTaken := true }

/-- R240 to R249: the action of the opcode in `INT`. R253: any other opcode is dropped. -/
def intAction (r : Inflight) (s : State) : State :=
  match r.insn with
  | .unrecognized _ => s
  | .op i =>
    match i with
    | .add _ _ _ => unitAdd r s
    | .sub _ _ _ => unitSub r s
    | .addl _ _ imm => unitAddl imm r s
    | .subl _ _ imm => unitSubl imm r s
    | .div _ _ _ => unitDiv r s
    | .movc _ imm => unitMovc imm r s
    | .cmp _ _ => unitCmp r s
    | .load _ _ imm => unitLoad imm r s
    | .ldr _ _ _ => unitLdr r s
    | .store _ _ imm => unitStore imm r s
    | .str _ _ _ => unitStr r s
    | .bz imm => unitBz imm r s
    | .bnz imm => unitBnz imm r s
    | .jump _ imm => unitJump imm r s
    | .mul _ _ _ => s
    | .and _ _ _ => s
    | .or _ _ _ => s
    | .xor _ _ _ => s
    | .halt => s

/-- R240: the Integer/AGEN unit always finishes in the one cycle. -/
def intStage (s : State) : State :=
  match s.int with
  | none => s
  | some r => intAction r { s with int := none }

/-! ### Logical unit, by opcode (R250) -/

/-- AND (R250). -/
def unitAnd (r : Inflight) (s : State) : State := s.writeBack r.pd (andResult r.v1 r.v2)

/-- OR (R250). -/
def unitOr (r : Inflight) (s : State) : State := s.writeBack r.pd (orResult r.v1 r.v2)

/-- XOR (R250). -/
def unitXor (r : Inflight) (s : State) : State := s.writeBack r.pd (xorResult r.v1 r.v2)

/-- R250: the action of the opcode in `LOG`. No other opcode gets there (R182); it would be dropped
(log 8). -/
def logAction (r : Inflight) (s : State) : State :=
  match r.insn with
  | .unrecognized _ => s
  | .op i =>
    match i with
    | .and _ _ _ => unitAnd r s
    | .or _ _ _ => unitOr r s
    | .xor _ _ _ => unitXor r s
    | .add _ _ _ => s
    | .sub _ _ _ => s
    | .mul _ _ _ => s
    | .div _ _ _ => s
    | .addl _ _ _ => s
    | .subl _ _ _ => s
    | .movc _ _ => s
    | .load _ _ _ => s
    | .store _ _ _ => s
    | .ldr _ _ _ => s
    | .str _ _ _ => s
    | .cmp _ _ => s
    | .bz _ => s
    | .bnz _ => s
    | .jump _ _ => s
    | .halt => s

/-- R250: the Logical unit. -/
def logStage (s : State) : State :=
  match s.log with
  | none => s
  | some r => logAction r { s with log := none }

/-! ### Multiply pipeline (R251) -/

/-- MUL's product, computed in stage 1 and carried unmodified. -/
def unitMul (r : Inflight) : Inflight := { r with result := mulResult r.v1 r.v2 }

/-- R251: write-back of `MUL4`. -/
def mulWriteBack (s : State) : State :=
  match s.mul4 with
  | none => s
  | some r => s.writeBack r.pd r.result

/-- R34: stage 1's product in the ROB entry of the record it is computed for. -/
def shareProduct (s : State) : State :=
  match s.mul1 with
  | none => s
  | some r => s.onRobEntry r.seq fun e => { e with result := (unitMul r).result }

/-- R251: the shift, with stage 1's computation. -/
def mulShift (s : State) : State :=
  { shareProduct s with mul4 := s.mul3, mul3 := s.mul2, mul2 := s.mul1.map unitMul, mul1 := none }

/-- R251: the multiply pipeline; every occupant moves every cycle. -/
def mulStage (s : State) : State := mulShift (mulWriteBack s)

end Sys2Proof.Machine
end

