-- ==== Sys2Proof/Machine/Commit.lean ====
section
/-! DEFINITION. The reorder buffer's commit stage (spec/46_rob_commit.md R280 to R291). -/

namespace Sys2Proof.Machine

/-- R283: the `Z` write of SUB and SUBL from the committed value. -/
def commitFlag (writesZ : Bool) (v : Word) (s : State) : State :=
  if writesZ then { s with z := subFlag v } else s

/-- R282, the open gate: register write, `Z`, retarget, release, dequeue. -/
def commitWrite (rd : Reg) (writesZ : Bool) (p : Phys) (s : State) : State :=
  let v := s.value[p]
  ((((commitFlag writesZ v (s.writeReg rd v)).retarget p).release p).retireHead)

/-- R282: a destination-writing head `h`. A head without a physical register never opens (log 8). -/
def commitDest (rd : Reg) (writesZ : Bool) (h : Inflight) (s : State) : State :=
  match h.pd with
  | none => s
  | some p => if s.ready[p] then commitWrite rd writesZ p s else s

/-- R284: CMP releases its token and writes no register. -/
def commitCmp (h : Inflight) (s : State) : State :=
  match h.pd with
  | none => s
  | some p => if s.ready[p] then (s.release p).retireHead else s

/-- R285: BZ and BNZ retire once resolved. -/
def commitBranch (h : Inflight) (s : State) : State := if h.done then s.retireHead else s

/-- R286: JUMP retires on the taken-jump signal, redirects and flushes. -/
def commitJump (h : Inflight) (s : State) : State :=
  if s.jumpTaken then
    flush h.seq
      { s.retireHead with pc := s.jumpTarget, jumpInFlight := false, jumpTaken := false }
  else s

/-- R287: STORE and STR retire once their write is done. -/
def commitStore (h : Inflight) (s : State) : State :=
  if s.storeDoneAt h.pc then s.retireHead else s

/-- R288, one entry behind the HALT: its register released, an addressed store's location marked
ready. -/
def drainEntry (e : Inflight) (s : State) : State :=
  let s1 := s.releaseOf e
  match e.insn with
  | .unrecognized _ => s1
  | .op i =>
    if isStore i && s1.agenReadyAt e.pc then s1.setMemReady (s1.agenAddrAt e.pc) true else s1

/-- R288: the entries behind the HALT, oldest first. -/
def drainEntries : List Inflight → State → State
  | [], s => s
  | e :: es, s => drainEntries es (drainEntry e s)

/-- R288: HALT at the head, its own pc into the status (R25, log 14); `rest` is the ROB behind it. -/
def commitHalt (h : Inflight) (rest : List Inflight) (s : State) : State :=
  let s1 := drainEntries rest s
  { s1 with rob := [], retired := s1.retired + 1, status := .halted h.pc }

/-- R289: an unrecognized opcode is dequeued without a gate and counted. -/
def commitUnrecognized (s : State) : State := s.retireHead

/-- R280, the case of the head's opcode. -/
def commitAction (h : Inflight) (rest : List Inflight) (s : State) : State :=
  match h.insn with
  | .unrecognized _ => commitUnrecognized s
  | .op i =>
    match i with
    | .add rd _ _ => commitDest rd false h s
    | .sub rd _ _ => commitDest rd true h s
    | .mul rd _ _ => commitDest rd false h s
    | .div rd _ _ => commitDest rd false h s
    | .and rd _ _ => commitDest rd false h s
    | .or rd _ _ => commitDest rd false h s
    | .xor rd _ _ => commitDest rd false h s
    | .addl rd _ _ => commitDest rd false h s
    | .subl rd _ _ => commitDest rd true h s
    | .movc rd _ => commitDest rd false h s
    | .load rd _ _ => commitDest rd false h s
    | .ldr rd _ _ => commitDest rd false h s
    | .store _ _ _ => commitStore h s
    | .str _ _ _ => commitStore h s
    | .cmp _ _ => commitCmp h s
    | .bz _ => commitBranch h s
    | .bnz _ => commitBranch h s
    | .jump _ _ => commitJump h s
    | .halt => commitHalt h rest s

/-- R280, R281: the commit stage, head only; a pending fault is raised before the opcode's gate. -/
def commitStage (s : State) : State :=
  match s.rob with
  | [] => s
  | h :: rest =>
    match h.exc with
    | some f => s.raise f h.pc
    | none => commitAction h rest s

end Sys2Proof.Machine
end

