-- ==== Sys2Proof/Machine/FrontEnd.lean ====
section
/-! DEFINITION. The fetch and decode/rename stages and the branch target buffer's life
(spec/41_fetch_decode_btb.md R130 to R142). -/

namespace Sys2Proof.Machine

/-- R131, R132: an entry predicts only when present and active. -/
def BtbEntry.predicts (e : BtbEntry) : Bool := e.present && e.active

/-- R131: the fetch of record `f` at the present pc, with the BTB's prediction (R132). -/
def fetchRecord (f : RecordFields) (s : State) : State :=
  let e := s.btbAt s.pc
  if e.predicts then
    if e.taken then
      { s with dec := some (freshRecord f s.pc true), pc := e.target, btb := [] }
    else
      { s.setBtb s.pc BtbEntry.absent with
        dec := some (freshRecord f s.pc false), pc := nextPc s.pc }
  else
    { s with dec := some (freshRecord f s.pc false), pc := nextPc s.pc }

/-- R130: the fetch stage. `look` is what the instruction space delivers at a pc (R67); `none` is the
invalid pc of R133. -/
def fetchStage (look : Word → Option RecordFields) (s : State) : State :=
  if s.redirectPending then { s with redirectPending := false }
  else if s.jumpInFlight then s
  else if s.dec.isSome then s
  else
    match look s.pc with
    | none => s
    | some f => fetchRecord f s

/-- `needs_pd(r.opcode)` of a record (R134). -/
def Inflight.needsPd (r : Inflight) : Bool :=
  match r.insn with
  | .op i => Machine.needsPd i
  | .unrecognized _ => false

/-- R134 (b), and R35's `stalled` for the `DEC` latch: no free physical register for a record that
needs one, or `DSP` occupied (a). -/
def State.decodeStalled (s : State) (r : Inflight) : Bool :=
  s.dsp.isSome || (r.needsPd && s.fl.isEmpty)

/-- R135: the sources, resolved before the destination is renamed. -/
def renameSources (s : State) (r : Inflight) : Inflight :=
  { r with
    ps1 := (r.rs .one).bind s.resolve
    ps2 := (r.rs .two).bind s.resolve
    ps3 := (r.rs .three).bind s.resolve }

/-- R136: `r.pd <- allocate(); ready[r.pd] <- 0; bind(rd, r.pd)`. -/
def renameDest (rd : Reg) (r : Inflight) (s : State) : Inflight × State :=
  match s.allocate with
  | none => (r, s)
  | some (p, s1) => ({ r with pd := some p }, (s1.setReady p false).bind rd p)

/-- R137: CMP's token, allocated and not bound. -/
def renameToken (r : Inflight) (s : State) : Inflight × State :=
  match s.allocate with
  | none => (r, s)
  | some (p, s1) => ({ r with pd := some p }, s1.setReady p false)

/-- R138: a branch gets an inactive BTB entry when none is present. -/
def createBtbEntry (r : Inflight) (s : State) : State :=
  if (s.btbAt r.pc).present then s else s.setBtb r.pc ⟨true, false, false, 0#32⟩

/-- R141, last column: the destination action of each opcode. -/
def renameAction (r : Inflight) (s : State) : Inflight × State :=
  match r.insn with
  | .unrecognized _ => (r, s)
  | .op i =>
    match i with
    | .add rd _ _ => renameDest rd r s
    | .sub rd _ _ => renameDest rd r s
    | .mul rd _ _ => renameDest rd r s
    | .div rd _ _ => renameDest rd r s
    | .and rd _ _ => renameDest rd r s
    | .or rd _ _ => renameDest rd r s
    | .xor rd _ _ => renameDest rd r s
    | .addl rd _ _ => renameDest rd r s
    | .subl rd _ _ => renameDest rd r s
    | .movc rd _ => renameDest rd r s
    | .load rd _ _ => renameDest rd r s
    | .ldr rd _ _ => renameDest rd r s
    | .store _ _ _ => (r, s)
    | .str _ _ _ => (r, s)
    | .cmp _ _ => renameToken r s
    | .bz _ => (r, createBtbEntry r s)
    | .bnz _ => (r, createBtbEntry r s)
    | .jump _ _ => (r, { s with jumpInFlight := true })
    | .halt => (r, s)

/-- R135 to R140 for the record in `DEC`: rename, then `DSP <- r; DEC <- empty`. -/
def decodeRecord (r : Inflight) (s : State) : State :=
  let t := renameAction (renameSources s r) s
  { t.2 with dsp := some t.1, dec := none }

/-- R134: the decode/rename stage. -/
def decodeStage (s : State) : State :=
  match s.dec with
  | none => s
  | some r => if s.decodeStalled r then s else decodeRecord r s

end Sys2Proof.Machine
end

