-- ==== Sys2Proof/Machine/Issue.lean ====
section
/-! DEFINITION. The issue queue scheduler (spec/43_issue_queue.md R180 to R189). -/

namespace Sys2Proof.Machine

/-- The busy flags, one per class, inside one evaluation of the stage (R183). -/
structure Busy where
  integer : Bool
  logical : Bool
  multiply : Bool
  deriving DecidableEq, Repr

/-- R183: all flags start at 0. -/
def Busy.none : Busy := ⟨false, false, false⟩

/-- `busy[c]`. -/
def Busy.of (b : Busy) : FuClass → Bool
  | .integer => b.integer
  | .logical => b.logical
  | .multiply => b.multiply

/-- `busy[c] <- 1`. -/
def Busy.set (b : Busy) : FuClass → Busy
  | .integer => { b with integer := true }
  | .logical => { b with logical := true }
  | .multiply => { b with multiply := true }

/-- R184: every gated operand is ready. -/
def gateOpen (s : State) (i : Instr) (e : Inflight) : Bool :=
  (issueGate i).all fun k => operandReady s e k

/-- R185 on one operand: the value read now, for an operand the opcode captures. -/
def captured (s : State) (i : Instr) (e : Inflight) (k : OperandNo) (old : Word) : Word :=
  if capturedAtIssue i k then operandValue s e k else old

/-- R185: the record with its captured operands. -/
def captureOperands (s : State) (i : Instr) (e : Inflight) : Inflight :=
  { e with
    v1 := captured s i e .one e.v1
    v2 := captured s i e .two e.v2
    v3 := captured s i e .three e.v3 }

/-- R34: `v_k` of the operands that `i` captures, in another copy of the record of `e`. -/
def takeOperands (i : Instr) (e r : Inflight) : Inflight :=
  { r with
    v1 := if capturedAtIssue i .one then e.v1 else r.v1
    v2 := if capturedAtIssue i .two then e.v2 else r.v2
    v3 := if capturedAtIssue i .three then e.v3 else r.v3 }

/-- R34: the captured operands of `e` in its ROB entry and its LSQ entry; its IQ entry leaves now. -/
def shareOperands (i : Instr) (e : Inflight) (s : State) : State :=
  { s with
    rob := onTag e.seq (takeOperands i e) s.rob
    lsq := onTag e.seq (takeOperands i e) s.lsq }

/-- `ready[e.pd] <- 0` (R186, R212). -/
def clearReadyOf (e : Inflight) (s : State) : State :=
  match e.pd with
  | none => s
  | some p => s.setReady p false

/-- R186: the side effects of an issue, on the record with its captured operands. -/
def issueEffect (i : Instr) (e : Inflight) (s : State) : State :=
  match i with
  | .load _ _ _ => clearReadyOf e s
  | .ldr _ _ _ => clearReadyOf e s
  | .movc _ _ => clearReadyOf e s
  | .store _ _ imm => s.setMemReady (effectiveAddress e.v2 imm) false
  | .str _ _ _ => s.setMemReady (effectiveAddress e.v2 e.v3) false
  | .add _ _ _ => s
  | .sub _ _ _ => s
  | .mul _ _ _ => s
  | .div _ _ _ => s
  | .and _ _ _ => s
  | .or _ _ _ => s
  | .xor _ _ _ => s
  | .addl _ _ _ => s
  | .subl _ _ _ => s
  | .cmp _ _ => s
  | .bz _ => s
  | .bnz _ => s
  | .jump _ _ => s
  | .halt => s

/-- R187: the input latch of each class. -/
def State.setUnitLatch (s : State) (c : FuClass) (e : Inflight) : State :=
  match c with
  | .integer => { s with int := some e }
  | .logical => { s with log := some e }
  | .multiply => { s with mul1 := some e }

/-- R185 to R187 for one selected entry, with R34. -/
def issueEntry (i : Instr) (c : FuClass) (e : Inflight) (s : State) : State :=
  let e' := captureOperands s i e
  (shareOperands i e' (issueEffect i e' s)).setUnitLatch c e'

/-- R180: the scan, head first, over the entries at stage entry. It answers the entries that stay in
the IQ, in their order (R188), and the state. An unrecognized opcode, or a HALT, is purged (R181). -/
def issueScan : List Inflight → Busy → State → List Inflight × State
  | [], _, s => ([], s)
  | e :: es, b, s =>
    match e.insn with
    | .unrecognized _ => issueScan es b s
    | .op i =>
      match fuClass i with
      | Option.none => issueScan es b s
      | some c =>
        if b.of c || !gateOpen s i e then
          let t := issueScan es b s
          (e :: t.1, t.2)
        else issueScan es (b.set c) (issueEntry i c e s)

/-- R180: the issue stage. -/
def issueStage (s : State) : State :=
  let t := issueScan s.iq Busy.none s
  { t.2 with iq := t.1 }

end Sys2Proof.Machine
end

