-- ==== Sys2Proof/Machine/MemoryPath.lean ====
section
/-! DEFINITION. The load-store queue and the data-cache stage (spec/44_lsq_dcache.md R210 to R218). -/

namespace Sys2Proof.Machine

/-- R212, R34: the load gate, for the LSQ head `h`; `rest` is the LSQ behind it. -/
def lsqLoad (h : Inflight) (rest : List Inflight) (s : State) : State :=
  if s.agenReadyAt h.pc then
    { (clearReadyOf h s).onRobEntry h.seq fun e => { e with addr := s.agenAddrAt h.pc } with
      dc := some { h with addr := s.agenAddrAt h.pc }
      lsq := rest }
  else s

/-- R214: the record is the ROB head. -/
def State.isRobHead (s : State) (h : Inflight) : Bool :=
  match s.rob with
  | [] => false
  | e :: _ => e.seq == h.seq

/-- R213: the three conditions of the store gate. -/
def State.storeGateOpen (s : State) (h : Inflight) : Bool :=
  s.agenReadyAt h.pc && operandReady s h .one && s.isRobHead h

/-- R213, R34: the store leaves the LSQ with its data and address. -/
def lsqStore (h : Inflight) (rest : List Inflight) (s : State) : State :=
  if s.storeGateOpen h then
    { (s.setMemReady (s.agenAddrAt h.pc) false).onRobEntry h.seq fun e =>
        { e with data := operandValue s h .one, addr := s.agenAddrAt h.pc } with
      dc := some { h with data := operandValue s h .one, addr := s.agenAddrAt h.pc }
      lsq := rest }
  else s

/-- R210 for an LSQ head, the `DC` latch being empty. R211: a non-memory head is dropped. -/
def lsqAction (h : Inflight) (rest : List Inflight) (s : State) : State :=
  match h.insn with
  | .unrecognized _ => { s with lsq := rest }
  | .op i =>
    if isLoad i then lsqLoad h rest s
    else if isStore i then lsqStore h rest s
    else { s with lsq := rest }

/-- R210, R215: the LSQ stage, head only, into an empty `DC`. -/
def lsqStage (s : State) : State :=
  match s.lsq with
  | [] => s
  | h :: rest => if s.dc.isSome then s else lsqAction h rest s

/-- R216: a load's access; an invalid address delivers 0 and marks the ROB entry (R218). -/
def dcLoad (r : Inflight) (s : State) : State :=
  if dataAddressValid r.addr then s.writeBack r.pd (s.memRead (location r.addr))
  else (s.markExc r.seq .dataAddress).writeBack r.pd 0#32

/-- R217: a store's access; an invalid address raises the fault at once (R218). -/
def dcStore (r : Inflight) (s : State) : State :=
  if dataAddressValid r.addr then
    ((s.memWrite (location r.addr) r.data).setMemReady r.addr true).setStoreDone r.pc
  else s.raise .dataAddress r.pc

/-- The access of the record taken out of `DC`. No other opcode gets there (R211); it would be dropped
(log 8). -/
def dcAction (r : Inflight) (s : State) : State :=
  match r.insn with
  | .unrecognized _ => s
  | .op i => if isLoad i then dcLoad r s else if isStore i then dcStore r s else s

/-- R216, R217: the data-cache stage. -/
def dataCacheStage (s : State) : State :=
  match s.dc with
  | none => s
  | some r => dcAction r { s with dc := none }

end Sys2Proof.Machine
end

