-- ==== Sys2Proof/Machine/Cycle.lean ====
section
/-! DEFINITION. One cycle, `advance()` (spec/40_driver_rename.md R100 to R104), the run to the next
retirement that is this model's step (log 1), and what the instruction space delivers to it. -/

namespace Sys2Proof.Machine

/-- R101: the stages after Commit and Data-cache, in their order. -/
def laterStages (look : Word → Option RecordFields) (s : State) : State :=
  fetchStage look (decodeStage (dispatchStage (issueStage (intStage (logStage (mulStage (lsqStage s)))))))

/-- R100, R104: one cycle, where the instruction space delivers `look`. -/
def cycleWith (look : Word → Option RecordFields) (s : State) : State :=
  if s.status = .running then
    let s1 := commitStage { s with cycle := s.cycle + 1 }
    if s1.status = .running then
      let s2 := dataCacheStage s1
      if s2.status = .running then laterStages look s2 else s2
    else s1
  else s

/-- R100: `advance(state) -> bool` over the loaded program: the state after the call, and whether the
call returns true. -/
def State.advance (s : State) : State × Bool :=
  let t := cycleWith s.lookup s
  (t, decide (t.status ≠ .running))

/-- The host calls `advance` until an instruction has retired or the run has ended, at most `n` times
(log 1). -/
def runToRetirement (look : Word → Option RecordFields) : Nat → State → State
  | 0, s => s
  | n + 1, s =>
    let t := cycleWith look s
    if t.status = .running ∧ t.retired = s.retired then runToRetirement look n t else t

/-- The instruction space with record `f` at `pc` and the program everywhere else. -/
def delivering (f : RecordFields) (pc : Word) (look : Word → Option RecordFields) : Word → Option RecordFields :=
  fun a => if a = pc then some f else look a

/-- One step with record `f` delivered at the present pc: it is fetched, and the machine runs until the
next retirement. In a machine with nothing in flight that is `f`'s own path from fetch to commit
(R8 (b), R320). -/
def runRecord (f : RecordFields) (s : State) : State :=
  runToRetirement (delivering f s.pc s.lookup) Config.stepCycles s

/-- The run to the next retirement over the loaded program, when no instruction is at the present pc. -/
def runLoaded (s : State) : State := runToRetirement s.lookup Config.stepCycles s

end Sys2Proof.Machine
end

