-- ==== Sys2Proof/Machine/Arith.lean ====
section
/-! DEFINITION. The move and arithmetic instructions (spec/47_insn_arith_logic.md R321 to R327): each one's path
through the machine of R8 (b), as one step. The actions its stages take are named beside it. -/

namespace Sys2Proof.Machine

/-- MOVC (R321): class INT, always ready; `unitMovc`, `commitDest`. -/
def execMovc (rd : Reg) (imm : Word) (s : State) : Host.Outcome State Fault Refusal :=
  .next (runRecord (s.recordOf (.movc rd imm)) s)

/-- ADD (R322): class INT; `unitAdd`, `commitDest`. -/
def execAdd (rd rs1 rs2 : Reg) (s : State) : Host.Outcome State Fault Refusal :=
  .next (runRecord (s.recordOf (.add rd rs1 rs2)) s)

/-- SUB (R323): class INT; `unitSub`; `commitDest` writes `Z`. -/
def execSub (rd rs1 rs2 : Reg) (s : State) : Host.Outcome State Fault Refusal :=
  .next (runRecord (s.recordOf (.sub rd rs1 rs2)) s)

/-- MUL (R324): class MUL, four stages; `unitMul`, `commitDest`. -/
def execMul (rd rs1 rs2 : Reg) (s : State) : Host.Outcome State Fault Refusal :=
  .next (runRecord (s.recordOf (.mul rd rs1 rs2)) s)

/-- DIV (R325): class INT; `unitDiv` marks a zero divisor and Commit raises it. -/
def execDiv (rd rs1 rs2 : Reg) (s : State) : Host.Outcome State Fault Refusal :=
  .next (runRecord (s.recordOf (.div rd rs1 rs2)) s)

/-- ADDL (R326): class INT; `unitAddl`, `commitDest`. -/
def execAddl (rd rs1 : Reg) (imm : Word) (s : State) : Host.Outcome State Fault Refusal :=
  .next (runRecord (s.recordOf (.addl rd rs1 imm)) s)

/-- SUBL (R327): class INT; `unitSubl`; `commitDest` writes `Z`. -/
def execSubl (rd rs1 : Reg) (imm : Word) (s : State) : Host.Outcome State Fault Refusal :=
  .next (runRecord (s.recordOf (.subl rd rs1 imm)) s)

end Sys2Proof.Machine
end

