-- ==== Sys2Proof/Machine/Control.lean ====
section
/-! DEFINITION. Compare, branches, jump and halt (spec/48_insn_compare_control.md R340 to R344): each one's path
through the machine of R8 (b), as one step. The actions its stages take are named beside it. -/

namespace Sys2Proof.Machine

/-- CMP (R340): class INT, a token register; `unitCmp` writes `Z`, `commitCmp`. -/
def execCmp (rs1 rs2 : Reg) (s : State) : Host.Outcome State Fault Refusal :=
  .next (runRecord (s.recordOf (.cmp rs1 rs2)) s)

/-- BZ (R341): class INT, no gate; `unitBz`, `commitBranch`. -/
def execBz (imm : Word) (s : State) : Host.Outcome State Fault Refusal :=
  .next (runRecord (s.recordOf (.bz imm)) s)

/-- BNZ (R342): class INT, no gate; `unitBnz`, `commitBranch`. -/
def execBnz (imm : Word) (s : State) : Host.Outcome State Fault Refusal :=
  .next (runRecord (s.recordOf (.bnz imm)) s)

/-- JUMP (R343): class INT, no gate; `unitJump`, `commitJump` redirects. -/
def execJump (rs1 : Reg) (imm : Word) (s : State) : Host.Outcome State Fault Refusal :=
  .next (runRecord (s.recordOf (.jump rs1 imm)) s)

/-- HALT (R344): ROB only; `commitHalt` drains and ends the run. -/
def execHalt (s : State) : Host.Outcome State Fault Refusal :=
  .next (runRecord (s.recordOf .halt) s)

end Sys2Proof.Machine
end

