-- ==== Sys2Proof/Machine/LoadStore.lean ====
section
/-! DEFINITION. Loads and stores (spec/49_insn_memory.md R360 to R364): each one's path
through the machine of R8 (b), as one step. The actions its stages take are named beside it. -/

namespace Sys2Proof.Machine

/-- LOAD (R361): `unitLoad`, `lsqLoad`, `dcLoad`, `commitDest`. -/
def execLoad (rd rs1 : Reg) (imm : Word) (s : State) : Host.Outcome State Fault Refusal :=
  .next (runRecord (s.recordOf (.load rd rs1 imm)) s)

/-- LDR (R362): `unitLdr`, `lsqLoad`, `dcLoad`, `commitDest`. -/
def execLdr (rd rs1 rs2 : Reg) (s : State) : Host.Outcome State Fault Refusal :=
  .next (runRecord (s.recordOf (.ldr rd rs1 rs2)) s)

/-- STORE (R363): `unitStore`, `lsqStore`, `dcStore`, `commitStore`. -/
def execStore (rs1 rs2 : Reg) (imm : Word) (s : State) : Host.Outcome State Fault Refusal :=
  .next (runRecord (s.recordOf (.store rs1 rs2 imm)) s)

/-- STR (R364): `unitStr`, `lsqStore`, `dcStore`, `commitStore`. -/
def execStr (rs1 rs2 rs3 : Reg) (s : State) : Host.Outcome State Fault Refusal :=
  .next (runRecord (s.recordOf (.str rs1 rs2 rs3)) s)

end Sys2Proof.Machine
end

