-- ==== Sys2Proof/Machine/Logic.lean ====
section
/-! DEFINITION. The logical instructions (spec/47_insn_arith_logic.md R328 to R330): each one's path
through the machine of R8 (b), as one step. The actions its stages take are named beside it. -/

namespace Sys2Proof.Machine

/-- AND (R328): class LOG; `unitAnd`, `commitDest`. -/
def execAnd (rd rs1 rs2 : Reg) (s : State) : Host.Outcome State Fault Refusal :=
  .next (runRecord (s.recordOf (.and rd rs1 rs2)) s)

/-- OR (R329): class LOG; `unitOr`, `commitDest`. -/
def execOr (rd rs1 rs2 : Reg) (s : State) : Host.Outcome State Fault Refusal :=
  .next (runRecord (s.recordOf (.or rd rs1 rs2)) s)

/-- XOR (R330): class LOG; `unitXor`, `commitDest`. -/
def execXor (rd rs1 rs2 : Reg) (s : State) : Host.Outcome State Fault Refusal :=
  .next (runRecord (s.recordOf (.xor rd rs1 rs2)) s)

end Sys2Proof.Machine
end

