-- ==== Sys2Proof/WellFormed.lean ====
section
/-! DEFINITION. What the host's `initialize` may be given (spec/60_exceptions.md R389, R390,
spec/70_reset_and_hazards.md R402), and which record words an assembler writes (spec/30_encoding.md
R81, R82). An `Instr` needs no check: its fields have the record's own widths. -/

namespace Sys2Proof

/-- R390: a program has N ≥ 1 records. Any 64-bit word is a record (R82). -/
def programWellFormed (program : List RecordWord) : Bool := decide (1 ≤ program.length)

/-- R402: an initial data-memory image names locations `0..DMEM_WORDS-1` only. -/
def imageWellFormed (image : List (Nat × Word)) : Bool :=
  image.all fun c => decide (c.1 < Config.dmemWords)

/-- The bits of the record word that an opcode byte leaves unused (R81, R83): the reserved bits 39:32
and the fields its format does not list. For an unrecognized byte only the reserved bits. -/
def unusedBits (opcode : BitVec 8) : RecordWord :=
  match opcode.toNat with
  | 0x01 | 0x02 | 0x03 | 0x04 | 0x05 | 0x06 | 0x07 | 0x0D => 0x00000FFFFFFFFFFF#64
  | 0x08 | 0x09 | 0x0B => 0x0000FFFF00000000#64
  | 0x0A => 0x000FFFFF00000000#64
  | 0x0C => 0x00F00FFF00000000#64
  | 0x0E => 0x00F000FFFFFFFFFF#64
  | 0x0F => 0x00F00FFFFFFFFFFF#64
  | 0x10 | 0x11 => 0x00FFFFFF00000000#64
  | 0x12 => 0x00F0FFFF00000000#64
  | 0x13 => 0x00FFFFFFFFFFFFFF#64
  | _ => 0x000000FF00000000#64

/-- R81, R82: an assembler writes 0 in the reserved bits and in every field the format does not use.
CORE itself accepts any word. -/
def recordAssembled (w : RecordWord) : Bool :=
  w &&& unusedBits (w.extractLsb' 56 8) == 0#64

end Sys2Proof
end

