-- ==== Sys2Proof/Machine/HostCalls.lean ====
section
/-! DEFINITION. The host's calls beside `advance`: `initialize` and `architectural_snapshot`
(spec/60_exceptions.md R389, R390; spec/70_reset_and_hazards.md R400 to R402), and a program with one
record replaced. -/

namespace Sys2Proof.Machine

/-- R402: the initial data memory from the host's image; a later pair of one location wins. -/
def imageMemory (image : List (Nat × Word)) : Memory :=
  image.foldl (fun m c => Sparse.write 0#32 m c.1 c.2) []

/-- R389, R400 to R402: `initialize(program)` with the optional image and `Z_RESET`. `none` for an empty
program (R390) or an image outside data memory (log 5). -/
def State.start (program : List RecordWord) (image : List (Nat × Word)) (zReset : Word) :
    Option State :=
  if programWellFormed program && imageWellFormed image then
    some { State.reset with program := program, dmem := imageMemory image, z := zReset }
  else none

/-- R389: what `architectural_snapshot` returns. -/
structure Snapshot where
  registers : Vector Word 16
  valid : Vector Bool 16
  memory : Memory
  deriving DecidableEq, Repr

/-- R389: `architectural_snapshot(state)`, which changes nothing. -/
def State.snapshot (s : State) : Snapshot := ⟨s.x, s.xvalid, s.dmem⟩

/-- A program with word `w` at record `k`: in place of the record there, or behind the last one. -/
def placeRecord (w : RecordWord) : Nat → List RecordWord → List RecordWord
  | 0, [] => [w]
  | 0, _ :: rest => w :: rest
  | _ + 1, [] => [w]
  | k + 1, v :: rest => v :: placeRecord w k rest

end Sys2Proof.Machine
end

