-- ==== Sys2Proof/Machine/InOrder.lean ====
section
/-! DEFINITION. The architectural effect of each instruction, executed one at a time in program order
(spec/00_scope.md R8 (a); spec/47_insn_arith_logic.md, 48_insn_compare_control.md,
49_insn_memory.md). It is what the pipeline is compared with; the machine itself is the pipeline. -/

namespace Sys2Proof.Machine

/-- What an architectural effect reads and writes (R8 (a)), with the count, the run status and the pc
of the next instruction (R25). -/
structure Arch where
  x : Vector Word 16
  xvalid : Vector Bool 16
  z : Word
  dmem : Memory
  pc : Word
  retired : Nat
  status : Status
  deriving DecidableEq, Repr

/-- The architectural part of a machine state. Its pc is the fetch pc, which is that of the next
instruction only when nothing is in flight (R24, R25). -/
def State.arch (s : State) : Arch where
  x := s.x
  xvalid := s.xvalid
  z := s.z
  dmem := s.dmem
  pc := s.pc
  retired := s.retired
  status := s.status

/-- `x[r]`. -/
def Arch.reg (m : Arch) (r : Reg) : Word := m.x[r]

/-- `x[rd] <- v; pc <- pc + 4`, counted. -/
def Arch.writeDest (m : Arch) (rd : Reg) (v : Word) : Arch :=
  { m with
    x := m.x.set rd.val v rd.isLt
    xvalid := m.xvalid.set rd.val true rd.isLt
    pc := nextPc m.pc
    retired := m.retired + 1 }

/-- `pc <- t`, counted. -/
def Arch.goTo (m : Arch) (t : Word) : Arch := { m with pc := t, retired := m.retired + 1 }

/-- `raise F(pc)` (R383): not counted. -/
def Arch.fault (m : Arch) (f : FaultCode) : Arch := { m with status := .faulted f m.pc }

/-- R322. -/
def effectAdd (rd rs1 rs2 : Reg) (m : Arch) : Arch :=
  m.writeDest rd (addResult (m.reg rs1) (m.reg rs2))

/-- R323. -/
def effectSub (rd rs1 rs2 : Reg) (m : Arch) : Arch :=
  let v := subResult (m.reg rs1) (m.reg rs2)
  { m.writeDest rd v with z := subFlag v }

/-- R324. -/
def effectMul (rd rs1 rs2 : Reg) (m : Arch) : Arch :=
  m.writeDest rd (mulResult (m.reg rs1) (m.reg rs2))

/-- R325. -/
def effectDiv (rd rs1 rs2 : Reg) (m : Arch) : Arch :=
  if m.reg rs2 = 0#32 then m.fault .divideByZero
  else m.writeDest rd (divResult (m.reg rs1) (m.reg rs2))

/-- R328. -/
def effectAnd (rd rs1 rs2 : Reg) (m : Arch) : Arch :=
  m.writeDest rd (andResult (m.reg rs1) (m.reg rs2))

/-- R329. -/
def effectOr (rd rs1 rs2 : Reg) (m : Arch) : Arch :=
  m.writeDest rd (orResult (m.reg rs1) (m.reg rs2))

/-- R330. -/
def effectXor (rd rs1 rs2 : Reg) (m : Arch) : Arch :=
  m.writeDest rd (xorResult (m.reg rs1) (m.reg rs2))

/-- R326. -/
def effectAddl (rd rs1 : Reg) (imm : Word) (m : Arch) : Arch :=
  m.writeDest rd (addResult (m.reg rs1) imm)

/-- R327. -/
def effectSubl (rd rs1 : Reg) (imm : Word) (m : Arch) : Arch :=
  let v := subResult (m.reg rs1) imm
  { m.writeDest rd v with z := subFlag v }

/-- R321. -/
def effectMovc (rd : Reg) (imm : Word) (m : Arch) : Arch := m.writeDest rd imm

/-- R361, R362 at effective address `ea`. -/
def Arch.loadFrom (m : Arch) (rd : Reg) (ea : Word) : Arch :=
  if dataAddressValid ea then m.writeDest rd (Sparse.read 0#32 m.dmem (location ea))
  else m.fault .dataAddress

/-- R363, R364 at effective address `ea` with data `v`. -/
def Arch.storeTo (m : Arch) (ea v : Word) : Arch :=
  if dataAddressValid ea then
    { m.goTo (nextPc m.pc) with dmem := Sparse.write 0#32 m.dmem (location ea) v }
  else m.fault .dataAddress

/-- R361. -/
def effectLoad (rd rs1 : Reg) (imm : Word) (m : Arch) : Arch :=
  m.loadFrom rd (effectiveAddress (m.reg rs1) imm)

/-- R362. -/
def effectLdr (rd rs1 rs2 : Reg) (m : Arch) : Arch :=
  m.loadFrom rd (effectiveAddress (m.reg rs1) (m.reg rs2))

/-- R363. -/
def effectStore (rs1 rs2 : Reg) (imm : Word) (m : Arch) : Arch :=
  m.storeTo (effectiveAddress (m.reg rs2) imm) (m.reg rs1)

/-- R364. -/
def effectStr (rs1 rs2 rs3 : Reg) (m : Arch) : Arch :=
  m.storeTo (effectiveAddress (m.reg rs2) (m.reg rs3)) (m.reg rs1)

/-- R340. -/
def effectCmp (rs1 rs2 : Reg) (m : Arch) : Arch :=
  { m.goTo (nextPc m.pc) with z := cmpFlag (m.reg rs1) (m.reg rs2) }

/-- R341. -/
def effectBz (imm : Word) (m : Arch) : Arch :=
  m.goTo (if bzTaken m.z then branchTarget m.pc imm else nextPc m.pc)

/-- R342. -/
def effectBnz (imm : Word) (m : Arch) : Arch :=
  m.goTo (if bnzTaken m.z then branchTarget m.pc imm else nextPc m.pc)

/-- R343. -/
def effectJump (rs1 : Reg) (imm : Word) (m : Arch) : Arch := m.goTo (jumpTargetOf (m.reg rs1) imm)

/-- R344, R25: counted, terminal; the HALT's own pc is in the status. -/
def effectHalt (m : Arch) : Arch := { m with retired := m.retired + 1, status := .halted m.pc }

/-- R345: an unrecognized opcode is a counted no-operation. -/
def effectUnrecognized (m : Arch) : Arch := m.goTo (nextPc m.pc)

/-- R8 (a): the architectural effect of an instruction. -/
def architecturalEffect (i : Instr) (m : Arch) : Arch :=
  match i with
  | .add rd rs1 rs2 => effectAdd rd rs1 rs2 m
  | .sub rd rs1 rs2 => effectSub rd rs1 rs2 m
  | .mul rd rs1 rs2 => effectMul rd rs1 rs2 m
  | .div rd rs1 rs2 => effectDiv rd rs1 rs2 m
  | .and rd rs1 rs2 => effectAnd rd rs1 rs2 m
  | .or rd rs1 rs2 => effectOr rd rs1 rs2 m
  | .xor rd rs1 rs2 => effectXor rd rs1 rs2 m
  | .addl rd rs1 imm => effectAddl rd rs1 imm m
  | .subl rd rs1 imm => effectSubl rd rs1 imm m
  | .movc rd imm => effectMovc rd imm m
  | .load rd rs1 imm => effectLoad rd rs1 imm m
  | .store rs1 rs2 imm => effectStore rs1 rs2 imm m
  | .ldr rd rs1 rs2 => effectLdr rd rs1 rs2 m
  | .str rs1 rs2 rs3 => effectStr rs1 rs2 rs3 m
  | .cmp rs1 rs2 => effectCmp rs1 rs2 m
  | .bz imm => effectBz imm m
  | .bnz imm => effectBnz imm m
  | .jump rs1 imm => effectJump rs1 imm m
  | .halt => effectHalt m

/-- One instruction of the in-order machine over the program `look` delivers: a stopped machine, or a
pc without a record (R412), stays as it is. -/
def inOrderStep (look : Word → Option RecordFields) (m : Arch) : Arch :=
  if m.status = .running then
    match look m.pc with
    | none => m
    | some f =>
      match decodeFields f with
      | .op i => architecturalEffect i m
      | .unrecognized _ => effectUnrecognized m
  else m

end Sys2Proof.Machine
end

