-- ==== Sys2Proof/Machine/Step.lean ====
section
/-! DEFINITION. The step of the machine (log 1), and the placing of one record word where it fetches. -/

namespace Sys2Proof.Machine

/-- One step: the host calls `advance` until one more instruction has retired or the run has ended
(log 1). The record at the present pc, if it is an instruction, is what `exec` runs; an unrecognized
opcode there (R345), or no record (R133), leaves the machine to the stages. R390: with no program
loaded nothing starts. -/
def step (s : State) : Host.Outcome State Fault Refusal :=
  match s.program with
  | [] => .refused .invalidProgram
  | _ :: _ =>
    match s.lookup s.pc with
    | none => .next (runLoaded s)
    | some f =>
      match decodeFields f with
      | .op i => exec i s
      | .unrecognized _ => .next (runLoaded s)

/-- The instruction's bits `w` (bit 0 is `IW[0]`; the bits from `nbits` up are 0) as the record at the
present pc, where the next fetch finds it. A pc that is no record's and not the one behind the last
record is set to `PC_BASE`, so that there is a record to place (log 3). -/
def State.withFetchWord (s : State) (nbits w : Nat) : State :=
  let word : RecordWord := BitVec.ofNat 64 (w % 2 ^ nbits)
  if pcOnGrid s.pc && decide (recordIndex s.pc ≤ s.program.length) then
    { s with program := placeRecord word (recordIndex s.pc) s.program }
  else { s with program := placeRecord word 0 s.program, pc := Config.pcBase }

end Sys2Proof.Machine
end

