-- ==== Sys2Proof/Safety.lean ====
section
/-! DEFINITION. The terms the claims are stated in: a machine with nothing in flight, what one
instruction's run leaves, and the invariants of spec/10_state.md R49 to R51. -/

namespace Sys2Proof.Machine

/-! ### Calls of `advance` -/

/-- The state after `n` calls of `advance` (R7, R100). -/
def State.advances : Nat → State → State
  | 0, s => s
  | n + 1, s => State.advances n s.advance.1

/-! ### A machine with nothing in flight -/

/-- Running, every latch and queue empty, no rename live and no control flag up: the state after reset
(R52), and the one in which an instruction runs alone (R8 (a), R320). -/
structure Idle (s : State) : Prop where
  running : s.status = .running
  dec : s.dec = none
  dsp : s.dsp = none
  iq : s.iq = []
  lsq : s.lsq = []
  rob : s.rob = []
  int : s.int = none
  log : s.log = none
  mul1 : s.mul1 = none
  mul2 : s.mul2 = none
  mul3 : s.mul3 = none
  mul4 : s.mul4 = none
  dc : s.dc = none
  rm : s.rm = []
  redirectPending : s.redirectPending = false
  jumpInFlight : s.jumpInFlight = false
  jumpTaken : s.jumpTaken = false
  branchRecovery : s.branchRecovery = false

/-- The BTB predicts a taken branch at the present pc (R132). -/
def State.predictedTaken (s : State) : Bool :=
  ((s.btbAt s.pc).present && (s.btbAt s.pc).active) && (s.btbAt s.pc).taken

/-- The pc from which fetch goes on behind the record at the present pc (R131). -/
def State.followed (s : State) : Word :=
  if s.predictedTaken then (s.btbAt s.pc).target else nextPc s.pc

/-- The BTB after the record at the present pc has been fetched (R131, R132). -/
def State.fetchedBtb (s : State) : Sparse BtbEntry :=
  if (s.btbAt s.pc).present && (s.btbAt s.pc).active then
    if (s.btbAt s.pc).taken then []
    else Sparse.write BtbEntry.absent s.btb (recordIndex s.pc) BtbEntry.absent
  else s.btb

/-- An instruction at the present pc runs with no other one in flight: nothing is, no taken prediction
stands at its pc, and no record stands behind it, so that fetch delivers nothing more (R133). -/
structure Alone (s : State) : Prop where
  idle : Idle s
  unpredicted : s.predictedTaken = false
  last : s.lookup (nextPc s.pc) = none

/-! ### What one instruction's run leaves -/

/-- The physical register `p` was allocated from the head of the free list, got the value `v`, and went
back to the tail (R105, R106, R282). -/
def State.passedThrough (p : Phys) (rest : List Phys) (v : Word) (s : State) : State :=
  { s with
    fl := rest ++ [p]
    value := s.value.set p.val v p.isLt
    ready := s.ready.set p.val true p.isLt }

/-- The instruction at the present pc was fetched, dispatched and retired in `n` cycles, and the fetch
pc is the next record's. -/
def State.retiredAfter (n : Nat) (s : State) : State :=
  { s with
    pc := nextPc s.pc
    retired := s.retired + 1
    cycle := s.cycle + n
    nextSeq := s.nextSeq + 1
    btb := s.fetchedBtb }

/-- What an instruction that only writes register `rd` leaves, `p` having carried the value. -/
def State.registerRun (p : Phys) (rest : List Phys) (rd : Reg) (v : Word) (n : Nat) (s : State) :
    State :=
  ((s.writeReg rd v).passedThrough p rest v).retiredAfter n

/-- What the address generation of a memory instruction at the present pc leaves in its slot of the
pc-indexed tables (R162, R245). -/
def State.addressed (ea : Word) (s : State) : State := (s.clearSlot s.pc).setAgen s.pc ea

/-- What a store of `v` at a valid `ea` leaves, its own slot included (R186, R213, R217). -/
def State.stored (ea v : Word) (s : State) : State :=
  ((((((s.clearSlot s.pc).setMemReady ea false).setAgen s.pc ea).setMemReady ea false).memWrite
    (location ea) v).setMemReady ea true).setStoreDone s.pc

/-- What a branch with outcome `taken` leaves before the fetch of its last cycle: its BTB entry, and the
pc of its successor, which fetch already follows when the prediction was right (R246, R247). -/
def State.branchRun (taken : Bool) (target : Word) (s : State) : State :=
  { s.retiredAfter 6 with
    btb := Sparse.write BtbEntry.absent s.fetchedBtb (recordIndex s.pc) ⟨true, true, taken, target⟩
    pc :=
      if taken = s.predictedTaken then s.followed else if taken then target else nextPc s.pc }

/-- What a JUMP leaves before the fetch of its last cycle (R249, R286). -/
def State.jumpRun (target : Word) (s : State) : State :=
  { s.retiredAfter 6 with pc := target, jumpTarget := target }

/-- Registers, their valid bits, `Z` and data memory are those of `s`. -/
structure ArchitectureKept (s t : State) : Prop where
  x : t.x = s.x
  xvalid : t.xvalid = s.xvalid
  z : t.z = s.z
  dmem : t.dmem = s.dmem

/-- A precise fault of the instruction at `s.pc` (R383): the status names it and its pc; registers, `Z`,
memory and the count are as before. -/
structure FaultedRun (s t : State) (f : FaultCode) (n : Nat) : Prop where
  status : t.status = .faulted f s.pc
  kept : ArchitectureKept s t
  retired : t.retired = s.retired
  cycle : t.cycle = s.cycle + n

/-- The pc of the next instruction of a machine in which at most the `DEC` latch is occupied. -/
def State.nextInstructionPc (s : State) : Word :=
  match s.dec with
  | none => s.pc
  | some r => r.pc

/-! ### One stage -/

/-- R283: SUB and SUBL write `Z` from the committed value. -/
def writesZAtCommit : Instr → Bool
  | .sub _ _ _ => true
  | .subl _ _ _ => true
  | _ => false

/-- The physical registers of the entries of `l`, in their order. -/
def registersOf (l : List Inflight) : List Phys := l.filterMap Inflight.pd

/-- The unit result `v` was delivered to `p` (R241, R250, R251). -/
def State.delivered (p : Phys) (v : Word) (s : State) : State :=
  { s with value := s.value.set p.val v p.isLt, ready := s.ready.set p.val true p.isLt }

/-- The occupant of the input latch of a class (R187). -/
def State.unitLatch (s : State) : FuClass → Option Inflight
  | .integer => s.int
  | .logical => s.log
  | .multiply => s.mul1

/-- The class of a record; an unrecognized one and a HALT have none (R181, R182). -/
def Inflight.unitClass (r : Inflight) : Option FuClass :=
  match r.insn with
  | .op i => fuClass i
  | .unrecognized _ => none

/-- A store record (R213). -/
def Inflight.isStoreRecord (r : Inflight) : Bool :=
  match r.insn with
  | .op i => isStore i
  | .unrecognized _ => false

/-- A CMP record (R244). -/
def Inflight.isCompare (r : Inflight) : Bool :=
  match r.insn with
  | .op (.cmp _ _) => true
  | _ => false

/-- `opval` of R110: the value of a renamed operand, else the register itself. -/
def State.operandRead (ps : Option Phys) (a : Reg) (s : State) : Word :=
  match ps with
  | some p => s.valueOf p
  | none => s.readReg a

/-- The rows of R184: the operands that must be ready (R109) for the instruction to issue. -/
def Inflight.gateReady (e : Inflight) (s : State) (i : Instr) : Prop :=
  let ready (ps : Option Phys) : Prop := ∀ p : Phys, ps = some p → s.readyBit p = true
  match i with
  | .add _ _ _ => ready e.ps1 ∧ ready e.ps2
  | .sub _ _ _ => ready e.ps1 ∧ ready e.ps2
  | .mul _ _ _ => ready e.ps1 ∧ ready e.ps2
  | .div _ _ _ => ready e.ps1 ∧ ready e.ps2
  | .and _ _ _ => ready e.ps1 ∧ ready e.ps2
  | .or _ _ _ => ready e.ps1 ∧ ready e.ps2
  | .xor _ _ _ => ready e.ps1 ∧ ready e.ps2
  | .cmp _ _ => ready e.ps1 ∧ ready e.ps2
  | .ldr _ _ _ => ready e.ps1 ∧ ready e.ps2
  | .addl _ _ _ => ready e.ps1
  | .subl _ _ _ => ready e.ps1
  | .load _ _ _ => ready e.ps1
  | .store _ _ _ => ready e.ps2
  | .str _ _ _ => ready e.ps2 ∧ ready e.ps3
  | .bz _ => True
  | .bnz _ => True
  | .jump _ _ => True
  | .movc _ _ => True
  | .halt => True

/-- The entry is of an instruction with an operand of its row of R184 that is not ready. -/
def Inflight.notReady (e : Inflight) (s : State) : Prop :=
  ∃ i : Instr, e.insn = .op i ∧ ¬ e.gateReady s i

/-- R108: `o` is the newest of the live renames of register `a`, or none where there is none. -/
def State.newestRename (s : State) (a : Reg) (o : Option Phys) : Prop :=
  match o with
  | some p =>
    ∃ pre post : List (Reg × Phys), s.rm = pre ++ (a, p) :: post ∧ ∀ c ∈ pre, c.1 ≠ a
  | none => ∀ c ∈ s.rm, c.1 ≠ a

/-- The rows of R185: the record as it goes to its unit, with the operand values of state `s`. -/
def Inflight.issued (e : Inflight) (s : State) (i : Instr) : Inflight :=
  let two (a b : Reg) : Inflight :=
    { e with v1 := s.operandRead e.ps1 a, v2 := s.operandRead e.ps2 b }
  match i with
  | .add _ a b => two a b
  | .sub _ a b => two a b
  | .mul _ a b => two a b
  | .div _ a b => two a b
  | .and _ a b => two a b
  | .or _ a b => two a b
  | .xor _ a b => two a b
  | .cmp a b => two a b
  | .ldr _ a b => two a b
  | .addl _ a _ => { e with v1 := s.operandRead e.ps1 a }
  | .subl _ a _ => { e with v1 := s.operandRead e.ps1 a }
  | .load _ a _ => { e with v1 := s.operandRead e.ps1 a }
  | .jump a _ => { e with v1 := s.operandRead e.ps1 a }
  | .store _ b _ => { e with v2 := s.operandRead e.ps2 b }
  | .str _ b c => { e with v2 := s.operandRead e.ps2 b, v3 := s.operandRead e.ps3 c }
  | .movc _ _ => e
  | .bz _ => e
  | .bnz _ => e
  | .halt => e

/-- The occupants of the unit latches and of `DC`. -/
def State.inUnits (s : State) : List Inflight :=
  s.int.toList ++ s.log.toList ++ s.mul1.toList ++ s.mul2.toList ++ s.mul3.toList ++ s.mul4.toList ++
    s.dc.toList

/-! ### Invariants of a cycle boundary -/

/-- R49: the capacities. -/
structure WithinCapacity (s : State) : Prop where
  iq : s.iq.length ≤ Config.iqCap
  rob : s.rob.length ≤ Config.robCap
  lsq : s.lsq.length ≤ Config.lsqCap

/-- Age tags strictly rising from head to tail, all of them given out already. -/
structure AgeOrdered (next : Nat) (l : List Inflight) : Prop where
  rising : l.Pairwise fun a b => a.seq < b.seq
  given : ∀ e ∈ l, e.seq < next

/-- R51: ROB, IQ and LSQ are in program order. -/
structure InProgramOrder (s : State) : Prop where
  rob : AgeOrdered s.nextSeq s.rob
  iq : AgeOrdered s.nextSeq s.iq
  lsq : AgeOrdered s.nextSeq s.lsq

/-- `Held` of R50: the destination registers of the ROB entries and of the `DSP` occupant. -/
def State.held (s : State) : List Phys :=
  registersOf s.rob ++ registersOf s.dsp.toList

/-- R50, with what makes it last: the free list and `Held` are together the fifteen registers, each
once; live renames name held registers; a record past decode has a register exactly when its opcode
needs one (R141), and the record in `DEC` has none yet (R131). -/
structure FreeListConserved (s : State) : Prop where
  partition : (s.fl ++ s.held).Perm (List.finRange 15)
  renames : ∀ c ∈ s.rm, c.2 ∈ s.held
  rob : ∀ e ∈ s.rob, e.pd.isSome = e.needsPd
  dsp : ∀ e ∈ s.dsp, e.pd.isSome = e.needsPd
  dec : ∀ e ∈ s.dec, e.pd = none

/-- A conditional branch (R419). -/
def Inflight.isBranch (r : Inflight) : Bool :=
  match r.insn with
  | .op i => isCondBranch i
  | .unrecognized _ => false

/-- A JUMP record (R139). -/
def Inflight.isJump (r : Inflight) : Bool :=
  match r.insn with
  | .op (.jump _ _) => true
  | _ => false

/-- The gate of the commit stage for a ROB entry (R282, R284 to R289), pending faults apart (R281). -/
def State.commitGate (s : State) (h : Inflight) : Bool :=
  if h.needsPd then h.pd.any s.readyBit
  else if h.isBranch then h.done
  else if h.isStoreRecord then s.storeDoneAt h.pc
  else if h.isJump then s.jumpTaken
  else true

/-- The same instruction's record, in two places (R34). -/
structure Inflight.IsCopyOf (e h : Inflight) : Prop where
  seq : h.seq = e.seq
  fields : h.fields = e.fields
  pc : h.pc = e.pc
  pd : h.pd = e.pd

/-- The records an instruction of a unit class still has to leave before it may retire. -/
def State.unfinished (s : State) : List Inflight :=
  (s.iq.filter fun e => e.unitClass.isSome) ++ s.lsq ++ s.inUnits

/-- R49, second sentence, with what makes it last while the machine runs: every record in IQ, LSQ, a
unit latch or `DC` is a copy of a ROB entry (R34), whose commit gate is shut until its last copy has
left; a record is in one of IQ and the units (R187, R188), and out of IQ, `INT` and LSQ once it is in
`DC` (R210); the memory instructions in the ROB have table entries of their own (R165); and nothing
younger than a JUMP is in flight (R139). -/
structure InFlightMatched (s : State) : Prop where
  order : InProgramOrder s
  registers : FreeListConserved s
  queued : ∀ e ∈ s.iq ++ s.lsq, ∃ h ∈ s.rob, e.IsCopyOf h
  copies : ∀ e ∈ s.unfinished, ∃ h ∈ s.rob, e.IsCopyOf h ∧ s.commitGate h = false
  once : ((s.iq ++ s.inUnits).map Inflight.seq).Nodup
  int : ∀ r ∈ s.int, r.unitClass = some .integer
  log : ∀ r ∈ s.log, r.unitClass = some .logical
  mul : ∀ r ∈ s.mul1.toList ++ s.mul2.toList ++ s.mul3.toList ++ s.mul4.toList,
    r.unitClass = some .multiply
  dc : ∀ r ∈ s.dc, r.isMemory = true
  lsq : ∀ e ∈ s.lsq, e.isMemory = true
  dcLeft : ∀ r ∈ s.dc, ∀ e ∈ s.lsq, r.seq ≠ e.seq
  noAddress : ∀ e ∈ s.iq ++ s.int.toList, e.isMemory = true → s.agenReadyAt e.pc = false
  slots : s.rob.Pairwise fun a b =>
    a.isMemory = true → b.isMemory = true → recordIndex a.pc ≠ recordIndex b.pc
  grid : ∀ e ∈ s.rob ++ s.dsp.toList ++ s.dec.toList, pcOnGrid e.pc = true
  renamed : ∀ e ∈ s.dsp, ∀ p ∈ e.pd, s.readyBit p = false
  jumpLast : ∀ h ∈ s.rob, h.isJump = true →
    s.jumpInFlight = true ∧ s.dec = none ∧ s.dsp = none ∧ ∀ a ∈ s.rob, a.seq ≤ h.seq
  jumpNext : ∀ e ∈ s.dsp, e.isJump = true →
    s.branchRecovery = true ∨ s.jumpInFlight = true ∧ s.dec = none
  jumpTaken : s.jumpTaken = true → ∃ h ∈ s.rob, h.isJump = true

/-- Every sparse table is in canonical form, and data memory and its readiness bits list only
locations that exist (R61, R32). -/
structure TablesCanonical (s : State) : Prop where
  dmem : Memory.wf s.dmem = true
  memReady : Sparse.wf true s.memReady = true
  memReadyBound : ∀ c ∈ s.memReady, c.1 < Config.dmemWords
  agenReady : Sparse.wf false s.agenReady = true
  agenAddr : Sparse.wf 0#32 s.agenAddr = true
  storeDone : Sparse.wf false s.storeDone = true
  btb : Sparse.wf BtbEntry.absent s.btb = true

/-- R419, at a cycle boundary: the instruction that was issued to the Integer unit has no older
conditional branch still waiting to issue. -/
def BranchShadow (s : State) : Prop :=
  ∀ r ∈ s.int, ∀ b ∈ s.iq, b.isBranch = true → r.seq < b.seq

end Sys2Proof.Machine
end

