-- ==== Sys2Proof/Certificates/Slice0/Obligations.lean ====
section
/-! DEFINITION. The statements about CORE, each citing the numbered rules of spec/ it rests on. -/

section
open Sys2Proof Sys2Proof.Machine

/-! ### Encoding (spec/30_encoding.md) -/

/-- R81, R82, R85: decoding the word an assembler writes for an instruction gives that instruction, with
every register number and every immediate. -/
def Obligations.DecodeEncodeAgree : Prop :=
  ∀ i : Instr, decodeWord (encode i) = .op i

/-- R81, R82: a word with 0 in every unused bit that decodes to an instruction is that instruction's
encoding: each instruction has one such word. -/
def Obligations.AssembledWordsAreEncodings : Prop :=
  ∀ (w : RecordWord) (i : Instr), recordAssembled w = true → decodeWord w = .op i → w = encode i

/-- R82, R88: words with one opcode byte that agree outside the bits the opcode leaves unused decode
alike. -/
def Obligations.UnusedBitsIgnored : Prop :=
  ∀ v w : RecordWord,
    v.extractLsb' 56 8 = w.extractLsb' 56 8 →
    v ||| unusedBits (w.extractLsb' 56 8) = w ||| unusedBits (w.extractLsb' 56 8) →
    decodeWord v = decodeWord w

/-- R85, R87: the unrecognized opcodes are 0x00 and 0x14 to 0xFF, whatever the other bits. -/
def Obligations.UnrecognizedOpcodes : Prop :=
  ∀ (w : RecordWord) (b : BitVec 8),
    decodeWord w = .unrecognized b ↔
      b = w.extractLsb' 56 8 ∧ (b.toNat = 0x00 ∨ 0x14 ≤ b.toNat)

/-- R81, R85: words written out from the layout decode to the instructions they stand for: ADD R2,R0,R1,
STORE R0,R1,#0, STR R3,R0,R1, BZ #8 and JUMP R0,#4. -/
def Obligations.WrittenWordsDecode : Prop :=
  decodeWord 0x0120100000000000#64 = .op (.add 2 0 1) ∧
  decodeWord 0x0C00100000000000#64 = .op (.store 0 1 0#32) ∧
  decodeWord 0x0E03010000000000#64 = .op (.str 3 0 1) ∧
  decodeWord 0x1000000000000008#64 = .op (.bz 8#32) ∧
  decodeWord 0x1200000000000004#64 = .op (.jump 0 4#32)

/-! ### The step, the cycle and the host's calls -/

/-- Where the record word at the present pc decodes to instruction `i`, the step is `exec i`; the step
adds nothing around it (R67, R131; the step's grain is the model's choice, log 1). -/
def Obligations.StepRunsTheDecodedInstruction : Prop :=
  ∀ (s : State) (w : RecordWord) (i : Instr),
    s.lookupWord s.pc = some w → decodeWord w = .op i → step s = exec i s

/-- A word placed where the machine fetches is the next one it runs, whatever the state: R67, R131; that
`withFetchWord` stands for the load of a program is the model's, log 3. -/
def Obligations.PlacedWordRuns : Prop :=
  ∀ (s : State) (nbits w : Nat) (i : Instr), decodeTableWord nbits w = some i →
    step (s.withFetchWord nbits w) = exec i (s.withFetchWord nbits w)

/-- With a program loaded every step answers a next state, and it is a run of calls of `advance`: at least
one, at most `Config.stepCycles` (the model's choice, log 1), each but the last leaving the machine
running with nothing more retired, the last one stopping it, or retiring one instruction, or using up
the bound. With none loaded nothing starts (R390; that a step is asked of such a state at all is the
model's, log 3). -/
def Obligations.StepIsARunOfAdvances : Prop :=
  (∀ s : State, s.program ≠ [] →
    ∃ n : Nat, step s = .next (s.advances n) ∧ 1 ≤ n ∧ n ≤ Config.stepCycles ∧
      (∀ m : Nat, 0 < m → m < n →
        (s.advances m).status = .running ∧ (s.advances m).retired = s.retired) ∧
      (n = Config.stepCycles ∨ (s.advances n).status ≠ .running ∨
        (s.advances n).retired = s.retired + 1)) ∧
  (∀ s : State, s.program = [] → step s = .refused .invalidProgram)

/-- R100, R101, R104: the ten stages run once each in the order Commit, Data-cache, LSQ, Multiply,
Logical, Integer, Issue, Dispatch, Decode, Fetch; a status set by Commit or Data-cache ends the cycle
there, and no later call evaluates anything more. R27: once the status is not Running, `advance` returns
true and changes nothing, and neither does a step. -/
def Obligations.CycleEvaluatesTheStagesInOrder : Prop :=
  ∀ s : State,
    (s.status = .running →
      let c := commitStage { s with cycle := s.cycle + 1 }
      let d := dataCacheStage c
      (c.status ≠ .running → s.advance = (c, true) ∧ c.advance = (c, true)) ∧
      (c.status = .running → d.status ≠ .running →
        s.advance = (d, true) ∧ d.advance = (d, true)) ∧
      (c.status = .running → d.status = .running →
        s.advance =
          (fetchStage s.lookup (decodeStage (dispatchStage (issueStage (intStage (logStage (mulStage
            (lsqStage d))))))), false))) ∧
    (s.status ≠ .running → s.advance = (s, true) ∧ (s.program ≠ [] → step s = .next s))

/-- R52, R402: what `initialize` gives for a program of at least one record, an image naming each
location at most once, and a value `z` of the open parameter `Z_RESET`. -/
def Obligations.InitializeGivesTheResetTable : Prop :=
  ∀ (program : List RecordWord) (image : List (Nat × Word)) (z : Word),
    program ≠ [] → (∀ c ∈ image, c.1 < 4096) → (image.map Prod.fst).Nodup →
    ∃ s : State, State.start program image z = some s ∧ s.program = program ∧
      (∀ r : Reg, s.readReg r = 0#32) ∧ (∀ r : Reg, s.validBit r = false) ∧ s.z = z ∧
      (∀ c ∈ image, s.memRead c.1 = c.2) ∧
      (∀ a : Nat, a ∉ image.map Prod.fst → s.memRead a = 0#32) ∧
      s.pc = 4000#32 ∧ s.retired = 0 ∧ s.cycle = 0 ∧ s.nextSeq = 0 ∧ s.status = .running ∧
      s.fl = [0, 1, 2, 3, 4, 5, 6, 7, 8, 9, 10, 11, 12, 13, 14] ∧ s.rm = [] ∧
      (∀ p : Phys, s.readyBit p = true ∧ s.valueOf p = 0#32) ∧
      (∀ a : Nat, Sparse.read true s.memReady a = true) ∧
      (∀ p : Word, s.agenReadyAt p = false ∧ s.storeDoneAt p = false ∧ s.agenAddrAt p = 0#32 ∧
        (s.btbAt p).present = false) ∧
      s.dec = none ∧ s.dsp = none ∧ s.int = none ∧ s.log = none ∧ s.mul1 = none ∧ s.mul2 = none ∧
      s.mul3 = none ∧ s.mul4 = none ∧ s.dc = none ∧ s.iq = [] ∧ s.lsq = [] ∧ s.rob = [] ∧
      s.redirectPending = false ∧ s.jumpInFlight = false ∧ s.jumpTaken = false ∧
      s.branchRecovery = false ∧ s.jumpTarget = 0#32

/-- R390: `initialize` with no record returns no state; with one or more it returns one, whatever the
records are. -/
def Obligations.InitializeRefusesAnEmptyProgram : Prop :=
  (∀ (image : List (Nat × Word)) (z : Word), State.start [] image z = none) ∧
  (∀ (program : List RecordWord) (z : Word), program ≠ [] → (State.start program [] z).isSome = true)

/-! ### Each instruction alone in the machine: it completes, with this next state

Each equation is the instruction's whole effect: what it does not name is unchanged. The cycles are
those of R416. -/

/-- MOVC, ADD and ADDL (R321, R322, R326) alone write `rd` and leave `Z` and memory, in 6 cycles. -/
def Obligations.MoveAndAddAlone : Prop :=
  ∀ (s : State) (p : Phys) (rest : List Phys), Alone s → s.fl = p :: rest →
    (∀ (rd : Reg) (imm : Word), exec (.movc rd imm) s = .next (s.registerRun p rest rd imm 6)) ∧
    (∀ rd rs1 rs2 : Reg,
      exec (.add rd rs1 rs2) s =
        .next (s.registerRun p rest rd
          (wrap32 ((s.readReg rs1).toInt + (s.readReg rs2).toInt)) 6)) ∧
    (∀ (rd rs1 : Reg) (imm : Word),
      exec (.addl rd rs1 imm) s =
        .next (s.registerRun p rest rd (wrap32 ((s.readReg rs1).toInt + imm.toInt)) 6))

/-- SUB and SUBL (R323, R327) alone write `rd` and, with the same value, `Z`, in 6 cycles. -/
def Obligations.SubtractAlone : Prop :=
  ∀ (s : State) (p : Phys) (rest : List Phys), Alone s → s.fl = p :: rest →
    (∀ rd rs1 rs2 : Reg,
      let v := wrap32 ((s.readReg rs1).toInt - (s.readReg rs2).toInt)
      exec (.sub rd rs1 rs2) s = .next { s.registerRun p rest rd v 6 with z := v }) ∧
    (∀ (rd rs1 : Reg) (imm : Word),
      let v := wrap32 ((s.readReg rs1).toInt - imm.toInt)
      exec (.subl rd rs1 imm) s = .next { s.registerRun p rest rd v 6 with z := v })

/-- MUL (R324, R252) alone writes the low 32 bits of the signed product, in 9 cycles. -/
def Obligations.MultiplyAlone : Prop :=
  ∀ (s : State) (p : Phys) (rest : List Phys) (rd rs1 rs2 : Reg), Alone s → s.fl = p :: rest →
    exec (.mul rd rs1 rs2) s =
      .next (s.registerRun p rest rd (wrap32 ((s.readReg rs1).toInt * (s.readReg rs2).toInt)) 9)

/-- DIV (R325) alone with a divisor that is not 0 writes the quotient rounded toward zero, modulo 2^32,
in 6 cycles. -/
def Obligations.DivideAlone : Prop :=
  ∀ (s : State) (p : Phys) (rest : List Phys) (rd rs1 rs2 : Reg), Alone s → s.fl = p :: rest →
    s.readReg rs2 ≠ 0#32 →
    exec (.div rd rs1 rs2) s =
      .next (s.registerRun p rest rd
        (wrap32 ((s.readReg rs1).toInt.tdiv (s.readReg rs2).toInt)) 6)

/-- DIV (R325, R381) alone with divisor 0 stops the machine with DivideByZero at its own pc, precisely,
in 6 cycles. -/
def Obligations.DivideByZeroAlone : Prop :=
  ∀ (s : State) (rd rs1 rs2 : Reg), Alone s → s.fl ≠ [] → s.readReg rs2 = 0#32 →
    ∃ t : State, exec (.div rd rs1 rs2) s = .next t ∧ FaultedRun s t .divideByZero 6

/-- AND, OR and XOR (R328, R329, R330) alone write `rd` and leave `Z` and memory, in 6 cycles. -/
def Obligations.LogicAlone : Prop :=
  ∀ (s : State) (p : Phys) (rest : List Phys) (rd rs1 rs2 : Reg), Alone s → s.fl = p :: rest →
    exec (.and rd rs1 rs2) s =
      .next (s.registerRun p rest rd (s.readReg rs1 &&& s.readReg rs2) 6) ∧
    exec (.or rd rs1 rs2) s =
      .next (s.registerRun p rest rd (s.readReg rs1 ||| s.readReg rs2) 6) ∧
    exec (.xor rd rs1 rs2) s =
      .next (s.registerRun p rest rd (s.readReg rs1 ^^^ s.readReg rs2) 6)

/-- LOAD and LDR (R361, R362) alone with an effective address of data memory write the word there to
`rd`, in 8 cycles. -/
def Obligations.LoadAlone : Prop :=
  ∀ (s : State) (p : Phys) (rest : List Phys), Alone s → s.fl = p :: rest →
    (∀ (rd rs1 : Reg) (imm : Word),
      let ea := wrap32 ((s.readReg rs1).toInt + imm.toInt)
      0 ≤ ea.toInt → ea.toInt < 4096 →
      exec (.load rd rs1 imm) s =
        .next ((s.addressed ea).registerRun p rest rd (s.memRead ea.toNat) 8)) ∧
    (∀ rd rs1 rs2 : Reg,
      let ea := wrap32 ((s.readReg rs1).toInt + (s.readReg rs2).toInt)
      0 ≤ ea.toInt → ea.toInt < 4096 →
      exec (.ldr rd rs1 rs2) s =
        .next ((s.addressed ea).registerRun p rest rd (s.memRead ea.toNat) 8))

/-- LOAD and LDR (R361, R362, R382) alone with an effective address outside 0..4095 stop the machine with
DataAddress at their own pc, precisely, in 8 cycles. -/
def Obligations.LoadFaultAlone : Prop :=
  ∀ s : State, Alone s → s.fl ≠ [] →
    (∀ (rd rs1 : Reg) (imm : Word),
      let ea := wrap32 ((s.readReg rs1).toInt + imm.toInt)
      ¬ (0 ≤ ea.toInt ∧ ea.toInt < 4096) →
      ∃ t : State, exec (.load rd rs1 imm) s = .next t ∧ FaultedRun s t .dataAddress 8) ∧
    (∀ rd rs1 rs2 : Reg,
      let ea := wrap32 ((s.readReg rs1).toInt + (s.readReg rs2).toInt)
      ¬ (0 ≤ ea.toInt ∧ ea.toInt < 4096) →
      ∃ t : State, exec (.ldr rd rs1 rs2) s = .next t ∧ FaultedRun s t .dataAddress 8)

/-- STORE and STR (R363, R364) alone with an effective address of data memory write the data register to
that location and to no other, in 8 cycles; no register and no flag is written. -/
def Obligations.StoreAlone : Prop :=
  ∀ s : State, Alone s →
    (∀ (rs1 rs2 : Reg) (imm : Word),
      let ea := wrap32 ((s.readReg rs2).toInt + imm.toInt)
      0 ≤ ea.toInt → ea.toInt < 4096 →
      ∃ t : State, exec (.store rs1 rs2 imm) s = .next t ∧
        t = (s.stored ea (s.readReg rs1)).retiredAfter 8 ∧
        t.memRead ea.toNat = s.readReg rs1 ∧ ∀ a : Nat, a ≠ ea.toNat → t.memRead a = s.memRead a) ∧
    (∀ rs1 rs2 rs3 : Reg,
      let ea := wrap32 ((s.readReg rs2).toInt + (s.readReg rs3).toInt)
      0 ≤ ea.toInt → ea.toInt < 4096 →
      ∃ t : State, exec (.str rs1 rs2 rs3) s = .next t ∧
        t = (s.stored ea (s.readReg rs1)).retiredAfter 8 ∧
        t.memRead ea.toNat = s.readReg rs1 ∧ ∀ a : Nat, a ≠ ea.toNat → t.memRead a = s.memRead a)

/-- STORE and STR (R363, R364, R218) alone with an effective address outside 0..4095 stop the machine with
DataAddress at their own pc, precisely, in 7 cycles. -/
def Obligations.StoreFaultAlone : Prop :=
  ∀ s : State, Alone s →
    (∀ (rs1 rs2 : Reg) (imm : Word),
      let ea := wrap32 ((s.readReg rs2).toInt + imm.toInt)
      ¬ (0 ≤ ea.toInt ∧ ea.toInt < 4096) →
      ∃ t : State, exec (.store rs1 rs2 imm) s = .next t ∧ FaultedRun s t .dataAddress 7) ∧
    (∀ rs1 rs2 rs3 : Reg,
      let ea := wrap32 ((s.readReg rs2).toInt + (s.readReg rs3).toInt)
      ¬ (0 ≤ ea.toInt ∧ ea.toInt < 4096) →
      ∃ t : State, exec (.str rs1 rs2 rs3) s = .next t ∧ FaultedRun s t .dataAddress 7)

/-- CMP (R340) alone writes the signed difference modulo 2^32 to `Z`, which is 0 exactly for equal
operands, and writes no register; its token passes through the free list. 6 cycles. -/
def Obligations.CompareAlone : Prop :=
  ∀ (s : State) (p : Phys) (rest : List Phys) (rs1 rs2 : Reg), Alone s → s.fl = p :: rest →
    let v := wrap32 ((s.readReg rs1).toInt - (s.readReg rs2).toInt)
    exec (.cmp rs1 rs2) s =
      .next { (s.passedThrough p rest v).retiredAfter 6 with z := v } ∧
    (v = 0#32 ↔ s.readReg rs1 = s.readReg rs2)

/-- BZ and BNZ (R341, R342, R246, R247) alone, predicted or not, with no record where fetch goes on
behind the branch: the branch retires after 6 cycles, its outcome is in the BTB, and fetch goes on at
`pc + imm` when it is taken (where the BTB predicted it taken: at the target that entry holds) and at
`pc + 4` when it is not. The last cycle fetches from there. -/
def Obligations.BranchAlone : Prop :=
  ∀ (s : State) (imm : Word), Idle s → s.followed ≠ s.pc → s.lookup s.followed = none →
    exec (.bz imm) s =
      .next (fetchStage (delivering (s.recordOf (.bz imm)) s.pc s.lookup)
        (s.branchRun (decide (s.z = 0#32)) (s.pc + imm))) ∧
    exec (.bnz imm) s =
      .next (fetchStage (delivering (s.recordOf (.bnz imm)) s.pc s.lookup)
        (s.branchRun (decide (s.z ≠ 0#32)) (s.pc + imm)))

/-- JUMP (R343, R286) in a machine with nothing in flight, whatever stands behind it: it retires after 6
cycles, and the last cycle already fetches from `x[rs1] + imm`. -/
def Obligations.JumpAlone : Prop :=
  ∀ (s : State) (rs1 : Reg) (imm : Word), Idle s →
    exec (.jump rs1 imm) s =
      .next (fetchStage (delivering (s.recordOf (.jump rs1 imm)) s.pc s.lookup)
        (s.jumpRun (s.readReg rs1 + imm)))

/-- HALT (R344, R288) in a machine with nothing in flight, whatever stands behind it: the machine is
Halted after 4 cycles with the HALT's pc in its status (R25, log 14), the HALT is counted, and registers, `Z` and
memory are unchanged. -/
def Obligations.HaltAlone : Prop :=
  ∀ s : State, Idle s →
    ∃ t : State, exec .halt s = .next t ∧ t.status = .halted s.pc ∧ ArchitectureKept s t ∧
      t.retired = s.retired + 1 ∧ t.cycle = s.cycle + 4

/-- R345, R87: a record with an unrecognized opcode alone is a no-operation that is counted, in 4
cycles. -/
def Obligations.UnrecognizedAlone : Prop :=
  ∀ (s : State) (f : RecordFields) (b : BitVec 8), Alone s → s.lookup s.pc = some f →
    decodeFields f = .unrecognized b →
    step s = .next (s.retiredAfter 4)

/-- R8: for every instruction alone in the machine, the pipeline path gives the architectural effect:
registers, valid bits, `Z`, data memory, count and status, and while it runs the pc of the next
instruction. -/
def Obligations.IsolatedRunIsTheArchitecturalEffect : Prop :=
  ∀ (s : State) (i : Instr), Alone s → s.fl ≠ [] →
    ∃ t : State, exec i s = .next t ∧
      let m := architecturalEffect i s.arch
      t.x = m.x ∧ t.xvalid = m.xvalid ∧ t.z = m.z ∧ t.dmem = m.dmem ∧ t.retired = m.retired ∧
        t.status = m.status ∧ (m.status = .running → t.nextInstructionPc = m.pc)

/-- R70: a LOAD run behind a STORE to the same location gets the stored value. -/
def Obligations.LoadReadsTheStoredWord : Prop :=
  ∀ (s t : State) (rs1 rs2 rd ra : Reg) (imm imm' : Word),
    let ea := wrap32 ((s.readReg rs2).toInt + imm.toInt)
    Alone s → s.fl ≠ [] → 0 ≤ ea.toInt → ea.toInt < 4096 →
    exec (.store rs1 rs2 imm) s = .next t → Alone t →
    wrap32 ((t.readReg ra).toInt + imm'.toInt) = ea →
    ∃ u : State, exec (.load rd ra imm') t = .next u ∧ u.readReg rd = s.readReg rs1

/-! ### The commit stage, in every state -/

/-- R282, R283: a destination-writing head waits for its physical register, then writes `x[rd]` and its
valid bit, writes `Z` for SUB and SUBL only, releases its register and its renames, and leaves the ROB;
nothing else changes. R112, R413: with it every reader is turned to `x[rd]`: in ROB, IQ, LSQ and `DSP` a
renamed operand that names its register names none from then on, and every other one is as it was. -/
def Obligations.CommitWritesTheDestination : Prop :=
  ∀ (s : State) (h : Inflight) (rest : List Inflight) (i : Instr) (rd : Reg) (p : Phys),
    s.rob = h :: rest → h.exc = none → h.insn = .op i → destReg i = some rd → h.pd = some p →
    (s.readyBit p = false → commitStage s = s) ∧
    (s.readyBit p = true →
      let turned (e : Inflight) : Inflight :=
        { e with
          ps1 := if e.ps1 = some p then none else e.ps1
          ps2 := if e.ps2 = some p then none else e.ps2
          ps3 := if e.ps3 = some p then none else e.ps3 }
      commitStage s =
        { s with
          x := s.x.set rd.val (s.valueOf p) rd.isLt
          xvalid := s.xvalid.set rd.val true rd.isLt
          z := if writesZAtCommit i then s.valueOf p else s.z
          rob := rest.map turned
          iq := s.iq.map turned
          lsq := s.lsq.map turned
          dsp := s.dsp.map turned
          fl := s.fl ++ [p]
          ready := s.ready.set p.val true p.isLt
          rm := s.rm.filter fun c => c.2 != p
          retired := s.retired + 1 })

/-- R284, R285, R287, R289: CMP waits for its token and releases it (R106); BZ and BNZ wait for
their resolution; STORE and STR wait for their write; an unrecognized opcode waits for nothing. None of
them writes a register, a valid bit or `Z` at commit. -/
def Obligations.CommitWithoutRegister : Prop :=
  ∀ (s : State) (h : Inflight) (rest : List Inflight), s.rob = h :: rest → h.exc = none →
    (∀ (a b : Reg) (p : Phys), h.insn = .op (.cmp a b) → h.pd = some p →
      (s.readyBit p = false → commitStage s = s) ∧
      (s.readyBit p = true →
        commitStage s =
          { s with
            rob := rest
            retired := s.retired + 1
            fl := s.fl ++ [p]
            ready := s.ready.set p.val true p.isLt
            rm := s.rm.filter fun c => c.2 != p })) ∧
    (∀ imm : Word, h.insn = .op (.bz imm) ∨ h.insn = .op (.bnz imm) →
      (h.done = false → commitStage s = s) ∧
      (h.done = true → commitStage s = { s with rob := rest, retired := s.retired + 1 })) ∧
    (∀ i : Instr, isStore i = true → h.insn = .op i →
      (s.storeDoneAt h.pc = false → commitStage s = s) ∧
      (s.storeDoneAt h.pc = true →
        commitStage s = { s with rob := rest, retired := s.retired + 1 })) ∧
    (∀ b : BitVec 8, h.insn = .unrecognized b →
      commitStage s = { s with rob := rest, retired := s.retired + 1 })

/-- R286: JUMP waits for the taken-jump signal, then leaves the ROB, redirects the pc to the computed
target, clears the jump flags and flushes. -/
def Obligations.CommitJump : Prop :=
  ∀ (s : State) (h : Inflight) (rest : List Inflight) (rs1 : Reg) (imm : Word),
    s.rob = h :: rest → h.exc = none → h.insn = .op (.jump rs1 imm) →
    (s.jumpTaken = false → commitStage s = s) ∧
    (s.jumpTaken = true →
      commitStage s =
        flush h.seq
          { s with
            rob := rest
            retired := s.retired + 1
            pc := s.jumpTarget
            jumpInFlight := false
            jumpTaken := false })

/-- R281, R383: a head marked with a fault raises it with its own pc before any gate is looked at, the
cycle ends there, and nothing else changes. -/
def Obligations.CommitRaisesThePendingFault : Prop :=
  ∀ (s : State) (h : Inflight) (rest : List Inflight) (f : FaultCode),
    s.status = .running → s.rob = h :: rest → h.exc = some f →
    s.advance = ({ s with cycle := s.cycle + 1, status := .faulted f h.pc }, true)

/-- R288: a HALT at the head ends the run in that cycle; that its pc is in the status is R25 read with R27
as log 14 has it (DEDUCED). The entries behind it are discarded, their registers go back to the free list in
order and ready, their renames are gone, the locations of their addressed stores are marked ready, only
the HALT is counted, and every other field is as it was. -/
def Obligations.HaltDrain : Prop :=
  ∀ (s : State) (h : Inflight) (rest : List Inflight),
    s.status = .running → s.rob = h :: rest → h.exc = none → h.insn = .op .halt →
    ∃ t : State, s.advance = (t, true) ∧
      t = { s with
        cycle := s.cycle + 1
        status := .halted h.pc
        retired := s.retired + 1
        rob := []
        fl := s.fl ++ registersOf rest
        rm := s.rm.filter fun c => decide (c.2 ∉ registersOf rest)
        ready := t.ready
        memReady := t.memReady } ∧
      (∀ p : Phys, t.readyBit p = (decide (p ∈ registersOf rest) || s.readyBit p)) ∧
      (∀ a : Nat, Sparse.read true t.memReady a =
        (Sparse.read true s.memReady a ||
          rest.any fun e => e.isStoreRecord && s.agenReadyAt e.pc &&
            dataAddressValid (s.agenAddrAt e.pc) && location (s.agenAddrAt e.pc) == a))

/-! ### The functional units, in every state -/

/-- R241, R243, R250: ADD, SUB, ADDL, SUBL and MOVC in `INT` and AND, OR and XOR in `LOG` deliver their
result to their physical register and mark it ready in the one cycle, and change nothing else. -/
def Obligations.UnitResults : Prop :=
  ∀ (s : State) (r : Inflight) (p : Phys), r.pd = some p →
    (∀ rd a b : Reg, s.int = some r → r.insn = .op (.add rd a b) →
      intStage s = { s.delivered p (wrap32 (r.v1.toInt + r.v2.toInt)) with int := none }) ∧
    (∀ rd a b : Reg, s.int = some r → r.insn = .op (.sub rd a b) →
      intStage s = { s.delivered p (wrap32 (r.v1.toInt - r.v2.toInt)) with int := none }) ∧
    (∀ (rd a : Reg) (imm : Word), s.int = some r → r.insn = .op (.addl rd a imm) →
      intStage s = { s.delivered p (wrap32 (r.v1.toInt + imm.toInt)) with int := none }) ∧
    (∀ (rd a : Reg) (imm : Word), s.int = some r → r.insn = .op (.subl rd a imm) →
      intStage s = { s.delivered p (wrap32 (r.v1.toInt - imm.toInt)) with int := none }) ∧
    (∀ (rd : Reg) (imm : Word), s.int = some r → r.insn = .op (.movc rd imm) →
      intStage s = { s.delivered p imm with int := none }) ∧
    (∀ rd a b : Reg, s.log = some r → r.insn = .op (.and rd a b) →
      logStage s = { s.delivered p (r.v1 &&& r.v2) with log := none }) ∧
    (∀ rd a b : Reg, s.log = some r → r.insn = .op (.or rd a b) →
      logStage s = { s.delivered p (r.v1 ||| r.v2) with log := none }) ∧
    (∀ rd a b : Reg, s.log = some r → r.insn = .op (.xor rd a b) →
      logStage s = { s.delivered p (r.v1 ^^^ r.v2) with log := none })

/-- R242: DIV delivers the quotient rounded toward zero, modulo 2^32; for a zero divisor it delivers 0 and
marks its ROB entry, and no other entry. R251: every occupant of the multiply pipeline moves one stage,
the one in `MUL1` with the low 32 bits of its signed product, which is then the ROB entry's too (R34),
and the one in `MUL4` delivers what it carries; nothing else changes. -/
def Obligations.DivideAndMultiplyUnits : Prop :=
  (∀ (s : State) (r : Inflight) (rd a b : Reg) (p : Phys),
    s.int = some r → r.insn = .op (.div rd a b) → r.pd = some p →
    (r.v2 ≠ 0#32 →
      intStage s = { s.delivered p (wrap32 (r.v1.toInt.tdiv r.v2.toInt)) with int := none }) ∧
    (r.v2 = 0#32 →
      intStage s =
        { s.delivered p 0#32 with
          int := none
          rob := s.rob.map fun e =>
            if e.seq = r.seq then { e with exc := some .divideByZero } else e })) ∧
  (∀ s : State,
    let moved (t : State) : State :=
      { t with
        mul4 := s.mul3
        mul3 := s.mul2
        mul2 := s.mul1.map fun r => { r with result := wrap32 (r.v1.toInt * r.v2.toInt) }
        mul1 := none
        rob := match s.mul1 with
          | none => s.rob
          | some r => s.rob.map fun e =>
              if e.seq = r.seq then { e with result := wrap32 (r.v1.toInt * r.v2.toInt) } else e }
    (s.mul4 = none → mulStage s = moved s) ∧
    (∀ (r : Inflight) (p : Phys), s.mul4 = some r → r.pd = some p →
      mulStage s = moved (s.delivered p r.result)))

/-- R244, R245, R249: CMP writes `Z` at execute and readies its token; the memory instructions put their
effective address and its bit in the slot of their pc; JUMP puts its target and its signal up. None of
them does anything else. R253: an opcode of no Integer-class instruction is dropped. -/
def Obligations.UnitCompareAddressJump : Prop :=
  ∀ (s : State) (r : Inflight), s.int = some r →
    let addressed (ea : Word) : State :=
      { s with
        int := none
        agenAddr := Sparse.write 0#32 s.agenAddr (recordIndex r.pc) ea
        agenReady := Sparse.write false s.agenReady (recordIndex r.pc) true }
    (∀ (a b : Reg) (p : Phys), r.insn = .op (.cmp a b) → r.pd = some p →
      let v := wrap32 (r.v1.toInt - r.v2.toInt)
      intStage s = { s.delivered p v with int := none, z := v }) ∧
    (∀ (rd a : Reg) (imm : Word), r.insn = .op (.load rd a imm) →
      intStage s = addressed (wrap32 (r.v1.toInt + imm.toInt))) ∧
    (∀ rd a b : Reg, r.insn = .op (.ldr rd a b) →
      intStage s = addressed (wrap32 (r.v1.toInt + r.v2.toInt))) ∧
    (∀ (a b : Reg) (imm : Word), r.insn = .op (.store a b imm) →
      intStage s = addressed (wrap32 (r.v2.toInt + imm.toInt))) ∧
    (∀ a b c : Reg, r.insn = .op (.str a b c) →
      intStage s = addressed (wrap32 (r.v2.toInt + r.v3.toInt))) ∧
    (∀ (a : Reg) (imm : Word), r.insn = .op (.jump a imm) →
      intStage s = { s with int := none, jumpTarget := r.v1 + imm, jumpTaken := true }) ∧
    (r.unitClass ≠ some .integer → intStage s = { s with int := none })

/-- R246, R247: BZ and BNZ resolve on `Z` as it is now: the BTB entry of the branch holds the outcome and
the target, its ROB entry is done, and only where the outcome is not the prediction there is a flush of
everything younger, the correct successor in the pc, and one bubble. -/
def Obligations.BranchResolution : Prop :=
  ∀ (s : State) (r : Inflight) (imm : Word) (taken : Bool), s.int = some r →
    (r.insn = .op (.bz imm) ∧ taken = decide (s.z = 0#32)) ∨
      (r.insn = .op (.bnz imm) ∧ taken = decide (s.z ≠ 0#32)) →
    let resolved : State :=
      { s with
        int := none
        btb := Sparse.write BtbEntry.absent s.btb (recordIndex r.pc)
          ⟨true, true, taken, r.pc + imm⟩
        rob := s.rob.map fun e => if e.seq = r.seq then { e with done := true } else e }
    (taken = r.predTaken → intStage s = resolved) ∧
    (taken ≠ r.predTaken →
      intStage s =
        { flush r.seq resolved with
          pc := if taken then r.pc + imm else r.pc + 4#32
          redirectPending := true })

/-- R160, R247, R248: after the cycle in which a BZ or BNZ resolves against its prediction, with the `Z`
that the commit of that cycle left, nothing younger than the branch is left in any queue, any unit latch,
`DC` or a front-end latch, and the pc is the correct successor. -/
def Obligations.SquashedPathIsGone : Prop :=
  ∀ (s : State) (r : Inflight) (imm : Word) (taken : Bool), s.status = .running → s.int = some r →
    let z := (commitStage { s with cycle := s.cycle + 1 }).z
    (r.insn = .op (.bz imm) ∧ taken = decide (z = 0#32)) ∨
      (r.insn = .op (.bnz imm) ∧ taken = decide (z ≠ 0#32)) →
    taken ≠ r.predTaken → s.advance.1.status = .running →
    let t := s.advance.1
    t.pc = (if taken then r.pc + imm else r.pc + 4#32) ∧
      (∀ e ∈ t.rob, e.seq ≤ r.seq) ∧ (∀ e ∈ t.iq, e.seq ≤ r.seq) ∧ (∀ e ∈ t.lsq, e.seq ≤ r.seq) ∧
      (∀ e ∈ t.inUnits, e.seq ≤ r.seq) ∧ t.dec = none ∧ t.dsp = none ∧
      t.redirectPending = false ∧ t.branchRecovery = false

/-- R248: `Flush(q)` takes exactly the entries younger than `q` out of ROB, IQ, LSQ and the unit latches,
puts the registers of the ROB entries it takes back to the free list, oldest first and ready, with their
renames gone, empties `DEC`, raises the recovery flag, drops the jump flags, and touches nothing else. -/
def Obligations.FlushReleasesTheYounger : Prop :=
  ∀ (q : Nat) (s : State),
    let t := flush q s
    let gone := registersOf (s.rob.filter fun e => decide (q < e.seq))
    t = { s with
      rob := s.rob.filter fun e => decide (e.seq ≤ q)
      iq := s.iq.filter fun e => decide (e.seq ≤ q)
      lsq := s.lsq.filter fun e => decide (e.seq ≤ q)
      log := s.log.filter fun e => decide (e.seq ≤ q)
      mul1 := s.mul1.filter fun e => decide (e.seq ≤ q)
      mul2 := s.mul2.filter fun e => decide (e.seq ≤ q)
      mul3 := s.mul3.filter fun e => decide (e.seq ≤ q)
      mul4 := s.mul4.filter fun e => decide (e.seq ≤ q)
      dc := s.dc.filter fun e => decide (e.seq ≤ q)
      dec := none
      branchRecovery := true
      jumpInFlight := false
      jumpTaken := false
      fl := s.fl ++ gone
      rm := s.rm.filter fun c => decide (c.2 ∉ gone)
      ready := t.ready } ∧
    ∀ p : Phys, t.readyBit p = (decide (p ∈ gone) || s.readyBit p)

/-! ### The issue queue, in every state -/

/-- R180, R182, R184, R185, R187, R188: the first entry of a class with the operands of its row of R184
ready issues in this cycle, past every older entry of the class that is not: it is in the latch of its
class, its captured operands the values R110 gives at this moment (of the physical register of a renamed
operand, else of the register), and no longer in the queue. What an older Integer-class entry that issues
with it clears (R186) is no operand of it as long as the registers of the older entries are not ready yet
(R30). Where it is the only entry, this and the rest are the whole stage: its captured operands are in its
ROB and LSQ entries (R34), a LOAD, LDR or MOVC clears its register's ready bit, and a STORE or STR that of
its location, and nothing else changes (R186). -/
def Obligations.IssueTakesAReadyHead : Prop :=
  ∀ (s : State) (e : Inflight) (i : Instr) (c : FuClass),
    e.insn = .op i → fuClass i = some c → e.gateReady s i →
    (∀ pre post : List Inflight, s.iq = pre ++ e :: post →
      (∀ a ∈ pre, a.unitClass ≠ some c ∨ a.notReady s) →
      (c ≠ .integer → ∀ a ∈ pre, ∀ p : Phys, a.pd = some p → s.readyBit p = false) →
      (issueStage s).unitLatch c = some (e.issued s i) ∧ (issueStage s).iq.Sublist (pre ++ post)) ∧
    (s.iq = [e] → (∀ h ∈ s.rob ++ s.lsq, h.seq = e.seq → h.v1 = e.v1 ∧ h.v2 = e.v2 ∧ h.v3 = e.v3) →
      let r := e.issued s i
      let shared (h : Inflight) : Inflight :=
        if h.seq = e.seq then { h with v1 := r.v1, v2 := r.v2, v3 := r.v3 } else h
      let base : State :=
        { s with
          iq := []
          int := if c = .integer then some r else s.int
          log := if c = .logical then some r else s.log
          mul1 := if c = .multiply then some r else s.mul1
          rob := s.rob.map shared
          lsq := s.lsq.map shared }
      let stored (a : Word) : State :=
        { base with
          memReady :=
            if 0 ≤ a.toInt ∧ a.toInt < 4096 then Sparse.write true s.memReady a.toNat false
            else s.memReady }
      (∀ p : Phys, isLoad i = true ∨ (∃ (rd : Reg) (imm : Word), i = .movc rd imm) → e.pd = some p →
        issueStage s = { base with ready := s.ready.set p.val false p.isLt }) ∧
      (∀ (a b : Reg) (imm : Word), i = .store a b imm →
        issueStage s = stored (wrap32 (r.v2.toInt + imm.toInt))) ∧
      (∀ a b d : Reg, i = .str a b d → issueStage s = stored (wrap32 (r.v2.toInt + r.v3.toInt))) ∧
      (isLoad i = false → isStore i = false → (∀ (rd : Reg) (imm : Word), i ≠ .movc rd imm) →
        issueStage s = base))

/-- R180, R184, R405, R408: BZ, BNZ, MOVC and JUMP wait for no operand: the first of them in the queue issues
in this cycle when every older Integer-class entry has an operand of its row of R184 that is not ready. It
overtakes those: a BZ an older CMP, and a JUMP, with whatever its base reads then, the writer of its
base. -/
def Obligations.UngatedIssue : Prop :=
  ∀ (s : State) (pre post : List Inflight) (e : Inflight),
    s.iq = pre ++ e :: post → (∀ a ∈ pre, a.unitClass ≠ some .integer ∨ a.notReady s) →
    (∀ imm : Word, e.insn = .op (.bz imm) → (issueStage s).int = some e) ∧
    (∀ imm : Word, e.insn = .op (.bnz imm) → (issueStage s).int = some e) ∧
    (∀ (rd : Reg) (imm : Word), e.insn = .op (.movc rd imm) → (issueStage s).int = some e) ∧
    (∀ (a : Reg) (imm : Word), e.insn = .op (.jump a imm) →
      (issueStage s).int = some { e with v1 := s.operandRead e.ps1 a })

/-- R181, R183, R184, R188, R404: the queue keeps the order of the entries that stay, all of them of a
unit class; in one cycle at most one entry of each class leaves it; and an entry with an operand of its
row of R184 not ready stays. -/
def Obligations.IssueAtMostOnePerClass : Prop :=
  ∀ (s : State) (c : FuClass),
    (issueStage s).iq.Sublist s.iq ∧
    (∀ e ∈ (issueStage s).iq, e.unitClass ≠ none) ∧
    (s.iq.filter fun e => e.unitClass == some c).length ≤
      ((issueStage s).iq.filter fun e => e.unitClass == some c).length + 1 ∧
    (∀ e ∈ s.iq, e.notReady s → e ∈ (issueStage s).iq)

/-! ### The front end, in every state -/

/-- R160, R161, R162, R163, R165: under branch recovery the `DSP` occupant is discarded and its register
released; otherwise it enters every structure it needs at once, with the next age tag, a memory
instruction with its slot's bits cleared, or, where one of them has no room, nothing changes. -/
def Obligations.DispatchAllOrNothing : Prop :=
  ∀ (s : State) (r : Inflight), s.dsp = some r →
    (s.branchRecovery = true →
      (r.pd = none → dispatchStage s = { s with dsp := none, branchRecovery := false }) ∧
      (∀ p : Phys, r.pd = some p →
        dispatchStage s =
          { s with
            dsp := none
            branchRecovery := false
            fl := s.fl ++ [p]
            ready := s.ready.set p.val true p.isLt
            rm := s.rm.filter fun c => c.2 != p })) ∧
    (s.branchRecovery = false →
      let e : Inflight := { r with seq := s.nextSeq, done := false, exc := none }
      let room := s.rob.length < 16 ∧ (r.insn = .op .halt ∨ s.iq.length < 8) ∧
        (r.isMemory = false ∨ s.lsq.length < 4 ∧ ∀ a ∈ s.rob, a.pc ≠ r.pc)
      (¬ room → dispatchStage s = s) ∧
      (room → r.isMemory = false →
        dispatchStage s =
          { s with
            dsp := none
            nextSeq := s.nextSeq + 1
            rob := s.rob ++ [e]
            iq := if r.insn = .op .halt then s.iq else s.iq ++ [e] }) ∧
      (room → r.isMemory = true →
        dispatchStage s =
          { s with
            agenReady := Sparse.write false s.agenReady (recordIndex r.pc) false
            storeDone := Sparse.write false s.storeDone (recordIndex r.pc) false
            dsp := none
            nextSeq := s.nextSeq + 1
            rob := s.rob ++ [e]
            iq := s.iq ++ [e]
            lsq := s.lsq ++ [e] }))

/-- R134, R135, R136, R140: decode of a destination-writing instruction waits while `DSP` is occupied or
no physical register is free; else its used sources are resolved in the renames as they were, its
destination gets the oldest free register, not ready and newest in the renames, and it moves to `DSP`.
R108: what a register resolves to is the newest rename of it, or none where there is none. -/
def Obligations.DecodeRenames : Prop :=
  ∀ (s : State) (r : Inflight) (i : Instr) (rd : Reg),
    s.dec = some r → r.insn = .op i → destReg i = some rd →
    (∀ (a : Reg) (o : Option Phys), s.resolve a = o ↔ s.newestRename a o) ∧
    (s.dsp ≠ none ∨ s.fl = [] → decodeStage s = s) ∧
    (∀ (p : Phys) (rest : List Phys), s.dsp = none → s.fl = p :: rest →
      decodeStage s =
        { s with
          dec := none
          dsp := some
            { r with
              ps1 := (sourceReg i .one).bind s.resolve
              ps2 := (sourceReg i .two).bind s.resolve
              ps3 := (sourceReg i .three).bind s.resolve
              pd := some p }
          fl := rest
          ready := s.ready.set p.val false p.isLt
          rm := (rd, p) :: s.rm })

/-- R134, R137 to R141: every record waits in `DEC` while `DSP` is occupied. Else decode of CMP takes a
token and binds nothing, and only CMP needs a free register; of BZ and BNZ makes an inactive BTB entry
where there is none; of JUMP raises the flag that stops fetch; of STORE renames its data and base, of STR
its data and both address operands; HALT and unrecognized records just move on. R108: what a register
resolves to is the newest rename of it, or none where there is none. -/
def Obligations.DecodeControl : Prop :=
  ∀ (s : State) (r : Inflight), s.dec = some r →
    (∀ (a : Reg) (o : Option Phys), s.resolve a = o ↔ s.newestRename a o) ∧
    (s.dsp ≠ none → decodeStage s = s) ∧
    (s.dsp = none →
      (∀ a b : Reg, r.insn = .op (.cmp a b) →
        (s.fl = [] → decodeStage s = s) ∧
        (∀ (p : Phys) (rest : List Phys), s.fl = p :: rest →
          decodeStage s =
            { s with
              dec := none
              dsp := some
                { r with ps1 := s.resolve a, ps2 := s.resolve b, ps3 := none, pd := some p }
              fl := rest
              ready := s.ready.set p.val false p.isLt })) ∧
      (∀ imm : Word, r.insn = .op (.bz imm) ∨ r.insn = .op (.bnz imm) →
        decodeStage s =
          { s with
            dec := none
            dsp := some { r with ps1 := none, ps2 := none, ps3 := none }
            btb :=
              if (s.btbAt r.pc).present then s.btb
              else Sparse.write BtbEntry.absent s.btb (recordIndex r.pc)
                ⟨true, false, false, 0#32⟩ }) ∧
      (∀ (a : Reg) (imm : Word), r.insn = .op (.jump a imm) →
        decodeStage s =
          { s with
            dec := none
            dsp := some { r with ps1 := s.resolve a, ps2 := none, ps3 := none }
            jumpInFlight := true }) ∧
      (∀ (a b : Reg) (imm : Word), r.insn = .op (.store a b imm) →
        decodeStage s =
          { s with
            dec := none
            dsp := some { r with ps1 := s.resolve a, ps2 := s.resolve b, ps3 := none } }) ∧
      (∀ a b c : Reg, r.insn = .op (.str a b c) →
        decodeStage s =
          { s with
            dec := none
            dsp := some
              { r with ps1 := s.resolve a, ps2 := s.resolve b, ps3 := s.resolve c } }) ∧
      (r.insn = .op .halt ∨ (∃ b : BitVec 8, r.insn = .unrecognized b) →
        decodeStage s =
          { s with dec := none, dsp := some { r with ps1 := none, ps2 := none, ps3 := none } }))

/-- R67, R91, R133: the record at a pc is record `k` where the pc is `4000 + 4k`, and at every other pc there
is none. R130, R131, R132: fetch takes one bubble for a redirect, waits for a JUMP and for `DEC`, and
delivers nothing at a pc that is no record's; else it fetches that record and follows the BTB: a
predicted taken branch to its target with the whole BTB cleared, everything else to `pc + 4`, a
predicted not-taken branch taking its own entry out. -/
def Obligations.FetchFollowsThePrediction : Prop :=
  ∀ s : State,
    (∀ (a : Word) (f : RecordFields), s.lookup a = some f ↔
      ∃ (k : Nat) (w : RecordWord), s.program[k]? = some w ∧ a.toNat = 4000 + 4 * k ∧
        recordFields w = f) ∧
    (s.redirectPending = true → fetchStage s.lookup s = { s with redirectPending := false }) ∧
    (s.redirectPending = false →
      s.jumpInFlight = true ∨ s.dec ≠ none ∨ s.lookup s.pc = none → fetchStage s.lookup s = s) ∧
    (∀ f : RecordFields, s.redirectPending = false → s.jumpInFlight = false → s.dec = none →
      s.lookup s.pc = some f →
      fetchStage s.lookup s =
        { s with
          dec := some
            { freshRecord f s.pc s.predictedTaken with
              fields := f
              pc := s.pc
              predTaken := s.predictedTaken
              pd := none
              ps1 := none
              ps2 := none
              ps3 := none
              done := false
              exc := none }
          pc := if s.predictedTaken then (s.btbAt s.pc).target else s.pc + 4#32
          btb := s.fetchedBtb })

/-! ### The memory path, in every state -/

/-- R210, R212, R213, R215: only the head of the LSQ moves, into an empty `DC`: a load when its address is
there, its register not ready from then on; a store when its address and its data are there and it is
the ROB head. What it then carries is in its ROB entry too (R34). R211: any other head is dropped. -/
def Obligations.LsqHeadOnly : Prop :=
  ∀ (s : State) (h : Inflight) (rest : List Inflight) (i : Instr), s.lsq = h :: rest →
    (s.dc ≠ none → lsqStage s = s) ∧
    (s.dc = none → h.isMemory = false → lsqStage s = { s with lsq := rest }) ∧
    (h.insn = .op i →
    (s.dc = none → isLoad i = true →
      (s.agenReadyAt h.pc = false → lsqStage s = s) ∧
      (∀ p : Phys, s.agenReadyAt h.pc = true → h.pd = some p →
        lsqStage s =
          { s with
            lsq := rest
            dc := some { h with addr := s.agenAddrAt h.pc }
            rob := s.rob.map fun e =>
              if e.seq = h.seq then { e with addr := s.agenAddrAt h.pc } else e
            ready := s.ready.set p.val false p.isLt })) ∧
    (∀ a : Reg, s.dc = none →
      (∃ (b : Reg) (imm : Word), i = .store a b imm) ∨ (∃ b c : Reg, i = .str a b c) →
      let data := s.operandRead h.ps1 a
      let opens := s.agenReadyAt h.pc = true ∧ (∀ p : Phys, h.ps1 = some p → s.readyBit p = true) ∧
        ∃ (e : Inflight) (tail : List Inflight), s.rob = e :: tail ∧ e.seq = h.seq
      (¬ opens → lsqStage s = s) ∧
      (opens →
        lsqStage s =
          { s with
            memReady :=
              if 0 ≤ (s.agenAddrAt h.pc).toInt ∧ (s.agenAddrAt h.pc).toInt < 4096 then
                Sparse.write true s.memReady (s.agenAddrAt h.pc).toNat false
              else s.memReady
            lsq := rest
            dc := some { h with data := data, addr := s.agenAddrAt h.pc }
            rob := s.rob.map fun e =>
              if e.seq = h.seq then { e with data := data, addr := s.agenAddrAt h.pc } else e })))

/-- R216, R217, R218: a load in `DC` delivers the word at its address, or 0 with its ROB entry marked for
an address outside data memory; a store writes its word, marks the location ready and its slot done, or
raises DataAddress at once with memory unchanged. -/
def Obligations.DataCacheAccess : Prop :=
  ∀ (s : State) (r : Inflight) (i : Instr), s.dc = some r → r.insn = .op i →
    (∀ p : Phys, isLoad i = true → r.pd = some p →
      (dataAddressValid r.addr = true →
        dataCacheStage s =
          { s.delivered p (s.memRead (location r.addr)) with dc := none }) ∧
      (dataAddressValid r.addr = false →
        dataCacheStage s =
          { s.delivered p 0#32 with
            dc := none
            rob := s.rob.map fun e =>
              if e.seq = r.seq then { e with exc := some .dataAddress } else e })) ∧
    (isStore i = true →
      (dataAddressValid r.addr = true →
        dataCacheStage s =
          { s with
            dc := none
            dmem := Sparse.write 0#32 s.dmem (location r.addr) r.data
            memReady := Sparse.write true s.memReady (location r.addr) true
            storeDone := Sparse.write false s.storeDone (recordIndex r.pc) true }) ∧
      (dataAddressValid r.addr = false →
        dataCacheStage s = { s with dc := none, status := .faulted .dataAddress r.pc }))

/-- R71, R214: a store that is in `DC` after a cycle is the ROB head then. -/
def Obligations.StoresWaitForTheRobHead : Prop :=
  ∀ (s : State) (r : Inflight), s.status = .running → s.advance.1.status = .running →
    s.advance.1.dc = some r → r.isStoreRecord = true →
    ∃ (e : Inflight) (tail : List Inflight), s.advance.1.rob = e :: tail ∧ e.seq = r.seq

/-! ### Who writes what, over one cycle of any state -/

/-- R20, R21, R282: a cycle changes a register only by the commit of a ROB head that has it as its
destination, to the value of that head's physical register, and a valid bit is never cleared. -/
def Obligations.RegistersWrittenOnlyAtCommit : Prop :=
  ∀ (s : State) (r : Reg),
    (s.advance.1.readReg r ≠ s.readReg r →
      s.advance.1.validBit r = true ∧
      ∃ (h : Inflight) (rest : List Inflight) (i : Instr) (p : Phys),
        s.rob = h :: rest ∧ h.exc = none ∧ h.insn = .op i ∧ destReg i = some r ∧ h.pd = some p ∧
          s.readyBit p = true ∧ s.advance.1.readReg r = s.valueOf p) ∧
    (s.validBit r = true → s.advance.1.validBit r = true)

/-- R22: a cycle changes `Z` only by a CMP executing in `INT`, to its signed difference, or by a SUB or
SUBL committing at the ROB head, to its committed value. -/
def Obligations.FlagWriters : Prop :=
  ∀ s : State, s.advance.1.z ≠ s.z →
    (∃ r : Inflight, s.int = some r ∧ r.isCompare = true ∧
      s.advance.1.z = wrap32 (r.v1.toInt - r.v2.toInt)) ∨
    (∃ (h : Inflight) (rest : List Inflight) (i : Instr) (p : Phys),
      s.rob = h :: rest ∧ h.exc = none ∧ h.insn = .op i ∧ writesZAtCommit i = true ∧
        h.pd = some p ∧ s.readyBit p = true ∧ s.advance.1.z = s.valueOf p)

/-- R23: a cycle changes a data-memory location only by the data-cache access of the store in `DC`, to its
data, at its valid address. -/
def Obligations.MemoryWriters : Prop :=
  ∀ (s : State) (a : Nat), s.advance.1.memRead a ≠ s.memRead a →
    ∃ r : Inflight, s.dc = some r ∧ r.isStoreRecord = true ∧ dataAddressValid r.addr = true ∧
      location r.addr = a ∧ s.advance.1.memRead a = r.data

/-- R47, R67, R280: a cycle of a running machine counts itself, retires at most one instruction, and never
changes the program; it retires none when the ROB is empty. -/
def Obligations.OneRetirementPerCycle : Prop :=
  ∀ s : State, s.status = .running →
    s.advance.1.cycle = s.cycle + 1 ∧ s.advance.1.program = s.program ∧
      (s.advance.1.retired = s.retired ∨ s.advance.1.retired = s.retired + 1) ∧
      (s.rob = [] → s.advance.1.retired = s.retired)

/-! ### Invariants of a cycle boundary -/

/-- R50: free-list conservation is kept by every cycle and by every step. -/
def Obligations.FreeListConservationKept : Prop :=
  (∀ s : State, FreeListConserved s → FreeListConserved s.advance.1) ∧
  (∀ s t : State, FreeListConserved s → step s = .next t → FreeListConserved t)

/-- R51: the order of ROB, IQ and LSQ is kept by every cycle and by every step. -/
def Obligations.ProgramOrderKept : Prop :=
  (∀ s : State, InProgramOrder s → InProgramOrder s.advance.1) ∧
  (∀ s t : State, InProgramOrder s → step s = .next t → InProgramOrder t)

/-- R49: the capacities are kept by every cycle and by every step. -/
def Obligations.CapacityKept : Prop :=
  (∀ s : State, WithinCapacity s → WithinCapacity s.advance.1) ∧
  (∀ s t : State, WithinCapacity s → step s = .next t → WithinCapacity t)

/-- R49, second sentence: while the machine runs, every IQ entry and every LSQ entry has the tag of
exactly one ROB entry. `InFlightMatched`, which says so and what makes it last, is kept by every cycle
and every step that leaves the machine running; a HALT's drain empties the ROB alone (R288). -/
def Obligations.QueuedEntriesAreInTheRob : Prop :=
  (∀ s : State, InFlightMatched s →
    ∀ e ∈ s.iq ++ s.lsq, (s.rob.filter fun h => h.seq == e.seq).length = 1) ∧
  (∀ s : State, InFlightMatched s → s.advance.1.status = .running → InFlightMatched s.advance.1) ∧
  (∀ s t : State, InFlightMatched s → step s = .next t → t.status = .running → InFlightMatched t)

/-- R61, R32: the canonical form of every table, and the bounds of data memory and its readiness bits, are
kept by every cycle and by every step. -/
def Obligations.TablesKept : Prop :=
  (∀ s : State, TablesCanonical s → TablesCanonical s.advance.1) ∧
  (∀ s t : State, TablesCanonical s → step s = .next t → TablesCanonical t)

/-- R419: after every cycle that leaves the machine running, from any state in program order, the
instruction issued to the Integer unit has no older conditional branch waiting in the IQ; so it is after
every step. -/
def Obligations.BranchShadowHolds : Prop :=
  (∀ s : State, InProgramOrder s → s.advance.1.status = .running → BranchShadow s.advance.1) ∧
  (∀ s t : State, InProgramOrder s → step s = .next t → t.status = .running → BranchShadow t)

/-- The reset state, and every state `initialize` gives, meets every invariant (R49, R50, R51, R52). -/
def Obligations.ResetMeetsTheInvariants : Prop :=
  (FreeListConserved State.reset ∧ InProgramOrder State.reset ∧ WithinCapacity State.reset ∧
    InFlightMatched State.reset ∧ TablesCanonical State.reset ∧ BranchShadow State.reset ∧
    Idle State.reset) ∧
  (∀ (program : List RecordWord) (image : List (Nat × Word)) (z : Word) (s : State),
    State.start program image z = some s →
      FreeListConserved s ∧ InProgramOrder s ∧ WithinCapacity s ∧ InFlightMatched s ∧
        TablesCanonical s ∧ BranchShadow s ∧ Idle s)

end
end

