-- ==== Sys2Proof/Laws/Sparse.lean ====
section
/-! SUPPORT. Reading and writing a sparse table, and its canonical form. -/

namespace Sys2Proof.Machine

variable {α : Type}

@[simp] theorem Sparse.read_nil (d : α) (k : Nat) : Sparse.read d ([] : Sparse α) k = d := rfl

theorem Sparse.read_erase_same (d : α) (m : Sparse α) (k : Nat) :
    Sparse.read d (Sparse.erase k m) k = d := by
  induction m with
  | nil => rfl
  | cons c m ih =>
    by_cases h : c.1 = k <;> simp_all [Sparse.erase, Sparse.read]

theorem Sparse.read_erase_other (d : α) (m : Sparse α) {j k : Nat} (h : j ≠ k) :
    Sparse.read d (Sparse.erase k m) j = Sparse.read d m j := by
  induction m with
  | nil => rfl
  | cons c m ih =>
    by_cases hc : c.1 = k
    · have : c.1 ≠ j := by omega
      simp_all [Sparse.erase, Sparse.read]
    · by_cases hj : c.1 = j <;> simp_all [Sparse.erase, Sparse.read]

theorem Sparse.read_insert (d : α) (m : Sparse α) (j k : Nat) (v : α)
    (h : ∀ c ∈ m, c.1 ≠ k) :
    Sparse.read d (Sparse.insert k v m) j = if j = k then v else Sparse.read d m j := by
  induction m with
  | nil => simp [Sparse.insert, Sparse.read, eq_comm]
  | cons c m ih =>
    have hc : c.1 ≠ k := h c (by simp)
    have hm := ih fun e he => h e (by simp [he])
    by_cases hlt : k < c.1
    · simp [Sparse.insert, hlt, Sparse.read, eq_comm]
    · by_cases hj : c.1 = j
      · obtain rfl := hj
        simp [Sparse.insert, hlt, Sparse.read, hc]
      · simp [Sparse.insert, hlt, Sparse.read, hj, hm]

theorem Sparse.not_mem_erase (m : Sparse α) (k : Nat) : ∀ c ∈ Sparse.erase k m, c.1 ≠ k := by
  simp [Sparse.erase]

/-- What a read after a write gives, at every number. -/
theorem Sparse.read_write [DecidableEq α] (d : α) (m : Sparse α) (j k : Nat) (v : α) :
    Sparse.read d (Sparse.write d m k v) j = if j = k then v else Sparse.read d m j := by
  unfold Sparse.write
  split
  · rename_i hv
    by_cases h : j = k
    · subst h; simp [Sparse.read_erase_same, hv]
    · simp [h, Sparse.read_erase_other d m h]
  · rw [Sparse.read_insert d _ j k v (Sparse.not_mem_erase m k)]
    by_cases h : j = k
    · simp [h]
    · simp [h, Sparse.read_erase_other d m h]

/-- The canonical form, said without recursion. -/
theorem Sparse.wf_iff [DecidableEq α] (d : α) (m : Sparse α) :
    Sparse.wf d m = true ↔ m.Pairwise (fun a b => a.1 < b.1) ∧ ∀ c ∈ m, c.2 ≠ d := by
  induction m with
  | nil => simp [Sparse.wf]
  | cons c m ih =>
    cases m with
    | nil => simp [Sparse.wf]
    | cons e m =>
      simp only [Sparse.wf, Bool.and_eq_true, bne_iff_ne, decide_eq_true_eq, ih,
        List.pairwise_cons, List.mem_cons]
      constructor
      · rintro ⟨hc, hlt, ⟨he, hp⟩, hd⟩
        refine ⟨⟨?_, he, hp⟩, ?_⟩
        · rintro a (rfl | ha)
          · exact hlt
          · exact Nat.lt_trans hlt (he a ha)
        · rintro a (rfl | ha)
          · exact hc
          · exact hd a ha
      · rintro ⟨⟨h1, he, hp⟩, hd⟩
        exact ⟨hd c (Or.inl rfl), h1 e (Or.inl rfl), ⟨he, hp⟩, fun a ha => hd a (Or.inr ha)⟩

theorem Sparse.mem_insert (k : Nat) (v : α) (m : Sparse α) (c : Nat × α) :
    c ∈ Sparse.insert k v m ↔ c = (k, v) ∨ c ∈ m := by
  induction m with
  | nil => simp [Sparse.insert]
  | cons e m ih =>
    by_cases h : k < e.1
    · simp [Sparse.insert, h]
    · simp [Sparse.insert, h, ih, or_left_comm]

theorem Sparse.mem_write [DecidableEq α] {d : α} {m : Sparse α} {k : Nat} {v : α} {c : Nat × α}
    (h : c ∈ Sparse.write d m k v) : c = (k, v) ∨ c ∈ m := by
  unfold Sparse.write at h
  split at h
  · exact Or.inr (List.mem_of_mem_filter h)
  · rcases (Sparse.mem_insert k v _ c).1 h with h | h
    · exact Or.inl h
    · exact Or.inr (List.mem_of_mem_filter h)

theorem Sparse.pairwise_insert (k : Nat) (v : α) (m : Sparse α)
    (hp : m.Pairwise fun a b => a.1 < b.1) (hk : ∀ c ∈ m, c.1 ≠ k) :
    (Sparse.insert k v m).Pairwise fun a b => a.1 < b.1 := by
  induction m with
  | nil => simp [Sparse.insert]
  | cons e m ih =>
    obtain ⟨he, hp'⟩ := List.pairwise_cons.1 hp
    have hek : e.1 ≠ k := hk e (by simp)
    by_cases h : k < e.1
    · simp only [Sparse.insert, h, if_true, List.pairwise_cons]
      exact ⟨fun a ha => by
        rcases List.mem_cons.1 ha with rfl | ha
        · exact h
        · exact Nat.lt_trans h (he a ha), he, hp'⟩
    · simp only [Sparse.insert, h, if_false, List.pairwise_cons]
      refine ⟨fun a ha => ?_, ih hp' fun c hc => hk c (by simp [hc])⟩
      rcases (Sparse.mem_insert k v m a).1 ha with rfl | ha
      · show e.1 < k
        omega
      · exact he a ha

/-- A write keeps the canonical form. -/
theorem Sparse.wf_write [DecidableEq α] (d : α) (m : Sparse α) (k : Nat) (v : α)
    (h : Sparse.wf d m = true) : Sparse.wf d (Sparse.write d m k v) = true := by
  rw [Sparse.wf_iff] at h ⊢
  have hp : (Sparse.erase k m).Pairwise fun a b => a.1 < b.1 := h.1.filter _
  unfold Sparse.write
  split
  · exact ⟨hp, fun c hc => h.2 c (List.mem_of_mem_filter hc)⟩
  · rename_i hv
    refine ⟨Sparse.pairwise_insert k v _ hp (Sparse.not_mem_erase m k), fun c hc => ?_⟩
    rcases (Sparse.mem_insert k v _ c).1 hc with rfl | hc
    · exact hv
    · exact h.2 c (List.mem_of_mem_filter hc)

/-- Every write of data memory at an existing location keeps `Memory.wf`. -/
theorem Memory.wf_write (m : Memory) (a : Nat) (v : Word) (ha : a < Config.dmemWords)
    (h : Memory.wf m = true) : Memory.wf (Sparse.write 0#32 m a v) = true := by
  simp only [Memory.wf, Bool.and_eq_true, List.all_eq_true, decide_eq_true_eq] at h ⊢
  refine ⟨Sparse.wf_write 0#32 m a v h.1, fun c hc => ?_⟩
  rcases Sparse.mem_write hc with rfl | hc
  · exact ha
  · exact h.2 c hc

/-- A valid data address is a location of data memory (R61, R65). -/
theorem location_lt {a : Word} (h : dataAddressValid a = true) : location a < Config.dmemWords := by
  simp only [dataAddressValid, Bool.and_eq_true, decide_eq_true_eq] at h
  obtain ⟨h0, h1⟩ := h
  have h3 : a.toInt < 4096 := h1
  have h2 := BitVec.toInt_eq_toNat_cond a
  show a.toNat < 4096
  split at h2 <;> omega

theorem Sparse.erase_of_not_mem {α : Type} (k : Nat) (m : Sparse α) (h : ∀ c ∈ m, c.1 ≠ k) :
    Sparse.erase k m = m := by
  unfold Sparse.erase
  rw [List.filter_eq_self]
  intro c hc
  simp [h c hc]

theorem Sparse.erase_insert {α : Type} (k : Nat) (v : α) (m : Sparse α) (h : ∀ c ∈ m, c.1 ≠ k) :
    Sparse.erase k (Sparse.insert k v m) = m := by
  induction m with
  | nil => simp [Sparse.insert, Sparse.erase]
  | cons c m ih =>
    obtain ⟨j, w⟩ := c
    have h1 : j ≠ k := h (j, w) (by simp)
    have h2 : ∀ c ∈ m, c.1 ≠ k := fun c hc => h c (by simp [hc])
    unfold Sparse.insert
    split
    · have := Sparse.erase_of_not_mem k m h2
      simp only [Sparse.erase] at this ⊢
      simp [h1, this]
    · have := ih h2
      simp only [Sparse.erase] at this ⊢
      simp [h1, this]

/-- The last write of an entry is the one that counts. -/
theorem Sparse.write_write {α : Type} [DecidableEq α] (d : α) (m : Sparse α) (k : Nat) (v w : α) :
    Sparse.write d (Sparse.write d m k v) k w = Sparse.write d m k w := by
  have h : Sparse.erase k (Sparse.write d m k v) = Sparse.erase k m := by
    unfold Sparse.write
    split
    · exact Sparse.erase_of_not_mem _ _ (Sparse.not_mem_erase m k)
    · exact Sparse.erase_insert _ _ _ (Sparse.not_mem_erase m k)
  conv_lhs => rw [Sparse.write.eq_def]
  rw [h]
  rfl

end Sys2Proof.Machine
end

