-- ==== Sys2Proof/Laws/State.lean ====
section
/-! SUPPORT. One lemma per field for each named update of the state. -/

namespace Sys2Proof.Machine

variable (s : State)

@[simp] theorem State.memWrite_program (a : Nat) (v : Word) : (s.memWrite a v).program = s.program :=
    rfl
@[simp] theorem State.memWrite_x (a : Nat) (v : Word) : (s.memWrite a v).x = s.x := rfl
@[simp] theorem State.memWrite_xvalid (a : Nat) (v : Word) : (s.memWrite a v).xvalid = s.xvalid :=
    rfl
@[simp] theorem State.memWrite_z (a : Nat) (v : Word) : (s.memWrite a v).z = s.z := rfl
@[simp] theorem State.memWrite_dmem (a : Nat) (v : Word) : (s.memWrite a v).dmem = Sparse.write 0#32 s.dmem a v :=
    rfl
@[simp] theorem State.memWrite_pc (a : Nat) (v : Word) : (s.memWrite a v).pc = s.pc := rfl
@[simp] theorem State.memWrite_retired (a : Nat) (v : Word) : (s.memWrite a v).retired = s.retired :=
    rfl
@[simp] theorem State.memWrite_status (a : Nat) (v : Word) : (s.memWrite a v).status = s.status :=
    rfl
@[simp] theorem State.memWrite_fl (a : Nat) (v : Word) : (s.memWrite a v).fl = s.fl := rfl
@[simp] theorem State.memWrite_rm (a : Nat) (v : Word) : (s.memWrite a v).rm = s.rm := rfl
@[simp] theorem State.memWrite_ready (a : Nat) (v : Word) : (s.memWrite a v).ready = s.ready := rfl
@[simp] theorem State.memWrite_value (a : Nat) (v : Word) : (s.memWrite a v).value = s.value := rfl
@[simp] theorem State.memWrite_memReady (a : Nat) (v : Word) : (s.memWrite a v).memReady = s.memReady :=
    rfl
@[simp] theorem State.memWrite_agenReady (a : Nat) (v : Word) : (s.memWrite a v).agenReady = s.agenReady :=
    rfl
@[simp] theorem State.memWrite_agenAddr (a : Nat) (v : Word) : (s.memWrite a v).agenAddr = s.agenAddr :=
    rfl
@[simp] theorem State.memWrite_storeDone (a : Nat) (v : Word) : (s.memWrite a v).storeDone = s.storeDone :=
    rfl
@[simp] theorem State.memWrite_dec (a : Nat) (v : Word) : (s.memWrite a v).dec = s.dec := rfl
@[simp] theorem State.memWrite_dsp (a : Nat) (v : Word) : (s.memWrite a v).dsp = s.dsp := rfl
@[simp] theorem State.memWrite_iq (a : Nat) (v : Word) : (s.memWrite a v).iq = s.iq := rfl
@[simp] theorem State.memWrite_lsq (a : Nat) (v : Word) : (s.memWrite a v).lsq = s.lsq := rfl
@[simp] theorem State.memWrite_rob (a : Nat) (v : Word) : (s.memWrite a v).rob = s.rob := rfl
@[simp] theorem State.memWrite_int (a : Nat) (v : Word) : (s.memWrite a v).int = s.int := rfl
@[simp] theorem State.memWrite_log (a : Nat) (v : Word) : (s.memWrite a v).log = s.log := rfl
@[simp] theorem State.memWrite_mul1 (a : Nat) (v : Word) : (s.memWrite a v).mul1 = s.mul1 := rfl
@[simp] theorem State.memWrite_mul2 (a : Nat) (v : Word) : (s.memWrite a v).mul2 = s.mul2 := rfl
@[simp] theorem State.memWrite_mul3 (a : Nat) (v : Word) : (s.memWrite a v).mul3 = s.mul3 := rfl
@[simp] theorem State.memWrite_mul4 (a : Nat) (v : Word) : (s.memWrite a v).mul4 = s.mul4 := rfl
@[simp] theorem State.memWrite_dc (a : Nat) (v : Word) : (s.memWrite a v).dc = s.dc := rfl
@[simp] theorem State.memWrite_btb (a : Nat) (v : Word) : (s.memWrite a v).btb = s.btb := rfl
@[simp] theorem State.memWrite_redirectPending (a : Nat) (v : Word) : (s.memWrite a v).redirectPending = s.redirectPending :=
    rfl
@[simp] theorem State.memWrite_jumpInFlight (a : Nat) (v : Word) : (s.memWrite a v).jumpInFlight = s.jumpInFlight :=
    rfl
@[simp] theorem State.memWrite_jumpTaken (a : Nat) (v : Word) : (s.memWrite a v).jumpTaken = s.jumpTaken :=
    rfl
@[simp] theorem State.memWrite_jumpTarget (a : Nat) (v : Word) : (s.memWrite a v).jumpTarget = s.jumpTarget :=
    rfl
@[simp] theorem State.memWrite_branchRecovery (a : Nat) (v : Word) : (s.memWrite a v).branchRecovery = s.branchRecovery :=
    rfl
@[simp] theorem State.memWrite_nextSeq (a : Nat) (v : Word) : (s.memWrite a v).nextSeq = s.nextSeq :=
    rfl
@[simp] theorem State.memWrite_cycle (a : Nat) (v : Word) : (s.memWrite a v).cycle = s.cycle := rfl

@[simp] theorem State.setMemReady_program (a : Word) (b : Bool) : (s.setMemReady a b).program = s.program :=
    by unfold State.setMemReady; split <;> rfl
@[simp] theorem State.setMemReady_x (a : Word) (b : Bool) : (s.setMemReady a b).x = s.x :=
    by unfold State.setMemReady; split <;> rfl
@[simp] theorem State.setMemReady_xvalid (a : Word) (b : Bool) : (s.setMemReady a b).xvalid = s.xvalid :=
    by unfold State.setMemReady; split <;> rfl
@[simp] theorem State.setMemReady_z (a : Word) (b : Bool) : (s.setMemReady a b).z = s.z :=
    by unfold State.setMemReady; split <;> rfl
@[simp] theorem State.setMemReady_dmem (a : Word) (b : Bool) : (s.setMemReady a b).dmem = s.dmem :=
    by unfold State.setMemReady; split <;> rfl
@[simp] theorem State.setMemReady_pc (a : Word) (b : Bool) : (s.setMemReady a b).pc = s.pc :=
    by unfold State.setMemReady; split <;> rfl
@[simp] theorem State.setMemReady_retired (a : Word) (b : Bool) : (s.setMemReady a b).retired = s.retired :=
    by unfold State.setMemReady; split <;> rfl
@[simp] theorem State.setMemReady_status (a : Word) (b : Bool) : (s.setMemReady a b).status = s.status :=
    by unfold State.setMemReady; split <;> rfl
@[simp] theorem State.setMemReady_fl (a : Word) (b : Bool) : (s.setMemReady a b).fl = s.fl :=
    by unfold State.setMemReady; split <;> rfl
@[simp] theorem State.setMemReady_rm (a : Word) (b : Bool) : (s.setMemReady a b).rm = s.rm :=
    by unfold State.setMemReady; split <;> rfl
@[simp] theorem State.setMemReady_ready (a : Word) (b : Bool) : (s.setMemReady a b).ready = s.ready :=
    by unfold State.setMemReady; split <;> rfl
@[simp] theorem State.setMemReady_value (a : Word) (b : Bool) : (s.setMemReady a b).value = s.value :=
    by unfold State.setMemReady; split <;> rfl
@[simp] theorem State.setMemReady_agenReady (a : Word) (b : Bool) : (s.setMemReady a b).agenReady = s.agenReady :=
    by unfold State.setMemReady; split <;> rfl
@[simp] theorem State.setMemReady_agenAddr (a : Word) (b : Bool) : (s.setMemReady a b).agenAddr = s.agenAddr :=
    by unfold State.setMemReady; split <;> rfl
@[simp] theorem State.setMemReady_storeDone (a : Word) (b : Bool) : (s.setMemReady a b).storeDone = s.storeDone :=
    by unfold State.setMemReady; split <;> rfl
@[simp] theorem State.setMemReady_dec (a : Word) (b : Bool) : (s.setMemReady a b).dec = s.dec :=
    by unfold State.setMemReady; split <;> rfl
@[simp] theorem State.setMemReady_dsp (a : Word) (b : Bool) : (s.setMemReady a b).dsp = s.dsp :=
    by unfold State.setMemReady; split <;> rfl
@[simp] theorem State.setMemReady_iq (a : Word) (b : Bool) : (s.setMemReady a b).iq = s.iq :=
    by unfold State.setMemReady; split <;> rfl
@[simp] theorem State.setMemReady_lsq (a : Word) (b : Bool) : (s.setMemReady a b).lsq = s.lsq :=
    by unfold State.setMemReady; split <;> rfl
@[simp] theorem State.setMemReady_rob (a : Word) (b : Bool) : (s.setMemReady a b).rob = s.rob :=
    by unfold State.setMemReady; split <;> rfl
@[simp] theorem State.setMemReady_int (a : Word) (b : Bool) : (s.setMemReady a b).int = s.int :=
    by unfold State.setMemReady; split <;> rfl
@[simp] theorem State.setMemReady_log (a : Word) (b : Bool) : (s.setMemReady a b).log = s.log :=
    by unfold State.setMemReady; split <;> rfl
@[simp] theorem State.setMemReady_mul1 (a : Word) (b : Bool) : (s.setMemReady a b).mul1 = s.mul1 :=
    by unfold State.setMemReady; split <;> rfl
@[simp] theorem State.setMemReady_mul2 (a : Word) (b : Bool) : (s.setMemReady a b).mul2 = s.mul2 :=
    by unfold State.setMemReady; split <;> rfl
@[simp] theorem State.setMemReady_mul3 (a : Word) (b : Bool) : (s.setMemReady a b).mul3 = s.mul3 :=
    by unfold State.setMemReady; split <;> rfl
@[simp] theorem State.setMemReady_mul4 (a : Word) (b : Bool) : (s.setMemReady a b).mul4 = s.mul4 :=
    by unfold State.setMemReady; split <;> rfl
@[simp] theorem State.setMemReady_dc (a : Word) (b : Bool) : (s.setMemReady a b).dc = s.dc :=
    by unfold State.setMemReady; split <;> rfl
@[simp] theorem State.setMemReady_btb (a : Word) (b : Bool) : (s.setMemReady a b).btb = s.btb :=
    by unfold State.setMemReady; split <;> rfl
@[simp] theorem State.setMemReady_redirectPending (a : Word) (b : Bool) : (s.setMemReady a b).redirectPending = s.redirectPending :=
    by unfold State.setMemReady; split <;> rfl
@[simp] theorem State.setMemReady_jumpInFlight (a : Word) (b : Bool) : (s.setMemReady a b).jumpInFlight = s.jumpInFlight :=
    by unfold State.setMemReady; split <;> rfl
@[simp] theorem State.setMemReady_jumpTaken (a : Word) (b : Bool) : (s.setMemReady a b).jumpTaken = s.jumpTaken :=
    by unfold State.setMemReady; split <;> rfl
@[simp] theorem State.setMemReady_jumpTarget (a : Word) (b : Bool) : (s.setMemReady a b).jumpTarget = s.jumpTarget :=
    by unfold State.setMemReady; split <;> rfl
@[simp] theorem State.setMemReady_branchRecovery (a : Word) (b : Bool) : (s.setMemReady a b).branchRecovery = s.branchRecovery :=
    by unfold State.setMemReady; split <;> rfl
@[simp] theorem State.setMemReady_nextSeq (a : Word) (b : Bool) : (s.setMemReady a b).nextSeq = s.nextSeq :=
    by unfold State.setMemReady; split <;> rfl
@[simp] theorem State.setMemReady_cycle (a : Word) (b : Bool) : (s.setMemReady a b).cycle = s.cycle :=
    by unfold State.setMemReady; split <;> rfl

@[simp] theorem State.setAgen_program (a ea : Word) : (s.setAgen a ea).program = s.program := rfl
@[simp] theorem State.setAgen_x (a ea : Word) : (s.setAgen a ea).x = s.x := rfl
@[simp] theorem State.setAgen_xvalid (a ea : Word) : (s.setAgen a ea).xvalid = s.xvalid := rfl
@[simp] theorem State.setAgen_z (a ea : Word) : (s.setAgen a ea).z = s.z := rfl
@[simp] theorem State.setAgen_dmem (a ea : Word) : (s.setAgen a ea).dmem = s.dmem := rfl
@[simp] theorem State.setAgen_pc (a ea : Word) : (s.setAgen a ea).pc = s.pc := rfl
@[simp] theorem State.setAgen_retired (a ea : Word) : (s.setAgen a ea).retired = s.retired := rfl
@[simp] theorem State.setAgen_status (a ea : Word) : (s.setAgen a ea).status = s.status := rfl
@[simp] theorem State.setAgen_fl (a ea : Word) : (s.setAgen a ea).fl = s.fl := rfl
@[simp] theorem State.setAgen_rm (a ea : Word) : (s.setAgen a ea).rm = s.rm := rfl
@[simp] theorem State.setAgen_ready (a ea : Word) : (s.setAgen a ea).ready = s.ready := rfl
@[simp] theorem State.setAgen_value (a ea : Word) : (s.setAgen a ea).value = s.value := rfl
@[simp] theorem State.setAgen_memReady (a ea : Word) : (s.setAgen a ea).memReady = s.memReady := rfl
@[simp] theorem State.setAgen_agenReady (a ea : Word) : (s.setAgen a ea).agenReady = Sparse.write false s.agenReady (recordIndex a) true :=
    rfl
@[simp] theorem State.setAgen_agenAddr (a ea : Word) : (s.setAgen a ea).agenAddr = Sparse.write 0#32 s.agenAddr (recordIndex a) ea :=
    rfl
@[simp] theorem State.setAgen_storeDone (a ea : Word) : (s.setAgen a ea).storeDone = s.storeDone :=
    rfl
@[simp] theorem State.setAgen_dec (a ea : Word) : (s.setAgen a ea).dec = s.dec := rfl
@[simp] theorem State.setAgen_dsp (a ea : Word) : (s.setAgen a ea).dsp = s.dsp := rfl
@[simp] theorem State.setAgen_iq (a ea : Word) : (s.setAgen a ea).iq = s.iq := rfl
@[simp] theorem State.setAgen_lsq (a ea : Word) : (s.setAgen a ea).lsq = s.lsq := rfl
@[simp] theorem State.setAgen_rob (a ea : Word) : (s.setAgen a ea).rob = s.rob := rfl
@[simp] theorem State.setAgen_int (a ea : Word) : (s.setAgen a ea).int = s.int := rfl
@[simp] theorem State.setAgen_log (a ea : Word) : (s.setAgen a ea).log = s.log := rfl
@[simp] theorem State.setAgen_mul1 (a ea : Word) : (s.setAgen a ea).mul1 = s.mul1 := rfl
@[simp] theorem State.setAgen_mul2 (a ea : Word) : (s.setAgen a ea).mul2 = s.mul2 := rfl
@[simp] theorem State.setAgen_mul3 (a ea : Word) : (s.setAgen a ea).mul3 = s.mul3 := rfl
@[simp] theorem State.setAgen_mul4 (a ea : Word) : (s.setAgen a ea).mul4 = s.mul4 := rfl
@[simp] theorem State.setAgen_dc (a ea : Word) : (s.setAgen a ea).dc = s.dc := rfl
@[simp] theorem State.setAgen_btb (a ea : Word) : (s.setAgen a ea).btb = s.btb := rfl
@[simp] theorem State.setAgen_redirectPending (a ea : Word) : (s.setAgen a ea).redirectPending = s.redirectPending :=
    rfl
@[simp] theorem State.setAgen_jumpInFlight (a ea : Word) : (s.setAgen a ea).jumpInFlight = s.jumpInFlight :=
    rfl
@[simp] theorem State.setAgen_jumpTaken (a ea : Word) : (s.setAgen a ea).jumpTaken = s.jumpTaken :=
    rfl
@[simp] theorem State.setAgen_jumpTarget (a ea : Word) : (s.setAgen a ea).jumpTarget = s.jumpTarget :=
    rfl
@[simp] theorem State.setAgen_branchRecovery (a ea : Word) : (s.setAgen a ea).branchRecovery = s.branchRecovery :=
    rfl
@[simp] theorem State.setAgen_nextSeq (a ea : Word) : (s.setAgen a ea).nextSeq = s.nextSeq := rfl
@[simp] theorem State.setAgen_cycle (a ea : Word) : (s.setAgen a ea).cycle = s.cycle := rfl

@[simp] theorem State.clearSlot_program (a : Word) : (s.clearSlot a).program = s.program := rfl
@[simp] theorem State.clearSlot_x (a : Word) : (s.clearSlot a).x = s.x := rfl
@[simp] theorem State.clearSlot_xvalid (a : Word) : (s.clearSlot a).xvalid = s.xvalid := rfl
@[simp] theorem State.clearSlot_z (a : Word) : (s.clearSlot a).z = s.z := rfl
@[simp] theorem State.clearSlot_dmem (a : Word) : (s.clearSlot a).dmem = s.dmem := rfl
@[simp] theorem State.clearSlot_pc (a : Word) : (s.clearSlot a).pc = s.pc := rfl
@[simp] theorem State.clearSlot_retired (a : Word) : (s.clearSlot a).retired = s.retired := rfl
@[simp] theorem State.clearSlot_status (a : Word) : (s.clearSlot a).status = s.status := rfl
@[simp] theorem State.clearSlot_fl (a : Word) : (s.clearSlot a).fl = s.fl := rfl
@[simp] theorem State.clearSlot_rm (a : Word) : (s.clearSlot a).rm = s.rm := rfl
@[simp] theorem State.clearSlot_ready (a : Word) : (s.clearSlot a).ready = s.ready := rfl
@[simp] theorem State.clearSlot_value (a : Word) : (s.clearSlot a).value = s.value := rfl
@[simp] theorem State.clearSlot_memReady (a : Word) : (s.clearSlot a).memReady = s.memReady := rfl
@[simp] theorem State.clearSlot_agenReady (a : Word) : (s.clearSlot a).agenReady = Sparse.write false s.agenReady (recordIndex a) false :=
    rfl
@[simp] theorem State.clearSlot_agenAddr (a : Word) : (s.clearSlot a).agenAddr = s.agenAddr := rfl
@[simp] theorem State.clearSlot_storeDone (a : Word) : (s.clearSlot a).storeDone = Sparse.write false s.storeDone (recordIndex a) false :=
    rfl
@[simp] theorem State.clearSlot_dec (a : Word) : (s.clearSlot a).dec = s.dec := rfl
@[simp] theorem State.clearSlot_dsp (a : Word) : (s.clearSlot a).dsp = s.dsp := rfl
@[simp] theorem State.clearSlot_iq (a : Word) : (s.clearSlot a).iq = s.iq := rfl
@[simp] theorem State.clearSlot_lsq (a : Word) : (s.clearSlot a).lsq = s.lsq := rfl
@[simp] theorem State.clearSlot_rob (a : Word) : (s.clearSlot a).rob = s.rob := rfl
@[simp] theorem State.clearSlot_int (a : Word) : (s.clearSlot a).int = s.int := rfl
@[simp] theorem State.clearSlot_log (a : Word) : (s.clearSlot a).log = s.log := rfl
@[simp] theorem State.clearSlot_mul1 (a : Word) : (s.clearSlot a).mul1 = s.mul1 := rfl
@[simp] theorem State.clearSlot_mul2 (a : Word) : (s.clearSlot a).mul2 = s.mul2 := rfl
@[simp] theorem State.clearSlot_mul3 (a : Word) : (s.clearSlot a).mul3 = s.mul3 := rfl
@[simp] theorem State.clearSlot_mul4 (a : Word) : (s.clearSlot a).mul4 = s.mul4 := rfl
@[simp] theorem State.clearSlot_dc (a : Word) : (s.clearSlot a).dc = s.dc := rfl
@[simp] theorem State.clearSlot_btb (a : Word) : (s.clearSlot a).btb = s.btb := rfl
@[simp] theorem State.clearSlot_redirectPending (a : Word) : (s.clearSlot a).redirectPending = s.redirectPending :=
    rfl
@[simp] theorem State.clearSlot_jumpInFlight (a : Word) : (s.clearSlot a).jumpInFlight = s.jumpInFlight :=
    rfl
@[simp] theorem State.clearSlot_jumpTaken (a : Word) : (s.clearSlot a).jumpTaken = s.jumpTaken :=
    rfl
@[simp] theorem State.clearSlot_jumpTarget (a : Word) : (s.clearSlot a).jumpTarget = s.jumpTarget :=
    rfl
@[simp] theorem State.clearSlot_branchRecovery (a : Word) : (s.clearSlot a).branchRecovery = s.branchRecovery :=
    rfl
@[simp] theorem State.clearSlot_nextSeq (a : Word) : (s.clearSlot a).nextSeq = s.nextSeq := rfl
@[simp] theorem State.clearSlot_cycle (a : Word) : (s.clearSlot a).cycle = s.cycle := rfl

@[simp] theorem State.setStoreDone_program (a : Word) : (s.setStoreDone a).program = s.program :=
    rfl
@[simp] theorem State.setStoreDone_x (a : Word) : (s.setStoreDone a).x = s.x := rfl
@[simp] theorem State.setStoreDone_xvalid (a : Word) : (s.setStoreDone a).xvalid = s.xvalid := rfl
@[simp] theorem State.setStoreDone_z (a : Word) : (s.setStoreDone a).z = s.z := rfl
@[simp] theorem State.setStoreDone_dmem (a : Word) : (s.setStoreDone a).dmem = s.dmem := rfl
@[simp] theorem State.setStoreDone_pc (a : Word) : (s.setStoreDone a).pc = s.pc := rfl
@[simp] theorem State.setStoreDone_retired (a : Word) : (s.setStoreDone a).retired = s.retired :=
    rfl
@[simp] theorem State.setStoreDone_status (a : Word) : (s.setStoreDone a).status = s.status := rfl
@[simp] theorem State.setStoreDone_fl (a : Word) : (s.setStoreDone a).fl = s.fl := rfl
@[simp] theorem State.setStoreDone_rm (a : Word) : (s.setStoreDone a).rm = s.rm := rfl
@[simp] theorem State.setStoreDone_ready (a : Word) : (s.setStoreDone a).ready = s.ready := rfl
@[simp] theorem State.setStoreDone_value (a : Word) : (s.setStoreDone a).value = s.value := rfl
@[simp] theorem State.setStoreDone_memReady (a : Word) : (s.setStoreDone a).memReady = s.memReady :=
    rfl
@[simp] theorem State.setStoreDone_agenReady (a : Word) : (s.setStoreDone a).agenReady = s.agenReady :=
    rfl
@[simp] theorem State.setStoreDone_agenAddr (a : Word) : (s.setStoreDone a).agenAddr = s.agenAddr :=
    rfl
@[simp] theorem State.setStoreDone_storeDone (a : Word) : (s.setStoreDone a).storeDone = Sparse.write false s.storeDone (recordIndex a) true :=
    rfl
@[simp] theorem State.setStoreDone_dec (a : Word) : (s.setStoreDone a).dec = s.dec := rfl
@[simp] theorem State.setStoreDone_dsp (a : Word) : (s.setStoreDone a).dsp = s.dsp := rfl
@[simp] theorem State.setStoreDone_iq (a : Word) : (s.setStoreDone a).iq = s.iq := rfl
@[simp] theorem State.setStoreDone_lsq (a : Word) : (s.setStoreDone a).lsq = s.lsq := rfl
@[simp] theorem State.setStoreDone_rob (a : Word) : (s.setStoreDone a).rob = s.rob := rfl
@[simp] theorem State.setStoreDone_int (a : Word) : (s.setStoreDone a).int = s.int := rfl
@[simp] theorem State.setStoreDone_log (a : Word) : (s.setStoreDone a).log = s.log := rfl
@[simp] theorem State.setStoreDone_mul1 (a : Word) : (s.setStoreDone a).mul1 = s.mul1 := rfl
@[simp] theorem State.setStoreDone_mul2 (a : Word) : (s.setStoreDone a).mul2 = s.mul2 := rfl
@[simp] theorem State.setStoreDone_mul3 (a : Word) : (s.setStoreDone a).mul3 = s.mul3 := rfl
@[simp] theorem State.setStoreDone_mul4 (a : Word) : (s.setStoreDone a).mul4 = s.mul4 := rfl
@[simp] theorem State.setStoreDone_dc (a : Word) : (s.setStoreDone a).dc = s.dc := rfl
@[simp] theorem State.setStoreDone_btb (a : Word) : (s.setStoreDone a).btb = s.btb := rfl
@[simp] theorem State.setStoreDone_redirectPending (a : Word) : (s.setStoreDone a).redirectPending = s.redirectPending :=
    rfl
@[simp] theorem State.setStoreDone_jumpInFlight (a : Word) : (s.setStoreDone a).jumpInFlight = s.jumpInFlight :=
    rfl
@[simp] theorem State.setStoreDone_jumpTaken (a : Word) : (s.setStoreDone a).jumpTaken = s.jumpTaken :=
    rfl
@[simp] theorem State.setStoreDone_jumpTarget (a : Word) : (s.setStoreDone a).jumpTarget = s.jumpTarget :=
    rfl
@[simp] theorem State.setStoreDone_branchRecovery (a : Word) : (s.setStoreDone a).branchRecovery = s.branchRecovery :=
    rfl
@[simp] theorem State.setStoreDone_nextSeq (a : Word) : (s.setStoreDone a).nextSeq = s.nextSeq :=
    rfl
@[simp] theorem State.setStoreDone_cycle (a : Word) : (s.setStoreDone a).cycle = s.cycle := rfl

@[simp] theorem State.setBtb_program (a : Word) (e : BtbEntry) : (s.setBtb a e).program = s.program :=
    rfl
@[simp] theorem State.setBtb_x (a : Word) (e : BtbEntry) : (s.setBtb a e).x = s.x := rfl
@[simp] theorem State.setBtb_xvalid (a : Word) (e : BtbEntry) : (s.setBtb a e).xvalid = s.xvalid :=
    rfl
@[simp] theorem State.setBtb_z (a : Word) (e : BtbEntry) : (s.setBtb a e).z = s.z := rfl
@[simp] theorem State.setBtb_dmem (a : Word) (e : BtbEntry) : (s.setBtb a e).dmem = s.dmem := rfl
@[simp] theorem State.setBtb_pc (a : Word) (e : BtbEntry) : (s.setBtb a e).pc = s.pc := rfl
@[simp] theorem State.setBtb_retired (a : Word) (e : BtbEntry) : (s.setBtb a e).retired = s.retired :=
    rfl
@[simp] theorem State.setBtb_status (a : Word) (e : BtbEntry) : (s.setBtb a e).status = s.status :=
    rfl
@[simp] theorem State.setBtb_fl (a : Word) (e : BtbEntry) : (s.setBtb a e).fl = s.fl := rfl
@[simp] theorem State.setBtb_rm (a : Word) (e : BtbEntry) : (s.setBtb a e).rm = s.rm := rfl
@[simp] theorem State.setBtb_ready (a : Word) (e : BtbEntry) : (s.setBtb a e).ready = s.ready := rfl
@[simp] theorem State.setBtb_value (a : Word) (e : BtbEntry) : (s.setBtb a e).value = s.value := rfl
@[simp] theorem State.setBtb_memReady (a : Word) (e : BtbEntry) : (s.setBtb a e).memReady = s.memReady :=
    rfl
@[simp] theorem State.setBtb_agenReady (a : Word) (e : BtbEntry) : (s.setBtb a e).agenReady = s.agenReady :=
    rfl
@[simp] theorem State.setBtb_agenAddr (a : Word) (e : BtbEntry) : (s.setBtb a e).agenAddr = s.agenAddr :=
    rfl
@[simp] theorem State.setBtb_storeDone (a : Word) (e : BtbEntry) : (s.setBtb a e).storeDone = s.storeDone :=
    rfl
@[simp] theorem State.setBtb_dec (a : Word) (e : BtbEntry) : (s.setBtb a e).dec = s.dec := rfl
@[simp] theorem State.setBtb_dsp (a : Word) (e : BtbEntry) : (s.setBtb a e).dsp = s.dsp := rfl
@[simp] theorem State.setBtb_iq (a : Word) (e : BtbEntry) : (s.setBtb a e).iq = s.iq := rfl
@[simp] theorem State.setBtb_lsq (a : Word) (e : BtbEntry) : (s.setBtb a e).lsq = s.lsq := rfl
@[simp] theorem State.setBtb_rob (a : Word) (e : BtbEntry) : (s.setBtb a e).rob = s.rob := rfl
@[simp] theorem State.setBtb_int (a : Word) (e : BtbEntry) : (s.setBtb a e).int = s.int := rfl
@[simp] theorem State.setBtb_log (a : Word) (e : BtbEntry) : (s.setBtb a e).log = s.log := rfl
@[simp] theorem State.setBtb_mul1 (a : Word) (e : BtbEntry) : (s.setBtb a e).mul1 = s.mul1 := rfl
@[simp] theorem State.setBtb_mul2 (a : Word) (e : BtbEntry) : (s.setBtb a e).mul2 = s.mul2 := rfl
@[simp] theorem State.setBtb_mul3 (a : Word) (e : BtbEntry) : (s.setBtb a e).mul3 = s.mul3 := rfl
@[simp] theorem State.setBtb_mul4 (a : Word) (e : BtbEntry) : (s.setBtb a e).mul4 = s.mul4 := rfl
@[simp] theorem State.setBtb_dc (a : Word) (e : BtbEntry) : (s.setBtb a e).dc = s.dc := rfl
@[simp] theorem State.setBtb_btb (a : Word) (e : BtbEntry) : (s.setBtb a e).btb = Sparse.write BtbEntry.absent s.btb (recordIndex a) e :=
    rfl
@[simp] theorem State.setBtb_redirectPending (a : Word) (e : BtbEntry) : (s.setBtb a e).redirectPending = s.redirectPending :=
    rfl
@[simp] theorem State.setBtb_jumpInFlight (a : Word) (e : BtbEntry) : (s.setBtb a e).jumpInFlight = s.jumpInFlight :=
    rfl
@[simp] theorem State.setBtb_jumpTaken (a : Word) (e : BtbEntry) : (s.setBtb a e).jumpTaken = s.jumpTaken :=
    rfl
@[simp] theorem State.setBtb_jumpTarget (a : Word) (e : BtbEntry) : (s.setBtb a e).jumpTarget = s.jumpTarget :=
    rfl
@[simp] theorem State.setBtb_branchRecovery (a : Word) (e : BtbEntry) : (s.setBtb a e).branchRecovery = s.branchRecovery :=
    rfl
@[simp] theorem State.setBtb_nextSeq (a : Word) (e : BtbEntry) : (s.setBtb a e).nextSeq = s.nextSeq :=
    rfl
@[simp] theorem State.setBtb_cycle (a : Word) (e : BtbEntry) : (s.setBtb a e).cycle = s.cycle := rfl

@[simp] theorem State.writeReg_program (r : Reg) (v : Word) : (s.writeReg r v).program = s.program :=
    rfl
@[simp] theorem State.writeReg_x (r : Reg) (v : Word) : (s.writeReg r v).x = s.x.set r.val v r.isLt :=
    rfl
@[simp] theorem State.writeReg_xvalid (r : Reg) (v : Word) : (s.writeReg r v).xvalid = s.xvalid.set r.val true r.isLt :=
    rfl
@[simp] theorem State.writeReg_z (r : Reg) (v : Word) : (s.writeReg r v).z = s.z := rfl
@[simp] theorem State.writeReg_dmem (r : Reg) (v : Word) : (s.writeReg r v).dmem = s.dmem := rfl
@[simp] theorem State.writeReg_pc (r : Reg) (v : Word) : (s.writeReg r v).pc = s.pc := rfl
@[simp] theorem State.writeReg_retired (r : Reg) (v : Word) : (s.writeReg r v).retired = s.retired :=
    rfl
@[simp] theorem State.writeReg_status (r : Reg) (v : Word) : (s.writeReg r v).status = s.status :=
    rfl
@[simp] theorem State.writeReg_fl (r : Reg) (v : Word) : (s.writeReg r v).fl = s.fl := rfl
@[simp] theorem State.writeReg_rm (r : Reg) (v : Word) : (s.writeReg r v).rm = s.rm := rfl
@[simp] theorem State.writeReg_ready (r : Reg) (v : Word) : (s.writeReg r v).ready = s.ready := rfl
@[simp] theorem State.writeReg_value (r : Reg) (v : Word) : (s.writeReg r v).value = s.value := rfl
@[simp] theorem State.writeReg_memReady (r : Reg) (v : Word) : (s.writeReg r v).memReady = s.memReady :=
    rfl
@[simp] theorem State.writeReg_agenReady (r : Reg) (v : Word) : (s.writeReg r v).agenReady = s.agenReady :=
    rfl
@[simp] theorem State.writeReg_agenAddr (r : Reg) (v : Word) : (s.writeReg r v).agenAddr = s.agenAddr :=
    rfl
@[simp] theorem State.writeReg_storeDone (r : Reg) (v : Word) : (s.writeReg r v).storeDone = s.storeDone :=
    rfl
@[simp] theorem State.writeReg_dec (r : Reg) (v : Word) : (s.writeReg r v).dec = s.dec := rfl
@[simp] theorem State.writeReg_dsp (r : Reg) (v : Word) : (s.writeReg r v).dsp = s.dsp := rfl
@[simp] theorem State.writeReg_iq (r : Reg) (v : Word) : (s.writeReg r v).iq = s.iq := rfl
@[simp] theorem State.writeReg_lsq (r : Reg) (v : Word) : (s.writeReg r v).lsq = s.lsq := rfl
@[simp] theorem State.writeReg_rob (r : Reg) (v : Word) : (s.writeReg r v).rob = s.rob := rfl
@[simp] theorem State.writeReg_int (r : Reg) (v : Word) : (s.writeReg r v).int = s.int := rfl
@[simp] theorem State.writeReg_log (r : Reg) (v : Word) : (s.writeReg r v).log = s.log := rfl
@[simp] theorem State.writeReg_mul1 (r : Reg) (v : Word) : (s.writeReg r v).mul1 = s.mul1 := rfl
@[simp] theorem State.writeReg_mul2 (r : Reg) (v : Word) : (s.writeReg r v).mul2 = s.mul2 := rfl
@[simp] theorem State.writeReg_mul3 (r : Reg) (v : Word) : (s.writeReg r v).mul3 = s.mul3 := rfl
@[simp] theorem State.writeReg_mul4 (r : Reg) (v : Word) : (s.writeReg r v).mul4 = s.mul4 := rfl
@[simp] theorem State.writeReg_dc (r : Reg) (v : Word) : (s.writeReg r v).dc = s.dc := rfl
@[simp] theorem State.writeReg_btb (r : Reg) (v : Word) : (s.writeReg r v).btb = s.btb := rfl
@[simp] theorem State.writeReg_redirectPending (r : Reg) (v : Word) : (s.writeReg r v).redirectPending = s.redirectPending :=
    rfl
@[simp] theorem State.writeReg_jumpInFlight (r : Reg) (v : Word) : (s.writeReg r v).jumpInFlight = s.jumpInFlight :=
    rfl
@[simp] theorem State.writeReg_jumpTaken (r : Reg) (v : Word) : (s.writeReg r v).jumpTaken = s.jumpTaken :=
    rfl
@[simp] theorem State.writeReg_jumpTarget (r : Reg) (v : Word) : (s.writeReg r v).jumpTarget = s.jumpTarget :=
    rfl
@[simp] theorem State.writeReg_branchRecovery (r : Reg) (v : Word) : (s.writeReg r v).branchRecovery = s.branchRecovery :=
    rfl
@[simp] theorem State.writeReg_nextSeq (r : Reg) (v : Word) : (s.writeReg r v).nextSeq = s.nextSeq :=
    rfl
@[simp] theorem State.writeReg_cycle (r : Reg) (v : Word) : (s.writeReg r v).cycle = s.cycle := rfl

@[simp] theorem State.setReady_program (p : Phys) (b : Bool) : (s.setReady p b).program = s.program :=
    rfl
@[simp] theorem State.setReady_x (p : Phys) (b : Bool) : (s.setReady p b).x = s.x := rfl
@[simp] theorem State.setReady_xvalid (p : Phys) (b : Bool) : (s.setReady p b).xvalid = s.xvalid :=
    rfl
@[simp] theorem State.setReady_z (p : Phys) (b : Bool) : (s.setReady p b).z = s.z := rfl
@[simp] theorem State.setReady_dmem (p : Phys) (b : Bool) : (s.setReady p b).dmem = s.dmem := rfl
@[simp] theorem State.setReady_pc (p : Phys) (b : Bool) : (s.setReady p b).pc = s.pc := rfl
@[simp] theorem State.setReady_retired (p : Phys) (b : Bool) : (s.setReady p b).retired = s.retired :=
    rfl
@[simp] theorem State.setReady_status (p : Phys) (b : Bool) : (s.setReady p b).status = s.status :=
    rfl
@[simp] theorem State.setReady_fl (p : Phys) (b : Bool) : (s.setReady p b).fl = s.fl := rfl
@[simp] theorem State.setReady_rm (p : Phys) (b : Bool) : (s.setReady p b).rm = s.rm := rfl
@[simp] theorem State.setReady_ready (p : Phys) (b : Bool) : (s.setReady p b).ready = s.ready.set p.val b p.isLt :=
    rfl
@[simp] theorem State.setReady_value (p : Phys) (b : Bool) : (s.setReady p b).value = s.value := rfl
@[simp] theorem State.setReady_memReady (p : Phys) (b : Bool) : (s.setReady p b).memReady = s.memReady :=
    rfl
@[simp] theorem State.setReady_agenReady (p : Phys) (b : Bool) : (s.setReady p b).agenReady = s.agenReady :=
    rfl
@[simp] theorem State.setReady_agenAddr (p : Phys) (b : Bool) : (s.setReady p b).agenAddr = s.agenAddr :=
    rfl
@[simp] theorem State.setReady_storeDone (p : Phys) (b : Bool) : (s.setReady p b).storeDone = s.storeDone :=
    rfl
@[simp] theorem State.setReady_dec (p : Phys) (b : Bool) : (s.setReady p b).dec = s.dec := rfl
@[simp] theorem State.setReady_dsp (p : Phys) (b : Bool) : (s.setReady p b).dsp = s.dsp := rfl
@[simp] theorem State.setReady_iq (p : Phys) (b : Bool) : (s.setReady p b).iq = s.iq := rfl
@[simp] theorem State.setReady_lsq (p : Phys) (b : Bool) : (s.setReady p b).lsq = s.lsq := rfl
@[simp] theorem State.setReady_rob (p : Phys) (b : Bool) : (s.setReady p b).rob = s.rob := rfl
@[simp] theorem State.setReady_int (p : Phys) (b : Bool) : (s.setReady p b).int = s.int := rfl
@[simp] theorem State.setReady_log (p : Phys) (b : Bool) : (s.setReady p b).log = s.log := rfl
@[simp] theorem State.setReady_mul1 (p : Phys) (b : Bool) : (s.setReady p b).mul1 = s.mul1 := rfl
@[simp] theorem State.setReady_mul2 (p : Phys) (b : Bool) : (s.setReady p b).mul2 = s.mul2 := rfl
@[simp] theorem State.setReady_mul3 (p : Phys) (b : Bool) : (s.setReady p b).mul3 = s.mul3 := rfl
@[simp] theorem State.setReady_mul4 (p : Phys) (b : Bool) : (s.setReady p b).mul4 = s.mul4 := rfl
@[simp] theorem State.setReady_dc (p : Phys) (b : Bool) : (s.setReady p b).dc = s.dc := rfl
@[simp] theorem State.setReady_btb (p : Phys) (b : Bool) : (s.setReady p b).btb = s.btb := rfl
@[simp] theorem State.setReady_redirectPending (p : Phys) (b : Bool) : (s.setReady p b).redirectPending = s.redirectPending :=
    rfl
@[simp] theorem State.setReady_jumpInFlight (p : Phys) (b : Bool) : (s.setReady p b).jumpInFlight = s.jumpInFlight :=
    rfl
@[simp] theorem State.setReady_jumpTaken (p : Phys) (b : Bool) : (s.setReady p b).jumpTaken = s.jumpTaken :=
    rfl
@[simp] theorem State.setReady_jumpTarget (p : Phys) (b : Bool) : (s.setReady p b).jumpTarget = s.jumpTarget :=
    rfl
@[simp] theorem State.setReady_branchRecovery (p : Phys) (b : Bool) : (s.setReady p b).branchRecovery = s.branchRecovery :=
    rfl
@[simp] theorem State.setReady_nextSeq (p : Phys) (b : Bool) : (s.setReady p b).nextSeq = s.nextSeq :=
    rfl
@[simp] theorem State.setReady_cycle (p : Phys) (b : Bool) : (s.setReady p b).cycle = s.cycle := rfl

@[simp] theorem State.writeBack_program (pd : Option Phys) (v : Word) : (s.writeBack pd v).program = s.program :=
    by cases pd <;> rfl
@[simp] theorem State.writeBack_x (pd : Option Phys) (v : Word) : (s.writeBack pd v).x = s.x :=
    by cases pd <;> rfl
@[simp] theorem State.writeBack_xvalid (pd : Option Phys) (v : Word) : (s.writeBack pd v).xvalid = s.xvalid :=
    by cases pd <;> rfl
@[simp] theorem State.writeBack_z (pd : Option Phys) (v : Word) : (s.writeBack pd v).z = s.z :=
    by cases pd <;> rfl
@[simp] theorem State.writeBack_dmem (pd : Option Phys) (v : Word) : (s.writeBack pd v).dmem = s.dmem :=
    by cases pd <;> rfl
@[simp] theorem State.writeBack_pc (pd : Option Phys) (v : Word) : (s.writeBack pd v).pc = s.pc :=
    by cases pd <;> rfl
@[simp] theorem State.writeBack_retired (pd : Option Phys) (v : Word) : (s.writeBack pd v).retired = s.retired :=
    by cases pd <;> rfl
@[simp] theorem State.writeBack_status (pd : Option Phys) (v : Word) : (s.writeBack pd v).status = s.status :=
    by cases pd <;> rfl
@[simp] theorem State.writeBack_fl (pd : Option Phys) (v : Word) : (s.writeBack pd v).fl = s.fl :=
    by cases pd <;> rfl
@[simp] theorem State.writeBack_rm (pd : Option Phys) (v : Word) : (s.writeBack pd v).rm = s.rm :=
    by cases pd <;> rfl
@[simp] theorem State.writeBack_memReady (pd : Option Phys) (v : Word) : (s.writeBack pd v).memReady = s.memReady :=
    by cases pd <;> rfl
@[simp] theorem State.writeBack_agenReady (pd : Option Phys) (v : Word) : (s.writeBack pd v).agenReady = s.agenReady :=
    by cases pd <;> rfl
@[simp] theorem State.writeBack_agenAddr (pd : Option Phys) (v : Word) : (s.writeBack pd v).agenAddr = s.agenAddr :=
    by cases pd <;> rfl
@[simp] theorem State.writeBack_storeDone (pd : Option Phys) (v : Word) : (s.writeBack pd v).storeDone = s.storeDone :=
    by cases pd <;> rfl
@[simp] theorem State.writeBack_dec (pd : Option Phys) (v : Word) : (s.writeBack pd v).dec = s.dec :=
    by cases pd <;> rfl
@[simp] theorem State.writeBack_dsp (pd : Option Phys) (v : Word) : (s.writeBack pd v).dsp = s.dsp :=
    by cases pd <;> rfl
@[simp] theorem State.writeBack_iq (pd : Option Phys) (v : Word) : (s.writeBack pd v).iq = s.iq :=
    by cases pd <;> rfl
@[simp] theorem State.writeBack_lsq (pd : Option Phys) (v : Word) : (s.writeBack pd v).lsq = s.lsq :=
    by cases pd <;> rfl
@[simp] theorem State.writeBack_rob (pd : Option Phys) (v : Word) : (s.writeBack pd v).rob = s.rob :=
    by cases pd <;> rfl
@[simp] theorem State.writeBack_int (pd : Option Phys) (v : Word) : (s.writeBack pd v).int = s.int :=
    by cases pd <;> rfl
@[simp] theorem State.writeBack_log (pd : Option Phys) (v : Word) : (s.writeBack pd v).log = s.log :=
    by cases pd <;> rfl
@[simp] theorem State.writeBack_mul1 (pd : Option Phys) (v : Word) : (s.writeBack pd v).mul1 = s.mul1 :=
    by cases pd <;> rfl
@[simp] theorem State.writeBack_mul2 (pd : Option Phys) (v : Word) : (s.writeBack pd v).mul2 = s.mul2 :=
    by cases pd <;> rfl
@[simp] theorem State.writeBack_mul3 (pd : Option Phys) (v : Word) : (s.writeBack pd v).mul3 = s.mul3 :=
    by cases pd <;> rfl
@[simp] theorem State.writeBack_mul4 (pd : Option Phys) (v : Word) : (s.writeBack pd v).mul4 = s.mul4 :=
    by cases pd <;> rfl
@[simp] theorem State.writeBack_dc (pd : Option Phys) (v : Word) : (s.writeBack pd v).dc = s.dc :=
    by cases pd <;> rfl
@[simp] theorem State.writeBack_btb (pd : Option Phys) (v : Word) : (s.writeBack pd v).btb = s.btb :=
    by cases pd <;> rfl
@[simp] theorem State.writeBack_redirectPending (pd : Option Phys) (v : Word) : (s.writeBack pd v).redirectPending = s.redirectPending :=
    by cases pd <;> rfl
@[simp] theorem State.writeBack_jumpInFlight (pd : Option Phys) (v : Word) : (s.writeBack pd v).jumpInFlight = s.jumpInFlight :=
    by cases pd <;> rfl
@[simp] theorem State.writeBack_jumpTaken (pd : Option Phys) (v : Word) : (s.writeBack pd v).jumpTaken = s.jumpTaken :=
    by cases pd <;> rfl
@[simp] theorem State.writeBack_jumpTarget (pd : Option Phys) (v : Word) : (s.writeBack pd v).jumpTarget = s.jumpTarget :=
    by cases pd <;> rfl
@[simp] theorem State.writeBack_branchRecovery (pd : Option Phys) (v : Word) : (s.writeBack pd v).branchRecovery = s.branchRecovery :=
    by cases pd <;> rfl
@[simp] theorem State.writeBack_nextSeq (pd : Option Phys) (v : Word) : (s.writeBack pd v).nextSeq = s.nextSeq :=
    by cases pd <;> rfl
@[simp] theorem State.writeBack_cycle (pd : Option Phys) (v : Word) : (s.writeBack pd v).cycle = s.cycle :=
    by cases pd <;> rfl

@[simp] theorem State.bind_program (a : Reg) (p : Phys) : (s.bind a p).program = s.program := rfl
@[simp] theorem State.bind_x (a : Reg) (p : Phys) : (s.bind a p).x = s.x := rfl
@[simp] theorem State.bind_xvalid (a : Reg) (p : Phys) : (s.bind a p).xvalid = s.xvalid := rfl
@[simp] theorem State.bind_z (a : Reg) (p : Phys) : (s.bind a p).z = s.z := rfl
@[simp] theorem State.bind_dmem (a : Reg) (p : Phys) : (s.bind a p).dmem = s.dmem := rfl
@[simp] theorem State.bind_pc (a : Reg) (p : Phys) : (s.bind a p).pc = s.pc := rfl
@[simp] theorem State.bind_retired (a : Reg) (p : Phys) : (s.bind a p).retired = s.retired := rfl
@[simp] theorem State.bind_status (a : Reg) (p : Phys) : (s.bind a p).status = s.status := rfl
@[simp] theorem State.bind_fl (a : Reg) (p : Phys) : (s.bind a p).fl = s.fl := rfl
@[simp] theorem State.bind_rm (a : Reg) (p : Phys) : (s.bind a p).rm = (a, p) :: s.rm := rfl
@[simp] theorem State.bind_ready (a : Reg) (p : Phys) : (s.bind a p).ready = s.ready := rfl
@[simp] theorem State.bind_value (a : Reg) (p : Phys) : (s.bind a p).value = s.value := rfl
@[simp] theorem State.bind_memReady (a : Reg) (p : Phys) : (s.bind a p).memReady = s.memReady := rfl
@[simp] theorem State.bind_agenReady (a : Reg) (p : Phys) : (s.bind a p).agenReady = s.agenReady :=
    rfl
@[simp] theorem State.bind_agenAddr (a : Reg) (p : Phys) : (s.bind a p).agenAddr = s.agenAddr := rfl
@[simp] theorem State.bind_storeDone (a : Reg) (p : Phys) : (s.bind a p).storeDone = s.storeDone :=
    rfl
@[simp] theorem State.bind_dec (a : Reg) (p : Phys) : (s.bind a p).dec = s.dec := rfl
@[simp] theorem State.bind_dsp (a : Reg) (p : Phys) : (s.bind a p).dsp = s.dsp := rfl
@[simp] theorem State.bind_iq (a : Reg) (p : Phys) : (s.bind a p).iq = s.iq := rfl
@[simp] theorem State.bind_lsq (a : Reg) (p : Phys) : (s.bind a p).lsq = s.lsq := rfl
@[simp] theorem State.bind_rob (a : Reg) (p : Phys) : (s.bind a p).rob = s.rob := rfl
@[simp] theorem State.bind_int (a : Reg) (p : Phys) : (s.bind a p).int = s.int := rfl
@[simp] theorem State.bind_log (a : Reg) (p : Phys) : (s.bind a p).log = s.log := rfl
@[simp] theorem State.bind_mul1 (a : Reg) (p : Phys) : (s.bind a p).mul1 = s.mul1 := rfl
@[simp] theorem State.bind_mul2 (a : Reg) (p : Phys) : (s.bind a p).mul2 = s.mul2 := rfl
@[simp] theorem State.bind_mul3 (a : Reg) (p : Phys) : (s.bind a p).mul3 = s.mul3 := rfl
@[simp] theorem State.bind_mul4 (a : Reg) (p : Phys) : (s.bind a p).mul4 = s.mul4 := rfl
@[simp] theorem State.bind_dc (a : Reg) (p : Phys) : (s.bind a p).dc = s.dc := rfl
@[simp] theorem State.bind_btb (a : Reg) (p : Phys) : (s.bind a p).btb = s.btb := rfl
@[simp] theorem State.bind_redirectPending (a : Reg) (p : Phys) : (s.bind a p).redirectPending = s.redirectPending :=
    rfl
@[simp] theorem State.bind_jumpInFlight (a : Reg) (p : Phys) : (s.bind a p).jumpInFlight = s.jumpInFlight :=
    rfl
@[simp] theorem State.bind_jumpTaken (a : Reg) (p : Phys) : (s.bind a p).jumpTaken = s.jumpTaken :=
    rfl
@[simp] theorem State.bind_jumpTarget (a : Reg) (p : Phys) : (s.bind a p).jumpTarget = s.jumpTarget :=
    rfl
@[simp] theorem State.bind_branchRecovery (a : Reg) (p : Phys) : (s.bind a p).branchRecovery = s.branchRecovery :=
    rfl
@[simp] theorem State.bind_nextSeq (a : Reg) (p : Phys) : (s.bind a p).nextSeq = s.nextSeq := rfl
@[simp] theorem State.bind_cycle (a : Reg) (p : Phys) : (s.bind a p).cycle = s.cycle := rfl

@[simp] theorem State.release_program (p : Phys) : (s.release p).program = s.program := rfl
@[simp] theorem State.release_x (p : Phys) : (s.release p).x = s.x := rfl
@[simp] theorem State.release_xvalid (p : Phys) : (s.release p).xvalid = s.xvalid := rfl
@[simp] theorem State.release_z (p : Phys) : (s.release p).z = s.z := rfl
@[simp] theorem State.release_dmem (p : Phys) : (s.release p).dmem = s.dmem := rfl
@[simp] theorem State.release_pc (p : Phys) : (s.release p).pc = s.pc := rfl
@[simp] theorem State.release_retired (p : Phys) : (s.release p).retired = s.retired := rfl
@[simp] theorem State.release_status (p : Phys) : (s.release p).status = s.status := rfl
@[simp] theorem State.release_fl (p : Phys) : (s.release p).fl = s.fl ++ [p] := rfl
@[simp] theorem State.release_rm (p : Phys) : (s.release p).rm = s.rm.filter fun c => c.2 != p :=
    rfl
@[simp] theorem State.release_ready (p : Phys) : (s.release p).ready = s.ready.set p.val true p.isLt :=
    rfl
@[simp] theorem State.release_value (p : Phys) : (s.release p).value = s.value := rfl
@[simp] theorem State.release_memReady (p : Phys) : (s.release p).memReady = s.memReady := rfl
@[simp] theorem State.release_agenReady (p : Phys) : (s.release p).agenReady = s.agenReady := rfl
@[simp] theorem State.release_agenAddr (p : Phys) : (s.release p).agenAddr = s.agenAddr := rfl
@[simp] theorem State.release_storeDone (p : Phys) : (s.release p).storeDone = s.storeDone := rfl
@[simp] theorem State.release_dec (p : Phys) : (s.release p).dec = s.dec := rfl
@[simp] theorem State.release_dsp (p : Phys) : (s.release p).dsp = s.dsp := rfl
@[simp] theorem State.release_iq (p : Phys) : (s.release p).iq = s.iq := rfl
@[simp] theorem State.release_lsq (p : Phys) : (s.release p).lsq = s.lsq := rfl
@[simp] theorem State.release_rob (p : Phys) : (s.release p).rob = s.rob := rfl
@[simp] theorem State.release_int (p : Phys) : (s.release p).int = s.int := rfl
@[simp] theorem State.release_log (p : Phys) : (s.release p).log = s.log := rfl
@[simp] theorem State.release_mul1 (p : Phys) : (s.release p).mul1 = s.mul1 := rfl
@[simp] theorem State.release_mul2 (p : Phys) : (s.release p).mul2 = s.mul2 := rfl
@[simp] theorem State.release_mul3 (p : Phys) : (s.release p).mul3 = s.mul3 := rfl
@[simp] theorem State.release_mul4 (p : Phys) : (s.release p).mul4 = s.mul4 := rfl
@[simp] theorem State.release_dc (p : Phys) : (s.release p).dc = s.dc := rfl
@[simp] theorem State.release_btb (p : Phys) : (s.release p).btb = s.btb := rfl
@[simp] theorem State.release_redirectPending (p : Phys) : (s.release p).redirectPending = s.redirectPending :=
    rfl
@[simp] theorem State.release_jumpInFlight (p : Phys) : (s.release p).jumpInFlight = s.jumpInFlight :=
    rfl
@[simp] theorem State.release_jumpTaken (p : Phys) : (s.release p).jumpTaken = s.jumpTaken := rfl
@[simp] theorem State.release_jumpTarget (p : Phys) : (s.release p).jumpTarget = s.jumpTarget := rfl
@[simp] theorem State.release_branchRecovery (p : Phys) : (s.release p).branchRecovery = s.branchRecovery :=
    rfl
@[simp] theorem State.release_nextSeq (p : Phys) : (s.release p).nextSeq = s.nextSeq := rfl
@[simp] theorem State.release_cycle (p : Phys) : (s.release p).cycle = s.cycle := rfl

@[simp] theorem State.releaseOf_program (r : Inflight) : (s.releaseOf r).program = s.program :=
    by unfold State.releaseOf; split <;> rfl
@[simp] theorem State.releaseOf_x (r : Inflight) : (s.releaseOf r).x = s.x :=
    by unfold State.releaseOf; split <;> rfl
@[simp] theorem State.releaseOf_xvalid (r : Inflight) : (s.releaseOf r).xvalid = s.xvalid :=
    by unfold State.releaseOf; split <;> rfl
@[simp] theorem State.releaseOf_z (r : Inflight) : (s.releaseOf r).z = s.z :=
    by unfold State.releaseOf; split <;> rfl
@[simp] theorem State.releaseOf_dmem (r : Inflight) : (s.releaseOf r).dmem = s.dmem :=
    by unfold State.releaseOf; split <;> rfl
@[simp] theorem State.releaseOf_pc (r : Inflight) : (s.releaseOf r).pc = s.pc :=
    by unfold State.releaseOf; split <;> rfl
@[simp] theorem State.releaseOf_retired (r : Inflight) : (s.releaseOf r).retired = s.retired :=
    by unfold State.releaseOf; split <;> rfl
@[simp] theorem State.releaseOf_status (r : Inflight) : (s.releaseOf r).status = s.status :=
    by unfold State.releaseOf; split <;> rfl
@[simp] theorem State.releaseOf_value (r : Inflight) : (s.releaseOf r).value = s.value :=
    by unfold State.releaseOf; split <;> rfl
@[simp] theorem State.releaseOf_memReady (r : Inflight) : (s.releaseOf r).memReady = s.memReady :=
    by unfold State.releaseOf; split <;> rfl
@[simp] theorem State.releaseOf_agenReady (r : Inflight) : (s.releaseOf r).agenReady = s.agenReady :=
    by unfold State.releaseOf; split <;> rfl
@[simp] theorem State.releaseOf_agenAddr (r : Inflight) : (s.releaseOf r).agenAddr = s.agenAddr :=
    by unfold State.releaseOf; split <;> rfl
@[simp] theorem State.releaseOf_storeDone (r : Inflight) : (s.releaseOf r).storeDone = s.storeDone :=
    by unfold State.releaseOf; split <;> rfl
@[simp] theorem State.releaseOf_dec (r : Inflight) : (s.releaseOf r).dec = s.dec :=
    by unfold State.releaseOf; split <;> rfl
@[simp] theorem State.releaseOf_dsp (r : Inflight) : (s.releaseOf r).dsp = s.dsp :=
    by unfold State.releaseOf; split <;> rfl
@[simp] theorem State.releaseOf_iq (r : Inflight) : (s.releaseOf r).iq = s.iq :=
    by unfold State.releaseOf; split <;> rfl
@[simp] theorem State.releaseOf_lsq (r : Inflight) : (s.releaseOf r).lsq = s.lsq :=
    by unfold State.releaseOf; split <;> rfl
@[simp] theorem State.releaseOf_rob (r : Inflight) : (s.releaseOf r).rob = s.rob :=
    by unfold State.releaseOf; split <;> rfl
@[simp] theorem State.releaseOf_int (r : Inflight) : (s.releaseOf r).int = s.int :=
    by unfold State.releaseOf; split <;> rfl
@[simp] theorem State.releaseOf_log (r : Inflight) : (s.releaseOf r).log = s.log :=
    by unfold State.releaseOf; split <;> rfl
@[simp] theorem State.releaseOf_mul1 (r : Inflight) : (s.releaseOf r).mul1 = s.mul1 :=
    by unfold State.releaseOf; split <;> rfl
@[simp] theorem State.releaseOf_mul2 (r : Inflight) : (s.releaseOf r).mul2 = s.mul2 :=
    by unfold State.releaseOf; split <;> rfl
@[simp] theorem State.releaseOf_mul3 (r : Inflight) : (s.releaseOf r).mul3 = s.mul3 :=
    by unfold State.releaseOf; split <;> rfl
@[simp] theorem State.releaseOf_mul4 (r : Inflight) : (s.releaseOf r).mul4 = s.mul4 :=
    by unfold State.releaseOf; split <;> rfl
@[simp] theorem State.releaseOf_dc (r : Inflight) : (s.releaseOf r).dc = s.dc :=
    by unfold State.releaseOf; split <;> rfl
@[simp] theorem State.releaseOf_btb (r : Inflight) : (s.releaseOf r).btb = s.btb :=
    by unfold State.releaseOf; split <;> rfl
@[simp] theorem State.releaseOf_redirectPending (r : Inflight) : (s.releaseOf r).redirectPending = s.redirectPending :=
    by unfold State.releaseOf; split <;> rfl
@[simp] theorem State.releaseOf_jumpInFlight (r : Inflight) : (s.releaseOf r).jumpInFlight = s.jumpInFlight :=
    by unfold State.releaseOf; split <;> rfl
@[simp] theorem State.releaseOf_jumpTaken (r : Inflight) : (s.releaseOf r).jumpTaken = s.jumpTaken :=
    by unfold State.releaseOf; split <;> rfl
@[simp] theorem State.releaseOf_jumpTarget (r : Inflight) : (s.releaseOf r).jumpTarget = s.jumpTarget :=
    by unfold State.releaseOf; split <;> rfl
@[simp] theorem State.releaseOf_branchRecovery (r : Inflight) : (s.releaseOf r).branchRecovery = s.branchRecovery :=
    by unfold State.releaseOf; split <;> rfl
@[simp] theorem State.releaseOf_nextSeq (r : Inflight) : (s.releaseOf r).nextSeq = s.nextSeq :=
    by unfold State.releaseOf; split <;> rfl
@[simp] theorem State.releaseOf_cycle (r : Inflight) : (s.releaseOf r).cycle = s.cycle :=
    by unfold State.releaseOf; split <;> rfl

@[simp] theorem State.retarget_program (p : Phys) : (s.retarget p).program = s.program := rfl
@[simp] theorem State.retarget_x (p : Phys) : (s.retarget p).x = s.x := rfl
@[simp] theorem State.retarget_xvalid (p : Phys) : (s.retarget p).xvalid = s.xvalid := rfl
@[simp] theorem State.retarget_z (p : Phys) : (s.retarget p).z = s.z := rfl
@[simp] theorem State.retarget_dmem (p : Phys) : (s.retarget p).dmem = s.dmem := rfl
@[simp] theorem State.retarget_pc (p : Phys) : (s.retarget p).pc = s.pc := rfl
@[simp] theorem State.retarget_retired (p : Phys) : (s.retarget p).retired = s.retired := rfl
@[simp] theorem State.retarget_status (p : Phys) : (s.retarget p).status = s.status := rfl
@[simp] theorem State.retarget_fl (p : Phys) : (s.retarget p).fl = s.fl := rfl
@[simp] theorem State.retarget_rm (p : Phys) : (s.retarget p).rm = s.rm := rfl
@[simp] theorem State.retarget_ready (p : Phys) : (s.retarget p).ready = s.ready := rfl
@[simp] theorem State.retarget_value (p : Phys) : (s.retarget p).value = s.value := rfl
@[simp] theorem State.retarget_memReady (p : Phys) : (s.retarget p).memReady = s.memReady := rfl
@[simp] theorem State.retarget_agenReady (p : Phys) : (s.retarget p).agenReady = s.agenReady := rfl
@[simp] theorem State.retarget_agenAddr (p : Phys) : (s.retarget p).agenAddr = s.agenAddr := rfl
@[simp] theorem State.retarget_storeDone (p : Phys) : (s.retarget p).storeDone = s.storeDone := rfl
@[simp] theorem State.retarget_dec (p : Phys) : (s.retarget p).dec = s.dec := rfl
@[simp] theorem State.retarget_dsp (p : Phys) : (s.retarget p).dsp = s.dsp.map (Inflight.retarget p) :=
    rfl
@[simp] theorem State.retarget_iq (p : Phys) : (s.retarget p).iq = s.iq.map (Inflight.retarget p) :=
    rfl
@[simp] theorem State.retarget_lsq (p : Phys) : (s.retarget p).lsq = s.lsq.map (Inflight.retarget p) :=
    rfl
@[simp] theorem State.retarget_rob (p : Phys) : (s.retarget p).rob = s.rob.map (Inflight.retarget p) :=
    rfl
@[simp] theorem State.retarget_int (p : Phys) : (s.retarget p).int = s.int := rfl
@[simp] theorem State.retarget_log (p : Phys) : (s.retarget p).log = s.log := rfl
@[simp] theorem State.retarget_mul1 (p : Phys) : (s.retarget p).mul1 = s.mul1 := rfl
@[simp] theorem State.retarget_mul2 (p : Phys) : (s.retarget p).mul2 = s.mul2 := rfl
@[simp] theorem State.retarget_mul3 (p : Phys) : (s.retarget p).mul3 = s.mul3 := rfl
@[simp] theorem State.retarget_mul4 (p : Phys) : (s.retarget p).mul4 = s.mul4 := rfl
@[simp] theorem State.retarget_dc (p : Phys) : (s.retarget p).dc = s.dc := rfl
@[simp] theorem State.retarget_btb (p : Phys) : (s.retarget p).btb = s.btb := rfl
@[simp] theorem State.retarget_redirectPending (p : Phys) : (s.retarget p).redirectPending = s.redirectPending :=
    rfl
@[simp] theorem State.retarget_jumpInFlight (p : Phys) : (s.retarget p).jumpInFlight = s.jumpInFlight :=
    rfl
@[simp] theorem State.retarget_jumpTaken (p : Phys) : (s.retarget p).jumpTaken = s.jumpTaken := rfl
@[simp] theorem State.retarget_jumpTarget (p : Phys) : (s.retarget p).jumpTarget = s.jumpTarget :=
    rfl
@[simp] theorem State.retarget_branchRecovery (p : Phys) : (s.retarget p).branchRecovery = s.branchRecovery :=
    rfl
@[simp] theorem State.retarget_nextSeq (p : Phys) : (s.retarget p).nextSeq = s.nextSeq := rfl
@[simp] theorem State.retarget_cycle (p : Phys) : (s.retarget p).cycle = s.cycle := rfl

@[simp] theorem State.onRobEntry_program (q : Nat) (f : Inflight → Inflight) :
    (s.onRobEntry q f).program = s.program := rfl
@[simp] theorem State.onRobEntry_x (q : Nat) (f : Inflight → Inflight) :
    (s.onRobEntry q f).x = s.x := rfl
@[simp] theorem State.onRobEntry_xvalid (q : Nat) (f : Inflight → Inflight) :
    (s.onRobEntry q f).xvalid = s.xvalid := rfl
@[simp] theorem State.onRobEntry_z (q : Nat) (f : Inflight → Inflight) :
    (s.onRobEntry q f).z = s.z := rfl
@[simp] theorem State.onRobEntry_dmem (q : Nat) (f : Inflight → Inflight) :
    (s.onRobEntry q f).dmem = s.dmem := rfl
@[simp] theorem State.onRobEntry_pc (q : Nat) (f : Inflight → Inflight) :
    (s.onRobEntry q f).pc = s.pc := rfl
@[simp] theorem State.onRobEntry_retired (q : Nat) (f : Inflight → Inflight) :
    (s.onRobEntry q f).retired = s.retired := rfl
@[simp] theorem State.onRobEntry_status (q : Nat) (f : Inflight → Inflight) :
    (s.onRobEntry q f).status = s.status := rfl
@[simp] theorem State.onRobEntry_fl (q : Nat) (f : Inflight → Inflight) :
    (s.onRobEntry q f).fl = s.fl := rfl
@[simp] theorem State.onRobEntry_rm (q : Nat) (f : Inflight → Inflight) :
    (s.onRobEntry q f).rm = s.rm := rfl
@[simp] theorem State.onRobEntry_ready (q : Nat) (f : Inflight → Inflight) :
    (s.onRobEntry q f).ready = s.ready := rfl
@[simp] theorem State.onRobEntry_value (q : Nat) (f : Inflight → Inflight) :
    (s.onRobEntry q f).value = s.value := rfl
@[simp] theorem State.onRobEntry_memReady (q : Nat) (f : Inflight → Inflight) :
    (s.onRobEntry q f).memReady = s.memReady := rfl
@[simp] theorem State.onRobEntry_agenReady (q : Nat) (f : Inflight → Inflight) :
    (s.onRobEntry q f).agenReady = s.agenReady := rfl
@[simp] theorem State.onRobEntry_agenAddr (q : Nat) (f : Inflight → Inflight) :
    (s.onRobEntry q f).agenAddr = s.agenAddr := rfl
@[simp] theorem State.onRobEntry_storeDone (q : Nat) (f : Inflight → Inflight) :
    (s.onRobEntry q f).storeDone = s.storeDone := rfl
@[simp] theorem State.onRobEntry_dec (q : Nat) (f : Inflight → Inflight) :
    (s.onRobEntry q f).dec = s.dec := rfl
@[simp] theorem State.onRobEntry_dsp (q : Nat) (f : Inflight → Inflight) :
    (s.onRobEntry q f).dsp = s.dsp := rfl
@[simp] theorem State.onRobEntry_iq (q : Nat) (f : Inflight → Inflight) :
    (s.onRobEntry q f).iq = s.iq := rfl
@[simp] theorem State.onRobEntry_lsq (q : Nat) (f : Inflight → Inflight) :
    (s.onRobEntry q f).lsq = s.lsq := rfl
@[simp] theorem State.onRobEntry_rob (q : Nat) (f : Inflight → Inflight) :
    (s.onRobEntry q f).rob = onTag q f s.rob := rfl
@[simp] theorem State.onRobEntry_int (q : Nat) (f : Inflight → Inflight) :
    (s.onRobEntry q f).int = s.int := rfl
@[simp] theorem State.onRobEntry_log (q : Nat) (f : Inflight → Inflight) :
    (s.onRobEntry q f).log = s.log := rfl
@[simp] theorem State.onRobEntry_mul1 (q : Nat) (f : Inflight → Inflight) :
    (s.onRobEntry q f).mul1 = s.mul1 := rfl
@[simp] theorem State.onRobEntry_mul2 (q : Nat) (f : Inflight → Inflight) :
    (s.onRobEntry q f).mul2 = s.mul2 := rfl
@[simp] theorem State.onRobEntry_mul3 (q : Nat) (f : Inflight → Inflight) :
    (s.onRobEntry q f).mul3 = s.mul3 := rfl
@[simp] theorem State.onRobEntry_mul4 (q : Nat) (f : Inflight → Inflight) :
    (s.onRobEntry q f).mul4 = s.mul4 := rfl
@[simp] theorem State.onRobEntry_dc (q : Nat) (f : Inflight → Inflight) :
    (s.onRobEntry q f).dc = s.dc := rfl
@[simp] theorem State.onRobEntry_btb (q : Nat) (f : Inflight → Inflight) :
    (s.onRobEntry q f).btb = s.btb := rfl
@[simp] theorem State.onRobEntry_redirectPending (q : Nat) (f : Inflight → Inflight) :
    (s.onRobEntry q f).redirectPending = s.redirectPending := rfl
@[simp] theorem State.onRobEntry_jumpInFlight (q : Nat) (f : Inflight → Inflight) :
    (s.onRobEntry q f).jumpInFlight = s.jumpInFlight := rfl
@[simp] theorem State.onRobEntry_jumpTaken (q : Nat) (f : Inflight → Inflight) :
    (s.onRobEntry q f).jumpTaken = s.jumpTaken := rfl
@[simp] theorem State.onRobEntry_jumpTarget (q : Nat) (f : Inflight → Inflight) :
    (s.onRobEntry q f).jumpTarget = s.jumpTarget := rfl
@[simp] theorem State.onRobEntry_branchRecovery (q : Nat) (f : Inflight → Inflight) :
    (s.onRobEntry q f).branchRecovery = s.branchRecovery := rfl
@[simp] theorem State.onRobEntry_nextSeq (q : Nat) (f : Inflight → Inflight) :
    (s.onRobEntry q f).nextSeq = s.nextSeq := rfl
@[simp] theorem State.onRobEntry_cycle (q : Nat) (f : Inflight → Inflight) :
    (s.onRobEntry q f).cycle = s.cycle := rfl

@[simp] theorem State.markExc_program (q : Nat) (f : FaultCode) : (s.markExc q f).program = s.program :=
    rfl
@[simp] theorem State.markExc_x (q : Nat) (f : FaultCode) : (s.markExc q f).x = s.x := rfl
@[simp] theorem State.markExc_xvalid (q : Nat) (f : FaultCode) : (s.markExc q f).xvalid = s.xvalid :=
    rfl
@[simp] theorem State.markExc_z (q : Nat) (f : FaultCode) : (s.markExc q f).z = s.z := rfl
@[simp] theorem State.markExc_dmem (q : Nat) (f : FaultCode) : (s.markExc q f).dmem = s.dmem := rfl
@[simp] theorem State.markExc_pc (q : Nat) (f : FaultCode) : (s.markExc q f).pc = s.pc := rfl
@[simp] theorem State.markExc_retired (q : Nat) (f : FaultCode) : (s.markExc q f).retired = s.retired :=
    rfl
@[simp] theorem State.markExc_status (q : Nat) (f : FaultCode) : (s.markExc q f).status = s.status :=
    rfl
@[simp] theorem State.markExc_fl (q : Nat) (f : FaultCode) : (s.markExc q f).fl = s.fl := rfl
@[simp] theorem State.markExc_rm (q : Nat) (f : FaultCode) : (s.markExc q f).rm = s.rm := rfl
@[simp] theorem State.markExc_ready (q : Nat) (f : FaultCode) : (s.markExc q f).ready = s.ready :=
    rfl
@[simp] theorem State.markExc_value (q : Nat) (f : FaultCode) : (s.markExc q f).value = s.value :=
    rfl
@[simp] theorem State.markExc_memReady (q : Nat) (f : FaultCode) : (s.markExc q f).memReady = s.memReady :=
    rfl
@[simp] theorem State.markExc_agenReady (q : Nat) (f : FaultCode) : (s.markExc q f).agenReady = s.agenReady :=
    rfl
@[simp] theorem State.markExc_agenAddr (q : Nat) (f : FaultCode) : (s.markExc q f).agenAddr = s.agenAddr :=
    rfl
@[simp] theorem State.markExc_storeDone (q : Nat) (f : FaultCode) : (s.markExc q f).storeDone = s.storeDone :=
    rfl
@[simp] theorem State.markExc_dec (q : Nat) (f : FaultCode) : (s.markExc q f).dec = s.dec := rfl
@[simp] theorem State.markExc_dsp (q : Nat) (f : FaultCode) : (s.markExc q f).dsp = s.dsp := rfl
@[simp] theorem State.markExc_iq (q : Nat) (f : FaultCode) : (s.markExc q f).iq = s.iq := rfl
@[simp] theorem State.markExc_lsq (q : Nat) (f : FaultCode) : (s.markExc q f).lsq = s.lsq := rfl
@[simp] theorem State.markExc_rob (q : Nat) (f : FaultCode) : (s.markExc q f).rob = s.rob.map fun e => if e.seq = q then { e with exc := some f } else e :=
    rfl
@[simp] theorem State.markExc_int (q : Nat) (f : FaultCode) : (s.markExc q f).int = s.int := rfl
@[simp] theorem State.markExc_log (q : Nat) (f : FaultCode) : (s.markExc q f).log = s.log := rfl
@[simp] theorem State.markExc_mul1 (q : Nat) (f : FaultCode) : (s.markExc q f).mul1 = s.mul1 := rfl
@[simp] theorem State.markExc_mul2 (q : Nat) (f : FaultCode) : (s.markExc q f).mul2 = s.mul2 := rfl
@[simp] theorem State.markExc_mul3 (q : Nat) (f : FaultCode) : (s.markExc q f).mul3 = s.mul3 := rfl
@[simp] theorem State.markExc_mul4 (q : Nat) (f : FaultCode) : (s.markExc q f).mul4 = s.mul4 := rfl
@[simp] theorem State.markExc_dc (q : Nat) (f : FaultCode) : (s.markExc q f).dc = s.dc := rfl
@[simp] theorem State.markExc_btb (q : Nat) (f : FaultCode) : (s.markExc q f).btb = s.btb := rfl
@[simp] theorem State.markExc_redirectPending (q : Nat) (f : FaultCode) : (s.markExc q f).redirectPending = s.redirectPending :=
    rfl
@[simp] theorem State.markExc_jumpInFlight (q : Nat) (f : FaultCode) : (s.markExc q f).jumpInFlight = s.jumpInFlight :=
    rfl
@[simp] theorem State.markExc_jumpTaken (q : Nat) (f : FaultCode) : (s.markExc q f).jumpTaken = s.jumpTaken :=
    rfl
@[simp] theorem State.markExc_jumpTarget (q : Nat) (f : FaultCode) : (s.markExc q f).jumpTarget = s.jumpTarget :=
    rfl
@[simp] theorem State.markExc_branchRecovery (q : Nat) (f : FaultCode) : (s.markExc q f).branchRecovery = s.branchRecovery :=
    rfl
@[simp] theorem State.markExc_nextSeq (q : Nat) (f : FaultCode) : (s.markExc q f).nextSeq = s.nextSeq :=
    rfl
@[simp] theorem State.markExc_cycle (q : Nat) (f : FaultCode) : (s.markExc q f).cycle = s.cycle :=
    rfl

@[simp] theorem State.markDone_program (q : Nat) : (s.markDone q).program = s.program := rfl
@[simp] theorem State.markDone_x (q : Nat) : (s.markDone q).x = s.x := rfl
@[simp] theorem State.markDone_xvalid (q : Nat) : (s.markDone q).xvalid = s.xvalid := rfl
@[simp] theorem State.markDone_z (q : Nat) : (s.markDone q).z = s.z := rfl
@[simp] theorem State.markDone_dmem (q : Nat) : (s.markDone q).dmem = s.dmem := rfl
@[simp] theorem State.markDone_pc (q : Nat) : (s.markDone q).pc = s.pc := rfl
@[simp] theorem State.markDone_retired (q : Nat) : (s.markDone q).retired = s.retired := rfl
@[simp] theorem State.markDone_status (q : Nat) : (s.markDone q).status = s.status := rfl
@[simp] theorem State.markDone_fl (q : Nat) : (s.markDone q).fl = s.fl := rfl
@[simp] theorem State.markDone_rm (q : Nat) : (s.markDone q).rm = s.rm := rfl
@[simp] theorem State.markDone_ready (q : Nat) : (s.markDone q).ready = s.ready := rfl
@[simp] theorem State.markDone_value (q : Nat) : (s.markDone q).value = s.value := rfl
@[simp] theorem State.markDone_memReady (q : Nat) : (s.markDone q).memReady = s.memReady := rfl
@[simp] theorem State.markDone_agenReady (q : Nat) : (s.markDone q).agenReady = s.agenReady := rfl
@[simp] theorem State.markDone_agenAddr (q : Nat) : (s.markDone q).agenAddr = s.agenAddr := rfl
@[simp] theorem State.markDone_storeDone (q : Nat) : (s.markDone q).storeDone = s.storeDone := rfl
@[simp] theorem State.markDone_dec (q : Nat) : (s.markDone q).dec = s.dec := rfl
@[simp] theorem State.markDone_dsp (q : Nat) : (s.markDone q).dsp = s.dsp := rfl
@[simp] theorem State.markDone_iq (q : Nat) : (s.markDone q).iq = s.iq := rfl
@[simp] theorem State.markDone_lsq (q : Nat) : (s.markDone q).lsq = s.lsq := rfl
@[simp] theorem State.markDone_rob (q : Nat) : (s.markDone q).rob = s.rob.map fun e => if e.seq = q then { e with done := true } else e :=
    rfl
@[simp] theorem State.markDone_int (q : Nat) : (s.markDone q).int = s.int := rfl
@[simp] theorem State.markDone_log (q : Nat) : (s.markDone q).log = s.log := rfl
@[simp] theorem State.markDone_mul1 (q : Nat) : (s.markDone q).mul1 = s.mul1 := rfl
@[simp] theorem State.markDone_mul2 (q : Nat) : (s.markDone q).mul2 = s.mul2 := rfl
@[simp] theorem State.markDone_mul3 (q : Nat) : (s.markDone q).mul3 = s.mul3 := rfl
@[simp] theorem State.markDone_mul4 (q : Nat) : (s.markDone q).mul4 = s.mul4 := rfl
@[simp] theorem State.markDone_dc (q : Nat) : (s.markDone q).dc = s.dc := rfl
@[simp] theorem State.markDone_btb (q : Nat) : (s.markDone q).btb = s.btb := rfl
@[simp] theorem State.markDone_redirectPending (q : Nat) : (s.markDone q).redirectPending = s.redirectPending :=
    rfl
@[simp] theorem State.markDone_jumpInFlight (q : Nat) : (s.markDone q).jumpInFlight = s.jumpInFlight :=
    rfl
@[simp] theorem State.markDone_jumpTaken (q : Nat) : (s.markDone q).jumpTaken = s.jumpTaken := rfl
@[simp] theorem State.markDone_jumpTarget (q : Nat) : (s.markDone q).jumpTarget = s.jumpTarget :=
    rfl
@[simp] theorem State.markDone_branchRecovery (q : Nat) : (s.markDone q).branchRecovery = s.branchRecovery :=
    rfl
@[simp] theorem State.markDone_nextSeq (q : Nat) : (s.markDone q).nextSeq = s.nextSeq := rfl
@[simp] theorem State.markDone_cycle (q : Nat) : (s.markDone q).cycle = s.cycle := rfl

@[simp] theorem State.retireHead_program : (s.retireHead).program = s.program := rfl
@[simp] theorem State.retireHead_x : (s.retireHead).x = s.x := rfl
@[simp] theorem State.retireHead_xvalid : (s.retireHead).xvalid = s.xvalid := rfl
@[simp] theorem State.retireHead_z : (s.retireHead).z = s.z := rfl
@[simp] theorem State.retireHead_dmem : (s.retireHead).dmem = s.dmem := rfl
@[simp] theorem State.retireHead_pc : (s.retireHead).pc = s.pc := rfl
@[simp] theorem State.retireHead_retired : (s.retireHead).retired = s.retired + 1 := rfl
@[simp] theorem State.retireHead_status : (s.retireHead).status = s.status := rfl
@[simp] theorem State.retireHead_fl : (s.retireHead).fl = s.fl := rfl
@[simp] theorem State.retireHead_rm : (s.retireHead).rm = s.rm := rfl
@[simp] theorem State.retireHead_ready : (s.retireHead).ready = s.ready := rfl
@[simp] theorem State.retireHead_value : (s.retireHead).value = s.value := rfl
@[simp] theorem State.retireHead_memReady : (s.retireHead).memReady = s.memReady := rfl
@[simp] theorem State.retireHead_agenReady : (s.retireHead).agenReady = s.agenReady := rfl
@[simp] theorem State.retireHead_agenAddr : (s.retireHead).agenAddr = s.agenAddr := rfl
@[simp] theorem State.retireHead_storeDone : (s.retireHead).storeDone = s.storeDone := rfl
@[simp] theorem State.retireHead_dec : (s.retireHead).dec = s.dec := rfl
@[simp] theorem State.retireHead_dsp : (s.retireHead).dsp = s.dsp := rfl
@[simp] theorem State.retireHead_iq : (s.retireHead).iq = s.iq := rfl
@[simp] theorem State.retireHead_lsq : (s.retireHead).lsq = s.lsq := rfl
@[simp] theorem State.retireHead_rob : (s.retireHead).rob = s.rob.tail := rfl
@[simp] theorem State.retireHead_int : (s.retireHead).int = s.int := rfl
@[simp] theorem State.retireHead_log : (s.retireHead).log = s.log := rfl
@[simp] theorem State.retireHead_mul1 : (s.retireHead).mul1 = s.mul1 := rfl
@[simp] theorem State.retireHead_mul2 : (s.retireHead).mul2 = s.mul2 := rfl
@[simp] theorem State.retireHead_mul3 : (s.retireHead).mul3 = s.mul3 := rfl
@[simp] theorem State.retireHead_mul4 : (s.retireHead).mul4 = s.mul4 := rfl
@[simp] theorem State.retireHead_dc : (s.retireHead).dc = s.dc := rfl
@[simp] theorem State.retireHead_btb : (s.retireHead).btb = s.btb := rfl
@[simp] theorem State.retireHead_redirectPending : (s.retireHead).redirectPending = s.redirectPending :=
    rfl
@[simp] theorem State.retireHead_jumpInFlight : (s.retireHead).jumpInFlight = s.jumpInFlight := rfl
@[simp] theorem State.retireHead_jumpTaken : (s.retireHead).jumpTaken = s.jumpTaken := rfl
@[simp] theorem State.retireHead_jumpTarget : (s.retireHead).jumpTarget = s.jumpTarget := rfl
@[simp] theorem State.retireHead_branchRecovery : (s.retireHead).branchRecovery = s.branchRecovery :=
    rfl
@[simp] theorem State.retireHead_nextSeq : (s.retireHead).nextSeq = s.nextSeq := rfl
@[simp] theorem State.retireHead_cycle : (s.retireHead).cycle = s.cycle := rfl

@[simp] theorem State.raise_program (f : FaultCode) (p : Word) : (s.raise f p).program = s.program :=
    rfl
@[simp] theorem State.raise_x (f : FaultCode) (p : Word) : (s.raise f p).x = s.x := rfl
@[simp] theorem State.raise_xvalid (f : FaultCode) (p : Word) : (s.raise f p).xvalid = s.xvalid :=
    rfl
@[simp] theorem State.raise_z (f : FaultCode) (p : Word) : (s.raise f p).z = s.z := rfl
@[simp] theorem State.raise_dmem (f : FaultCode) (p : Word) : (s.raise f p).dmem = s.dmem := rfl
@[simp] theorem State.raise_pc (f : FaultCode) (p : Word) : (s.raise f p).pc = s.pc := rfl
@[simp] theorem State.raise_retired (f : FaultCode) (p : Word) : (s.raise f p).retired = s.retired :=
    rfl
@[simp] theorem State.raise_status (f : FaultCode) (p : Word) : (s.raise f p).status = .faulted f p :=
    rfl
@[simp] theorem State.raise_fl (f : FaultCode) (p : Word) : (s.raise f p).fl = s.fl := rfl
@[simp] theorem State.raise_rm (f : FaultCode) (p : Word) : (s.raise f p).rm = s.rm := rfl
@[simp] theorem State.raise_ready (f : FaultCode) (p : Word) : (s.raise f p).ready = s.ready := rfl
@[simp] theorem State.raise_value (f : FaultCode) (p : Word) : (s.raise f p).value = s.value := rfl
@[simp] theorem State.raise_memReady (f : FaultCode) (p : Word) : (s.raise f p).memReady = s.memReady :=
    rfl
@[simp] theorem State.raise_agenReady (f : FaultCode) (p : Word) : (s.raise f p).agenReady = s.agenReady :=
    rfl
@[simp] theorem State.raise_agenAddr (f : FaultCode) (p : Word) : (s.raise f p).agenAddr = s.agenAddr :=
    rfl
@[simp] theorem State.raise_storeDone (f : FaultCode) (p : Word) : (s.raise f p).storeDone = s.storeDone :=
    rfl
@[simp] theorem State.raise_dec (f : FaultCode) (p : Word) : (s.raise f p).dec = s.dec := rfl
@[simp] theorem State.raise_dsp (f : FaultCode) (p : Word) : (s.raise f p).dsp = s.dsp := rfl
@[simp] theorem State.raise_iq (f : FaultCode) (p : Word) : (s.raise f p).iq = s.iq := rfl
@[simp] theorem State.raise_lsq (f : FaultCode) (p : Word) : (s.raise f p).lsq = s.lsq := rfl
@[simp] theorem State.raise_rob (f : FaultCode) (p : Word) : (s.raise f p).rob = s.rob := rfl
@[simp] theorem State.raise_int (f : FaultCode) (p : Word) : (s.raise f p).int = s.int := rfl
@[simp] theorem State.raise_log (f : FaultCode) (p : Word) : (s.raise f p).log = s.log := rfl
@[simp] theorem State.raise_mul1 (f : FaultCode) (p : Word) : (s.raise f p).mul1 = s.mul1 := rfl
@[simp] theorem State.raise_mul2 (f : FaultCode) (p : Word) : (s.raise f p).mul2 = s.mul2 := rfl
@[simp] theorem State.raise_mul3 (f : FaultCode) (p : Word) : (s.raise f p).mul3 = s.mul3 := rfl
@[simp] theorem State.raise_mul4 (f : FaultCode) (p : Word) : (s.raise f p).mul4 = s.mul4 := rfl
@[simp] theorem State.raise_dc (f : FaultCode) (p : Word) : (s.raise f p).dc = s.dc := rfl
@[simp] theorem State.raise_btb (f : FaultCode) (p : Word) : (s.raise f p).btb = s.btb := rfl
@[simp] theorem State.raise_redirectPending (f : FaultCode) (p : Word) : (s.raise f p).redirectPending = s.redirectPending :=
    rfl
@[simp] theorem State.raise_jumpInFlight (f : FaultCode) (p : Word) : (s.raise f p).jumpInFlight = s.jumpInFlight :=
    rfl
@[simp] theorem State.raise_jumpTaken (f : FaultCode) (p : Word) : (s.raise f p).jumpTaken = s.jumpTaken :=
    rfl
@[simp] theorem State.raise_jumpTarget (f : FaultCode) (p : Word) : (s.raise f p).jumpTarget = s.jumpTarget :=
    rfl
@[simp] theorem State.raise_branchRecovery (f : FaultCode) (p : Word) : (s.raise f p).branchRecovery = s.branchRecovery :=
    rfl
@[simp] theorem State.raise_nextSeq (f : FaultCode) (p : Word) : (s.raise f p).nextSeq = s.nextSeq :=
    rfl
@[simp] theorem State.raise_cycle (f : FaultCode) (p : Word) : (s.raise f p).cycle = s.cycle := rfl

end Sys2Proof.Machine
end

