-- ==== Sys2Proof/Laws/Stages.lean ====
section
/-! SUPPORT. What each stage leaves as it was: one lemma per field that the stage never writes. -/

namespace Sys2Proof.Machine

@[simp] theorem clearReadyOf_program (e : Inflight) (s : State) :
    (clearReadyOf e s).program = s.program := by unfold clearReadyOf; split <;> rfl
@[simp] theorem clearReadyOf_x (e : Inflight) (s : State) :
    (clearReadyOf e s).x = s.x := by unfold clearReadyOf; split <;> rfl
@[simp] theorem clearReadyOf_xvalid (e : Inflight) (s : State) :
    (clearReadyOf e s).xvalid = s.xvalid := by unfold clearReadyOf; split <;> rfl
@[simp] theorem clearReadyOf_z (e : Inflight) (s : State) :
    (clearReadyOf e s).z = s.z := by unfold clearReadyOf; split <;> rfl
@[simp] theorem clearReadyOf_dmem (e : Inflight) (s : State) :
    (clearReadyOf e s).dmem = s.dmem := by unfold clearReadyOf; split <;> rfl
@[simp] theorem clearReadyOf_pc (e : Inflight) (s : State) :
    (clearReadyOf e s).pc = s.pc := by unfold clearReadyOf; split <;> rfl
@[simp] theorem clearReadyOf_retired (e : Inflight) (s : State) :
    (clearReadyOf e s).retired = s.retired := by unfold clearReadyOf; split <;> rfl
@[simp] theorem clearReadyOf_status (e : Inflight) (s : State) :
    (clearReadyOf e s).status = s.status := by unfold clearReadyOf; split <;> rfl
@[simp] theorem clearReadyOf_fl (e : Inflight) (s : State) :
    (clearReadyOf e s).fl = s.fl := by unfold clearReadyOf; split <;> rfl
@[simp] theorem clearReadyOf_rm (e : Inflight) (s : State) :
    (clearReadyOf e s).rm = s.rm := by unfold clearReadyOf; split <;> rfl
@[simp] theorem clearReadyOf_value (e : Inflight) (s : State) :
    (clearReadyOf e s).value = s.value := by unfold clearReadyOf; split <;> rfl
@[simp] theorem clearReadyOf_memReady (e : Inflight) (s : State) :
    (clearReadyOf e s).memReady = s.memReady := by unfold clearReadyOf; split <;> rfl
@[simp] theorem clearReadyOf_agenReady (e : Inflight) (s : State) :
    (clearReadyOf e s).agenReady = s.agenReady := by unfold clearReadyOf; split <;> rfl
@[simp] theorem clearReadyOf_agenAddr (e : Inflight) (s : State) :
    (clearReadyOf e s).agenAddr = s.agenAddr := by unfold clearReadyOf; split <;> rfl
@[simp] theorem clearReadyOf_storeDone (e : Inflight) (s : State) :
    (clearReadyOf e s).storeDone = s.storeDone := by unfold clearReadyOf; split <;> rfl
@[simp] theorem clearReadyOf_dec (e : Inflight) (s : State) :
    (clearReadyOf e s).dec = s.dec := by unfold clearReadyOf; split <;> rfl
@[simp] theorem clearReadyOf_dsp (e : Inflight) (s : State) :
    (clearReadyOf e s).dsp = s.dsp := by unfold clearReadyOf; split <;> rfl
@[simp] theorem clearReadyOf_iq (e : Inflight) (s : State) :
    (clearReadyOf e s).iq = s.iq := by unfold clearReadyOf; split <;> rfl
@[simp] theorem clearReadyOf_lsq (e : Inflight) (s : State) :
    (clearReadyOf e s).lsq = s.lsq := by unfold clearReadyOf; split <;> rfl
@[simp] theorem clearReadyOf_rob (e : Inflight) (s : State) :
    (clearReadyOf e s).rob = s.rob := by unfold clearReadyOf; split <;> rfl
@[simp] theorem clearReadyOf_int (e : Inflight) (s : State) :
    (clearReadyOf e s).int = s.int := by unfold clearReadyOf; split <;> rfl
@[simp] theorem clearReadyOf_log (e : Inflight) (s : State) :
    (clearReadyOf e s).log = s.log := by unfold clearReadyOf; split <;> rfl
@[simp] theorem clearReadyOf_mul1 (e : Inflight) (s : State) :
    (clearReadyOf e s).mul1 = s.mul1 := by unfold clearReadyOf; split <;> rfl
@[simp] theorem clearReadyOf_mul2 (e : Inflight) (s : State) :
    (clearReadyOf e s).mul2 = s.mul2 := by unfold clearReadyOf; split <;> rfl
@[simp] theorem clearReadyOf_mul3 (e : Inflight) (s : State) :
    (clearReadyOf e s).mul3 = s.mul3 := by unfold clearReadyOf; split <;> rfl
@[simp] theorem clearReadyOf_mul4 (e : Inflight) (s : State) :
    (clearReadyOf e s).mul4 = s.mul4 := by unfold clearReadyOf; split <;> rfl
@[simp] theorem clearReadyOf_dc (e : Inflight) (s : State) :
    (clearReadyOf e s).dc = s.dc := by unfold clearReadyOf; split <;> rfl
@[simp] theorem clearReadyOf_btb (e : Inflight) (s : State) :
    (clearReadyOf e s).btb = s.btb := by unfold clearReadyOf; split <;> rfl
@[simp] theorem clearReadyOf_redirectPending (e : Inflight) (s : State) :
    (clearReadyOf e s).redirectPending = s.redirectPending := by unfold clearReadyOf; split <;> rfl
@[simp] theorem clearReadyOf_jumpInFlight (e : Inflight) (s : State) :
    (clearReadyOf e s).jumpInFlight = s.jumpInFlight := by unfold clearReadyOf; split <;> rfl
@[simp] theorem clearReadyOf_jumpTaken (e : Inflight) (s : State) :
    (clearReadyOf e s).jumpTaken = s.jumpTaken := by unfold clearReadyOf; split <;> rfl
@[simp] theorem clearReadyOf_jumpTarget (e : Inflight) (s : State) :
    (clearReadyOf e s).jumpTarget = s.jumpTarget := by unfold clearReadyOf; split <;> rfl
@[simp] theorem clearReadyOf_branchRecovery (e : Inflight) (s : State) :
    (clearReadyOf e s).branchRecovery = s.branchRecovery := by unfold clearReadyOf; split <;> rfl
@[simp] theorem clearReadyOf_nextSeq (e : Inflight) (s : State) :
    (clearReadyOf e s).nextSeq = s.nextSeq := by unfold clearReadyOf; split <;> rfl
@[simp] theorem clearReadyOf_cycle (e : Inflight) (s : State) :
    (clearReadyOf e s).cycle = s.cycle := by unfold clearReadyOf; split <;> rfl

@[simp] theorem State.setUnitLatch_program (s : State) (c : FuClass) (e : Inflight) :
    (s.setUnitLatch c e).program = s.program := by cases c <;> rfl
@[simp] theorem State.setUnitLatch_x (s : State) (c : FuClass) (e : Inflight) :
    (s.setUnitLatch c e).x = s.x := by cases c <;> rfl
@[simp] theorem State.setUnitLatch_xvalid (s : State) (c : FuClass) (e : Inflight) :
    (s.setUnitLatch c e).xvalid = s.xvalid := by cases c <;> rfl
@[simp] theorem State.setUnitLatch_z (s : State) (c : FuClass) (e : Inflight) :
    (s.setUnitLatch c e).z = s.z := by cases c <;> rfl
@[simp] theorem State.setUnitLatch_dmem (s : State) (c : FuClass) (e : Inflight) :
    (s.setUnitLatch c e).dmem = s.dmem := by cases c <;> rfl
@[simp] theorem State.setUnitLatch_pc (s : State) (c : FuClass) (e : Inflight) :
    (s.setUnitLatch c e).pc = s.pc := by cases c <;> rfl
@[simp] theorem State.setUnitLatch_retired (s : State) (c : FuClass) (e : Inflight) :
    (s.setUnitLatch c e).retired = s.retired := by cases c <;> rfl
@[simp] theorem State.setUnitLatch_status (s : State) (c : FuClass) (e : Inflight) :
    (s.setUnitLatch c e).status = s.status := by cases c <;> rfl
@[simp] theorem State.setUnitLatch_fl (s : State) (c : FuClass) (e : Inflight) :
    (s.setUnitLatch c e).fl = s.fl := by cases c <;> rfl
@[simp] theorem State.setUnitLatch_rm (s : State) (c : FuClass) (e : Inflight) :
    (s.setUnitLatch c e).rm = s.rm := by cases c <;> rfl
@[simp] theorem State.setUnitLatch_ready (s : State) (c : FuClass) (e : Inflight) :
    (s.setUnitLatch c e).ready = s.ready := by cases c <;> rfl
@[simp] theorem State.setUnitLatch_value (s : State) (c : FuClass) (e : Inflight) :
    (s.setUnitLatch c e).value = s.value := by cases c <;> rfl
@[simp] theorem State.setUnitLatch_memReady (s : State) (c : FuClass) (e : Inflight) :
    (s.setUnitLatch c e).memReady = s.memReady := by cases c <;> rfl
@[simp] theorem State.setUnitLatch_agenReady (s : State) (c : FuClass) (e : Inflight) :
    (s.setUnitLatch c e).agenReady = s.agenReady := by cases c <;> rfl
@[simp] theorem State.setUnitLatch_agenAddr (s : State) (c : FuClass) (e : Inflight) :
    (s.setUnitLatch c e).agenAddr = s.agenAddr := by cases c <;> rfl
@[simp] theorem State.setUnitLatch_storeDone (s : State) (c : FuClass) (e : Inflight) :
    (s.setUnitLatch c e).storeDone = s.storeDone := by cases c <;> rfl
@[simp] theorem State.setUnitLatch_dec (s : State) (c : FuClass) (e : Inflight) :
    (s.setUnitLatch c e).dec = s.dec := by cases c <;> rfl
@[simp] theorem State.setUnitLatch_dsp (s : State) (c : FuClass) (e : Inflight) :
    (s.setUnitLatch c e).dsp = s.dsp := by cases c <;> rfl
@[simp] theorem State.setUnitLatch_iq (s : State) (c : FuClass) (e : Inflight) :
    (s.setUnitLatch c e).iq = s.iq := by cases c <;> rfl
@[simp] theorem State.setUnitLatch_lsq (s : State) (c : FuClass) (e : Inflight) :
    (s.setUnitLatch c e).lsq = s.lsq := by cases c <;> rfl
@[simp] theorem State.setUnitLatch_rob (s : State) (c : FuClass) (e : Inflight) :
    (s.setUnitLatch c e).rob = s.rob := by cases c <;> rfl
@[simp] theorem State.setUnitLatch_mul2 (s : State) (c : FuClass) (e : Inflight) :
    (s.setUnitLatch c e).mul2 = s.mul2 := by cases c <;> rfl
@[simp] theorem State.setUnitLatch_mul3 (s : State) (c : FuClass) (e : Inflight) :
    (s.setUnitLatch c e).mul3 = s.mul3 := by cases c <;> rfl
@[simp] theorem State.setUnitLatch_mul4 (s : State) (c : FuClass) (e : Inflight) :
    (s.setUnitLatch c e).mul4 = s.mul4 := by cases c <;> rfl
@[simp] theorem State.setUnitLatch_dc (s : State) (c : FuClass) (e : Inflight) :
    (s.setUnitLatch c e).dc = s.dc := by cases c <;> rfl
@[simp] theorem State.setUnitLatch_btb (s : State) (c : FuClass) (e : Inflight) :
    (s.setUnitLatch c e).btb = s.btb := by cases c <;> rfl
@[simp] theorem State.setUnitLatch_redirectPending (s : State) (c : FuClass) (e : Inflight) :
    (s.setUnitLatch c e).redirectPending = s.redirectPending := by cases c <;> rfl
@[simp] theorem State.setUnitLatch_jumpInFlight (s : State) (c : FuClass) (e : Inflight) :
    (s.setUnitLatch c e).jumpInFlight = s.jumpInFlight := by cases c <;> rfl
@[simp] theorem State.setUnitLatch_jumpTaken (s : State) (c : FuClass) (e : Inflight) :
    (s.setUnitLatch c e).jumpTaken = s.jumpTaken := by cases c <;> rfl
@[simp] theorem State.setUnitLatch_jumpTarget (s : State) (c : FuClass) (e : Inflight) :
    (s.setUnitLatch c e).jumpTarget = s.jumpTarget := by cases c <;> rfl
@[simp] theorem State.setUnitLatch_branchRecovery (s : State) (c : FuClass) (e : Inflight) :
    (s.setUnitLatch c e).branchRecovery = s.branchRecovery := by cases c <;> rfl
@[simp] theorem State.setUnitLatch_nextSeq (s : State) (c : FuClass) (e : Inflight) :
    (s.setUnitLatch c e).nextSeq = s.nextSeq := by cases c <;> rfl
@[simp] theorem State.setUnitLatch_cycle (s : State) (c : FuClass) (e : Inflight) :
    (s.setUnitLatch c e).cycle = s.cycle := by cases c <;> rfl

@[simp] theorem shareOperands_program (i : Instr) (e : Inflight) (s : State) :
    (shareOperands i e s).program = s.program := rfl
@[simp] theorem shareOperands_x (i : Instr) (e : Inflight) (s : State) :
    (shareOperands i e s).x = s.x := rfl
@[simp] theorem shareOperands_xvalid (i : Instr) (e : Inflight) (s : State) :
    (shareOperands i e s).xvalid = s.xvalid := rfl
@[simp] theorem shareOperands_z (i : Instr) (e : Inflight) (s : State) :
    (shareOperands i e s).z = s.z := rfl
@[simp] theorem shareOperands_dmem (i : Instr) (e : Inflight) (s : State) :
    (shareOperands i e s).dmem = s.dmem := rfl
@[simp] theorem shareOperands_pc (i : Instr) (e : Inflight) (s : State) :
    (shareOperands i e s).pc = s.pc := rfl
@[simp] theorem shareOperands_retired (i : Instr) (e : Inflight) (s : State) :
    (shareOperands i e s).retired = s.retired := rfl
@[simp] theorem shareOperands_status (i : Instr) (e : Inflight) (s : State) :
    (shareOperands i e s).status = s.status := rfl
@[simp] theorem shareOperands_fl (i : Instr) (e : Inflight) (s : State) :
    (shareOperands i e s).fl = s.fl := rfl
@[simp] theorem shareOperands_rm (i : Instr) (e : Inflight) (s : State) :
    (shareOperands i e s).rm = s.rm := rfl
@[simp] theorem shareOperands_ready (i : Instr) (e : Inflight) (s : State) :
    (shareOperands i e s).ready = s.ready := rfl
@[simp] theorem shareOperands_value (i : Instr) (e : Inflight) (s : State) :
    (shareOperands i e s).value = s.value := rfl
@[simp] theorem shareOperands_memReady (i : Instr) (e : Inflight) (s : State) :
    (shareOperands i e s).memReady = s.memReady := rfl
@[simp] theorem shareOperands_agenReady (i : Instr) (e : Inflight) (s : State) :
    (shareOperands i e s).agenReady = s.agenReady := rfl
@[simp] theorem shareOperands_agenAddr (i : Instr) (e : Inflight) (s : State) :
    (shareOperands i e s).agenAddr = s.agenAddr := rfl
@[simp] theorem shareOperands_storeDone (i : Instr) (e : Inflight) (s : State) :
    (shareOperands i e s).storeDone = s.storeDone := rfl
@[simp] theorem shareOperands_dec (i : Instr) (e : Inflight) (s : State) :
    (shareOperands i e s).dec = s.dec := rfl
@[simp] theorem shareOperands_dsp (i : Instr) (e : Inflight) (s : State) :
    (shareOperands i e s).dsp = s.dsp := rfl
@[simp] theorem shareOperands_iq (i : Instr) (e : Inflight) (s : State) :
    (shareOperands i e s).iq = s.iq := rfl
@[simp] theorem shareOperands_int (i : Instr) (e : Inflight) (s : State) :
    (shareOperands i e s).int = s.int := rfl
@[simp] theorem shareOperands_log (i : Instr) (e : Inflight) (s : State) :
    (shareOperands i e s).log = s.log := rfl
@[simp] theorem shareOperands_mul1 (i : Instr) (e : Inflight) (s : State) :
    (shareOperands i e s).mul1 = s.mul1 := rfl
@[simp] theorem shareOperands_mul2 (i : Instr) (e : Inflight) (s : State) :
    (shareOperands i e s).mul2 = s.mul2 := rfl
@[simp] theorem shareOperands_mul3 (i : Instr) (e : Inflight) (s : State) :
    (shareOperands i e s).mul3 = s.mul3 := rfl
@[simp] theorem shareOperands_mul4 (i : Instr) (e : Inflight) (s : State) :
    (shareOperands i e s).mul4 = s.mul4 := rfl
@[simp] theorem shareOperands_dc (i : Instr) (e : Inflight) (s : State) :
    (shareOperands i e s).dc = s.dc := rfl
@[simp] theorem shareOperands_btb (i : Instr) (e : Inflight) (s : State) :
    (shareOperands i e s).btb = s.btb := rfl
@[simp] theorem shareOperands_redirectPending (i : Instr) (e : Inflight) (s : State) :
    (shareOperands i e s).redirectPending = s.redirectPending := rfl
@[simp] theorem shareOperands_jumpInFlight (i : Instr) (e : Inflight) (s : State) :
    (shareOperands i e s).jumpInFlight = s.jumpInFlight := rfl
@[simp] theorem shareOperands_jumpTaken (i : Instr) (e : Inflight) (s : State) :
    (shareOperands i e s).jumpTaken = s.jumpTaken := rfl
@[simp] theorem shareOperands_jumpTarget (i : Instr) (e : Inflight) (s : State) :
    (shareOperands i e s).jumpTarget = s.jumpTarget := rfl
@[simp] theorem shareOperands_branchRecovery (i : Instr) (e : Inflight) (s : State) :
    (shareOperands i e s).branchRecovery = s.branchRecovery := rfl
@[simp] theorem shareOperands_nextSeq (i : Instr) (e : Inflight) (s : State) :
    (shareOperands i e s).nextSeq = s.nextSeq := rfl
@[simp] theorem shareOperands_cycle (i : Instr) (e : Inflight) (s : State) :
    (shareOperands i e s).cycle = s.cycle := rfl

@[simp] theorem shareProduct_program (s : State) :
    (shareProduct s).program = s.program := by unfold shareProduct; split <;> rfl
@[simp] theorem shareProduct_x (s : State) :
    (shareProduct s).x = s.x := by unfold shareProduct; split <;> rfl
@[simp] theorem shareProduct_xvalid (s : State) :
    (shareProduct s).xvalid = s.xvalid := by unfold shareProduct; split <;> rfl
@[simp] theorem shareProduct_z (s : State) :
    (shareProduct s).z = s.z := by unfold shareProduct; split <;> rfl
@[simp] theorem shareProduct_dmem (s : State) :
    (shareProduct s).dmem = s.dmem := by unfold shareProduct; split <;> rfl
@[simp] theorem shareProduct_pc (s : State) :
    (shareProduct s).pc = s.pc := by unfold shareProduct; split <;> rfl
@[simp] theorem shareProduct_retired (s : State) :
    (shareProduct s).retired = s.retired := by unfold shareProduct; split <;> rfl
@[simp] theorem shareProduct_status (s : State) :
    (shareProduct s).status = s.status := by unfold shareProduct; split <;> rfl
@[simp] theorem shareProduct_fl (s : State) :
    (shareProduct s).fl = s.fl := by unfold shareProduct; split <;> rfl
@[simp] theorem shareProduct_rm (s : State) :
    (shareProduct s).rm = s.rm := by unfold shareProduct; split <;> rfl
@[simp] theorem shareProduct_ready (s : State) :
    (shareProduct s).ready = s.ready := by unfold shareProduct; split <;> rfl
@[simp] theorem shareProduct_value (s : State) :
    (shareProduct s).value = s.value := by unfold shareProduct; split <;> rfl
@[simp] theorem shareProduct_memReady (s : State) :
    (shareProduct s).memReady = s.memReady := by unfold shareProduct; split <;> rfl
@[simp] theorem shareProduct_agenReady (s : State) :
    (shareProduct s).agenReady = s.agenReady := by unfold shareProduct; split <;> rfl
@[simp] theorem shareProduct_agenAddr (s : State) :
    (shareProduct s).agenAddr = s.agenAddr := by unfold shareProduct; split <;> rfl
@[simp] theorem shareProduct_storeDone (s : State) :
    (shareProduct s).storeDone = s.storeDone := by unfold shareProduct; split <;> rfl
@[simp] theorem shareProduct_dec (s : State) :
    (shareProduct s).dec = s.dec := by unfold shareProduct; split <;> rfl
@[simp] theorem shareProduct_dsp (s : State) :
    (shareProduct s).dsp = s.dsp := by unfold shareProduct; split <;> rfl
@[simp] theorem shareProduct_iq (s : State) :
    (shareProduct s).iq = s.iq := by unfold shareProduct; split <;> rfl
@[simp] theorem shareProduct_lsq (s : State) :
    (shareProduct s).lsq = s.lsq := by unfold shareProduct; split <;> rfl
@[simp] theorem shareProduct_int (s : State) :
    (shareProduct s).int = s.int := by unfold shareProduct; split <;> rfl
@[simp] theorem shareProduct_log (s : State) :
    (shareProduct s).log = s.log := by unfold shareProduct; split <;> rfl
@[simp] theorem shareProduct_mul1 (s : State) :
    (shareProduct s).mul1 = s.mul1 := by unfold shareProduct; split <;> rfl
@[simp] theorem shareProduct_mul2 (s : State) :
    (shareProduct s).mul2 = s.mul2 := by unfold shareProduct; split <;> rfl
@[simp] theorem shareProduct_mul3 (s : State) :
    (shareProduct s).mul3 = s.mul3 := by unfold shareProduct; split <;> rfl
@[simp] theorem shareProduct_mul4 (s : State) :
    (shareProduct s).mul4 = s.mul4 := by unfold shareProduct; split <;> rfl
@[simp] theorem shareProduct_dc (s : State) :
    (shareProduct s).dc = s.dc := by unfold shareProduct; split <;> rfl
@[simp] theorem shareProduct_btb (s : State) :
    (shareProduct s).btb = s.btb := by unfold shareProduct; split <;> rfl
@[simp] theorem shareProduct_redirectPending (s : State) :
    (shareProduct s).redirectPending = s.redirectPending := by unfold shareProduct; split <;> rfl
@[simp] theorem shareProduct_jumpInFlight (s : State) :
    (shareProduct s).jumpInFlight = s.jumpInFlight := by unfold shareProduct; split <;> rfl
@[simp] theorem shareProduct_jumpTaken (s : State) :
    (shareProduct s).jumpTaken = s.jumpTaken := by unfold shareProduct; split <;> rfl
@[simp] theorem shareProduct_jumpTarget (s : State) :
    (shareProduct s).jumpTarget = s.jumpTarget := by unfold shareProduct; split <;> rfl
@[simp] theorem shareProduct_branchRecovery (s : State) :
    (shareProduct s).branchRecovery = s.branchRecovery := by unfold shareProduct; split <;> rfl
@[simp] theorem shareProduct_nextSeq (s : State) :
    (shareProduct s).nextSeq = s.nextSeq := by unfold shareProduct; split <;> rfl
@[simp] theorem shareProduct_cycle (s : State) :
    (shareProduct s).cycle = s.cycle := by unfold shareProduct; split <;> rfl

@[simp] theorem releaseYounger_program (q : Nat) (l : List Inflight) (s : State) :
    (releaseYounger q l s).program = s.program := by
  induction l generalizing s with
  | nil => rfl
  | cons e l ih => unfold releaseYounger; rw [ih]; split <;> simp
@[simp] theorem releaseYounger_x (q : Nat) (l : List Inflight) (s : State) :
    (releaseYounger q l s).x = s.x := by
  induction l generalizing s with
  | nil => rfl
  | cons e l ih => unfold releaseYounger; rw [ih]; split <;> simp
@[simp] theorem releaseYounger_xvalid (q : Nat) (l : List Inflight) (s : State) :
    (releaseYounger q l s).xvalid = s.xvalid := by
  induction l generalizing s with
  | nil => rfl
  | cons e l ih => unfold releaseYounger; rw [ih]; split <;> simp
@[simp] theorem releaseYounger_z (q : Nat) (l : List Inflight) (s : State) :
    (releaseYounger q l s).z = s.z := by
  induction l generalizing s with
  | nil => rfl
  | cons e l ih => unfold releaseYounger; rw [ih]; split <;> simp
@[simp] theorem releaseYounger_dmem (q : Nat) (l : List Inflight) (s : State) :
    (releaseYounger q l s).dmem = s.dmem := by
  induction l generalizing s with
  | nil => rfl
  | cons e l ih => unfold releaseYounger; rw [ih]; split <;> simp
@[simp] theorem releaseYounger_pc (q : Nat) (l : List Inflight) (s : State) :
    (releaseYounger q l s).pc = s.pc := by
  induction l generalizing s with
  | nil => rfl
  | cons e l ih => unfold releaseYounger; rw [ih]; split <;> simp
@[simp] theorem releaseYounger_retired (q : Nat) (l : List Inflight) (s : State) :
    (releaseYounger q l s).retired = s.retired := by
  induction l generalizing s with
  | nil => rfl
  | cons e l ih => unfold releaseYounger; rw [ih]; split <;> simp
@[simp] theorem releaseYounger_status (q : Nat) (l : List Inflight) (s : State) :
    (releaseYounger q l s).status = s.status := by
  induction l generalizing s with
  | nil => rfl
  | cons e l ih => unfold releaseYounger; rw [ih]; split <;> simp
@[simp] theorem releaseYounger_value (q : Nat) (l : List Inflight) (s : State) :
    (releaseYounger q l s).value = s.value := by
  induction l generalizing s with
  | nil => rfl
  | cons e l ih => unfold releaseYounger; rw [ih]; split <;> simp
@[simp] theorem releaseYounger_memReady (q : Nat) (l : List Inflight) (s : State) :
    (releaseYounger q l s).memReady = s.memReady := by
  induction l generalizing s with
  | nil => rfl
  | cons e l ih => unfold releaseYounger; rw [ih]; split <;> simp
@[simp] theorem releaseYounger_agenReady (q : Nat) (l : List Inflight) (s : State) :
    (releaseYounger q l s).agenReady = s.agenReady := by
  induction l generalizing s with
  | nil => rfl
  | cons e l ih => unfold releaseYounger; rw [ih]; split <;> simp
@[simp] theorem releaseYounger_agenAddr (q : Nat) (l : List Inflight) (s : State) :
    (releaseYounger q l s).agenAddr = s.agenAddr := by
  induction l generalizing s with
  | nil => rfl
  | cons e l ih => unfold releaseYounger; rw [ih]; split <;> simp
@[simp] theorem releaseYounger_storeDone (q : Nat) (l : List Inflight) (s : State) :
    (releaseYounger q l s).storeDone = s.storeDone := by
  induction l generalizing s with
  | nil => rfl
  | cons e l ih => unfold releaseYounger; rw [ih]; split <;> simp
@[simp] theorem releaseYounger_dec (q : Nat) (l : List Inflight) (s : State) :
    (releaseYounger q l s).dec = s.dec := by
  induction l generalizing s with
  | nil => rfl
  | cons e l ih => unfold releaseYounger; rw [ih]; split <;> simp
@[simp] theorem releaseYounger_dsp (q : Nat) (l : List Inflight) (s : State) :
    (releaseYounger q l s).dsp = s.dsp := by
  induction l generalizing s with
  | nil => rfl
  | cons e l ih => unfold releaseYounger; rw [ih]; split <;> simp
@[simp] theorem releaseYounger_iq (q : Nat) (l : List Inflight) (s : State) :
    (releaseYounger q l s).iq = s.iq := by
  induction l generalizing s with
  | nil => rfl
  | cons e l ih => unfold releaseYounger; rw [ih]; split <;> simp
@[simp] theorem releaseYounger_lsq (q : Nat) (l : List Inflight) (s : State) :
    (releaseYounger q l s).lsq = s.lsq := by
  induction l generalizing s with
  | nil => rfl
  | cons e l ih => unfold releaseYounger; rw [ih]; split <;> simp
@[simp] theorem releaseYounger_rob (q : Nat) (l : List Inflight) (s : State) :
    (releaseYounger q l s).rob = s.rob := by
  induction l generalizing s with
  | nil => rfl
  | cons e l ih => unfold releaseYounger; rw [ih]; split <;> simp
@[simp] theorem releaseYounger_int (q : Nat) (l : List Inflight) (s : State) :
    (releaseYounger q l s).int = s.int := by
  induction l generalizing s with
  | nil => rfl
  | cons e l ih => unfold releaseYounger; rw [ih]; split <;> simp
@[simp] theorem releaseYounger_log (q : Nat) (l : List Inflight) (s : State) :
    (releaseYounger q l s).log = s.log := by
  induction l generalizing s with
  | nil => rfl
  | cons e l ih => unfold releaseYounger; rw [ih]; split <;> simp
@[simp] theorem releaseYounger_mul1 (q : Nat) (l : List Inflight) (s : State) :
    (releaseYounger q l s).mul1 = s.mul1 := by
  induction l generalizing s with
  | nil => rfl
  | cons e l ih => unfold releaseYounger; rw [ih]; split <;> simp
@[simp] theorem releaseYounger_mul2 (q : Nat) (l : List Inflight) (s : State) :
    (releaseYounger q l s).mul2 = s.mul2 := by
  induction l generalizing s with
  | nil => rfl
  | cons e l ih => unfold releaseYounger; rw [ih]; split <;> simp
@[simp] theorem releaseYounger_mul3 (q : Nat) (l : List Inflight) (s : State) :
    (releaseYounger q l s).mul3 = s.mul3 := by
  induction l generalizing s with
  | nil => rfl
  | cons e l ih => unfold releaseYounger; rw [ih]; split <;> simp
@[simp] theorem releaseYounger_mul4 (q : Nat) (l : List Inflight) (s : State) :
    (releaseYounger q l s).mul4 = s.mul4 := by
  induction l generalizing s with
  | nil => rfl
  | cons e l ih => unfold releaseYounger; rw [ih]; split <;> simp
@[simp] theorem releaseYounger_dc (q : Nat) (l : List Inflight) (s : State) :
    (releaseYounger q l s).dc = s.dc := by
  induction l generalizing s with
  | nil => rfl
  | cons e l ih => unfold releaseYounger; rw [ih]; split <;> simp
@[simp] theorem releaseYounger_btb (q : Nat) (l : List Inflight) (s : State) :
    (releaseYounger q l s).btb = s.btb := by
  induction l generalizing s with
  | nil => rfl
  | cons e l ih => unfold releaseYounger; rw [ih]; split <;> simp
@[simp] theorem releaseYounger_redirectPending (q : Nat) (l : List Inflight) (s : State) :
    (releaseYounger q l s).redirectPending = s.redirectPending := by
  induction l generalizing s with
  | nil => rfl
  | cons e l ih => unfold releaseYounger; rw [ih]; split <;> simp
@[simp] theorem releaseYounger_jumpInFlight (q : Nat) (l : List Inflight) (s : State) :
    (releaseYounger q l s).jumpInFlight = s.jumpInFlight := by
  induction l generalizing s with
  | nil => rfl
  | cons e l ih => unfold releaseYounger; rw [ih]; split <;> simp
@[simp] theorem releaseYounger_jumpTaken (q : Nat) (l : List Inflight) (s : State) :
    (releaseYounger q l s).jumpTaken = s.jumpTaken := by
  induction l generalizing s with
  | nil => rfl
  | cons e l ih => unfold releaseYounger; rw [ih]; split <;> simp
@[simp] theorem releaseYounger_jumpTarget (q : Nat) (l : List Inflight) (s : State) :
    (releaseYounger q l s).jumpTarget = s.jumpTarget := by
  induction l generalizing s with
  | nil => rfl
  | cons e l ih => unfold releaseYounger; rw [ih]; split <;> simp
@[simp] theorem releaseYounger_branchRecovery (q : Nat) (l : List Inflight) (s : State) :
    (releaseYounger q l s).branchRecovery = s.branchRecovery := by
  induction l generalizing s with
  | nil => rfl
  | cons e l ih => unfold releaseYounger; rw [ih]; split <;> simp
@[simp] theorem releaseYounger_nextSeq (q : Nat) (l : List Inflight) (s : State) :
    (releaseYounger q l s).nextSeq = s.nextSeq := by
  induction l generalizing s with
  | nil => rfl
  | cons e l ih => unfold releaseYounger; rw [ih]; split <;> simp
@[simp] theorem releaseYounger_cycle (q : Nat) (l : List Inflight) (s : State) :
    (releaseYounger q l s).cycle = s.cycle := by
  induction l generalizing s with
  | nil => rfl
  | cons e l ih => unfold releaseYounger; rw [ih]; split <;> simp

@[simp] theorem flush_program (q : Nat) (s : State) :
    (flush q s).program = s.program := by simp [flush]
@[simp] theorem flush_x (q : Nat) (s : State) :
    (flush q s).x = s.x := by simp [flush]
@[simp] theorem flush_xvalid (q : Nat) (s : State) :
    (flush q s).xvalid = s.xvalid := by simp [flush]
@[simp] theorem flush_z (q : Nat) (s : State) :
    (flush q s).z = s.z := by simp [flush]
@[simp] theorem flush_dmem (q : Nat) (s : State) :
    (flush q s).dmem = s.dmem := by simp [flush]
@[simp] theorem flush_pc (q : Nat) (s : State) :
    (flush q s).pc = s.pc := by simp [flush]
@[simp] theorem flush_retired (q : Nat) (s : State) :
    (flush q s).retired = s.retired := by simp [flush]
@[simp] theorem flush_status (q : Nat) (s : State) :
    (flush q s).status = s.status := by simp [flush]
@[simp] theorem flush_value (q : Nat) (s : State) :
    (flush q s).value = s.value := by simp [flush]
@[simp] theorem flush_memReady (q : Nat) (s : State) :
    (flush q s).memReady = s.memReady := by simp [flush]
@[simp] theorem flush_agenReady (q : Nat) (s : State) :
    (flush q s).agenReady = s.agenReady := by simp [flush]
@[simp] theorem flush_agenAddr (q : Nat) (s : State) :
    (flush q s).agenAddr = s.agenAddr := by simp [flush]
@[simp] theorem flush_storeDone (q : Nat) (s : State) :
    (flush q s).storeDone = s.storeDone := by simp [flush]
@[simp] theorem flush_dsp (q : Nat) (s : State) :
    (flush q s).dsp = s.dsp := by simp [flush]
@[simp] theorem flush_int (q : Nat) (s : State) :
    (flush q s).int = s.int := by simp [flush]
@[simp] theorem flush_btb (q : Nat) (s : State) :
    (flush q s).btb = s.btb := by simp [flush]
@[simp] theorem flush_redirectPending (q : Nat) (s : State) :
    (flush q s).redirectPending = s.redirectPending := by simp [flush]
@[simp] theorem flush_jumpTarget (q : Nat) (s : State) :
    (flush q s).jumpTarget = s.jumpTarget := by simp [flush]
@[simp] theorem flush_nextSeq (q : Nat) (s : State) :
    (flush q s).nextSeq = s.nextSeq := by simp [flush]
@[simp] theorem flush_cycle (q : Nat) (s : State) :
    (flush q s).cycle = s.cycle := by simp [flush]

@[simp] theorem intAction_program (r : Inflight) (s : State) :
    (intAction r s).program = s.program := by
  unfold intAction
  repeat' split
  all_goals simp only [unitAdd, unitSub, unitAddl, unitSubl, unitDiv, unitMovc, unitCmp, unitLoad, unitLdr, unitStore, unitStr, unitBz, unitBnz, unitJump, resolveBranch, mispredict]
  all_goals repeat' split
  all_goals simp
@[simp] theorem intAction_x (r : Inflight) (s : State) :
    (intAction r s).x = s.x := by
  unfold intAction
  repeat' split
  all_goals simp only [unitAdd, unitSub, unitAddl, unitSubl, unitDiv, unitMovc, unitCmp, unitLoad, unitLdr, unitStore, unitStr, unitBz, unitBnz, unitJump, resolveBranch, mispredict]
  all_goals repeat' split
  all_goals simp
@[simp] theorem intAction_xvalid (r : Inflight) (s : State) :
    (intAction r s).xvalid = s.xvalid := by
  unfold intAction
  repeat' split
  all_goals simp only [unitAdd, unitSub, unitAddl, unitSubl, unitDiv, unitMovc, unitCmp, unitLoad, unitLdr, unitStore, unitStr, unitBz, unitBnz, unitJump, resolveBranch, mispredict]
  all_goals repeat' split
  all_goals simp
@[simp] theorem intAction_dmem (r : Inflight) (s : State) :
    (intAction r s).dmem = s.dmem := by
  unfold intAction
  repeat' split
  all_goals simp only [unitAdd, unitSub, unitAddl, unitSubl, unitDiv, unitMovc, unitCmp, unitLoad, unitLdr, unitStore, unitStr, unitBz, unitBnz, unitJump, resolveBranch, mispredict]
  all_goals repeat' split
  all_goals simp
@[simp] theorem intAction_retired (r : Inflight) (s : State) :
    (intAction r s).retired = s.retired := by
  unfold intAction
  repeat' split
  all_goals simp only [unitAdd, unitSub, unitAddl, unitSubl, unitDiv, unitMovc, unitCmp, unitLoad, unitLdr, unitStore, unitStr, unitBz, unitBnz, unitJump, resolveBranch, mispredict]
  all_goals repeat' split
  all_goals simp
@[simp] theorem intAction_status (r : Inflight) (s : State) :
    (intAction r s).status = s.status := by
  unfold intAction
  repeat' split
  all_goals simp only [unitAdd, unitSub, unitAddl, unitSubl, unitDiv, unitMovc, unitCmp, unitLoad, unitLdr, unitStore, unitStr, unitBz, unitBnz, unitJump, resolveBranch, mispredict]
  all_goals repeat' split
  all_goals simp
@[simp] theorem intAction_memReady (r : Inflight) (s : State) :
    (intAction r s).memReady = s.memReady := by
  unfold intAction
  repeat' split
  all_goals simp only [unitAdd, unitSub, unitAddl, unitSubl, unitDiv, unitMovc, unitCmp, unitLoad, unitLdr, unitStore, unitStr, unitBz, unitBnz, unitJump, resolveBranch, mispredict]
  all_goals repeat' split
  all_goals simp
@[simp] theorem intAction_storeDone (r : Inflight) (s : State) :
    (intAction r s).storeDone = s.storeDone := by
  unfold intAction
  repeat' split
  all_goals simp only [unitAdd, unitSub, unitAddl, unitSubl, unitDiv, unitMovc, unitCmp, unitLoad, unitLdr, unitStore, unitStr, unitBz, unitBnz, unitJump, resolveBranch, mispredict]
  all_goals repeat' split
  all_goals simp
@[simp] theorem intAction_dsp (r : Inflight) (s : State) :
    (intAction r s).dsp = s.dsp := by
  unfold intAction
  repeat' split
  all_goals simp only [unitAdd, unitSub, unitAddl, unitSubl, unitDiv, unitMovc, unitCmp, unitLoad, unitLdr, unitStore, unitStr, unitBz, unitBnz, unitJump, resolveBranch, mispredict]
  all_goals repeat' split
  all_goals simp
@[simp] theorem intAction_int (r : Inflight) (s : State) :
    (intAction r s).int = s.int := by
  unfold intAction
  repeat' split
  all_goals simp only [unitAdd, unitSub, unitAddl, unitSubl, unitDiv, unitMovc, unitCmp, unitLoad, unitLdr, unitStore, unitStr, unitBz, unitBnz, unitJump, resolveBranch, mispredict]
  all_goals repeat' split
  all_goals simp
@[simp] theorem intAction_nextSeq (r : Inflight) (s : State) :
    (intAction r s).nextSeq = s.nextSeq := by
  unfold intAction
  repeat' split
  all_goals simp only [unitAdd, unitSub, unitAddl, unitSubl, unitDiv, unitMovc, unitCmp, unitLoad, unitLdr, unitStore, unitStr, unitBz, unitBnz, unitJump, resolveBranch, mispredict]
  all_goals repeat' split
  all_goals simp
@[simp] theorem intAction_cycle (r : Inflight) (s : State) :
    (intAction r s).cycle = s.cycle := by
  unfold intAction
  repeat' split
  all_goals simp only [unitAdd, unitSub, unitAddl, unitSubl, unitDiv, unitMovc, unitCmp, unitLoad, unitLdr, unitStore, unitStr, unitBz, unitBnz, unitJump, resolveBranch, mispredict]
  all_goals repeat' split
  all_goals simp

@[simp] theorem intStage_program (s : State) :
    (intStage s).program = s.program := by unfold intStage; split <;> simp
@[simp] theorem intStage_x (s : State) :
    (intStage s).x = s.x := by unfold intStage; split <;> simp
@[simp] theorem intStage_xvalid (s : State) :
    (intStage s).xvalid = s.xvalid := by unfold intStage; split <;> simp
@[simp] theorem intStage_dmem (s : State) :
    (intStage s).dmem = s.dmem := by unfold intStage; split <;> simp
@[simp] theorem intStage_retired (s : State) :
    (intStage s).retired = s.retired := by unfold intStage; split <;> simp
@[simp] theorem intStage_status (s : State) :
    (intStage s).status = s.status := by unfold intStage; split <;> simp
@[simp] theorem intStage_memReady (s : State) :
    (intStage s).memReady = s.memReady := by unfold intStage; split <;> simp
@[simp] theorem intStage_storeDone (s : State) :
    (intStage s).storeDone = s.storeDone := by unfold intStage; split <;> simp
@[simp] theorem intStage_dsp (s : State) :
    (intStage s).dsp = s.dsp := by unfold intStage; split <;> simp
@[simp] theorem intStage_nextSeq (s : State) :
    (intStage s).nextSeq = s.nextSeq := by unfold intStage; split <;> simp
@[simp] theorem intStage_cycle (s : State) :
    (intStage s).cycle = s.cycle := by unfold intStage; split <;> simp

@[simp] theorem logAction_program (r : Inflight) (s : State) :
    (logAction r s).program = s.program := by
  unfold logAction
  repeat' split
  all_goals simp [unitAnd, unitOr, unitXor]
@[simp] theorem logAction_x (r : Inflight) (s : State) :
    (logAction r s).x = s.x := by
  unfold logAction
  repeat' split
  all_goals simp [unitAnd, unitOr, unitXor]
@[simp] theorem logAction_xvalid (r : Inflight) (s : State) :
    (logAction r s).xvalid = s.xvalid := by
  unfold logAction
  repeat' split
  all_goals simp [unitAnd, unitOr, unitXor]
@[simp] theorem logAction_z (r : Inflight) (s : State) :
    (logAction r s).z = s.z := by
  unfold logAction
  repeat' split
  all_goals simp [unitAnd, unitOr, unitXor]
@[simp] theorem logAction_dmem (r : Inflight) (s : State) :
    (logAction r s).dmem = s.dmem := by
  unfold logAction
  repeat' split
  all_goals simp [unitAnd, unitOr, unitXor]
@[simp] theorem logAction_pc (r : Inflight) (s : State) :
    (logAction r s).pc = s.pc := by
  unfold logAction
  repeat' split
  all_goals simp [unitAnd, unitOr, unitXor]
@[simp] theorem logAction_retired (r : Inflight) (s : State) :
    (logAction r s).retired = s.retired := by
  unfold logAction
  repeat' split
  all_goals simp [unitAnd, unitOr, unitXor]
@[simp] theorem logAction_status (r : Inflight) (s : State) :
    (logAction r s).status = s.status := by
  unfold logAction
  repeat' split
  all_goals simp [unitAnd, unitOr, unitXor]
@[simp] theorem logAction_fl (r : Inflight) (s : State) :
    (logAction r s).fl = s.fl := by
  unfold logAction
  repeat' split
  all_goals simp [unitAnd, unitOr, unitXor]
@[simp] theorem logAction_rm (r : Inflight) (s : State) :
    (logAction r s).rm = s.rm := by
  unfold logAction
  repeat' split
  all_goals simp [unitAnd, unitOr, unitXor]
@[simp] theorem logAction_memReady (r : Inflight) (s : State) :
    (logAction r s).memReady = s.memReady := by
  unfold logAction
  repeat' split
  all_goals simp [unitAnd, unitOr, unitXor]
@[simp] theorem logAction_agenReady (r : Inflight) (s : State) :
    (logAction r s).agenReady = s.agenReady := by
  unfold logAction
  repeat' split
  all_goals simp [unitAnd, unitOr, unitXor]
@[simp] theorem logAction_agenAddr (r : Inflight) (s : State) :
    (logAction r s).agenAddr = s.agenAddr := by
  unfold logAction
  repeat' split
  all_goals simp [unitAnd, unitOr, unitXor]
@[simp] theorem logAction_storeDone (r : Inflight) (s : State) :
    (logAction r s).storeDone = s.storeDone := by
  unfold logAction
  repeat' split
  all_goals simp [unitAnd, unitOr, unitXor]
@[simp] theorem logAction_dec (r : Inflight) (s : State) :
    (logAction r s).dec = s.dec := by
  unfold logAction
  repeat' split
  all_goals simp [unitAnd, unitOr, unitXor]
@[simp] theorem logAction_dsp (r : Inflight) (s : State) :
    (logAction r s).dsp = s.dsp := by
  unfold logAction
  repeat' split
  all_goals simp [unitAnd, unitOr, unitXor]
@[simp] theorem logAction_iq (r : Inflight) (s : State) :
    (logAction r s).iq = s.iq := by
  unfold logAction
  repeat' split
  all_goals simp [unitAnd, unitOr, unitXor]
@[simp] theorem logAction_lsq (r : Inflight) (s : State) :
    (logAction r s).lsq = s.lsq := by
  unfold logAction
  repeat' split
  all_goals simp [unitAnd, unitOr, unitXor]
@[simp] theorem logAction_rob (r : Inflight) (s : State) :
    (logAction r s).rob = s.rob := by
  unfold logAction
  repeat' split
  all_goals simp [unitAnd, unitOr, unitXor]
@[simp] theorem logAction_int (r : Inflight) (s : State) :
    (logAction r s).int = s.int := by
  unfold logAction
  repeat' split
  all_goals simp [unitAnd, unitOr, unitXor]
@[simp] theorem logAction_log (r : Inflight) (s : State) :
    (logAction r s).log = s.log := by
  unfold logAction
  repeat' split
  all_goals simp [unitAnd, unitOr, unitXor]
@[simp] theorem logAction_mul1 (r : Inflight) (s : State) :
    (logAction r s).mul1 = s.mul1 := by
  unfold logAction
  repeat' split
  all_goals simp [unitAnd, unitOr, unitXor]
@[simp] theorem logAction_mul2 (r : Inflight) (s : State) :
    (logAction r s).mul2 = s.mul2 := by
  unfold logAction
  repeat' split
  all_goals simp [unitAnd, unitOr, unitXor]
@[simp] theorem logAction_mul3 (r : Inflight) (s : State) :
    (logAction r s).mul3 = s.mul3 := by
  unfold logAction
  repeat' split
  all_goals simp [unitAnd, unitOr, unitXor]
@[simp] theorem logAction_mul4 (r : Inflight) (s : State) :
    (logAction r s).mul4 = s.mul4 := by
  unfold logAction
  repeat' split
  all_goals simp [unitAnd, unitOr, unitXor]
@[simp] theorem logAction_dc (r : Inflight) (s : State) :
    (logAction r s).dc = s.dc := by
  unfold logAction
  repeat' split
  all_goals simp [unitAnd, unitOr, unitXor]
@[simp] theorem logAction_btb (r : Inflight) (s : State) :
    (logAction r s).btb = s.btb := by
  unfold logAction
  repeat' split
  all_goals simp [unitAnd, unitOr, unitXor]
@[simp] theorem logAction_redirectPending (r : Inflight) (s : State) :
    (logAction r s).redirectPending = s.redirectPending := by
  unfold logAction
  repeat' split
  all_goals simp [unitAnd, unitOr, unitXor]
@[simp] theorem logAction_jumpInFlight (r : Inflight) (s : State) :
    (logAction r s).jumpInFlight = s.jumpInFlight := by
  unfold logAction
  repeat' split
  all_goals simp [unitAnd, unitOr, unitXor]
@[simp] theorem logAction_jumpTaken (r : Inflight) (s : State) :
    (logAction r s).jumpTaken = s.jumpTaken := by
  unfold logAction
  repeat' split
  all_goals simp [unitAnd, unitOr, unitXor]
@[simp] theorem logAction_jumpTarget (r : Inflight) (s : State) :
    (logAction r s).jumpTarget = s.jumpTarget := by
  unfold logAction
  repeat' split
  all_goals simp [unitAnd, unitOr, unitXor]
@[simp] theorem logAction_branchRecovery (r : Inflight) (s : State) :
    (logAction r s).branchRecovery = s.branchRecovery := by
  unfold logAction
  repeat' split
  all_goals simp [unitAnd, unitOr, unitXor]
@[simp] theorem logAction_nextSeq (r : Inflight) (s : State) :
    (logAction r s).nextSeq = s.nextSeq := by
  unfold logAction
  repeat' split
  all_goals simp [unitAnd, unitOr, unitXor]
@[simp] theorem logAction_cycle (r : Inflight) (s : State) :
    (logAction r s).cycle = s.cycle := by
  unfold logAction
  repeat' split
  all_goals simp [unitAnd, unitOr, unitXor]

@[simp] theorem logStage_program (s : State) :
    (logStage s).program = s.program := by unfold logStage; split <;> simp
@[simp] theorem logStage_x (s : State) :
    (logStage s).x = s.x := by unfold logStage; split <;> simp
@[simp] theorem logStage_xvalid (s : State) :
    (logStage s).xvalid = s.xvalid := by unfold logStage; split <;> simp
@[simp] theorem logStage_z (s : State) :
    (logStage s).z = s.z := by unfold logStage; split <;> simp
@[simp] theorem logStage_dmem (s : State) :
    (logStage s).dmem = s.dmem := by unfold logStage; split <;> simp
@[simp] theorem logStage_pc (s : State) :
    (logStage s).pc = s.pc := by unfold logStage; split <;> simp
@[simp] theorem logStage_retired (s : State) :
    (logStage s).retired = s.retired := by unfold logStage; split <;> simp
@[simp] theorem logStage_status (s : State) :
    (logStage s).status = s.status := by unfold logStage; split <;> simp
@[simp] theorem logStage_fl (s : State) :
    (logStage s).fl = s.fl := by unfold logStage; split <;> simp
@[simp] theorem logStage_rm (s : State) :
    (logStage s).rm = s.rm := by unfold logStage; split <;> simp
@[simp] theorem logStage_memReady (s : State) :
    (logStage s).memReady = s.memReady := by unfold logStage; split <;> simp
@[simp] theorem logStage_agenReady (s : State) :
    (logStage s).agenReady = s.agenReady := by unfold logStage; split <;> simp
@[simp] theorem logStage_agenAddr (s : State) :
    (logStage s).agenAddr = s.agenAddr := by unfold logStage; split <;> simp
@[simp] theorem logStage_storeDone (s : State) :
    (logStage s).storeDone = s.storeDone := by unfold logStage; split <;> simp
@[simp] theorem logStage_dec (s : State) :
    (logStage s).dec = s.dec := by unfold logStage; split <;> simp
@[simp] theorem logStage_dsp (s : State) :
    (logStage s).dsp = s.dsp := by unfold logStage; split <;> simp
@[simp] theorem logStage_iq (s : State) :
    (logStage s).iq = s.iq := by unfold logStage; split <;> simp
@[simp] theorem logStage_lsq (s : State) :
    (logStage s).lsq = s.lsq := by unfold logStage; split <;> simp
@[simp] theorem logStage_rob (s : State) :
    (logStage s).rob = s.rob := by unfold logStage; split <;> simp
@[simp] theorem logStage_int (s : State) :
    (logStage s).int = s.int := by unfold logStage; split <;> simp
@[simp] theorem logStage_mul1 (s : State) :
    (logStage s).mul1 = s.mul1 := by unfold logStage; split <;> simp
@[simp] theorem logStage_mul2 (s : State) :
    (logStage s).mul2 = s.mul2 := by unfold logStage; split <;> simp
@[simp] theorem logStage_mul3 (s : State) :
    (logStage s).mul3 = s.mul3 := by unfold logStage; split <;> simp
@[simp] theorem logStage_mul4 (s : State) :
    (logStage s).mul4 = s.mul4 := by unfold logStage; split <;> simp
@[simp] theorem logStage_dc (s : State) :
    (logStage s).dc = s.dc := by unfold logStage; split <;> simp
@[simp] theorem logStage_btb (s : State) :
    (logStage s).btb = s.btb := by unfold logStage; split <;> simp
@[simp] theorem logStage_redirectPending (s : State) :
    (logStage s).redirectPending = s.redirectPending := by unfold logStage; split <;> simp
@[simp] theorem logStage_jumpInFlight (s : State) :
    (logStage s).jumpInFlight = s.jumpInFlight := by unfold logStage; split <;> simp
@[simp] theorem logStage_jumpTaken (s : State) :
    (logStage s).jumpTaken = s.jumpTaken := by unfold logStage; split <;> simp
@[simp] theorem logStage_jumpTarget (s : State) :
    (logStage s).jumpTarget = s.jumpTarget := by unfold logStage; split <;> simp
@[simp] theorem logStage_branchRecovery (s : State) :
    (logStage s).branchRecovery = s.branchRecovery := by unfold logStage; split <;> simp
@[simp] theorem logStage_nextSeq (s : State) :
    (logStage s).nextSeq = s.nextSeq := by unfold logStage; split <;> simp
@[simp] theorem logStage_cycle (s : State) :
    (logStage s).cycle = s.cycle := by unfold logStage; split <;> simp

@[simp] theorem mulStage_program (s : State) :
    (mulStage s).program = s.program := by unfold mulStage mulShift mulWriteBack; split <;> simp
@[simp] theorem mulStage_x (s : State) :
    (mulStage s).x = s.x := by unfold mulStage mulShift mulWriteBack; split <;> simp
@[simp] theorem mulStage_xvalid (s : State) :
    (mulStage s).xvalid = s.xvalid := by unfold mulStage mulShift mulWriteBack; split <;> simp
@[simp] theorem mulStage_z (s : State) :
    (mulStage s).z = s.z := by unfold mulStage mulShift mulWriteBack; split <;> simp
@[simp] theorem mulStage_dmem (s : State) :
    (mulStage s).dmem = s.dmem := by unfold mulStage mulShift mulWriteBack; split <;> simp
@[simp] theorem mulStage_pc (s : State) :
    (mulStage s).pc = s.pc := by unfold mulStage mulShift mulWriteBack; split <;> simp
@[simp] theorem mulStage_retired (s : State) :
    (mulStage s).retired = s.retired := by unfold mulStage mulShift mulWriteBack; split <;> simp
@[simp] theorem mulStage_status (s : State) :
    (mulStage s).status = s.status := by unfold mulStage mulShift mulWriteBack; split <;> simp
@[simp] theorem mulStage_fl (s : State) :
    (mulStage s).fl = s.fl := by unfold mulStage mulShift mulWriteBack; split <;> simp
@[simp] theorem mulStage_rm (s : State) :
    (mulStage s).rm = s.rm := by unfold mulStage mulShift mulWriteBack; split <;> simp
@[simp] theorem mulStage_memReady (s : State) :
    (mulStage s).memReady = s.memReady := by unfold mulStage mulShift mulWriteBack; split <;> simp
@[simp] theorem mulStage_agenReady (s : State) :
    (mulStage s).agenReady = s.agenReady := by unfold mulStage mulShift mulWriteBack; split <;> simp
@[simp] theorem mulStage_agenAddr (s : State) :
    (mulStage s).agenAddr = s.agenAddr := by unfold mulStage mulShift mulWriteBack; split <;> simp
@[simp] theorem mulStage_storeDone (s : State) :
    (mulStage s).storeDone = s.storeDone := by unfold mulStage mulShift mulWriteBack; split <;> simp
@[simp] theorem mulStage_dec (s : State) :
    (mulStage s).dec = s.dec := by unfold mulStage mulShift mulWriteBack; split <;> simp
@[simp] theorem mulStage_dsp (s : State) :
    (mulStage s).dsp = s.dsp := by unfold mulStage mulShift mulWriteBack; split <;> simp
@[simp] theorem mulStage_iq (s : State) :
    (mulStage s).iq = s.iq := by unfold mulStage mulShift mulWriteBack; split <;> simp
@[simp] theorem mulStage_lsq (s : State) :
    (mulStage s).lsq = s.lsq := by unfold mulStage mulShift mulWriteBack; split <;> simp
@[simp] theorem mulStage_int (s : State) :
    (mulStage s).int = s.int := by unfold mulStage mulShift mulWriteBack; split <;> simp
@[simp] theorem mulStage_log (s : State) :
    (mulStage s).log = s.log := by unfold mulStage mulShift mulWriteBack; split <;> simp
@[simp] theorem mulStage_dc (s : State) :
    (mulStage s).dc = s.dc := by unfold mulStage mulShift mulWriteBack; split <;> simp
@[simp] theorem mulStage_btb (s : State) :
    (mulStage s).btb = s.btb := by unfold mulStage mulShift mulWriteBack; split <;> simp
@[simp] theorem mulStage_redirectPending (s : State) :
    (mulStage s).redirectPending = s.redirectPending := by unfold mulStage mulShift mulWriteBack; split <;> simp
@[simp] theorem mulStage_jumpInFlight (s : State) :
    (mulStage s).jumpInFlight = s.jumpInFlight := by unfold mulStage mulShift mulWriteBack; split <;> simp
@[simp] theorem mulStage_jumpTaken (s : State) :
    (mulStage s).jumpTaken = s.jumpTaken := by unfold mulStage mulShift mulWriteBack; split <;> simp
@[simp] theorem mulStage_jumpTarget (s : State) :
    (mulStage s).jumpTarget = s.jumpTarget := by unfold mulStage mulShift mulWriteBack; split <;> simp
@[simp] theorem mulStage_branchRecovery (s : State) :
    (mulStage s).branchRecovery = s.branchRecovery := by unfold mulStage mulShift mulWriteBack; split <;> simp
@[simp] theorem mulStage_nextSeq (s : State) :
    (mulStage s).nextSeq = s.nextSeq := by unfold mulStage mulShift mulWriteBack; split <;> simp
@[simp] theorem mulStage_cycle (s : State) :
    (mulStage s).cycle = s.cycle := by unfold mulStage mulShift mulWriteBack; split <;> simp

@[simp] theorem lsqStage_program (s : State) :
    (lsqStage s).program = s.program := by
  unfold lsqStage lsqAction lsqLoad lsqStore
  repeat' split
  all_goals simp
@[simp] theorem lsqStage_x (s : State) :
    (lsqStage s).x = s.x := by
  unfold lsqStage lsqAction lsqLoad lsqStore
  repeat' split
  all_goals simp
@[simp] theorem lsqStage_xvalid (s : State) :
    (lsqStage s).xvalid = s.xvalid := by
  unfold lsqStage lsqAction lsqLoad lsqStore
  repeat' split
  all_goals simp
@[simp] theorem lsqStage_z (s : State) :
    (lsqStage s).z = s.z := by
  unfold lsqStage lsqAction lsqLoad lsqStore
  repeat' split
  all_goals simp
@[simp] theorem lsqStage_dmem (s : State) :
    (lsqStage s).dmem = s.dmem := by
  unfold lsqStage lsqAction lsqLoad lsqStore
  repeat' split
  all_goals simp
@[simp] theorem lsqStage_pc (s : State) :
    (lsqStage s).pc = s.pc := by
  unfold lsqStage lsqAction lsqLoad lsqStore
  repeat' split
  all_goals simp
@[simp] theorem lsqStage_retired (s : State) :
    (lsqStage s).retired = s.retired := by
  unfold lsqStage lsqAction lsqLoad lsqStore
  repeat' split
  all_goals simp
@[simp] theorem lsqStage_status (s : State) :
    (lsqStage s).status = s.status := by
  unfold lsqStage lsqAction lsqLoad lsqStore
  repeat' split
  all_goals simp
@[simp] theorem lsqStage_fl (s : State) :
    (lsqStage s).fl = s.fl := by
  unfold lsqStage lsqAction lsqLoad lsqStore
  repeat' split
  all_goals simp
@[simp] theorem lsqStage_rm (s : State) :
    (lsqStage s).rm = s.rm := by
  unfold lsqStage lsqAction lsqLoad lsqStore
  repeat' split
  all_goals simp
@[simp] theorem lsqStage_value (s : State) :
    (lsqStage s).value = s.value := by
  unfold lsqStage lsqAction lsqLoad lsqStore
  repeat' split
  all_goals simp
@[simp] theorem lsqStage_agenReady (s : State) :
    (lsqStage s).agenReady = s.agenReady := by
  unfold lsqStage lsqAction lsqLoad lsqStore
  repeat' split
  all_goals simp
@[simp] theorem lsqStage_agenAddr (s : State) :
    (lsqStage s).agenAddr = s.agenAddr := by
  unfold lsqStage lsqAction lsqLoad lsqStore
  repeat' split
  all_goals simp
@[simp] theorem lsqStage_storeDone (s : State) :
    (lsqStage s).storeDone = s.storeDone := by
  unfold lsqStage lsqAction lsqLoad lsqStore
  repeat' split
  all_goals simp
@[simp] theorem lsqStage_dec (s : State) :
    (lsqStage s).dec = s.dec := by
  unfold lsqStage lsqAction lsqLoad lsqStore
  repeat' split
  all_goals simp
@[simp] theorem lsqStage_dsp (s : State) :
    (lsqStage s).dsp = s.dsp := by
  unfold lsqStage lsqAction lsqLoad lsqStore
  repeat' split
  all_goals simp
@[simp] theorem lsqStage_iq (s : State) :
    (lsqStage s).iq = s.iq := by
  unfold lsqStage lsqAction lsqLoad lsqStore
  repeat' split
  all_goals simp
@[simp] theorem lsqStage_int (s : State) :
    (lsqStage s).int = s.int := by
  unfold lsqStage lsqAction lsqLoad lsqStore
  repeat' split
  all_goals simp
@[simp] theorem lsqStage_log (s : State) :
    (lsqStage s).log = s.log := by
  unfold lsqStage lsqAction lsqLoad lsqStore
  repeat' split
  all_goals simp
@[simp] theorem lsqStage_mul1 (s : State) :
    (lsqStage s).mul1 = s.mul1 := by
  unfold lsqStage lsqAction lsqLoad lsqStore
  repeat' split
  all_goals simp
@[simp] theorem lsqStage_mul2 (s : State) :
    (lsqStage s).mul2 = s.mul2 := by
  unfold lsqStage lsqAction lsqLoad lsqStore
  repeat' split
  all_goals simp
@[simp] theorem lsqStage_mul3 (s : State) :
    (lsqStage s).mul3 = s.mul3 := by
  unfold lsqStage lsqAction lsqLoad lsqStore
  repeat' split
  all_goals simp
@[simp] theorem lsqStage_mul4 (s : State) :
    (lsqStage s).mul4 = s.mul4 := by
  unfold lsqStage lsqAction lsqLoad lsqStore
  repeat' split
  all_goals simp
@[simp] theorem lsqStage_btb (s : State) :
    (lsqStage s).btb = s.btb := by
  unfold lsqStage lsqAction lsqLoad lsqStore
  repeat' split
  all_goals simp
@[simp] theorem lsqStage_redirectPending (s : State) :
    (lsqStage s).redirectPending = s.redirectPending := by
  unfold lsqStage lsqAction lsqLoad lsqStore
  repeat' split
  all_goals simp
@[simp] theorem lsqStage_jumpInFlight (s : State) :
    (lsqStage s).jumpInFlight = s.jumpInFlight := by
  unfold lsqStage lsqAction lsqLoad lsqStore
  repeat' split
  all_goals simp
@[simp] theorem lsqStage_jumpTaken (s : State) :
    (lsqStage s).jumpTaken = s.jumpTaken := by
  unfold lsqStage lsqAction lsqLoad lsqStore
  repeat' split
  all_goals simp
@[simp] theorem lsqStage_jumpTarget (s : State) :
    (lsqStage s).jumpTarget = s.jumpTarget := by
  unfold lsqStage lsqAction lsqLoad lsqStore
  repeat' split
  all_goals simp
@[simp] theorem lsqStage_branchRecovery (s : State) :
    (lsqStage s).branchRecovery = s.branchRecovery := by
  unfold lsqStage lsqAction lsqLoad lsqStore
  repeat' split
  all_goals simp
@[simp] theorem lsqStage_nextSeq (s : State) :
    (lsqStage s).nextSeq = s.nextSeq := by
  unfold lsqStage lsqAction lsqLoad lsqStore
  repeat' split
  all_goals simp
@[simp] theorem lsqStage_cycle (s : State) :
    (lsqStage s).cycle = s.cycle := by
  unfold lsqStage lsqAction lsqLoad lsqStore
  repeat' split
  all_goals simp

@[simp] theorem dcAction_program (r : Inflight) (s : State) :
    (dcAction r s).program = s.program := by
  unfold dcAction dcLoad dcStore
  repeat' split
  all_goals simp
@[simp] theorem dcAction_x (r : Inflight) (s : State) :
    (dcAction r s).x = s.x := by
  unfold dcAction dcLoad dcStore
  repeat' split
  all_goals simp
@[simp] theorem dcAction_xvalid (r : Inflight) (s : State) :
    (dcAction r s).xvalid = s.xvalid := by
  unfold dcAction dcLoad dcStore
  repeat' split
  all_goals simp
@[simp] theorem dcAction_z (r : Inflight) (s : State) :
    (dcAction r s).z = s.z := by
  unfold dcAction dcLoad dcStore
  repeat' split
  all_goals simp
@[simp] theorem dcAction_pc (r : Inflight) (s : State) :
    (dcAction r s).pc = s.pc := by
  unfold dcAction dcLoad dcStore
  repeat' split
  all_goals simp
@[simp] theorem dcAction_retired (r : Inflight) (s : State) :
    (dcAction r s).retired = s.retired := by
  unfold dcAction dcLoad dcStore
  repeat' split
  all_goals simp
@[simp] theorem dcAction_fl (r : Inflight) (s : State) :
    (dcAction r s).fl = s.fl := by
  unfold dcAction dcLoad dcStore
  repeat' split
  all_goals simp
@[simp] theorem dcAction_rm (r : Inflight) (s : State) :
    (dcAction r s).rm = s.rm := by
  unfold dcAction dcLoad dcStore
  repeat' split
  all_goals simp
@[simp] theorem dcAction_agenReady (r : Inflight) (s : State) :
    (dcAction r s).agenReady = s.agenReady := by
  unfold dcAction dcLoad dcStore
  repeat' split
  all_goals simp
@[simp] theorem dcAction_agenAddr (r : Inflight) (s : State) :
    (dcAction r s).agenAddr = s.agenAddr := by
  unfold dcAction dcLoad dcStore
  repeat' split
  all_goals simp
@[simp] theorem dcAction_dec (r : Inflight) (s : State) :
    (dcAction r s).dec = s.dec := by
  unfold dcAction dcLoad dcStore
  repeat' split
  all_goals simp
@[simp] theorem dcAction_dsp (r : Inflight) (s : State) :
    (dcAction r s).dsp = s.dsp := by
  unfold dcAction dcLoad dcStore
  repeat' split
  all_goals simp
@[simp] theorem dcAction_iq (r : Inflight) (s : State) :
    (dcAction r s).iq = s.iq := by
  unfold dcAction dcLoad dcStore
  repeat' split
  all_goals simp
@[simp] theorem dcAction_lsq (r : Inflight) (s : State) :
    (dcAction r s).lsq = s.lsq := by
  unfold dcAction dcLoad dcStore
  repeat' split
  all_goals simp
@[simp] theorem dcAction_int (r : Inflight) (s : State) :
    (dcAction r s).int = s.int := by
  unfold dcAction dcLoad dcStore
  repeat' split
  all_goals simp
@[simp] theorem dcAction_log (r : Inflight) (s : State) :
    (dcAction r s).log = s.log := by
  unfold dcAction dcLoad dcStore
  repeat' split
  all_goals simp
@[simp] theorem dcAction_mul1 (r : Inflight) (s : State) :
    (dcAction r s).mul1 = s.mul1 := by
  unfold dcAction dcLoad dcStore
  repeat' split
  all_goals simp
@[simp] theorem dcAction_mul2 (r : Inflight) (s : State) :
    (dcAction r s).mul2 = s.mul2 := by
  unfold dcAction dcLoad dcStore
  repeat' split
  all_goals simp
@[simp] theorem dcAction_mul3 (r : Inflight) (s : State) :
    (dcAction r s).mul3 = s.mul3 := by
  unfold dcAction dcLoad dcStore
  repeat' split
  all_goals simp
@[simp] theorem dcAction_mul4 (r : Inflight) (s : State) :
    (dcAction r s).mul4 = s.mul4 := by
  unfold dcAction dcLoad dcStore
  repeat' split
  all_goals simp
@[simp] theorem dcAction_dc (r : Inflight) (s : State) :
    (dcAction r s).dc = s.dc := by
  unfold dcAction dcLoad dcStore
  repeat' split
  all_goals simp
@[simp] theorem dcAction_btb (r : Inflight) (s : State) :
    (dcAction r s).btb = s.btb := by
  unfold dcAction dcLoad dcStore
  repeat' split
  all_goals simp
@[simp] theorem dcAction_redirectPending (r : Inflight) (s : State) :
    (dcAction r s).redirectPending = s.redirectPending := by
  unfold dcAction dcLoad dcStore
  repeat' split
  all_goals simp
@[simp] theorem dcAction_jumpInFlight (r : Inflight) (s : State) :
    (dcAction r s).jumpInFlight = s.jumpInFlight := by
  unfold dcAction dcLoad dcStore
  repeat' split
  all_goals simp
@[simp] theorem dcAction_jumpTaken (r : Inflight) (s : State) :
    (dcAction r s).jumpTaken = s.jumpTaken := by
  unfold dcAction dcLoad dcStore
  repeat' split
  all_goals simp
@[simp] theorem dcAction_jumpTarget (r : Inflight) (s : State) :
    (dcAction r s).jumpTarget = s.jumpTarget := by
  unfold dcAction dcLoad dcStore
  repeat' split
  all_goals simp
@[simp] theorem dcAction_branchRecovery (r : Inflight) (s : State) :
    (dcAction r s).branchRecovery = s.branchRecovery := by
  unfold dcAction dcLoad dcStore
  repeat' split
  all_goals simp
@[simp] theorem dcAction_nextSeq (r : Inflight) (s : State) :
    (dcAction r s).nextSeq = s.nextSeq := by
  unfold dcAction dcLoad dcStore
  repeat' split
  all_goals simp
@[simp] theorem dcAction_cycle (r : Inflight) (s : State) :
    (dcAction r s).cycle = s.cycle := by
  unfold dcAction dcLoad dcStore
  repeat' split
  all_goals simp

@[simp] theorem dataCacheStage_program (s : State) :
    (dataCacheStage s).program = s.program := by unfold dataCacheStage; split <;> simp
@[simp] theorem dataCacheStage_x (s : State) :
    (dataCacheStage s).x = s.x := by unfold dataCacheStage; split <;> simp
@[simp] theorem dataCacheStage_xvalid (s : State) :
    (dataCacheStage s).xvalid = s.xvalid := by unfold dataCacheStage; split <;> simp
@[simp] theorem dataCacheStage_z (s : State) :
    (dataCacheStage s).z = s.z := by unfold dataCacheStage; split <;> simp
@[simp] theorem dataCacheStage_pc (s : State) :
    (dataCacheStage s).pc = s.pc := by unfold dataCacheStage; split <;> simp
@[simp] theorem dataCacheStage_retired (s : State) :
    (dataCacheStage s).retired = s.retired := by unfold dataCacheStage; split <;> simp
@[simp] theorem dataCacheStage_fl (s : State) :
    (dataCacheStage s).fl = s.fl := by unfold dataCacheStage; split <;> simp
@[simp] theorem dataCacheStage_rm (s : State) :
    (dataCacheStage s).rm = s.rm := by unfold dataCacheStage; split <;> simp
@[simp] theorem dataCacheStage_agenReady (s : State) :
    (dataCacheStage s).agenReady = s.agenReady := by unfold dataCacheStage; split <;> simp
@[simp] theorem dataCacheStage_agenAddr (s : State) :
    (dataCacheStage s).agenAddr = s.agenAddr := by unfold dataCacheStage; split <;> simp
@[simp] theorem dataCacheStage_dec (s : State) :
    (dataCacheStage s).dec = s.dec := by unfold dataCacheStage; split <;> simp
@[simp] theorem dataCacheStage_dsp (s : State) :
    (dataCacheStage s).dsp = s.dsp := by unfold dataCacheStage; split <;> simp
@[simp] theorem dataCacheStage_iq (s : State) :
    (dataCacheStage s).iq = s.iq := by unfold dataCacheStage; split <;> simp
@[simp] theorem dataCacheStage_lsq (s : State) :
    (dataCacheStage s).lsq = s.lsq := by unfold dataCacheStage; split <;> simp
@[simp] theorem dataCacheStage_int (s : State) :
    (dataCacheStage s).int = s.int := by unfold dataCacheStage; split <;> simp
@[simp] theorem dataCacheStage_log (s : State) :
    (dataCacheStage s).log = s.log := by unfold dataCacheStage; split <;> simp
@[simp] theorem dataCacheStage_mul1 (s : State) :
    (dataCacheStage s).mul1 = s.mul1 := by unfold dataCacheStage; split <;> simp
@[simp] theorem dataCacheStage_mul2 (s : State) :
    (dataCacheStage s).mul2 = s.mul2 := by unfold dataCacheStage; split <;> simp
@[simp] theorem dataCacheStage_mul3 (s : State) :
    (dataCacheStage s).mul3 = s.mul3 := by unfold dataCacheStage; split <;> simp
@[simp] theorem dataCacheStage_mul4 (s : State) :
    (dataCacheStage s).mul4 = s.mul4 := by unfold dataCacheStage; split <;> simp
@[simp] theorem dataCacheStage_btb (s : State) :
    (dataCacheStage s).btb = s.btb := by unfold dataCacheStage; split <;> simp
@[simp] theorem dataCacheStage_redirectPending (s : State) :
    (dataCacheStage s).redirectPending = s.redirectPending := by unfold dataCacheStage; split <;> simp
@[simp] theorem dataCacheStage_jumpInFlight (s : State) :
    (dataCacheStage s).jumpInFlight = s.jumpInFlight := by unfold dataCacheStage; split <;> simp
@[simp] theorem dataCacheStage_jumpTaken (s : State) :
    (dataCacheStage s).jumpTaken = s.jumpTaken := by unfold dataCacheStage; split <;> simp
@[simp] theorem dataCacheStage_jumpTarget (s : State) :
    (dataCacheStage s).jumpTarget = s.jumpTarget := by unfold dataCacheStage; split <;> simp
@[simp] theorem dataCacheStage_branchRecovery (s : State) :
    (dataCacheStage s).branchRecovery = s.branchRecovery := by unfold dataCacheStage; split <;> simp
@[simp] theorem dataCacheStage_nextSeq (s : State) :
    (dataCacheStage s).nextSeq = s.nextSeq := by unfold dataCacheStage; split <;> simp
@[simp] theorem dataCacheStage_cycle (s : State) :
    (dataCacheStage s).cycle = s.cycle := by unfold dataCacheStage; split <;> simp

@[simp] theorem issueEffect_program (i : Instr) (e : Inflight) (s : State) :
    (issueEffect i e s).program = s.program := by unfold issueEffect; split <;> simp
@[simp] theorem issueEffect_x (i : Instr) (e : Inflight) (s : State) :
    (issueEffect i e s).x = s.x := by unfold issueEffect; split <;> simp
@[simp] theorem issueEffect_xvalid (i : Instr) (e : Inflight) (s : State) :
    (issueEffect i e s).xvalid = s.xvalid := by unfold issueEffect; split <;> simp
@[simp] theorem issueEffect_z (i : Instr) (e : Inflight) (s : State) :
    (issueEffect i e s).z = s.z := by unfold issueEffect; split <;> simp
@[simp] theorem issueEffect_dmem (i : Instr) (e : Inflight) (s : State) :
    (issueEffect i e s).dmem = s.dmem := by unfold issueEffect; split <;> simp
@[simp] theorem issueEffect_pc (i : Instr) (e : Inflight) (s : State) :
    (issueEffect i e s).pc = s.pc := by unfold issueEffect; split <;> simp
@[simp] theorem issueEffect_retired (i : Instr) (e : Inflight) (s : State) :
    (issueEffect i e s).retired = s.retired := by unfold issueEffect; split <;> simp
@[simp] theorem issueEffect_status (i : Instr) (e : Inflight) (s : State) :
    (issueEffect i e s).status = s.status := by unfold issueEffect; split <;> simp
@[simp] theorem issueEffect_fl (i : Instr) (e : Inflight) (s : State) :
    (issueEffect i e s).fl = s.fl := by unfold issueEffect; split <;> simp
@[simp] theorem issueEffect_rm (i : Instr) (e : Inflight) (s : State) :
    (issueEffect i e s).rm = s.rm := by unfold issueEffect; split <;> simp
@[simp] theorem issueEffect_value (i : Instr) (e : Inflight) (s : State) :
    (issueEffect i e s).value = s.value := by unfold issueEffect; split <;> simp
@[simp] theorem issueEffect_agenReady (i : Instr) (e : Inflight) (s : State) :
    (issueEffect i e s).agenReady = s.agenReady := by unfold issueEffect; split <;> simp
@[simp] theorem issueEffect_agenAddr (i : Instr) (e : Inflight) (s : State) :
    (issueEffect i e s).agenAddr = s.agenAddr := by unfold issueEffect; split <;> simp
@[simp] theorem issueEffect_storeDone (i : Instr) (e : Inflight) (s : State) :
    (issueEffect i e s).storeDone = s.storeDone := by unfold issueEffect; split <;> simp
@[simp] theorem issueEffect_dec (i : Instr) (e : Inflight) (s : State) :
    (issueEffect i e s).dec = s.dec := by unfold issueEffect; split <;> simp
@[simp] theorem issueEffect_dsp (i : Instr) (e : Inflight) (s : State) :
    (issueEffect i e s).dsp = s.dsp := by unfold issueEffect; split <;> simp
@[simp] theorem issueEffect_iq (i : Instr) (e : Inflight) (s : State) :
    (issueEffect i e s).iq = s.iq := by unfold issueEffect; split <;> simp
@[simp] theorem issueEffect_lsq (i : Instr) (e : Inflight) (s : State) :
    (issueEffect i e s).lsq = s.lsq := by unfold issueEffect; split <;> simp
@[simp] theorem issueEffect_rob (i : Instr) (e : Inflight) (s : State) :
    (issueEffect i e s).rob = s.rob := by unfold issueEffect; split <;> simp
@[simp] theorem issueEffect_int (i : Instr) (e : Inflight) (s : State) :
    (issueEffect i e s).int = s.int := by unfold issueEffect; split <;> simp
@[simp] theorem issueEffect_log (i : Instr) (e : Inflight) (s : State) :
    (issueEffect i e s).log = s.log := by unfold issueEffect; split <;> simp
@[simp] theorem issueEffect_mul1 (i : Instr) (e : Inflight) (s : State) :
    (issueEffect i e s).mul1 = s.mul1 := by unfold issueEffect; split <;> simp
@[simp] theorem issueEffect_mul2 (i : Instr) (e : Inflight) (s : State) :
    (issueEffect i e s).mul2 = s.mul2 := by unfold issueEffect; split <;> simp
@[simp] theorem issueEffect_mul3 (i : Instr) (e : Inflight) (s : State) :
    (issueEffect i e s).mul3 = s.mul3 := by unfold issueEffect; split <;> simp
@[simp] theorem issueEffect_mul4 (i : Instr) (e : Inflight) (s : State) :
    (issueEffect i e s).mul4 = s.mul4 := by unfold issueEffect; split <;> simp
@[simp] theorem issueEffect_dc (i : Instr) (e : Inflight) (s : State) :
    (issueEffect i e s).dc = s.dc := by unfold issueEffect; split <;> simp
@[simp] theorem issueEffect_btb (i : Instr) (e : Inflight) (s : State) :
    (issueEffect i e s).btb = s.btb := by unfold issueEffect; split <;> simp
@[simp] theorem issueEffect_redirectPending (i : Instr) (e : Inflight) (s : State) :
    (issueEffect i e s).redirectPending = s.redirectPending := by unfold issueEffect; split <;> simp
@[simp] theorem issueEffect_jumpInFlight (i : Instr) (e : Inflight) (s : State) :
    (issueEffect i e s).jumpInFlight = s.jumpInFlight := by unfold issueEffect; split <;> simp
@[simp] theorem issueEffect_jumpTaken (i : Instr) (e : Inflight) (s : State) :
    (issueEffect i e s).jumpTaken = s.jumpTaken := by unfold issueEffect; split <;> simp
@[simp] theorem issueEffect_jumpTarget (i : Instr) (e : Inflight) (s : State) :
    (issueEffect i e s).jumpTarget = s.jumpTarget := by unfold issueEffect; split <;> simp
@[simp] theorem issueEffect_branchRecovery (i : Instr) (e : Inflight) (s : State) :
    (issueEffect i e s).branchRecovery = s.branchRecovery := by unfold issueEffect; split <;> simp
@[simp] theorem issueEffect_nextSeq (i : Instr) (e : Inflight) (s : State) :
    (issueEffect i e s).nextSeq = s.nextSeq := by unfold issueEffect; split <;> simp
@[simp] theorem issueEffect_cycle (i : Instr) (e : Inflight) (s : State) :
    (issueEffect i e s).cycle = s.cycle := by unfold issueEffect; split <;> simp

@[simp] theorem issueEntry_program (i : Instr) (c : FuClass) (e : Inflight) (s : State) :
    (issueEntry i c e s).program = s.program := by simp [issueEntry]
@[simp] theorem issueEntry_x (i : Instr) (c : FuClass) (e : Inflight) (s : State) :
    (issueEntry i c e s).x = s.x := by simp [issueEntry]
@[simp] theorem issueEntry_xvalid (i : Instr) (c : FuClass) (e : Inflight) (s : State) :
    (issueEntry i c e s).xvalid = s.xvalid := by simp [issueEntry]
@[simp] theorem issueEntry_z (i : Instr) (c : FuClass) (e : Inflight) (s : State) :
    (issueEntry i c e s).z = s.z := by simp [issueEntry]
@[simp] theorem issueEntry_dmem (i : Instr) (c : FuClass) (e : Inflight) (s : State) :
    (issueEntry i c e s).dmem = s.dmem := by simp [issueEntry]
@[simp] theorem issueEntry_pc (i : Instr) (c : FuClass) (e : Inflight) (s : State) :
    (issueEntry i c e s).pc = s.pc := by simp [issueEntry]
@[simp] theorem issueEntry_retired (i : Instr) (c : FuClass) (e : Inflight) (s : State) :
    (issueEntry i c e s).retired = s.retired := by simp [issueEntry]
@[simp] theorem issueEntry_status (i : Instr) (c : FuClass) (e : Inflight) (s : State) :
    (issueEntry i c e s).status = s.status := by simp [issueEntry]
@[simp] theorem issueEntry_fl (i : Instr) (c : FuClass) (e : Inflight) (s : State) :
    (issueEntry i c e s).fl = s.fl := by simp [issueEntry]
@[simp] theorem issueEntry_rm (i : Instr) (c : FuClass) (e : Inflight) (s : State) :
    (issueEntry i c e s).rm = s.rm := by simp [issueEntry]
@[simp] theorem issueEntry_value (i : Instr) (c : FuClass) (e : Inflight) (s : State) :
    (issueEntry i c e s).value = s.value := by simp [issueEntry]
@[simp] theorem issueEntry_agenReady (i : Instr) (c : FuClass) (e : Inflight) (s : State) :
    (issueEntry i c e s).agenReady = s.agenReady := by simp [issueEntry]
@[simp] theorem issueEntry_agenAddr (i : Instr) (c : FuClass) (e : Inflight) (s : State) :
    (issueEntry i c e s).agenAddr = s.agenAddr := by simp [issueEntry]
@[simp] theorem issueEntry_storeDone (i : Instr) (c : FuClass) (e : Inflight) (s : State) :
    (issueEntry i c e s).storeDone = s.storeDone := by simp [issueEntry]
@[simp] theorem issueEntry_dec (i : Instr) (c : FuClass) (e : Inflight) (s : State) :
    (issueEntry i c e s).dec = s.dec := by simp [issueEntry]
@[simp] theorem issueEntry_dsp (i : Instr) (c : FuClass) (e : Inflight) (s : State) :
    (issueEntry i c e s).dsp = s.dsp := by simp [issueEntry]
@[simp] theorem issueEntry_iq (i : Instr) (c : FuClass) (e : Inflight) (s : State) :
    (issueEntry i c e s).iq = s.iq := by simp [issueEntry]
@[simp] theorem issueEntry_mul2 (i : Instr) (c : FuClass) (e : Inflight) (s : State) :
    (issueEntry i c e s).mul2 = s.mul2 := by simp [issueEntry]
@[simp] theorem issueEntry_mul3 (i : Instr) (c : FuClass) (e : Inflight) (s : State) :
    (issueEntry i c e s).mul3 = s.mul3 := by simp [issueEntry]
@[simp] theorem issueEntry_mul4 (i : Instr) (c : FuClass) (e : Inflight) (s : State) :
    (issueEntry i c e s).mul4 = s.mul4 := by simp [issueEntry]
@[simp] theorem issueEntry_dc (i : Instr) (c : FuClass) (e : Inflight) (s : State) :
    (issueEntry i c e s).dc = s.dc := by simp [issueEntry]
@[simp] theorem issueEntry_btb (i : Instr) (c : FuClass) (e : Inflight) (s : State) :
    (issueEntry i c e s).btb = s.btb := by simp [issueEntry]
@[simp] theorem issueEntry_redirectPending (i : Instr) (c : FuClass) (e : Inflight) (s : State) :
    (issueEntry i c e s).redirectPending = s.redirectPending := by simp [issueEntry]
@[simp] theorem issueEntry_jumpInFlight (i : Instr) (c : FuClass) (e : Inflight) (s : State) :
    (issueEntry i c e s).jumpInFlight = s.jumpInFlight := by simp [issueEntry]
@[simp] theorem issueEntry_jumpTaken (i : Instr) (c : FuClass) (e : Inflight) (s : State) :
    (issueEntry i c e s).jumpTaken = s.jumpTaken := by simp [issueEntry]
@[simp] theorem issueEntry_jumpTarget (i : Instr) (c : FuClass) (e : Inflight) (s : State) :
    (issueEntry i c e s).jumpTarget = s.jumpTarget := by simp [issueEntry]
@[simp] theorem issueEntry_branchRecovery (i : Instr) (c : FuClass) (e : Inflight) (s : State) :
    (issueEntry i c e s).branchRecovery = s.branchRecovery := by simp [issueEntry]
@[simp] theorem issueEntry_nextSeq (i : Instr) (c : FuClass) (e : Inflight) (s : State) :
    (issueEntry i c e s).nextSeq = s.nextSeq := by simp [issueEntry]
@[simp] theorem issueEntry_cycle (i : Instr) (c : FuClass) (e : Inflight) (s : State) :
    (issueEntry i c e s).cycle = s.cycle := by simp [issueEntry]

@[simp] theorem issueScan_program (l : List Inflight) (b : Busy) (s : State) :
    ((issueScan l b s).2).program = s.program := by
  induction l generalizing b s with
  | nil => rfl
  | cons e l ih =>
    unfold issueScan
    repeat' split
    all_goals simp [ih]
@[simp] theorem issueScan_x (l : List Inflight) (b : Busy) (s : State) :
    ((issueScan l b s).2).x = s.x := by
  induction l generalizing b s with
  | nil => rfl
  | cons e l ih =>
    unfold issueScan
    repeat' split
    all_goals simp [ih]
@[simp] theorem issueScan_xvalid (l : List Inflight) (b : Busy) (s : State) :
    ((issueScan l b s).2).xvalid = s.xvalid := by
  induction l generalizing b s with
  | nil => rfl
  | cons e l ih =>
    unfold issueScan
    repeat' split
    all_goals simp [ih]
@[simp] theorem issueScan_z (l : List Inflight) (b : Busy) (s : State) :
    ((issueScan l b s).2).z = s.z := by
  induction l generalizing b s with
  | nil => rfl
  | cons e l ih =>
    unfold issueScan
    repeat' split
    all_goals simp [ih]
@[simp] theorem issueScan_dmem (l : List Inflight) (b : Busy) (s : State) :
    ((issueScan l b s).2).dmem = s.dmem := by
  induction l generalizing b s with
  | nil => rfl
  | cons e l ih =>
    unfold issueScan
    repeat' split
    all_goals simp [ih]
@[simp] theorem issueScan_pc (l : List Inflight) (b : Busy) (s : State) :
    ((issueScan l b s).2).pc = s.pc := by
  induction l generalizing b s with
  | nil => rfl
  | cons e l ih =>
    unfold issueScan
    repeat' split
    all_goals simp [ih]
@[simp] theorem issueScan_retired (l : List Inflight) (b : Busy) (s : State) :
    ((issueScan l b s).2).retired = s.retired := by
  induction l generalizing b s with
  | nil => rfl
  | cons e l ih =>
    unfold issueScan
    repeat' split
    all_goals simp [ih]
@[simp] theorem issueScan_status (l : List Inflight) (b : Busy) (s : State) :
    ((issueScan l b s).2).status = s.status := by
  induction l generalizing b s with
  | nil => rfl
  | cons e l ih =>
    unfold issueScan
    repeat' split
    all_goals simp [ih]
@[simp] theorem issueScan_fl (l : List Inflight) (b : Busy) (s : State) :
    ((issueScan l b s).2).fl = s.fl := by
  induction l generalizing b s with
  | nil => rfl
  | cons e l ih =>
    unfold issueScan
    repeat' split
    all_goals simp [ih]
@[simp] theorem issueScan_rm (l : List Inflight) (b : Busy) (s : State) :
    ((issueScan l b s).2).rm = s.rm := by
  induction l generalizing b s with
  | nil => rfl
  | cons e l ih =>
    unfold issueScan
    repeat' split
    all_goals simp [ih]
@[simp] theorem issueScan_value (l : List Inflight) (b : Busy) (s : State) :
    ((issueScan l b s).2).value = s.value := by
  induction l generalizing b s with
  | nil => rfl
  | cons e l ih =>
    unfold issueScan
    repeat' split
    all_goals simp [ih]
@[simp] theorem issueScan_agenReady (l : List Inflight) (b : Busy) (s : State) :
    ((issueScan l b s).2).agenReady = s.agenReady := by
  induction l generalizing b s with
  | nil => rfl
  | cons e l ih =>
    unfold issueScan
    repeat' split
    all_goals simp [ih]
@[simp] theorem issueScan_agenAddr (l : List Inflight) (b : Busy) (s : State) :
    ((issueScan l b s).2).agenAddr = s.agenAddr := by
  induction l generalizing b s with
  | nil => rfl
  | cons e l ih =>
    unfold issueScan
    repeat' split
    all_goals simp [ih]
@[simp] theorem issueScan_storeDone (l : List Inflight) (b : Busy) (s : State) :
    ((issueScan l b s).2).storeDone = s.storeDone := by
  induction l generalizing b s with
  | nil => rfl
  | cons e l ih =>
    unfold issueScan
    repeat' split
    all_goals simp [ih]
@[simp] theorem issueScan_dec (l : List Inflight) (b : Busy) (s : State) :
    ((issueScan l b s).2).dec = s.dec := by
  induction l generalizing b s with
  | nil => rfl
  | cons e l ih =>
    unfold issueScan
    repeat' split
    all_goals simp [ih]
@[simp] theorem issueScan_dsp (l : List Inflight) (b : Busy) (s : State) :
    ((issueScan l b s).2).dsp = s.dsp := by
  induction l generalizing b s with
  | nil => rfl
  | cons e l ih =>
    unfold issueScan
    repeat' split
    all_goals simp [ih]
@[simp] theorem issueScan_iq (l : List Inflight) (b : Busy) (s : State) :
    ((issueScan l b s).2).iq = s.iq := by
  induction l generalizing b s with
  | nil => rfl
  | cons e l ih =>
    unfold issueScan
    repeat' split
    all_goals simp [ih]
@[simp] theorem issueScan_mul2 (l : List Inflight) (b : Busy) (s : State) :
    ((issueScan l b s).2).mul2 = s.mul2 := by
  induction l generalizing b s with
  | nil => rfl
  | cons e l ih =>
    unfold issueScan
    repeat' split
    all_goals simp [ih]
@[simp] theorem issueScan_mul3 (l : List Inflight) (b : Busy) (s : State) :
    ((issueScan l b s).2).mul3 = s.mul3 := by
  induction l generalizing b s with
  | nil => rfl
  | cons e l ih =>
    unfold issueScan
    repeat' split
    all_goals simp [ih]
@[simp] theorem issueScan_mul4 (l : List Inflight) (b : Busy) (s : State) :
    ((issueScan l b s).2).mul4 = s.mul4 := by
  induction l generalizing b s with
  | nil => rfl
  | cons e l ih =>
    unfold issueScan
    repeat' split
    all_goals simp [ih]
@[simp] theorem issueScan_dc (l : List Inflight) (b : Busy) (s : State) :
    ((issueScan l b s).2).dc = s.dc := by
  induction l generalizing b s with
  | nil => rfl
  | cons e l ih =>
    unfold issueScan
    repeat' split
    all_goals simp [ih]
@[simp] theorem issueScan_btb (l : List Inflight) (b : Busy) (s : State) :
    ((issueScan l b s).2).btb = s.btb := by
  induction l generalizing b s with
  | nil => rfl
  | cons e l ih =>
    unfold issueScan
    repeat' split
    all_goals simp [ih]
@[simp] theorem issueScan_redirectPending (l : List Inflight) (b : Busy) (s : State) :
    ((issueScan l b s).2).redirectPending = s.redirectPending := by
  induction l generalizing b s with
  | nil => rfl
  | cons e l ih =>
    unfold issueScan
    repeat' split
    all_goals simp [ih]
@[simp] theorem issueScan_jumpInFlight (l : List Inflight) (b : Busy) (s : State) :
    ((issueScan l b s).2).jumpInFlight = s.jumpInFlight := by
  induction l generalizing b s with
  | nil => rfl
  | cons e l ih =>
    unfold issueScan
    repeat' split
    all_goals simp [ih]
@[simp] theorem issueScan_jumpTaken (l : List Inflight) (b : Busy) (s : State) :
    ((issueScan l b s).2).jumpTaken = s.jumpTaken := by
  induction l generalizing b s with
  | nil => rfl
  | cons e l ih =>
    unfold issueScan
    repeat' split
    all_goals simp [ih]
@[simp] theorem issueScan_jumpTarget (l : List Inflight) (b : Busy) (s : State) :
    ((issueScan l b s).2).jumpTarget = s.jumpTarget := by
  induction l generalizing b s with
  | nil => rfl
  | cons e l ih =>
    unfold issueScan
    repeat' split
    all_goals simp [ih]
@[simp] theorem issueScan_branchRecovery (l : List Inflight) (b : Busy) (s : State) :
    ((issueScan l b s).2).branchRecovery = s.branchRecovery := by
  induction l generalizing b s with
  | nil => rfl
  | cons e l ih =>
    unfold issueScan
    repeat' split
    all_goals simp [ih]
@[simp] theorem issueScan_nextSeq (l : List Inflight) (b : Busy) (s : State) :
    ((issueScan l b s).2).nextSeq = s.nextSeq := by
  induction l generalizing b s with
  | nil => rfl
  | cons e l ih =>
    unfold issueScan
    repeat' split
    all_goals simp [ih]
@[simp] theorem issueScan_cycle (l : List Inflight) (b : Busy) (s : State) :
    ((issueScan l b s).2).cycle = s.cycle := by
  induction l generalizing b s with
  | nil => rfl
  | cons e l ih =>
    unfold issueScan
    repeat' split
    all_goals simp [ih]

@[simp] theorem issueStage_program (s : State) :
    (issueStage s).program = s.program := by simp [issueStage]
@[simp] theorem issueStage_x (s : State) :
    (issueStage s).x = s.x := by simp [issueStage]
@[simp] theorem issueStage_xvalid (s : State) :
    (issueStage s).xvalid = s.xvalid := by simp [issueStage]
@[simp] theorem issueStage_z (s : State) :
    (issueStage s).z = s.z := by simp [issueStage]
@[simp] theorem issueStage_dmem (s : State) :
    (issueStage s).dmem = s.dmem := by simp [issueStage]
@[simp] theorem issueStage_pc (s : State) :
    (issueStage s).pc = s.pc := by simp [issueStage]
@[simp] theorem issueStage_retired (s : State) :
    (issueStage s).retired = s.retired := by simp [issueStage]
@[simp] theorem issueStage_status (s : State) :
    (issueStage s).status = s.status := by simp [issueStage]
@[simp] theorem issueStage_fl (s : State) :
    (issueStage s).fl = s.fl := by simp [issueStage]
@[simp] theorem issueStage_rm (s : State) :
    (issueStage s).rm = s.rm := by simp [issueStage]
@[simp] theorem issueStage_value (s : State) :
    (issueStage s).value = s.value := by simp [issueStage]
@[simp] theorem issueStage_agenReady (s : State) :
    (issueStage s).agenReady = s.agenReady := by simp [issueStage]
@[simp] theorem issueStage_agenAddr (s : State) :
    (issueStage s).agenAddr = s.agenAddr := by simp [issueStage]
@[simp] theorem issueStage_storeDone (s : State) :
    (issueStage s).storeDone = s.storeDone := by simp [issueStage]
@[simp] theorem issueStage_dec (s : State) :
    (issueStage s).dec = s.dec := by simp [issueStage]
@[simp] theorem issueStage_dsp (s : State) :
    (issueStage s).dsp = s.dsp := by simp [issueStage]
@[simp] theorem issueStage_mul2 (s : State) :
    (issueStage s).mul2 = s.mul2 := by simp [issueStage]
@[simp] theorem issueStage_mul3 (s : State) :
    (issueStage s).mul3 = s.mul3 := by simp [issueStage]
@[simp] theorem issueStage_mul4 (s : State) :
    (issueStage s).mul4 = s.mul4 := by simp [issueStage]
@[simp] theorem issueStage_dc (s : State) :
    (issueStage s).dc = s.dc := by simp [issueStage]
@[simp] theorem issueStage_btb (s : State) :
    (issueStage s).btb = s.btb := by simp [issueStage]
@[simp] theorem issueStage_redirectPending (s : State) :
    (issueStage s).redirectPending = s.redirectPending := by simp [issueStage]
@[simp] theorem issueStage_jumpInFlight (s : State) :
    (issueStage s).jumpInFlight = s.jumpInFlight := by simp [issueStage]
@[simp] theorem issueStage_jumpTaken (s : State) :
    (issueStage s).jumpTaken = s.jumpTaken := by simp [issueStage]
@[simp] theorem issueStage_jumpTarget (s : State) :
    (issueStage s).jumpTarget = s.jumpTarget := by simp [issueStage]
@[simp] theorem issueStage_branchRecovery (s : State) :
    (issueStage s).branchRecovery = s.branchRecovery := by simp [issueStage]
@[simp] theorem issueStage_nextSeq (s : State) :
    (issueStage s).nextSeq = s.nextSeq := by simp [issueStage]
@[simp] theorem issueStage_cycle (s : State) :
    (issueStage s).cycle = s.cycle := by simp [issueStage]

@[simp] theorem enterQueues_program (r : Inflight) (s : State) :
    (enterQueues r s).program = s.program := by unfold enterQueues; simp only []; split <;> simp
@[simp] theorem enterQueues_x (r : Inflight) (s : State) :
    (enterQueues r s).x = s.x := by unfold enterQueues; simp only []; split <;> simp
@[simp] theorem enterQueues_xvalid (r : Inflight) (s : State) :
    (enterQueues r s).xvalid = s.xvalid := by unfold enterQueues; simp only []; split <;> simp
@[simp] theorem enterQueues_z (r : Inflight) (s : State) :
    (enterQueues r s).z = s.z := by unfold enterQueues; simp only []; split <;> simp
@[simp] theorem enterQueues_dmem (r : Inflight) (s : State) :
    (enterQueues r s).dmem = s.dmem := by unfold enterQueues; simp only []; split <;> simp
@[simp] theorem enterQueues_pc (r : Inflight) (s : State) :
    (enterQueues r s).pc = s.pc := by unfold enterQueues; simp only []; split <;> simp
@[simp] theorem enterQueues_retired (r : Inflight) (s : State) :
    (enterQueues r s).retired = s.retired := by unfold enterQueues; simp only []; split <;> simp
@[simp] theorem enterQueues_status (r : Inflight) (s : State) :
    (enterQueues r s).status = s.status := by unfold enterQueues; simp only []; split <;> simp
@[simp] theorem enterQueues_fl (r : Inflight) (s : State) :
    (enterQueues r s).fl = s.fl := by unfold enterQueues; simp only []; split <;> simp
@[simp] theorem enterQueues_rm (r : Inflight) (s : State) :
    (enterQueues r s).rm = s.rm := by unfold enterQueues; simp only []; split <;> simp
@[simp] theorem enterQueues_ready (r : Inflight) (s : State) :
    (enterQueues r s).ready = s.ready := by unfold enterQueues; simp only []; split <;> simp
@[simp] theorem enterQueues_value (r : Inflight) (s : State) :
    (enterQueues r s).value = s.value := by unfold enterQueues; simp only []; split <;> simp
@[simp] theorem enterQueues_memReady (r : Inflight) (s : State) :
    (enterQueues r s).memReady = s.memReady := by unfold enterQueues; simp only []; split <;> simp
@[simp] theorem enterQueues_agenAddr (r : Inflight) (s : State) :
    (enterQueues r s).agenAddr = s.agenAddr := by unfold enterQueues; simp only []; split <;> simp
@[simp] theorem enterQueues_dec (r : Inflight) (s : State) :
    (enterQueues r s).dec = s.dec := by unfold enterQueues; simp only []; split <;> simp
@[simp] theorem enterQueues_int (r : Inflight) (s : State) :
    (enterQueues r s).int = s.int := by unfold enterQueues; simp only []; split <;> simp
@[simp] theorem enterQueues_log (r : Inflight) (s : State) :
    (enterQueues r s).log = s.log := by unfold enterQueues; simp only []; split <;> simp
@[simp] theorem enterQueues_mul1 (r : Inflight) (s : State) :
    (enterQueues r s).mul1 = s.mul1 := by unfold enterQueues; simp only []; split <;> simp
@[simp] theorem enterQueues_mul2 (r : Inflight) (s : State) :
    (enterQueues r s).mul2 = s.mul2 := by unfold enterQueues; simp only []; split <;> simp
@[simp] theorem enterQueues_mul3 (r : Inflight) (s : State) :
    (enterQueues r s).mul3 = s.mul3 := by unfold enterQueues; simp only []; split <;> simp
@[simp] theorem enterQueues_mul4 (r : Inflight) (s : State) :
    (enterQueues r s).mul4 = s.mul4 := by unfold enterQueues; simp only []; split <;> simp
@[simp] theorem enterQueues_dc (r : Inflight) (s : State) :
    (enterQueues r s).dc = s.dc := by unfold enterQueues; simp only []; split <;> simp
@[simp] theorem enterQueues_btb (r : Inflight) (s : State) :
    (enterQueues r s).btb = s.btb := by unfold enterQueues; simp only []; split <;> simp
@[simp] theorem enterQueues_redirectPending (r : Inflight) (s : State) :
    (enterQueues r s).redirectPending = s.redirectPending := by unfold enterQueues; simp only []; split <;> simp
@[simp] theorem enterQueues_jumpInFlight (r : Inflight) (s : State) :
    (enterQueues r s).jumpInFlight = s.jumpInFlight := by unfold enterQueues; simp only []; split <;> simp
@[simp] theorem enterQueues_jumpTaken (r : Inflight) (s : State) :
    (enterQueues r s).jumpTaken = s.jumpTaken := by unfold enterQueues; simp only []; split <;> simp
@[simp] theorem enterQueues_jumpTarget (r : Inflight) (s : State) :
    (enterQueues r s).jumpTarget = s.jumpTarget := by unfold enterQueues; simp only []; split <;> simp
@[simp] theorem enterQueues_branchRecovery (r : Inflight) (s : State) :
    (enterQueues r s).branchRecovery = s.branchRecovery := by unfold enterQueues; simp only []; split <;> simp
@[simp] theorem enterQueues_cycle (r : Inflight) (s : State) :
    (enterQueues r s).cycle = s.cycle := by unfold enterQueues; simp only []; split <;> simp

@[simp] theorem recoverDispatch_program (s : State) :
    (recoverDispatch s).program = s.program := by unfold recoverDispatch; simp only []; split <;> simp
@[simp] theorem recoverDispatch_x (s : State) :
    (recoverDispatch s).x = s.x := by unfold recoverDispatch; simp only []; split <;> simp
@[simp] theorem recoverDispatch_xvalid (s : State) :
    (recoverDispatch s).xvalid = s.xvalid := by unfold recoverDispatch; simp only []; split <;> simp
@[simp] theorem recoverDispatch_z (s : State) :
    (recoverDispatch s).z = s.z := by unfold recoverDispatch; simp only []; split <;> simp
@[simp] theorem recoverDispatch_dmem (s : State) :
    (recoverDispatch s).dmem = s.dmem := by unfold recoverDispatch; simp only []; split <;> simp
@[simp] theorem recoverDispatch_pc (s : State) :
    (recoverDispatch s).pc = s.pc := by unfold recoverDispatch; simp only []; split <;> simp
@[simp] theorem recoverDispatch_retired (s : State) :
    (recoverDispatch s).retired = s.retired := by unfold recoverDispatch; simp only []; split <;> simp
@[simp] theorem recoverDispatch_status (s : State) :
    (recoverDispatch s).status = s.status := by unfold recoverDispatch; simp only []; split <;> simp
@[simp] theorem recoverDispatch_value (s : State) :
    (recoverDispatch s).value = s.value := by unfold recoverDispatch; simp only []; split <;> simp
@[simp] theorem recoverDispatch_memReady (s : State) :
    (recoverDispatch s).memReady = s.memReady := by unfold recoverDispatch; simp only []; split <;> simp
@[simp] theorem recoverDispatch_agenReady (s : State) :
    (recoverDispatch s).agenReady = s.agenReady := by unfold recoverDispatch; simp only []; split <;> simp
@[simp] theorem recoverDispatch_agenAddr (s : State) :
    (recoverDispatch s).agenAddr = s.agenAddr := by unfold recoverDispatch; simp only []; split <;> simp
@[simp] theorem recoverDispatch_storeDone (s : State) :
    (recoverDispatch s).storeDone = s.storeDone := by unfold recoverDispatch; simp only []; split <;> simp
@[simp] theorem recoverDispatch_dec (s : State) :
    (recoverDispatch s).dec = s.dec := by unfold recoverDispatch; simp only []; split <;> simp
@[simp] theorem recoverDispatch_iq (s : State) :
    (recoverDispatch s).iq = s.iq := by unfold recoverDispatch; simp only []; split <;> simp
@[simp] theorem recoverDispatch_lsq (s : State) :
    (recoverDispatch s).lsq = s.lsq := by unfold recoverDispatch; simp only []; split <;> simp
@[simp] theorem recoverDispatch_rob (s : State) :
    (recoverDispatch s).rob = s.rob := by unfold recoverDispatch; simp only []; split <;> simp
@[simp] theorem recoverDispatch_int (s : State) :
    (recoverDispatch s).int = s.int := by unfold recoverDispatch; simp only []; split <;> simp
@[simp] theorem recoverDispatch_log (s : State) :
    (recoverDispatch s).log = s.log := by unfold recoverDispatch; simp only []; split <;> simp
@[simp] theorem recoverDispatch_mul1 (s : State) :
    (recoverDispatch s).mul1 = s.mul1 := by unfold recoverDispatch; simp only []; split <;> simp
@[simp] theorem recoverDispatch_mul2 (s : State) :
    (recoverDispatch s).mul2 = s.mul2 := by unfold recoverDispatch; simp only []; split <;> simp
@[simp] theorem recoverDispatch_mul3 (s : State) :
    (recoverDispatch s).mul3 = s.mul3 := by unfold recoverDispatch; simp only []; split <;> simp
@[simp] theorem recoverDispatch_mul4 (s : State) :
    (recoverDispatch s).mul4 = s.mul4 := by unfold recoverDispatch; simp only []; split <;> simp
@[simp] theorem recoverDispatch_dc (s : State) :
    (recoverDispatch s).dc = s.dc := by unfold recoverDispatch; simp only []; split <;> simp
@[simp] theorem recoverDispatch_btb (s : State) :
    (recoverDispatch s).btb = s.btb := by unfold recoverDispatch; simp only []; split <;> simp
@[simp] theorem recoverDispatch_redirectPending (s : State) :
    (recoverDispatch s).redirectPending = s.redirectPending := by unfold recoverDispatch; simp only []; split <;> simp
@[simp] theorem recoverDispatch_jumpInFlight (s : State) :
    (recoverDispatch s).jumpInFlight = s.jumpInFlight := by unfold recoverDispatch; simp only []; split <;> simp
@[simp] theorem recoverDispatch_jumpTaken (s : State) :
    (recoverDispatch s).jumpTaken = s.jumpTaken := by unfold recoverDispatch; simp only []; split <;> simp
@[simp] theorem recoverDispatch_jumpTarget (s : State) :
    (recoverDispatch s).jumpTarget = s.jumpTarget := by unfold recoverDispatch; simp only []; split <;> simp
@[simp] theorem recoverDispatch_nextSeq (s : State) :
    (recoverDispatch s).nextSeq = s.nextSeq := by unfold recoverDispatch; simp only []; split <;> simp
@[simp] theorem recoverDispatch_cycle (s : State) :
    (recoverDispatch s).cycle = s.cycle := by unfold recoverDispatch; simp only []; split <;> simp

@[simp] theorem dispatchStage_program (s : State) :
    (dispatchStage s).program = s.program := by
  unfold dispatchStage
  repeat' split
  all_goals simp
@[simp] theorem dispatchStage_x (s : State) :
    (dispatchStage s).x = s.x := by
  unfold dispatchStage
  repeat' split
  all_goals simp
@[simp] theorem dispatchStage_xvalid (s : State) :
    (dispatchStage s).xvalid = s.xvalid := by
  unfold dispatchStage
  repeat' split
  all_goals simp
@[simp] theorem dispatchStage_z (s : State) :
    (dispatchStage s).z = s.z := by
  unfold dispatchStage
  repeat' split
  all_goals simp
@[simp] theorem dispatchStage_dmem (s : State) :
    (dispatchStage s).dmem = s.dmem := by
  unfold dispatchStage
  repeat' split
  all_goals simp
@[simp] theorem dispatchStage_pc (s : State) :
    (dispatchStage s).pc = s.pc := by
  unfold dispatchStage
  repeat' split
  all_goals simp
@[simp] theorem dispatchStage_retired (s : State) :
    (dispatchStage s).retired = s.retired := by
  unfold dispatchStage
  repeat' split
  all_goals simp
@[simp] theorem dispatchStage_status (s : State) :
    (dispatchStage s).status = s.status := by
  unfold dispatchStage
  repeat' split
  all_goals simp
@[simp] theorem dispatchStage_value (s : State) :
    (dispatchStage s).value = s.value := by
  unfold dispatchStage
  repeat' split
  all_goals simp
@[simp] theorem dispatchStage_memReady (s : State) :
    (dispatchStage s).memReady = s.memReady := by
  unfold dispatchStage
  repeat' split
  all_goals simp
@[simp] theorem dispatchStage_agenAddr (s : State) :
    (dispatchStage s).agenAddr = s.agenAddr := by
  unfold dispatchStage
  repeat' split
  all_goals simp
@[simp] theorem dispatchStage_dec (s : State) :
    (dispatchStage s).dec = s.dec := by
  unfold dispatchStage
  repeat' split
  all_goals simp
@[simp] theorem dispatchStage_int (s : State) :
    (dispatchStage s).int = s.int := by
  unfold dispatchStage
  repeat' split
  all_goals simp
@[simp] theorem dispatchStage_log (s : State) :
    (dispatchStage s).log = s.log := by
  unfold dispatchStage
  repeat' split
  all_goals simp
@[simp] theorem dispatchStage_mul1 (s : State) :
    (dispatchStage s).mul1 = s.mul1 := by
  unfold dispatchStage
  repeat' split
  all_goals simp
@[simp] theorem dispatchStage_mul2 (s : State) :
    (dispatchStage s).mul2 = s.mul2 := by
  unfold dispatchStage
  repeat' split
  all_goals simp
@[simp] theorem dispatchStage_mul3 (s : State) :
    (dispatchStage s).mul3 = s.mul3 := by
  unfold dispatchStage
  repeat' split
  all_goals simp
@[simp] theorem dispatchStage_mul4 (s : State) :
    (dispatchStage s).mul4 = s.mul4 := by
  unfold dispatchStage
  repeat' split
  all_goals simp
@[simp] theorem dispatchStage_dc (s : State) :
    (dispatchStage s).dc = s.dc := by
  unfold dispatchStage
  repeat' split
  all_goals simp
@[simp] theorem dispatchStage_btb (s : State) :
    (dispatchStage s).btb = s.btb := by
  unfold dispatchStage
  repeat' split
  all_goals simp
@[simp] theorem dispatchStage_redirectPending (s : State) :
    (dispatchStage s).redirectPending = s.redirectPending := by
  unfold dispatchStage
  repeat' split
  all_goals simp
@[simp] theorem dispatchStage_jumpInFlight (s : State) :
    (dispatchStage s).jumpInFlight = s.jumpInFlight := by
  unfold dispatchStage
  repeat' split
  all_goals simp
@[simp] theorem dispatchStage_jumpTaken (s : State) :
    (dispatchStage s).jumpTaken = s.jumpTaken := by
  unfold dispatchStage
  repeat' split
  all_goals simp
@[simp] theorem dispatchStage_jumpTarget (s : State) :
    (dispatchStage s).jumpTarget = s.jumpTarget := by
  unfold dispatchStage
  repeat' split
  all_goals simp
@[simp] theorem dispatchStage_cycle (s : State) :
    (dispatchStage s).cycle = s.cycle := by
  unfold dispatchStage
  repeat' split
  all_goals simp

@[simp] theorem renameDest_program (rd : Reg) (r : Inflight) (s : State) :
    ((renameDest rd r s).2).program = s.program := by
  cases h : s.fl <;> simp [renameDest, State.allocate, h]
@[simp] theorem renameDest_x (rd : Reg) (r : Inflight) (s : State) :
    ((renameDest rd r s).2).x = s.x := by
  cases h : s.fl <;> simp [renameDest, State.allocate, h]
@[simp] theorem renameDest_xvalid (rd : Reg) (r : Inflight) (s : State) :
    ((renameDest rd r s).2).xvalid = s.xvalid := by
  cases h : s.fl <;> simp [renameDest, State.allocate, h]
@[simp] theorem renameDest_z (rd : Reg) (r : Inflight) (s : State) :
    ((renameDest rd r s).2).z = s.z := by
  cases h : s.fl <;> simp [renameDest, State.allocate, h]
@[simp] theorem renameDest_dmem (rd : Reg) (r : Inflight) (s : State) :
    ((renameDest rd r s).2).dmem = s.dmem := by
  cases h : s.fl <;> simp [renameDest, State.allocate, h]
@[simp] theorem renameDest_pc (rd : Reg) (r : Inflight) (s : State) :
    ((renameDest rd r s).2).pc = s.pc := by
  cases h : s.fl <;> simp [renameDest, State.allocate, h]
@[simp] theorem renameDest_retired (rd : Reg) (r : Inflight) (s : State) :
    ((renameDest rd r s).2).retired = s.retired := by
  cases h : s.fl <;> simp [renameDest, State.allocate, h]
@[simp] theorem renameDest_status (rd : Reg) (r : Inflight) (s : State) :
    ((renameDest rd r s).2).status = s.status := by
  cases h : s.fl <;> simp [renameDest, State.allocate, h]
@[simp] theorem renameDest_value (rd : Reg) (r : Inflight) (s : State) :
    ((renameDest rd r s).2).value = s.value := by
  cases h : s.fl <;> simp [renameDest, State.allocate, h]
@[simp] theorem renameDest_memReady (rd : Reg) (r : Inflight) (s : State) :
    ((renameDest rd r s).2).memReady = s.memReady := by
  cases h : s.fl <;> simp [renameDest, State.allocate, h]
@[simp] theorem renameDest_agenReady (rd : Reg) (r : Inflight) (s : State) :
    ((renameDest rd r s).2).agenReady = s.agenReady := by
  cases h : s.fl <;> simp [renameDest, State.allocate, h]
@[simp] theorem renameDest_agenAddr (rd : Reg) (r : Inflight) (s : State) :
    ((renameDest rd r s).2).agenAddr = s.agenAddr := by
  cases h : s.fl <;> simp [renameDest, State.allocate, h]
@[simp] theorem renameDest_storeDone (rd : Reg) (r : Inflight) (s : State) :
    ((renameDest rd r s).2).storeDone = s.storeDone := by
  cases h : s.fl <;> simp [renameDest, State.allocate, h]
@[simp] theorem renameDest_dec (rd : Reg) (r : Inflight) (s : State) :
    ((renameDest rd r s).2).dec = s.dec := by
  cases h : s.fl <;> simp [renameDest, State.allocate, h]
@[simp] theorem renameDest_dsp (rd : Reg) (r : Inflight) (s : State) :
    ((renameDest rd r s).2).dsp = s.dsp := by
  cases h : s.fl <;> simp [renameDest, State.allocate, h]
@[simp] theorem renameDest_iq (rd : Reg) (r : Inflight) (s : State) :
    ((renameDest rd r s).2).iq = s.iq := by
  cases h : s.fl <;> simp [renameDest, State.allocate, h]
@[simp] theorem renameDest_lsq (rd : Reg) (r : Inflight) (s : State) :
    ((renameDest rd r s).2).lsq = s.lsq := by
  cases h : s.fl <;> simp [renameDest, State.allocate, h]
@[simp] theorem renameDest_rob (rd : Reg) (r : Inflight) (s : State) :
    ((renameDest rd r s).2).rob = s.rob := by
  cases h : s.fl <;> simp [renameDest, State.allocate, h]
@[simp] theorem renameDest_int (rd : Reg) (r : Inflight) (s : State) :
    ((renameDest rd r s).2).int = s.int := by
  cases h : s.fl <;> simp [renameDest, State.allocate, h]
@[simp] theorem renameDest_log (rd : Reg) (r : Inflight) (s : State) :
    ((renameDest rd r s).2).log = s.log := by
  cases h : s.fl <;> simp [renameDest, State.allocate, h]
@[simp] theorem renameDest_mul1 (rd : Reg) (r : Inflight) (s : State) :
    ((renameDest rd r s).2).mul1 = s.mul1 := by
  cases h : s.fl <;> simp [renameDest, State.allocate, h]
@[simp] theorem renameDest_mul2 (rd : Reg) (r : Inflight) (s : State) :
    ((renameDest rd r s).2).mul2 = s.mul2 := by
  cases h : s.fl <;> simp [renameDest, State.allocate, h]
@[simp] theorem renameDest_mul3 (rd : Reg) (r : Inflight) (s : State) :
    ((renameDest rd r s).2).mul3 = s.mul3 := by
  cases h : s.fl <;> simp [renameDest, State.allocate, h]
@[simp] theorem renameDest_mul4 (rd : Reg) (r : Inflight) (s : State) :
    ((renameDest rd r s).2).mul4 = s.mul4 := by
  cases h : s.fl <;> simp [renameDest, State.allocate, h]
@[simp] theorem renameDest_dc (rd : Reg) (r : Inflight) (s : State) :
    ((renameDest rd r s).2).dc = s.dc := by
  cases h : s.fl <;> simp [renameDest, State.allocate, h]
@[simp] theorem renameDest_btb (rd : Reg) (r : Inflight) (s : State) :
    ((renameDest rd r s).2).btb = s.btb := by
  cases h : s.fl <;> simp [renameDest, State.allocate, h]
@[simp] theorem renameDest_redirectPending (rd : Reg) (r : Inflight) (s : State) :
    ((renameDest rd r s).2).redirectPending = s.redirectPending := by
  cases h : s.fl <;> simp [renameDest, State.allocate, h]
@[simp] theorem renameDest_jumpInFlight (rd : Reg) (r : Inflight) (s : State) :
    ((renameDest rd r s).2).jumpInFlight = s.jumpInFlight := by
  cases h : s.fl <;> simp [renameDest, State.allocate, h]
@[simp] theorem renameDest_jumpTaken (rd : Reg) (r : Inflight) (s : State) :
    ((renameDest rd r s).2).jumpTaken = s.jumpTaken := by
  cases h : s.fl <;> simp [renameDest, State.allocate, h]
@[simp] theorem renameDest_jumpTarget (rd : Reg) (r : Inflight) (s : State) :
    ((renameDest rd r s).2).jumpTarget = s.jumpTarget := by
  cases h : s.fl <;> simp [renameDest, State.allocate, h]
@[simp] theorem renameDest_branchRecovery (rd : Reg) (r : Inflight) (s : State) :
    ((renameDest rd r s).2).branchRecovery = s.branchRecovery := by
  cases h : s.fl <;> simp [renameDest, State.allocate, h]
@[simp] theorem renameDest_nextSeq (rd : Reg) (r : Inflight) (s : State) :
    ((renameDest rd r s).2).nextSeq = s.nextSeq := by
  cases h : s.fl <;> simp [renameDest, State.allocate, h]
@[simp] theorem renameDest_cycle (rd : Reg) (r : Inflight) (s : State) :
    ((renameDest rd r s).2).cycle = s.cycle := by
  cases h : s.fl <;> simp [renameDest, State.allocate, h]

@[simp] theorem renameToken_program (r : Inflight) (s : State) :
    ((renameToken r s).2).program = s.program := by
  cases h : s.fl <;> simp [renameToken, State.allocate, h]
@[simp] theorem renameToken_x (r : Inflight) (s : State) :
    ((renameToken r s).2).x = s.x := by
  cases h : s.fl <;> simp [renameToken, State.allocate, h]
@[simp] theorem renameToken_xvalid (r : Inflight) (s : State) :
    ((renameToken r s).2).xvalid = s.xvalid := by
  cases h : s.fl <;> simp [renameToken, State.allocate, h]
@[simp] theorem renameToken_z (r : Inflight) (s : State) :
    ((renameToken r s).2).z = s.z := by
  cases h : s.fl <;> simp [renameToken, State.allocate, h]
@[simp] theorem renameToken_dmem (r : Inflight) (s : State) :
    ((renameToken r s).2).dmem = s.dmem := by
  cases h : s.fl <;> simp [renameToken, State.allocate, h]
@[simp] theorem renameToken_pc (r : Inflight) (s : State) :
    ((renameToken r s).2).pc = s.pc := by
  cases h : s.fl <;> simp [renameToken, State.allocate, h]
@[simp] theorem renameToken_retired (r : Inflight) (s : State) :
    ((renameToken r s).2).retired = s.retired := by
  cases h : s.fl <;> simp [renameToken, State.allocate, h]
@[simp] theorem renameToken_status (r : Inflight) (s : State) :
    ((renameToken r s).2).status = s.status := by
  cases h : s.fl <;> simp [renameToken, State.allocate, h]
@[simp] theorem renameToken_rm (r : Inflight) (s : State) :
    ((renameToken r s).2).rm = s.rm := by
  cases h : s.fl <;> simp [renameToken, State.allocate, h]
@[simp] theorem renameToken_value (r : Inflight) (s : State) :
    ((renameToken r s).2).value = s.value := by
  cases h : s.fl <;> simp [renameToken, State.allocate, h]
@[simp] theorem renameToken_memReady (r : Inflight) (s : State) :
    ((renameToken r s).2).memReady = s.memReady := by
  cases h : s.fl <;> simp [renameToken, State.allocate, h]
@[simp] theorem renameToken_agenReady (r : Inflight) (s : State) :
    ((renameToken r s).2).agenReady = s.agenReady := by
  cases h : s.fl <;> simp [renameToken, State.allocate, h]
@[simp] theorem renameToken_agenAddr (r : Inflight) (s : State) :
    ((renameToken r s).2).agenAddr = s.agenAddr := by
  cases h : s.fl <;> simp [renameToken, State.allocate, h]
@[simp] theorem renameToken_storeDone (r : Inflight) (s : State) :
    ((renameToken r s).2).storeDone = s.storeDone := by
  cases h : s.fl <;> simp [renameToken, State.allocate, h]
@[simp] theorem renameToken_dec (r : Inflight) (s : State) :
    ((renameToken r s).2).dec = s.dec := by
  cases h : s.fl <;> simp [renameToken, State.allocate, h]
@[simp] theorem renameToken_dsp (r : Inflight) (s : State) :
    ((renameToken r s).2).dsp = s.dsp := by
  cases h : s.fl <;> simp [renameToken, State.allocate, h]
@[simp] theorem renameToken_iq (r : Inflight) (s : State) :
    ((renameToken r s).2).iq = s.iq := by
  cases h : s.fl <;> simp [renameToken, State.allocate, h]
@[simp] theorem renameToken_lsq (r : Inflight) (s : State) :
    ((renameToken r s).2).lsq = s.lsq := by
  cases h : s.fl <;> simp [renameToken, State.allocate, h]
@[simp] theorem renameToken_rob (r : Inflight) (s : State) :
    ((renameToken r s).2).rob = s.rob := by
  cases h : s.fl <;> simp [renameToken, State.allocate, h]
@[simp] theorem renameToken_int (r : Inflight) (s : State) :
    ((renameToken r s).2).int = s.int := by
  cases h : s.fl <;> simp [renameToken, State.allocate, h]
@[simp] theorem renameToken_log (r : Inflight) (s : State) :
    ((renameToken r s).2).log = s.log := by
  cases h : s.fl <;> simp [renameToken, State.allocate, h]
@[simp] theorem renameToken_mul1 (r : Inflight) (s : State) :
    ((renameToken r s).2).mul1 = s.mul1 := by
  cases h : s.fl <;> simp [renameToken, State.allocate, h]
@[simp] theorem renameToken_mul2 (r : Inflight) (s : State) :
    ((renameToken r s).2).mul2 = s.mul2 := by
  cases h : s.fl <;> simp [renameToken, State.allocate, h]
@[simp] theorem renameToken_mul3 (r : Inflight) (s : State) :
    ((renameToken r s).2).mul3 = s.mul3 := by
  cases h : s.fl <;> simp [renameToken, State.allocate, h]
@[simp] theorem renameToken_mul4 (r : Inflight) (s : State) :
    ((renameToken r s).2).mul4 = s.mul4 := by
  cases h : s.fl <;> simp [renameToken, State.allocate, h]
@[simp] theorem renameToken_dc (r : Inflight) (s : State) :
    ((renameToken r s).2).dc = s.dc := by
  cases h : s.fl <;> simp [renameToken, State.allocate, h]
@[simp] theorem renameToken_btb (r : Inflight) (s : State) :
    ((renameToken r s).2).btb = s.btb := by
  cases h : s.fl <;> simp [renameToken, State.allocate, h]
@[simp] theorem renameToken_redirectPending (r : Inflight) (s : State) :
    ((renameToken r s).2).redirectPending = s.redirectPending := by
  cases h : s.fl <;> simp [renameToken, State.allocate, h]
@[simp] theorem renameToken_jumpInFlight (r : Inflight) (s : State) :
    ((renameToken r s).2).jumpInFlight = s.jumpInFlight := by
  cases h : s.fl <;> simp [renameToken, State.allocate, h]
@[simp] theorem renameToken_jumpTaken (r : Inflight) (s : State) :
    ((renameToken r s).2).jumpTaken = s.jumpTaken := by
  cases h : s.fl <;> simp [renameToken, State.allocate, h]
@[simp] theorem renameToken_jumpTarget (r : Inflight) (s : State) :
    ((renameToken r s).2).jumpTarget = s.jumpTarget := by
  cases h : s.fl <;> simp [renameToken, State.allocate, h]
@[simp] theorem renameToken_branchRecovery (r : Inflight) (s : State) :
    ((renameToken r s).2).branchRecovery = s.branchRecovery := by
  cases h : s.fl <;> simp [renameToken, State.allocate, h]
@[simp] theorem renameToken_nextSeq (r : Inflight) (s : State) :
    ((renameToken r s).2).nextSeq = s.nextSeq := by
  cases h : s.fl <;> simp [renameToken, State.allocate, h]
@[simp] theorem renameToken_cycle (r : Inflight) (s : State) :
    ((renameToken r s).2).cycle = s.cycle := by
  cases h : s.fl <;> simp [renameToken, State.allocate, h]

@[simp] theorem createBtbEntry_program (r : Inflight) (s : State) :
    (createBtbEntry r s).program = s.program := by unfold createBtbEntry; split <;> simp
@[simp] theorem createBtbEntry_x (r : Inflight) (s : State) :
    (createBtbEntry r s).x = s.x := by unfold createBtbEntry; split <;> simp
@[simp] theorem createBtbEntry_xvalid (r : Inflight) (s : State) :
    (createBtbEntry r s).xvalid = s.xvalid := by unfold createBtbEntry; split <;> simp
@[simp] theorem createBtbEntry_z (r : Inflight) (s : State) :
    (createBtbEntry r s).z = s.z := by unfold createBtbEntry; split <;> simp
@[simp] theorem createBtbEntry_dmem (r : Inflight) (s : State) :
    (createBtbEntry r s).dmem = s.dmem := by unfold createBtbEntry; split <;> simp
@[simp] theorem createBtbEntry_pc (r : Inflight) (s : State) :
    (createBtbEntry r s).pc = s.pc := by unfold createBtbEntry; split <;> simp
@[simp] theorem createBtbEntry_retired (r : Inflight) (s : State) :
    (createBtbEntry r s).retired = s.retired := by unfold createBtbEntry; split <;> simp
@[simp] theorem createBtbEntry_status (r : Inflight) (s : State) :
    (createBtbEntry r s).status = s.status := by unfold createBtbEntry; split <;> simp
@[simp] theorem createBtbEntry_fl (r : Inflight) (s : State) :
    (createBtbEntry r s).fl = s.fl := by unfold createBtbEntry; split <;> simp
@[simp] theorem createBtbEntry_rm (r : Inflight) (s : State) :
    (createBtbEntry r s).rm = s.rm := by unfold createBtbEntry; split <;> simp
@[simp] theorem createBtbEntry_ready (r : Inflight) (s : State) :
    (createBtbEntry r s).ready = s.ready := by unfold createBtbEntry; split <;> simp
@[simp] theorem createBtbEntry_value (r : Inflight) (s : State) :
    (createBtbEntry r s).value = s.value := by unfold createBtbEntry; split <;> simp
@[simp] theorem createBtbEntry_memReady (r : Inflight) (s : State) :
    (createBtbEntry r s).memReady = s.memReady := by unfold createBtbEntry; split <;> simp
@[simp] theorem createBtbEntry_agenReady (r : Inflight) (s : State) :
    (createBtbEntry r s).agenReady = s.agenReady := by unfold createBtbEntry; split <;> simp
@[simp] theorem createBtbEntry_agenAddr (r : Inflight) (s : State) :
    (createBtbEntry r s).agenAddr = s.agenAddr := by unfold createBtbEntry; split <;> simp
@[simp] theorem createBtbEntry_storeDone (r : Inflight) (s : State) :
    (createBtbEntry r s).storeDone = s.storeDone := by unfold createBtbEntry; split <;> simp
@[simp] theorem createBtbEntry_dec (r : Inflight) (s : State) :
    (createBtbEntry r s).dec = s.dec := by unfold createBtbEntry; split <;> simp
@[simp] theorem createBtbEntry_dsp (r : Inflight) (s : State) :
    (createBtbEntry r s).dsp = s.dsp := by unfold createBtbEntry; split <;> simp
@[simp] theorem createBtbEntry_iq (r : Inflight) (s : State) :
    (createBtbEntry r s).iq = s.iq := by unfold createBtbEntry; split <;> simp
@[simp] theorem createBtbEntry_lsq (r : Inflight) (s : State) :
    (createBtbEntry r s).lsq = s.lsq := by unfold createBtbEntry; split <;> simp
@[simp] theorem createBtbEntry_rob (r : Inflight) (s : State) :
    (createBtbEntry r s).rob = s.rob := by unfold createBtbEntry; split <;> simp
@[simp] theorem createBtbEntry_int (r : Inflight) (s : State) :
    (createBtbEntry r s).int = s.int := by unfold createBtbEntry; split <;> simp
@[simp] theorem createBtbEntry_log (r : Inflight) (s : State) :
    (createBtbEntry r s).log = s.log := by unfold createBtbEntry; split <;> simp
@[simp] theorem createBtbEntry_mul1 (r : Inflight) (s : State) :
    (createBtbEntry r s).mul1 = s.mul1 := by unfold createBtbEntry; split <;> simp
@[simp] theorem createBtbEntry_mul2 (r : Inflight) (s : State) :
    (createBtbEntry r s).mul2 = s.mul2 := by unfold createBtbEntry; split <;> simp
@[simp] theorem createBtbEntry_mul3 (r : Inflight) (s : State) :
    (createBtbEntry r s).mul3 = s.mul3 := by unfold createBtbEntry; split <;> simp
@[simp] theorem createBtbEntry_mul4 (r : Inflight) (s : State) :
    (createBtbEntry r s).mul4 = s.mul4 := by unfold createBtbEntry; split <;> simp
@[simp] theorem createBtbEntry_dc (r : Inflight) (s : State) :
    (createBtbEntry r s).dc = s.dc := by unfold createBtbEntry; split <;> simp
@[simp] theorem createBtbEntry_redirectPending (r : Inflight) (s : State) :
    (createBtbEntry r s).redirectPending = s.redirectPending := by unfold createBtbEntry; split <;> simp
@[simp] theorem createBtbEntry_jumpInFlight (r : Inflight) (s : State) :
    (createBtbEntry r s).jumpInFlight = s.jumpInFlight := by unfold createBtbEntry; split <;> simp
@[simp] theorem createBtbEntry_jumpTaken (r : Inflight) (s : State) :
    (createBtbEntry r s).jumpTaken = s.jumpTaken := by unfold createBtbEntry; split <;> simp
@[simp] theorem createBtbEntry_jumpTarget (r : Inflight) (s : State) :
    (createBtbEntry r s).jumpTarget = s.jumpTarget := by unfold createBtbEntry; split <;> simp
@[simp] theorem createBtbEntry_branchRecovery (r : Inflight) (s : State) :
    (createBtbEntry r s).branchRecovery = s.branchRecovery := by unfold createBtbEntry; split <;> simp
@[simp] theorem createBtbEntry_nextSeq (r : Inflight) (s : State) :
    (createBtbEntry r s).nextSeq = s.nextSeq := by unfold createBtbEntry; split <;> simp
@[simp] theorem createBtbEntry_cycle (r : Inflight) (s : State) :
    (createBtbEntry r s).cycle = s.cycle := by unfold createBtbEntry; split <;> simp

@[simp] theorem renameAction_program (r : Inflight) (s : State) :
    ((renameAction r s).2).program = s.program := by
  unfold renameAction
  repeat' split
  all_goals simp
@[simp] theorem renameAction_x (r : Inflight) (s : State) :
    ((renameAction r s).2).x = s.x := by
  unfold renameAction
  repeat' split
  all_goals simp
@[simp] theorem renameAction_xvalid (r : Inflight) (s : State) :
    ((renameAction r s).2).xvalid = s.xvalid := by
  unfold renameAction
  repeat' split
  all_goals simp
@[simp] theorem renameAction_z (r : Inflight) (s : State) :
    ((renameAction r s).2).z = s.z := by
  unfold renameAction
  repeat' split
  all_goals simp
@[simp] theorem renameAction_dmem (r : Inflight) (s : State) :
    ((renameAction r s).2).dmem = s.dmem := by
  unfold renameAction
  repeat' split
  all_goals simp
@[simp] theorem renameAction_pc (r : Inflight) (s : State) :
    ((renameAction r s).2).pc = s.pc := by
  unfold renameAction
  repeat' split
  all_goals simp
@[simp] theorem renameAction_retired (r : Inflight) (s : State) :
    ((renameAction r s).2).retired = s.retired := by
  unfold renameAction
  repeat' split
  all_goals simp
@[simp] theorem renameAction_status (r : Inflight) (s : State) :
    ((renameAction r s).2).status = s.status := by
  unfold renameAction
  repeat' split
  all_goals simp
@[simp] theorem renameAction_value (r : Inflight) (s : State) :
    ((renameAction r s).2).value = s.value := by
  unfold renameAction
  repeat' split
  all_goals simp
@[simp] theorem renameAction_memReady (r : Inflight) (s : State) :
    ((renameAction r s).2).memReady = s.memReady := by
  unfold renameAction
  repeat' split
  all_goals simp
@[simp] theorem renameAction_agenReady (r : Inflight) (s : State) :
    ((renameAction r s).2).agenReady = s.agenReady := by
  unfold renameAction
  repeat' split
  all_goals simp
@[simp] theorem renameAction_agenAddr (r : Inflight) (s : State) :
    ((renameAction r s).2).agenAddr = s.agenAddr := by
  unfold renameAction
  repeat' split
  all_goals simp
@[simp] theorem renameAction_storeDone (r : Inflight) (s : State) :
    ((renameAction r s).2).storeDone = s.storeDone := by
  unfold renameAction
  repeat' split
  all_goals simp
@[simp] theorem renameAction_dec (r : Inflight) (s : State) :
    ((renameAction r s).2).dec = s.dec := by
  unfold renameAction
  repeat' split
  all_goals simp
@[simp] theorem renameAction_dsp (r : Inflight) (s : State) :
    ((renameAction r s).2).dsp = s.dsp := by
  unfold renameAction
  repeat' split
  all_goals simp
@[simp] theorem renameAction_iq (r : Inflight) (s : State) :
    ((renameAction r s).2).iq = s.iq := by
  unfold renameAction
  repeat' split
  all_goals simp
@[simp] theorem renameAction_lsq (r : Inflight) (s : State) :
    ((renameAction r s).2).lsq = s.lsq := by
  unfold renameAction
  repeat' split
  all_goals simp
@[simp] theorem renameAction_rob (r : Inflight) (s : State) :
    ((renameAction r s).2).rob = s.rob := by
  unfold renameAction
  repeat' split
  all_goals simp
@[simp] theorem renameAction_int (r : Inflight) (s : State) :
    ((renameAction r s).2).int = s.int := by
  unfold renameAction
  repeat' split
  all_goals simp
@[simp] theorem renameAction_log (r : Inflight) (s : State) :
    ((renameAction r s).2).log = s.log := by
  unfold renameAction
  repeat' split
  all_goals simp
@[simp] theorem renameAction_mul1 (r : Inflight) (s : State) :
    ((renameAction r s).2).mul1 = s.mul1 := by
  unfold renameAction
  repeat' split
  all_goals simp
@[simp] theorem renameAction_mul2 (r : Inflight) (s : State) :
    ((renameAction r s).2).mul2 = s.mul2 := by
  unfold renameAction
  repeat' split
  all_goals simp
@[simp] theorem renameAction_mul3 (r : Inflight) (s : State) :
    ((renameAction r s).2).mul3 = s.mul3 := by
  unfold renameAction
  repeat' split
  all_goals simp
@[simp] theorem renameAction_mul4 (r : Inflight) (s : State) :
    ((renameAction r s).2).mul4 = s.mul4 := by
  unfold renameAction
  repeat' split
  all_goals simp
@[simp] theorem renameAction_dc (r : Inflight) (s : State) :
    ((renameAction r s).2).dc = s.dc := by
  unfold renameAction
  repeat' split
  all_goals simp
@[simp] theorem renameAction_redirectPending (r : Inflight) (s : State) :
    ((renameAction r s).2).redirectPending = s.redirectPending := by
  unfold renameAction
  repeat' split
  all_goals simp
@[simp] theorem renameAction_jumpTaken (r : Inflight) (s : State) :
    ((renameAction r s).2).jumpTaken = s.jumpTaken := by
  unfold renameAction
  repeat' split
  all_goals simp
@[simp] theorem renameAction_jumpTarget (r : Inflight) (s : State) :
    ((renameAction r s).2).jumpTarget = s.jumpTarget := by
  unfold renameAction
  repeat' split
  all_goals simp
@[simp] theorem renameAction_branchRecovery (r : Inflight) (s : State) :
    ((renameAction r s).2).branchRecovery = s.branchRecovery := by
  unfold renameAction
  repeat' split
  all_goals simp
@[simp] theorem renameAction_nextSeq (r : Inflight) (s : State) :
    ((renameAction r s).2).nextSeq = s.nextSeq := by
  unfold renameAction
  repeat' split
  all_goals simp
@[simp] theorem renameAction_cycle (r : Inflight) (s : State) :
    ((renameAction r s).2).cycle = s.cycle := by
  unfold renameAction
  repeat' split
  all_goals simp

@[simp] theorem decodeStage_program (s : State) :
    (decodeStage s).program = s.program := by
  unfold decodeStage decodeRecord
  repeat' split
  all_goals simp
@[simp] theorem decodeStage_x (s : State) :
    (decodeStage s).x = s.x := by
  unfold decodeStage decodeRecord
  repeat' split
  all_goals simp
@[simp] theorem decodeStage_xvalid (s : State) :
    (decodeStage s).xvalid = s.xvalid := by
  unfold decodeStage decodeRecord
  repeat' split
  all_goals simp
@[simp] theorem decodeStage_z (s : State) :
    (decodeStage s).z = s.z := by
  unfold decodeStage decodeRecord
  repeat' split
  all_goals simp
@[simp] theorem decodeStage_dmem (s : State) :
    (decodeStage s).dmem = s.dmem := by
  unfold decodeStage decodeRecord
  repeat' split
  all_goals simp
@[simp] theorem decodeStage_pc (s : State) :
    (decodeStage s).pc = s.pc := by
  unfold decodeStage decodeRecord
  repeat' split
  all_goals simp
@[simp] theorem decodeStage_retired (s : State) :
    (decodeStage s).retired = s.retired := by
  unfold decodeStage decodeRecord
  repeat' split
  all_goals simp
@[simp] theorem decodeStage_status (s : State) :
    (decodeStage s).status = s.status := by
  unfold decodeStage decodeRecord
  repeat' split
  all_goals simp
@[simp] theorem decodeStage_value (s : State) :
    (decodeStage s).value = s.value := by
  unfold decodeStage decodeRecord
  repeat' split
  all_goals simp
@[simp] theorem decodeStage_memReady (s : State) :
    (decodeStage s).memReady = s.memReady := by
  unfold decodeStage decodeRecord
  repeat' split
  all_goals simp
@[simp] theorem decodeStage_agenReady (s : State) :
    (decodeStage s).agenReady = s.agenReady := by
  unfold decodeStage decodeRecord
  repeat' split
  all_goals simp
@[simp] theorem decodeStage_agenAddr (s : State) :
    (decodeStage s).agenAddr = s.agenAddr := by
  unfold decodeStage decodeRecord
  repeat' split
  all_goals simp
@[simp] theorem decodeStage_storeDone (s : State) :
    (decodeStage s).storeDone = s.storeDone := by
  unfold decodeStage decodeRecord
  repeat' split
  all_goals simp
@[simp] theorem decodeStage_iq (s : State) :
    (decodeStage s).iq = s.iq := by
  unfold decodeStage decodeRecord
  repeat' split
  all_goals simp
@[simp] theorem decodeStage_lsq (s : State) :
    (decodeStage s).lsq = s.lsq := by
  unfold decodeStage decodeRecord
  repeat' split
  all_goals simp
@[simp] theorem decodeStage_rob (s : State) :
    (decodeStage s).rob = s.rob := by
  unfold decodeStage decodeRecord
  repeat' split
  all_goals simp
@[simp] theorem decodeStage_int (s : State) :
    (decodeStage s).int = s.int := by
  unfold decodeStage decodeRecord
  repeat' split
  all_goals simp
@[simp] theorem decodeStage_log (s : State) :
    (decodeStage s).log = s.log := by
  unfold decodeStage decodeRecord
  repeat' split
  all_goals simp
@[simp] theorem decodeStage_mul1 (s : State) :
    (decodeStage s).mul1 = s.mul1 := by
  unfold decodeStage decodeRecord
  repeat' split
  all_goals simp
@[simp] theorem decodeStage_mul2 (s : State) :
    (decodeStage s).mul2 = s.mul2 := by
  unfold decodeStage decodeRecord
  repeat' split
  all_goals simp
@[simp] theorem decodeStage_mul3 (s : State) :
    (decodeStage s).mul3 = s.mul3 := by
  unfold decodeStage decodeRecord
  repeat' split
  all_goals simp
@[simp] theorem decodeStage_mul4 (s : State) :
    (decodeStage s).mul4 = s.mul4 := by
  unfold decodeStage decodeRecord
  repeat' split
  all_goals simp
@[simp] theorem decodeStage_dc (s : State) :
    (decodeStage s).dc = s.dc := by
  unfold decodeStage decodeRecord
  repeat' split
  all_goals simp
@[simp] theorem decodeStage_redirectPending (s : State) :
    (decodeStage s).redirectPending = s.redirectPending := by
  unfold decodeStage decodeRecord
  repeat' split
  all_goals simp
@[simp] theorem decodeStage_jumpTaken (s : State) :
    (decodeStage s).jumpTaken = s.jumpTaken := by
  unfold decodeStage decodeRecord
  repeat' split
  all_goals simp
@[simp] theorem decodeStage_jumpTarget (s : State) :
    (decodeStage s).jumpTarget = s.jumpTarget := by
  unfold decodeStage decodeRecord
  repeat' split
  all_goals simp
@[simp] theorem decodeStage_branchRecovery (s : State) :
    (decodeStage s).branchRecovery = s.branchRecovery := by
  unfold decodeStage decodeRecord
  repeat' split
  all_goals simp
@[simp] theorem decodeStage_nextSeq (s : State) :
    (decodeStage s).nextSeq = s.nextSeq := by
  unfold decodeStage decodeRecord
  repeat' split
  all_goals simp
@[simp] theorem decodeStage_cycle (s : State) :
    (decodeStage s).cycle = s.cycle := by
  unfold decodeStage decodeRecord
  repeat' split
  all_goals simp

@[simp] theorem fetchRecord_program (f : RecordFields) (s : State) :
    (fetchRecord f s).program = s.program := by unfold fetchRecord; simp only []; (repeat' split) <;> simp
@[simp] theorem fetchRecord_x (f : RecordFields) (s : State) :
    (fetchRecord f s).x = s.x := by unfold fetchRecord; simp only []; (repeat' split) <;> simp
@[simp] theorem fetchRecord_xvalid (f : RecordFields) (s : State) :
    (fetchRecord f s).xvalid = s.xvalid := by unfold fetchRecord; simp only []; (repeat' split) <;> simp
@[simp] theorem fetchRecord_z (f : RecordFields) (s : State) :
    (fetchRecord f s).z = s.z := by unfold fetchRecord; simp only []; (repeat' split) <;> simp
@[simp] theorem fetchRecord_dmem (f : RecordFields) (s : State) :
    (fetchRecord f s).dmem = s.dmem := by unfold fetchRecord; simp only []; (repeat' split) <;> simp
@[simp] theorem fetchRecord_retired (f : RecordFields) (s : State) :
    (fetchRecord f s).retired = s.retired := by unfold fetchRecord; simp only []; (repeat' split) <;> simp
@[simp] theorem fetchRecord_status (f : RecordFields) (s : State) :
    (fetchRecord f s).status = s.status := by unfold fetchRecord; simp only []; (repeat' split) <;> simp
@[simp] theorem fetchRecord_fl (f : RecordFields) (s : State) :
    (fetchRecord f s).fl = s.fl := by unfold fetchRecord; simp only []; (repeat' split) <;> simp
@[simp] theorem fetchRecord_rm (f : RecordFields) (s : State) :
    (fetchRecord f s).rm = s.rm := by unfold fetchRecord; simp only []; (repeat' split) <;> simp
@[simp] theorem fetchRecord_ready (f : RecordFields) (s : State) :
    (fetchRecord f s).ready = s.ready := by unfold fetchRecord; simp only []; (repeat' split) <;> simp
@[simp] theorem fetchRecord_value (f : RecordFields) (s : State) :
    (fetchRecord f s).value = s.value := by unfold fetchRecord; simp only []; (repeat' split) <;> simp
@[simp] theorem fetchRecord_memReady (f : RecordFields) (s : State) :
    (fetchRecord f s).memReady = s.memReady := by unfold fetchRecord; simp only []; (repeat' split) <;> simp
@[simp] theorem fetchRecord_agenReady (f : RecordFields) (s : State) :
    (fetchRecord f s).agenReady = s.agenReady := by unfold fetchRecord; simp only []; (repeat' split) <;> simp
@[simp] theorem fetchRecord_agenAddr (f : RecordFields) (s : State) :
    (fetchRecord f s).agenAddr = s.agenAddr := by unfold fetchRecord; simp only []; (repeat' split) <;> simp
@[simp] theorem fetchRecord_storeDone (f : RecordFields) (s : State) :
    (fetchRecord f s).storeDone = s.storeDone := by unfold fetchRecord; simp only []; (repeat' split) <;> simp
@[simp] theorem fetchRecord_dsp (f : RecordFields) (s : State) :
    (fetchRecord f s).dsp = s.dsp := by unfold fetchRecord; simp only []; (repeat' split) <;> simp
@[simp] theorem fetchRecord_iq (f : RecordFields) (s : State) :
    (fetchRecord f s).iq = s.iq := by unfold fetchRecord; simp only []; (repeat' split) <;> simp
@[simp] theorem fetchRecord_lsq (f : RecordFields) (s : State) :
    (fetchRecord f s).lsq = s.lsq := by unfold fetchRecord; simp only []; (repeat' split) <;> simp
@[simp] theorem fetchRecord_rob (f : RecordFields) (s : State) :
    (fetchRecord f s).rob = s.rob := by unfold fetchRecord; simp only []; (repeat' split) <;> simp
@[simp] theorem fetchRecord_int (f : RecordFields) (s : State) :
    (fetchRecord f s).int = s.int := by unfold fetchRecord; simp only []; (repeat' split) <;> simp
@[simp] theorem fetchRecord_log (f : RecordFields) (s : State) :
    (fetchRecord f s).log = s.log := by unfold fetchRecord; simp only []; (repeat' split) <;> simp
@[simp] theorem fetchRecord_mul1 (f : RecordFields) (s : State) :
    (fetchRecord f s).mul1 = s.mul1 := by unfold fetchRecord; simp only []; (repeat' split) <;> simp
@[simp] theorem fetchRecord_mul2 (f : RecordFields) (s : State) :
    (fetchRecord f s).mul2 = s.mul2 := by unfold fetchRecord; simp only []; (repeat' split) <;> simp
@[simp] theorem fetchRecord_mul3 (f : RecordFields) (s : State) :
    (fetchRecord f s).mul3 = s.mul3 := by unfold fetchRecord; simp only []; (repeat' split) <;> simp
@[simp] theorem fetchRecord_mul4 (f : RecordFields) (s : State) :
    (fetchRecord f s).mul4 = s.mul4 := by unfold fetchRecord; simp only []; (repeat' split) <;> simp
@[simp] theorem fetchRecord_dc (f : RecordFields) (s : State) :
    (fetchRecord f s).dc = s.dc := by unfold fetchRecord; simp only []; (repeat' split) <;> simp
@[simp] theorem fetchRecord_redirectPending (f : RecordFields) (s : State) :
    (fetchRecord f s).redirectPending = s.redirectPending := by unfold fetchRecord; simp only []; (repeat' split) <;> simp
@[simp] theorem fetchRecord_jumpInFlight (f : RecordFields) (s : State) :
    (fetchRecord f s).jumpInFlight = s.jumpInFlight := by unfold fetchRecord; simp only []; (repeat' split) <;> simp
@[simp] theorem fetchRecord_jumpTaken (f : RecordFields) (s : State) :
    (fetchRecord f s).jumpTaken = s.jumpTaken := by unfold fetchRecord; simp only []; (repeat' split) <;> simp
@[simp] theorem fetchRecord_jumpTarget (f : RecordFields) (s : State) :
    (fetchRecord f s).jumpTarget = s.jumpTarget := by unfold fetchRecord; simp only []; (repeat' split) <;> simp
@[simp] theorem fetchRecord_branchRecovery (f : RecordFields) (s : State) :
    (fetchRecord f s).branchRecovery = s.branchRecovery := by unfold fetchRecord; simp only []; (repeat' split) <;> simp
@[simp] theorem fetchRecord_nextSeq (f : RecordFields) (s : State) :
    (fetchRecord f s).nextSeq = s.nextSeq := by unfold fetchRecord; simp only []; (repeat' split) <;> simp
@[simp] theorem fetchRecord_cycle (f : RecordFields) (s : State) :
    (fetchRecord f s).cycle = s.cycle := by unfold fetchRecord; simp only []; (repeat' split) <;> simp

@[simp] theorem fetchStage_program (look : Word → Option RecordFields) (s : State) :
    (fetchStage look s).program = s.program := by
  unfold fetchStage
  repeat' split
  all_goals simp
@[simp] theorem fetchStage_x (look : Word → Option RecordFields) (s : State) :
    (fetchStage look s).x = s.x := by
  unfold fetchStage
  repeat' split
  all_goals simp
@[simp] theorem fetchStage_xvalid (look : Word → Option RecordFields) (s : State) :
    (fetchStage look s).xvalid = s.xvalid := by
  unfold fetchStage
  repeat' split
  all_goals simp
@[simp] theorem fetchStage_z (look : Word → Option RecordFields) (s : State) :
    (fetchStage look s).z = s.z := by
  unfold fetchStage
  repeat' split
  all_goals simp
@[simp] theorem fetchStage_dmem (look : Word → Option RecordFields) (s : State) :
    (fetchStage look s).dmem = s.dmem := by
  unfold fetchStage
  repeat' split
  all_goals simp
@[simp] theorem fetchStage_retired (look : Word → Option RecordFields) (s : State) :
    (fetchStage look s).retired = s.retired := by
  unfold fetchStage
  repeat' split
  all_goals simp
@[simp] theorem fetchStage_status (look : Word → Option RecordFields) (s : State) :
    (fetchStage look s).status = s.status := by
  unfold fetchStage
  repeat' split
  all_goals simp
@[simp] theorem fetchStage_fl (look : Word → Option RecordFields) (s : State) :
    (fetchStage look s).fl = s.fl := by
  unfold fetchStage
  repeat' split
  all_goals simp
@[simp] theorem fetchStage_rm (look : Word → Option RecordFields) (s : State) :
    (fetchStage look s).rm = s.rm := by
  unfold fetchStage
  repeat' split
  all_goals simp
@[simp] theorem fetchStage_ready (look : Word → Option RecordFields) (s : State) :
    (fetchStage look s).ready = s.ready := by
  unfold fetchStage
  repeat' split
  all_goals simp
@[simp] theorem fetchStage_value (look : Word → Option RecordFields) (s : State) :
    (fetchStage look s).value = s.value := by
  unfold fetchStage
  repeat' split
  all_goals simp
@[simp] theorem fetchStage_memReady (look : Word → Option RecordFields) (s : State) :
    (fetchStage look s).memReady = s.memReady := by
  unfold fetchStage
  repeat' split
  all_goals simp
@[simp] theorem fetchStage_agenReady (look : Word → Option RecordFields) (s : State) :
    (fetchStage look s).agenReady = s.agenReady := by
  unfold fetchStage
  repeat' split
  all_goals simp
@[simp] theorem fetchStage_agenAddr (look : Word → Option RecordFields) (s : State) :
    (fetchStage look s).agenAddr = s.agenAddr := by
  unfold fetchStage
  repeat' split
  all_goals simp
@[simp] theorem fetchStage_storeDone (look : Word → Option RecordFields) (s : State) :
    (fetchStage look s).storeDone = s.storeDone := by
  unfold fetchStage
  repeat' split
  all_goals simp
@[simp] theorem fetchStage_dsp (look : Word → Option RecordFields) (s : State) :
    (fetchStage look s).dsp = s.dsp := by
  unfold fetchStage
  repeat' split
  all_goals simp
@[simp] theorem fetchStage_iq (look : Word → Option RecordFields) (s : State) :
    (fetchStage look s).iq = s.iq := by
  unfold fetchStage
  repeat' split
  all_goals simp
@[simp] theorem fetchStage_lsq (look : Word → Option RecordFields) (s : State) :
    (fetchStage look s).lsq = s.lsq := by
  unfold fetchStage
  repeat' split
  all_goals simp
@[simp] theorem fetchStage_rob (look : Word → Option RecordFields) (s : State) :
    (fetchStage look s).rob = s.rob := by
  unfold fetchStage
  repeat' split
  all_goals simp
@[simp] theorem fetchStage_int (look : Word → Option RecordFields) (s : State) :
    (fetchStage look s).int = s.int := by
  unfold fetchStage
  repeat' split
  all_goals simp
@[simp] theorem fetchStage_log (look : Word → Option RecordFields) (s : State) :
    (fetchStage look s).log = s.log := by
  unfold fetchStage
  repeat' split
  all_goals simp
@[simp] theorem fetchStage_mul1 (look : Word → Option RecordFields) (s : State) :
    (fetchStage look s).mul1 = s.mul1 := by
  unfold fetchStage
  repeat' split
  all_goals simp
@[simp] theorem fetchStage_mul2 (look : Word → Option RecordFields) (s : State) :
    (fetchStage look s).mul2 = s.mul2 := by
  unfold fetchStage
  repeat' split
  all_goals simp
@[simp] theorem fetchStage_mul3 (look : Word → Option RecordFields) (s : State) :
    (fetchStage look s).mul3 = s.mul3 := by
  unfold fetchStage
  repeat' split
  all_goals simp
@[simp] theorem fetchStage_mul4 (look : Word → Option RecordFields) (s : State) :
    (fetchStage look s).mul4 = s.mul4 := by
  unfold fetchStage
  repeat' split
  all_goals simp
@[simp] theorem fetchStage_dc (look : Word → Option RecordFields) (s : State) :
    (fetchStage look s).dc = s.dc := by
  unfold fetchStage
  repeat' split
  all_goals simp
@[simp] theorem fetchStage_jumpInFlight (look : Word → Option RecordFields) (s : State) :
    (fetchStage look s).jumpInFlight = s.jumpInFlight := by
  unfold fetchStage
  repeat' split
  all_goals simp
@[simp] theorem fetchStage_jumpTaken (look : Word → Option RecordFields) (s : State) :
    (fetchStage look s).jumpTaken = s.jumpTaken := by
  unfold fetchStage
  repeat' split
  all_goals simp
@[simp] theorem fetchStage_jumpTarget (look : Word → Option RecordFields) (s : State) :
    (fetchStage look s).jumpTarget = s.jumpTarget := by
  unfold fetchStage
  repeat' split
  all_goals simp
@[simp] theorem fetchStage_branchRecovery (look : Word → Option RecordFields) (s : State) :
    (fetchStage look s).branchRecovery = s.branchRecovery := by
  unfold fetchStage
  repeat' split
  all_goals simp
@[simp] theorem fetchStage_nextSeq (look : Word → Option RecordFields) (s : State) :
    (fetchStage look s).nextSeq = s.nextSeq := by
  unfold fetchStage
  repeat' split
  all_goals simp
@[simp] theorem fetchStage_cycle (look : Word → Option RecordFields) (s : State) :
    (fetchStage look s).cycle = s.cycle := by
  unfold fetchStage
  repeat' split
  all_goals simp

@[simp] theorem laterStages_program (look : Word → Option RecordFields) (s : State) :
    (laterStages look s).program = s.program := by simp [laterStages]
@[simp] theorem laterStages_x (look : Word → Option RecordFields) (s : State) :
    (laterStages look s).x = s.x := by simp [laterStages]
@[simp] theorem laterStages_xvalid (look : Word → Option RecordFields) (s : State) :
    (laterStages look s).xvalid = s.xvalid := by simp [laterStages]
@[simp] theorem laterStages_dmem (look : Word → Option RecordFields) (s : State) :
    (laterStages look s).dmem = s.dmem := by simp [laterStages]
@[simp] theorem laterStages_retired (look : Word → Option RecordFields) (s : State) :
    (laterStages look s).retired = s.retired := by simp [laterStages]
@[simp] theorem laterStages_status (look : Word → Option RecordFields) (s : State) :
    (laterStages look s).status = s.status := by simp [laterStages]
@[simp] theorem laterStages_cycle (look : Word → Option RecordFields) (s : State) :
    (laterStages look s).cycle = s.cycle := by simp [laterStages]

@[simp] theorem drainEntry_program (e : Inflight) (s : State) :
    (drainEntry e s).program = s.program := by
  unfold drainEntry
  simp only []
  repeat' split
  all_goals simp
@[simp] theorem drainEntry_x (e : Inflight) (s : State) :
    (drainEntry e s).x = s.x := by
  unfold drainEntry
  simp only []
  repeat' split
  all_goals simp
@[simp] theorem drainEntry_xvalid (e : Inflight) (s : State) :
    (drainEntry e s).xvalid = s.xvalid := by
  unfold drainEntry
  simp only []
  repeat' split
  all_goals simp
@[simp] theorem drainEntry_z (e : Inflight) (s : State) :
    (drainEntry e s).z = s.z := by
  unfold drainEntry
  simp only []
  repeat' split
  all_goals simp
@[simp] theorem drainEntry_dmem (e : Inflight) (s : State) :
    (drainEntry e s).dmem = s.dmem := by
  unfold drainEntry
  simp only []
  repeat' split
  all_goals simp
@[simp] theorem drainEntry_pc (e : Inflight) (s : State) :
    (drainEntry e s).pc = s.pc := by
  unfold drainEntry
  simp only []
  repeat' split
  all_goals simp
@[simp] theorem drainEntry_retired (e : Inflight) (s : State) :
    (drainEntry e s).retired = s.retired := by
  unfold drainEntry
  simp only []
  repeat' split
  all_goals simp
@[simp] theorem drainEntry_status (e : Inflight) (s : State) :
    (drainEntry e s).status = s.status := by
  unfold drainEntry
  simp only []
  repeat' split
  all_goals simp
@[simp] theorem drainEntry_value (e : Inflight) (s : State) :
    (drainEntry e s).value = s.value := by
  unfold drainEntry
  simp only []
  repeat' split
  all_goals simp
@[simp] theorem drainEntry_agenReady (e : Inflight) (s : State) :
    (drainEntry e s).agenReady = s.agenReady := by
  unfold drainEntry
  simp only []
  repeat' split
  all_goals simp
@[simp] theorem drainEntry_agenAddr (e : Inflight) (s : State) :
    (drainEntry e s).agenAddr = s.agenAddr := by
  unfold drainEntry
  simp only []
  repeat' split
  all_goals simp
@[simp] theorem drainEntry_storeDone (e : Inflight) (s : State) :
    (drainEntry e s).storeDone = s.storeDone := by
  unfold drainEntry
  simp only []
  repeat' split
  all_goals simp
@[simp] theorem drainEntry_dec (e : Inflight) (s : State) :
    (drainEntry e s).dec = s.dec := by
  unfold drainEntry
  simp only []
  repeat' split
  all_goals simp
@[simp] theorem drainEntry_dsp (e : Inflight) (s : State) :
    (drainEntry e s).dsp = s.dsp := by
  unfold drainEntry
  simp only []
  repeat' split
  all_goals simp
@[simp] theorem drainEntry_iq (e : Inflight) (s : State) :
    (drainEntry e s).iq = s.iq := by
  unfold drainEntry
  simp only []
  repeat' split
  all_goals simp
@[simp] theorem drainEntry_lsq (e : Inflight) (s : State) :
    (drainEntry e s).lsq = s.lsq := by
  unfold drainEntry
  simp only []
  repeat' split
  all_goals simp
@[simp] theorem drainEntry_rob (e : Inflight) (s : State) :
    (drainEntry e s).rob = s.rob := by
  unfold drainEntry
  simp only []
  repeat' split
  all_goals simp
@[simp] theorem drainEntry_int (e : Inflight) (s : State) :
    (drainEntry e s).int = s.int := by
  unfold drainEntry
  simp only []
  repeat' split
  all_goals simp
@[simp] theorem drainEntry_log (e : Inflight) (s : State) :
    (drainEntry e s).log = s.log := by
  unfold drainEntry
  simp only []
  repeat' split
  all_goals simp
@[simp] theorem drainEntry_mul1 (e : Inflight) (s : State) :
    (drainEntry e s).mul1 = s.mul1 := by
  unfold drainEntry
  simp only []
  repeat' split
  all_goals simp
@[simp] theorem drainEntry_mul2 (e : Inflight) (s : State) :
    (drainEntry e s).mul2 = s.mul2 := by
  unfold drainEntry
  simp only []
  repeat' split
  all_goals simp
@[simp] theorem drainEntry_mul3 (e : Inflight) (s : State) :
    (drainEntry e s).mul3 = s.mul3 := by
  unfold drainEntry
  simp only []
  repeat' split
  all_goals simp
@[simp] theorem drainEntry_mul4 (e : Inflight) (s : State) :
    (drainEntry e s).mul4 = s.mul4 := by
  unfold drainEntry
  simp only []
  repeat' split
  all_goals simp
@[simp] theorem drainEntry_dc (e : Inflight) (s : State) :
    (drainEntry e s).dc = s.dc := by
  unfold drainEntry
  simp only []
  repeat' split
  all_goals simp
@[simp] theorem drainEntry_btb (e : Inflight) (s : State) :
    (drainEntry e s).btb = s.btb := by
  unfold drainEntry
  simp only []
  repeat' split
  all_goals simp
@[simp] theorem drainEntry_redirectPending (e : Inflight) (s : State) :
    (drainEntry e s).redirectPending = s.redirectPending := by
  unfold drainEntry
  simp only []
  repeat' split
  all_goals simp
@[simp] theorem drainEntry_jumpInFlight (e : Inflight) (s : State) :
    (drainEntry e s).jumpInFlight = s.jumpInFlight := by
  unfold drainEntry
  simp only []
  repeat' split
  all_goals simp
@[simp] theorem drainEntry_jumpTaken (e : Inflight) (s : State) :
    (drainEntry e s).jumpTaken = s.jumpTaken := by
  unfold drainEntry
  simp only []
  repeat' split
  all_goals simp
@[simp] theorem drainEntry_jumpTarget (e : Inflight) (s : State) :
    (drainEntry e s).jumpTarget = s.jumpTarget := by
  unfold drainEntry
  simp only []
  repeat' split
  all_goals simp
@[simp] theorem drainEntry_branchRecovery (e : Inflight) (s : State) :
    (drainEntry e s).branchRecovery = s.branchRecovery := by
  unfold drainEntry
  simp only []
  repeat' split
  all_goals simp
@[simp] theorem drainEntry_nextSeq (e : Inflight) (s : State) :
    (drainEntry e s).nextSeq = s.nextSeq := by
  unfold drainEntry
  simp only []
  repeat' split
  all_goals simp
@[simp] theorem drainEntry_cycle (e : Inflight) (s : State) :
    (drainEntry e s).cycle = s.cycle := by
  unfold drainEntry
  simp only []
  repeat' split
  all_goals simp

@[simp] theorem drainEntries_program (l : List Inflight) (s : State) :
    (drainEntries l s).program = s.program := by
  induction l generalizing s with
  | nil => rfl
  | cons e l ih => unfold drainEntries; rw [ih]; simp
@[simp] theorem drainEntries_x (l : List Inflight) (s : State) :
    (drainEntries l s).x = s.x := by
  induction l generalizing s with
  | nil => rfl
  | cons e l ih => unfold drainEntries; rw [ih]; simp
@[simp] theorem drainEntries_xvalid (l : List Inflight) (s : State) :
    (drainEntries l s).xvalid = s.xvalid := by
  induction l generalizing s with
  | nil => rfl
  | cons e l ih => unfold drainEntries; rw [ih]; simp
@[simp] theorem drainEntries_z (l : List Inflight) (s : State) :
    (drainEntries l s).z = s.z := by
  induction l generalizing s with
  | nil => rfl
  | cons e l ih => unfold drainEntries; rw [ih]; simp
@[simp] theorem drainEntries_dmem (l : List Inflight) (s : State) :
    (drainEntries l s).dmem = s.dmem := by
  induction l generalizing s with
  | nil => rfl
  | cons e l ih => unfold drainEntries; rw [ih]; simp
@[simp] theorem drainEntries_pc (l : List Inflight) (s : State) :
    (drainEntries l s).pc = s.pc := by
  induction l generalizing s with
  | nil => rfl
  | cons e l ih => unfold drainEntries; rw [ih]; simp
@[simp] theorem drainEntries_retired (l : List Inflight) (s : State) :
    (drainEntries l s).retired = s.retired := by
  induction l generalizing s with
  | nil => rfl
  | cons e l ih => unfold drainEntries; rw [ih]; simp
@[simp] theorem drainEntries_status (l : List Inflight) (s : State) :
    (drainEntries l s).status = s.status := by
  induction l generalizing s with
  | nil => rfl
  | cons e l ih => unfold drainEntries; rw [ih]; simp
@[simp] theorem drainEntries_value (l : List Inflight) (s : State) :
    (drainEntries l s).value = s.value := by
  induction l generalizing s with
  | nil => rfl
  | cons e l ih => unfold drainEntries; rw [ih]; simp
@[simp] theorem drainEntries_agenReady (l : List Inflight) (s : State) :
    (drainEntries l s).agenReady = s.agenReady := by
  induction l generalizing s with
  | nil => rfl
  | cons e l ih => unfold drainEntries; rw [ih]; simp
@[simp] theorem drainEntries_agenAddr (l : List Inflight) (s : State) :
    (drainEntries l s).agenAddr = s.agenAddr := by
  induction l generalizing s with
  | nil => rfl
  | cons e l ih => unfold drainEntries; rw [ih]; simp
@[simp] theorem drainEntries_storeDone (l : List Inflight) (s : State) :
    (drainEntries l s).storeDone = s.storeDone := by
  induction l generalizing s with
  | nil => rfl
  | cons e l ih => unfold drainEntries; rw [ih]; simp
@[simp] theorem drainEntries_dec (l : List Inflight) (s : State) :
    (drainEntries l s).dec = s.dec := by
  induction l generalizing s with
  | nil => rfl
  | cons e l ih => unfold drainEntries; rw [ih]; simp
@[simp] theorem drainEntries_dsp (l : List Inflight) (s : State) :
    (drainEntries l s).dsp = s.dsp := by
  induction l generalizing s with
  | nil => rfl
  | cons e l ih => unfold drainEntries; rw [ih]; simp
@[simp] theorem drainEntries_iq (l : List Inflight) (s : State) :
    (drainEntries l s).iq = s.iq := by
  induction l generalizing s with
  | nil => rfl
  | cons e l ih => unfold drainEntries; rw [ih]; simp
@[simp] theorem drainEntries_lsq (l : List Inflight) (s : State) :
    (drainEntries l s).lsq = s.lsq := by
  induction l generalizing s with
  | nil => rfl
  | cons e l ih => unfold drainEntries; rw [ih]; simp
@[simp] theorem drainEntries_rob (l : List Inflight) (s : State) :
    (drainEntries l s).rob = s.rob := by
  induction l generalizing s with
  | nil => rfl
  | cons e l ih => unfold drainEntries; rw [ih]; simp
@[simp] theorem drainEntries_int (l : List Inflight) (s : State) :
    (drainEntries l s).int = s.int := by
  induction l generalizing s with
  | nil => rfl
  | cons e l ih => unfold drainEntries; rw [ih]; simp
@[simp] theorem drainEntries_log (l : List Inflight) (s : State) :
    (drainEntries l s).log = s.log := by
  induction l generalizing s with
  | nil => rfl
  | cons e l ih => unfold drainEntries; rw [ih]; simp
@[simp] theorem drainEntries_mul1 (l : List Inflight) (s : State) :
    (drainEntries l s).mul1 = s.mul1 := by
  induction l generalizing s with
  | nil => rfl
  | cons e l ih => unfold drainEntries; rw [ih]; simp
@[simp] theorem drainEntries_mul2 (l : List Inflight) (s : State) :
    (drainEntries l s).mul2 = s.mul2 := by
  induction l generalizing s with
  | nil => rfl
  | cons e l ih => unfold drainEntries; rw [ih]; simp
@[simp] theorem drainEntries_mul3 (l : List Inflight) (s : State) :
    (drainEntries l s).mul3 = s.mul3 := by
  induction l generalizing s with
  | nil => rfl
  | cons e l ih => unfold drainEntries; rw [ih]; simp
@[simp] theorem drainEntries_mul4 (l : List Inflight) (s : State) :
    (drainEntries l s).mul4 = s.mul4 := by
  induction l generalizing s with
  | nil => rfl
  | cons e l ih => unfold drainEntries; rw [ih]; simp
@[simp] theorem drainEntries_dc (l : List Inflight) (s : State) :
    (drainEntries l s).dc = s.dc := by
  induction l generalizing s with
  | nil => rfl
  | cons e l ih => unfold drainEntries; rw [ih]; simp
@[simp] theorem drainEntries_btb (l : List Inflight) (s : State) :
    (drainEntries l s).btb = s.btb := by
  induction l generalizing s with
  | nil => rfl
  | cons e l ih => unfold drainEntries; rw [ih]; simp
@[simp] theorem drainEntries_redirectPending (l : List Inflight) (s : State) :
    (drainEntries l s).redirectPending = s.redirectPending := by
  induction l generalizing s with
  | nil => rfl
  | cons e l ih => unfold drainEntries; rw [ih]; simp
@[simp] theorem drainEntries_jumpInFlight (l : List Inflight) (s : State) :
    (drainEntries l s).jumpInFlight = s.jumpInFlight := by
  induction l generalizing s with
  | nil => rfl
  | cons e l ih => unfold drainEntries; rw [ih]; simp
@[simp] theorem drainEntries_jumpTaken (l : List Inflight) (s : State) :
    (drainEntries l s).jumpTaken = s.jumpTaken := by
  induction l generalizing s with
  | nil => rfl
  | cons e l ih => unfold drainEntries; rw [ih]; simp
@[simp] theorem drainEntries_jumpTarget (l : List Inflight) (s : State) :
    (drainEntries l s).jumpTarget = s.jumpTarget := by
  induction l generalizing s with
  | nil => rfl
  | cons e l ih => unfold drainEntries; rw [ih]; simp
@[simp] theorem drainEntries_branchRecovery (l : List Inflight) (s : State) :
    (drainEntries l s).branchRecovery = s.branchRecovery := by
  induction l generalizing s with
  | nil => rfl
  | cons e l ih => unfold drainEntries; rw [ih]; simp
@[simp] theorem drainEntries_nextSeq (l : List Inflight) (s : State) :
    (drainEntries l s).nextSeq = s.nextSeq := by
  induction l generalizing s with
  | nil => rfl
  | cons e l ih => unfold drainEntries; rw [ih]; simp
@[simp] theorem drainEntries_cycle (l : List Inflight) (s : State) :
    (drainEntries l s).cycle = s.cycle := by
  induction l generalizing s with
  | nil => rfl
  | cons e l ih => unfold drainEntries; rw [ih]; simp

@[simp] theorem commitFlag_program (b : Bool) (v : Word) (s : State) :
    (commitFlag b v s).program = s.program := by unfold commitFlag; split <;> rfl
@[simp] theorem commitFlag_x (b : Bool) (v : Word) (s : State) :
    (commitFlag b v s).x = s.x := by unfold commitFlag; split <;> rfl
@[simp] theorem commitFlag_xvalid (b : Bool) (v : Word) (s : State) :
    (commitFlag b v s).xvalid = s.xvalid := by unfold commitFlag; split <;> rfl
@[simp] theorem commitFlag_dmem (b : Bool) (v : Word) (s : State) :
    (commitFlag b v s).dmem = s.dmem := by unfold commitFlag; split <;> rfl
@[simp] theorem commitFlag_pc (b : Bool) (v : Word) (s : State) :
    (commitFlag b v s).pc = s.pc := by unfold commitFlag; split <;> rfl
@[simp] theorem commitFlag_retired (b : Bool) (v : Word) (s : State) :
    (commitFlag b v s).retired = s.retired := by unfold commitFlag; split <;> rfl
@[simp] theorem commitFlag_status (b : Bool) (v : Word) (s : State) :
    (commitFlag b v s).status = s.status := by unfold commitFlag; split <;> rfl
@[simp] theorem commitFlag_fl (b : Bool) (v : Word) (s : State) :
    (commitFlag b v s).fl = s.fl := by unfold commitFlag; split <;> rfl
@[simp] theorem commitFlag_rm (b : Bool) (v : Word) (s : State) :
    (commitFlag b v s).rm = s.rm := by unfold commitFlag; split <;> rfl
@[simp] theorem commitFlag_ready (b : Bool) (v : Word) (s : State) :
    (commitFlag b v s).ready = s.ready := by unfold commitFlag; split <;> rfl
@[simp] theorem commitFlag_value (b : Bool) (v : Word) (s : State) :
    (commitFlag b v s).value = s.value := by unfold commitFlag; split <;> rfl
@[simp] theorem commitFlag_memReady (b : Bool) (v : Word) (s : State) :
    (commitFlag b v s).memReady = s.memReady := by unfold commitFlag; split <;> rfl
@[simp] theorem commitFlag_agenReady (b : Bool) (v : Word) (s : State) :
    (commitFlag b v s).agenReady = s.agenReady := by unfold commitFlag; split <;> rfl
@[simp] theorem commitFlag_agenAddr (b : Bool) (v : Word) (s : State) :
    (commitFlag b v s).agenAddr = s.agenAddr := by unfold commitFlag; split <;> rfl
@[simp] theorem commitFlag_storeDone (b : Bool) (v : Word) (s : State) :
    (commitFlag b v s).storeDone = s.storeDone := by unfold commitFlag; split <;> rfl
@[simp] theorem commitFlag_dec (b : Bool) (v : Word) (s : State) :
    (commitFlag b v s).dec = s.dec := by unfold commitFlag; split <;> rfl
@[simp] theorem commitFlag_dsp (b : Bool) (v : Word) (s : State) :
    (commitFlag b v s).dsp = s.dsp := by unfold commitFlag; split <;> rfl
@[simp] theorem commitFlag_iq (b : Bool) (v : Word) (s : State) :
    (commitFlag b v s).iq = s.iq := by unfold commitFlag; split <;> rfl
@[simp] theorem commitFlag_lsq (b : Bool) (v : Word) (s : State) :
    (commitFlag b v s).lsq = s.lsq := by unfold commitFlag; split <;> rfl
@[simp] theorem commitFlag_rob (b : Bool) (v : Word) (s : State) :
    (commitFlag b v s).rob = s.rob := by unfold commitFlag; split <;> rfl
@[simp] theorem commitFlag_int (b : Bool) (v : Word) (s : State) :
    (commitFlag b v s).int = s.int := by unfold commitFlag; split <;> rfl
@[simp] theorem commitFlag_log (b : Bool) (v : Word) (s : State) :
    (commitFlag b v s).log = s.log := by unfold commitFlag; split <;> rfl
@[simp] theorem commitFlag_mul1 (b : Bool) (v : Word) (s : State) :
    (commitFlag b v s).mul1 = s.mul1 := by unfold commitFlag; split <;> rfl
@[simp] theorem commitFlag_mul2 (b : Bool) (v : Word) (s : State) :
    (commitFlag b v s).mul2 = s.mul2 := by unfold commitFlag; split <;> rfl
@[simp] theorem commitFlag_mul3 (b : Bool) (v : Word) (s : State) :
    (commitFlag b v s).mul3 = s.mul3 := by unfold commitFlag; split <;> rfl
@[simp] theorem commitFlag_mul4 (b : Bool) (v : Word) (s : State) :
    (commitFlag b v s).mul4 = s.mul4 := by unfold commitFlag; split <;> rfl
@[simp] theorem commitFlag_dc (b : Bool) (v : Word) (s : State) :
    (commitFlag b v s).dc = s.dc := by unfold commitFlag; split <;> rfl
@[simp] theorem commitFlag_btb (b : Bool) (v : Word) (s : State) :
    (commitFlag b v s).btb = s.btb := by unfold commitFlag; split <;> rfl
@[simp] theorem commitFlag_redirectPending (b : Bool) (v : Word) (s : State) :
    (commitFlag b v s).redirectPending = s.redirectPending := by unfold commitFlag; split <;> rfl
@[simp] theorem commitFlag_jumpInFlight (b : Bool) (v : Word) (s : State) :
    (commitFlag b v s).jumpInFlight = s.jumpInFlight := by unfold commitFlag; split <;> rfl
@[simp] theorem commitFlag_jumpTaken (b : Bool) (v : Word) (s : State) :
    (commitFlag b v s).jumpTaken = s.jumpTaken := by unfold commitFlag; split <;> rfl
@[simp] theorem commitFlag_jumpTarget (b : Bool) (v : Word) (s : State) :
    (commitFlag b v s).jumpTarget = s.jumpTarget := by unfold commitFlag; split <;> rfl
@[simp] theorem commitFlag_branchRecovery (b : Bool) (v : Word) (s : State) :
    (commitFlag b v s).branchRecovery = s.branchRecovery := by unfold commitFlag; split <;> rfl
@[simp] theorem commitFlag_nextSeq (b : Bool) (v : Word) (s : State) :
    (commitFlag b v s).nextSeq = s.nextSeq := by unfold commitFlag; split <;> rfl
@[simp] theorem commitFlag_cycle (b : Bool) (v : Word) (s : State) :
    (commitFlag b v s).cycle = s.cycle := by unfold commitFlag; split <;> rfl

@[simp] theorem commitWrite_program (rd : Reg) (b : Bool) (p : Phys) (s : State) :
    (commitWrite rd b p s).program = s.program := by simp [commitWrite]
@[simp] theorem commitWrite_dmem (rd : Reg) (b : Bool) (p : Phys) (s : State) :
    (commitWrite rd b p s).dmem = s.dmem := by simp [commitWrite]
@[simp] theorem commitWrite_pc (rd : Reg) (b : Bool) (p : Phys) (s : State) :
    (commitWrite rd b p s).pc = s.pc := by simp [commitWrite]
@[simp] theorem commitWrite_status (rd : Reg) (b : Bool) (p : Phys) (s : State) :
    (commitWrite rd b p s).status = s.status := by simp [commitWrite]
@[simp] theorem commitWrite_value (rd : Reg) (b : Bool) (p : Phys) (s : State) :
    (commitWrite rd b p s).value = s.value := by simp [commitWrite]
@[simp] theorem commitWrite_memReady (rd : Reg) (b : Bool) (p : Phys) (s : State) :
    (commitWrite rd b p s).memReady = s.memReady := by simp [commitWrite]
@[simp] theorem commitWrite_agenReady (rd : Reg) (b : Bool) (p : Phys) (s : State) :
    (commitWrite rd b p s).agenReady = s.agenReady := by simp [commitWrite]
@[simp] theorem commitWrite_agenAddr (rd : Reg) (b : Bool) (p : Phys) (s : State) :
    (commitWrite rd b p s).agenAddr = s.agenAddr := by simp [commitWrite]
@[simp] theorem commitWrite_storeDone (rd : Reg) (b : Bool) (p : Phys) (s : State) :
    (commitWrite rd b p s).storeDone = s.storeDone := by simp [commitWrite]
@[simp] theorem commitWrite_dec (rd : Reg) (b : Bool) (p : Phys) (s : State) :
    (commitWrite rd b p s).dec = s.dec := by simp [commitWrite]
@[simp] theorem commitWrite_int (rd : Reg) (b : Bool) (p : Phys) (s : State) :
    (commitWrite rd b p s).int = s.int := by simp [commitWrite]
@[simp] theorem commitWrite_log (rd : Reg) (b : Bool) (p : Phys) (s : State) :
    (commitWrite rd b p s).log = s.log := by simp [commitWrite]
@[simp] theorem commitWrite_mul1 (rd : Reg) (b : Bool) (p : Phys) (s : State) :
    (commitWrite rd b p s).mul1 = s.mul1 := by simp [commitWrite]
@[simp] theorem commitWrite_mul2 (rd : Reg) (b : Bool) (p : Phys) (s : State) :
    (commitWrite rd b p s).mul2 = s.mul2 := by simp [commitWrite]
@[simp] theorem commitWrite_mul3 (rd : Reg) (b : Bool) (p : Phys) (s : State) :
    (commitWrite rd b p s).mul3 = s.mul3 := by simp [commitWrite]
@[simp] theorem commitWrite_mul4 (rd : Reg) (b : Bool) (p : Phys) (s : State) :
    (commitWrite rd b p s).mul4 = s.mul4 := by simp [commitWrite]
@[simp] theorem commitWrite_dc (rd : Reg) (b : Bool) (p : Phys) (s : State) :
    (commitWrite rd b p s).dc = s.dc := by simp [commitWrite]
@[simp] theorem commitWrite_btb (rd : Reg) (b : Bool) (p : Phys) (s : State) :
    (commitWrite rd b p s).btb = s.btb := by simp [commitWrite]
@[simp] theorem commitWrite_redirectPending (rd : Reg) (b : Bool) (p : Phys) (s : State) :
    (commitWrite rd b p s).redirectPending = s.redirectPending := by simp [commitWrite]
@[simp] theorem commitWrite_jumpInFlight (rd : Reg) (b : Bool) (p : Phys) (s : State) :
    (commitWrite rd b p s).jumpInFlight = s.jumpInFlight := by simp [commitWrite]
@[simp] theorem commitWrite_jumpTaken (rd : Reg) (b : Bool) (p : Phys) (s : State) :
    (commitWrite rd b p s).jumpTaken = s.jumpTaken := by simp [commitWrite]
@[simp] theorem commitWrite_jumpTarget (rd : Reg) (b : Bool) (p : Phys) (s : State) :
    (commitWrite rd b p s).jumpTarget = s.jumpTarget := by simp [commitWrite]
@[simp] theorem commitWrite_branchRecovery (rd : Reg) (b : Bool) (p : Phys) (s : State) :
    (commitWrite rd b p s).branchRecovery = s.branchRecovery := by simp [commitWrite]
@[simp] theorem commitWrite_nextSeq (rd : Reg) (b : Bool) (p : Phys) (s : State) :
    (commitWrite rd b p s).nextSeq = s.nextSeq := by simp [commitWrite]
@[simp] theorem commitWrite_cycle (rd : Reg) (b : Bool) (p : Phys) (s : State) :
    (commitWrite rd b p s).cycle = s.cycle := by simp [commitWrite]

@[simp] theorem commitStage_program (s : State) :
    (commitStage s).program = s.program := by
  unfold commitStage commitAction commitDest commitCmp commitBranch commitJump commitStore commitHalt commitUnrecognized
  repeat' split
  all_goals simp
@[simp] theorem commitStage_dmem (s : State) :
    (commitStage s).dmem = s.dmem := by
  unfold commitStage commitAction commitDest commitCmp commitBranch commitJump commitStore commitHalt commitUnrecognized
  repeat' split
  all_goals simp
@[simp] theorem commitStage_value (s : State) :
    (commitStage s).value = s.value := by
  unfold commitStage commitAction commitDest commitCmp commitBranch commitJump commitStore commitHalt commitUnrecognized
  repeat' split
  all_goals simp
@[simp] theorem commitStage_agenReady (s : State) :
    (commitStage s).agenReady = s.agenReady := by
  unfold commitStage commitAction commitDest commitCmp commitBranch commitJump commitStore commitHalt commitUnrecognized
  repeat' split
  all_goals simp
@[simp] theorem commitStage_agenAddr (s : State) :
    (commitStage s).agenAddr = s.agenAddr := by
  unfold commitStage commitAction commitDest commitCmp commitBranch commitJump commitStore commitHalt commitUnrecognized
  repeat' split
  all_goals simp
@[simp] theorem commitStage_storeDone (s : State) :
    (commitStage s).storeDone = s.storeDone := by
  unfold commitStage commitAction commitDest commitCmp commitBranch commitJump commitStore commitHalt commitUnrecognized
  repeat' split
  all_goals simp
@[simp] theorem commitStage_int (s : State) :
    (commitStage s).int = s.int := by
  unfold commitStage commitAction commitDest commitCmp commitBranch commitJump commitStore commitHalt commitUnrecognized
  repeat' split
  all_goals simp
@[simp] theorem commitStage_btb (s : State) :
    (commitStage s).btb = s.btb := by
  unfold commitStage commitAction commitDest commitCmp commitBranch commitJump commitStore commitHalt commitUnrecognized
  repeat' split
  all_goals simp
@[simp] theorem commitStage_redirectPending (s : State) :
    (commitStage s).redirectPending = s.redirectPending := by
  unfold commitStage commitAction commitDest commitCmp commitBranch commitJump commitStore commitHalt commitUnrecognized
  repeat' split
  all_goals simp
@[simp] theorem commitStage_jumpTarget (s : State) :
    (commitStage s).jumpTarget = s.jumpTarget := by
  unfold commitStage commitAction commitDest commitCmp commitBranch commitJump commitStore commitHalt commitUnrecognized
  repeat' split
  all_goals simp
@[simp] theorem commitStage_nextSeq (s : State) :
    (commitStage s).nextSeq = s.nextSeq := by
  unfold commitStage commitAction commitDest commitCmp commitBranch commitJump commitStore commitHalt commitUnrecognized
  repeat' split
  all_goals simp
@[simp] theorem commitStage_cycle (s : State) :
    (commitStage s).cycle = s.cycle := by
  unfold commitStage commitAction commitDest commitCmp commitBranch commitJump commitStore commitHalt commitUnrecognized
  repeat' split
  all_goals simp

end Sys2Proof.Machine
end

