-- ==== Sys2Proof/Laws/Ops.lean ====
section
/-! SUPPORT. One lemma per shared operation that says what it does, for the provers to cite in place of
unfolding it. -/

namespace Sys2Proof.Machine

/-! ### Registers -/

theorem State.readReg_writeReg (s : State) (r q : Reg) (v : Word) :
    (s.writeReg r v).readReg q = if r = q then v else s.readReg q := by
  simp only [State.readReg, State.writeReg, Fin.getElem_fin, Vector.getElem_set, Fin.ext_iff]

theorem State.validBit_writeReg (s : State) (r q : Reg) (v : Word) :
    (s.writeReg r v).validBit q = (decide (r = q) || s.validBit q) := by
  simp only [State.validBit, State.writeReg, Fin.getElem_fin, Vector.getElem_set, Fin.ext_iff]
  split <;> simp_all

theorem State.readyBit_setReady (s : State) (p q : Phys) (b : Bool) :
    (s.setReady p b).readyBit q = if p = q then b else s.readyBit q := by
  simp only [State.readyBit, State.setReady, Fin.getElem_fin, Vector.getElem_set, Fin.ext_iff]

theorem State.valueOf_writeBack (s : State) (p q : Phys) (v : Word) :
    (s.writeBack (some p) v).valueOf q = if p = q then v else s.valueOf q := by
  simp only [State.valueOf, State.writeBack, Fin.getElem_fin, Vector.getElem_set, Fin.ext_iff]

theorem State.readyBit_writeBack (s : State) (p q : Phys) (v : Word) :
    (s.writeBack (some p) v).readyBit q = (decide (p = q) || s.readyBit q) := by
  simp only [State.readyBit, State.writeBack, Fin.getElem_fin, Vector.getElem_set, Fin.ext_iff]
  split <;> simp_all

/-- A write-back touches the physical register file alone. -/
theorem State.writeBack_spec (s : State) (pd : Option Phys) (v : Word) :
    s.writeBack pd v =
      { s with value := (s.writeBack pd v).value, ready := (s.writeBack pd v).ready } := by
  cases pd <;> rfl

/-! ### Memory and the pc-indexed tables -/

theorem State.memRead_memWrite (s : State) (a b : Nat) (v : Word) :
    (s.memWrite a v).memRead b = if b = a then v else s.memRead b := by
  simp only [State.memRead, State.memWrite, Sparse.read_write]

/-- A write of an existing location keeps data memory canonical. -/
theorem State.memWrite_wf (s : State) (a : Nat) (v : Word) (ha : a < Config.dmemWords)
    (h : Memory.wf s.dmem = true) : Memory.wf (s.memWrite a v).dmem = true :=
  Memory.wf_write _ _ _ ha h

theorem State.reset_memory_wf : Memory.wf State.reset.dmem = true := by decide

/-- The image of `initialize` is canonical. -/
theorem imageMemory_wf (image : List (Nat × Word)) (h : imageWellFormed image = true) :
    Memory.wf (imageMemory image) = true := by
  unfold imageMemory
  have base : Memory.wf ([] : Memory) = true := by decide
  generalize ([] : Memory) = m at base ⊢
  induction image generalizing m with
  | nil => exact base
  | cons c image ih =>
    simp only [imageWellFormed, List.all_cons, Bool.and_eq_true, decide_eq_true_eq] at h
    exact ih h.2 _ (Memory.wf_write _ _ _ h.1 base)

theorem State.read_memReady_setMemReady (s : State) (a : Word) (b : Bool) (k : Nat) :
    Sparse.read true (s.setMemReady a b).memReady k =
      if dataAddressValid a = true ∧ k = location a then b else Sparse.read true s.memReady k := by
  unfold State.setMemReady
  split <;> simp_all [Sparse.read_write]

theorem State.agenReadyAt_setAgen (s : State) (pc ea q : Word) :
    (s.setAgen pc ea).agenReadyAt q =
      (decide (recordIndex q = recordIndex pc) || s.agenReadyAt q) := by
  simp only [State.agenReadyAt, State.setAgen, Sparse.read_write]
  split <;> simp_all

theorem State.agenAddrAt_setAgen (s : State) (pc ea q : Word) :
    (s.setAgen pc ea).agenAddrAt q =
      if recordIndex q = recordIndex pc then ea else s.agenAddrAt q := by
  simp only [State.agenAddrAt, State.setAgen, Sparse.read_write]

theorem State.agenReadyAt_clearSlot (s : State) (pc q : Word) :
    (s.clearSlot pc).agenReadyAt q =
      (decide (recordIndex q ≠ recordIndex pc) && s.agenReadyAt q) := by
  simp only [State.agenReadyAt, State.clearSlot, Sparse.read_write]
  split <;> simp_all

theorem State.storeDoneAt_clearSlot (s : State) (pc q : Word) :
    (s.clearSlot pc).storeDoneAt q =
      (decide (recordIndex q ≠ recordIndex pc) && s.storeDoneAt q) := by
  simp only [State.storeDoneAt, State.clearSlot, Sparse.read_write]
  split <;> simp_all

theorem State.storeDoneAt_setStoreDone (s : State) (pc q : Word) :
    (s.setStoreDone pc).storeDoneAt q =
      (decide (recordIndex q = recordIndex pc) || s.storeDoneAt q) := by
  simp only [State.storeDoneAt, State.setStoreDone, Sparse.read_write]
  split <;> simp_all

theorem State.btbAt_setBtb (s : State) (pc q : Word) (e : BtbEntry) :
    (s.setBtb pc e).btbAt q = if recordIndex q = recordIndex pc then e else s.btbAt q := by
  simp only [State.btbAt, State.setBtb, Sparse.read_write]

/-! ### Rename and free list -/

theorem State.allocate_eq_some (s t : State) (p : Phys) :
    s.allocate = some (p, t) ↔ ∃ rest, s.fl = p :: rest ∧ t = { s with fl := rest } := by
  unfold State.allocate
  split <;> simp_all [eq_comm]

theorem State.allocate_eq_none (s : State) : s.allocate = none ↔ s.fl = [] := by
  unfold State.allocate
  split <;> simp_all

theorem State.resolve_bind (s : State) (a b : Reg) (p : Phys) :
    (s.bind a p).resolve b = if a = b then some p else s.resolve b := rfl

/-- R108: a register resolves to the first pair of it from the head. -/
theorem resolveIn_eq_some {m : List (Reg × Phys)} {a : Reg} {p : Phys} :
    resolveIn m a = some p ↔
      ∃ pre post : List (Reg × Phys), m = pre ++ (a, p) :: post ∧ ∀ c ∈ pre, c.1 ≠ a := by
  induction m with
  | nil => simp [resolveIn]
  | cons c m ih =>
    obtain ⟨b, q⟩ := c
    by_cases h : b = a
    · subst h
      simp only [resolveIn, if_true, Option.some.injEq]
      constructor
      · rintro rfl
        exact ⟨[], m, rfl, by simp⟩
      · rintro ⟨pre, post, he, hn⟩
        cases pre with
        | nil => simp_all
        | cons d pre =>
          cases he
          exact absurd rfl (hn _ (.head _))
    · simp only [resolveIn, if_neg h, ih]
      constructor
      · rintro ⟨pre, post, rfl, hn⟩
        exact ⟨(b, q) :: pre, post, rfl, List.forall_mem_cons.2 ⟨h, hn⟩⟩
      · rintro ⟨pre, post, he, hn⟩
        cases pre with
        | nil => simp_all
        | cons d pre =>
          cases he
          exact ⟨pre, post, rfl, fun c hc => hn c (.tail _ hc)⟩

/-- R108: and to none where there is no pair of it. -/
theorem resolveIn_eq_none {m : List (Reg × Phys)} {a : Reg} :
    resolveIn m a = none ↔ ∀ c ∈ m, c.1 ≠ a := by
  induction m with
  | nil => simp [resolveIn]
  | cons c m ih =>
    simp only [resolveIn, List.forall_mem_cons]
    split <;> simp_all

/-- R106: after a release no rename of the register is live. -/
theorem State.resolve_release_ne (s : State) (p : Phys) (a : Reg) :
    (s.release p).resolve a ≠ some p := by
  intro h
  obtain ⟨pre, post, he, -⟩ := resolveIn_eq_some.1 h
  have hm : (a, p) ∈ (s.release p).rm := by rw [he]; simp
  simp [State.release] at hm

theorem State.readyBit_release (s : State) (p q : Phys) :
    (s.release p).readyBit q = (decide (p = q) || s.readyBit q) := by
  simp only [State.readyBit, State.release, Fin.getElem_fin, Vector.getElem_set, Fin.ext_iff]
  split <;> simp_all

/-- R106 for the register a record holds, if any. -/
theorem State.readyBit_releaseOf (s : State) (r : Inflight) (q : Phys) :
    (s.releaseOf r).readyBit q = (decide (r.pd = some q) || s.readyBit q) := by
  unfold State.releaseOf
  split <;> simp_all [State.readyBit_release]

/-- R112: a retargeted operand no longer waits for `p`, and every other one is as it was. -/
theorem retargetOperand_eq_some (p q : Phys) (ps : Option Phys) :
    retargetOperand p ps = some q ↔ ps = some q ∧ q ≠ p := by
  unfold retargetOperand
  split <;> simp_all
  rintro rfl rfl
  simp_all

/-! ### The shared record -/

/-- The operation of a record depends on its fetched fields alone. -/
theorem Inflight.insn_congr {a b : Inflight} (h : a.fields = b.fields) : a.insn = b.insn := by
  rw [Inflight.insn, h, Inflight.insn]

theorem mem_onTag {q : Nat} {f : Inflight → Inflight} {l : List Inflight} {e : Inflight} :
    e ∈ onTag q f l ↔ ∃ a ∈ l, (if a.seq = q then f a else a) = e := List.mem_map

/-- A write that keeps the age tag keeps those of the queue, and so its order. -/
theorem onTag_seq (q : Nat) (f : Inflight → Inflight) (hf : ∀ e, (f e).seq = e.seq)
    (l : List Inflight) : (onTag q f l).map Inflight.seq = l.map Inflight.seq := by
  simp only [onTag, List.map_map]
  refine List.map_congr_left fun e _ => ?_
  simp only [Function.comp_apply]
  split
  · exact hf e
  · rfl

theorem State.markExc_seq (s : State) (q : Nat) (f : FaultCode) :
    (s.markExc q f).rob.map Inflight.seq = s.rob.map Inflight.seq :=
  onTag_seq q (fun e => { e with exc := some f }) (fun _ => rfl) s.rob

theorem State.markDone_seq (s : State) (q : Nat) :
    (s.markDone q).rob.map Inflight.seq = s.rob.map Inflight.seq :=
  onTag_seq q (fun e => { e with done := true }) (fun _ => rfl) s.rob

/-- `r` is the record of `e` with other work fields: `v_k`, `result`, `addr` and `data` (R34). -/
def SameRecord (e r : Inflight) : Prop :=
  r = { e with
    v1 := r.v1, v2 := r.v2, v3 := r.v3, result := r.result, addr := r.addr, data := r.data }

theorem SameRecord.refl (e : Inflight) : SameRecord e e := rfl

theorem SameRecord.trans {a b c : Inflight} (h : SameRecord a b) (k : SameRecord b c) :
    SameRecord a c := by
  unfold SameRecord at *
  rw [k, h]

theorem SameRecord.seq_eq {e r : Inflight} (h : SameRecord e r) : r.seq = e.seq := by rw [h]
theorem SameRecord.fields_eq {e r : Inflight} (h : SameRecord e r) : r.fields = e.fields := by rw [h]
theorem SameRecord.insn_eq {e r : Inflight} (h : SameRecord e r) : r.insn = e.insn :=
  Inflight.insn_congr h.fields_eq
theorem SameRecord.pc_eq {e r : Inflight} (h : SameRecord e r) : r.pc = e.pc := by rw [h]
theorem SameRecord.pd_eq {e r : Inflight} (h : SameRecord e r) : r.pd = e.pd := by rw [h]
theorem SameRecord.done_eq {e r : Inflight} (h : SameRecord e r) : r.done = e.done := by rw [h]
theorem SameRecord.exc_eq {e r : Inflight} (h : SameRecord e r) : r.exc = e.exc := by rw [h]

/-- A stage wrote work fields of the records of `l`, which is now `m`. -/
def SameRecords (l m : List Inflight) : Prop :=
  ∃ g : Inflight → Inflight, (∀ e, SameRecord e (g e)) ∧ m = l.map g

theorem SameRecords.refl (l : List Inflight) : SameRecords l l := ⟨id, SameRecord.refl, by simp⟩

theorem SameRecords.trans {a b c : List Inflight} (h : SameRecords a b) (k : SameRecords b c) :
    SameRecords a c := by
  obtain ⟨g, hg, rfl⟩ := h
  obtain ⟨f, hf, rfl⟩ := k
  exact ⟨f ∘ g, fun e => (hg e).trans (hf _), by simp⟩

theorem SameRecords.onTag {f : Inflight → Inflight} (hf : ∀ e, SameRecord e (f e)) (q : Nat)
    (l : List Inflight) : SameRecords l (onTag q f l) := by
  refine ⟨fun e => if e.seq = q then f e else e, fun e => ?_, rfl⟩
  simp only
  split
  · exact hf e
  · exact .refl e

/-- R185, R34: an issue writes captured operands into the ROB and LSQ copies, and nothing else there. -/
theorem issueScan_shares (l : List Inflight) (b : Busy) (s : State) :
    SameRecords s.rob (issueScan l b s).2.rob ∧ SameRecords s.lsq (issueScan l b s).2.lsq := by
  induction l generalizing b s with
  | nil => exact ⟨.refl _, .refl _⟩
  | cons e l ih =>
    unfold issueScan
    split
    · exact ih b s
    · split
      · exact ih b s
      · rename_i i _ _ c _
        split
        · exact ih b s
        · have hk : ∀ r, SameRecord r (takeOperands i (captureOperands s i e) r) := fun _ => rfl
          have h := ih (b.set c) (issueEntry i c e s)
          have hr : (issueEntry i c e s).rob = Machine.onTag (captureOperands s i e).seq
              (takeOperands i (captureOperands s i e)) s.rob := by
            simp [issueEntry, shareOperands]
          have hl : (issueEntry i c e s).lsq = Machine.onTag (captureOperands s i e).seq
              (takeOperands i (captureOperands s i e)) s.lsq := by
            simp [issueEntry, shareOperands]
          exact ⟨(SameRecords.onTag hk _ _).trans (hr ▸ h.1),
            (SameRecords.onTag hk _ _).trans (hl ▸ h.2)⟩

theorem issueStage_shares (s : State) :
    SameRecords s.rob (issueStage s).rob ∧ SameRecords s.lsq (issueStage s).lsq :=
  issueScan_shares _ _ _

/-- R251, R34: the multiply pipeline writes at most a product into a ROB entry. -/
theorem mulStage_shares (s : State) : SameRecords s.rob (mulStage s).rob := by
  have h : (mulStage s).rob = (shareProduct (mulWriteBack s)).rob := rfl
  have h0 : (mulWriteBack s).rob = s.rob := by unfold mulWriteBack; split <;> simp
  rw [h, ← h0]
  unfold shareProduct
  split
  · exact .refl _
  · rename_i r _
    exact .onTag (f := fun e => { e with result := (unitMul r).result }) (fun _ => rfl) _ _

/-- R212, R213, R34: the LSQ stage writes at most an address and store data into a ROB entry. -/
theorem lsqStage_shares (s : State) : SameRecords s.rob (lsqStage s).rob := by
  unfold lsqStage lsqAction lsqLoad lsqStore
  repeat' split
  all_goals first
    | exact .refl _
    | (simp only [State.onRobEntry_rob, clearReadyOf_rob, State.setMemReady_rob]
       refine .onTag (fun e => ?_) _ _
       rfl)

/-! ### The instruction space -/

/-- R67, R133: what is delivered at a pc, and when. -/
theorem State.lookupWord_eq_some (s : State) (pc : Word) (w : RecordWord) :
    s.lookupWord pc = some w ↔ pcOnGrid pc = true ∧ s.program[recordIndex pc]? = some w := by
  unfold State.lookupWord
  split <;> simp_all

theorem State.lookup_eq_some (s : State) (pc : Word) (f : RecordFields) :
    s.lookup pc = some f ↔ ∃ w, s.lookupWord pc = some w ∧ recordFields w = f := by
  simp [State.lookup]

/-- R33: two pcs of records with one index are one pc. -/
theorem recordIndex_inj {p q : Word} (hp : pcOnGrid p = true) (hq : pcOnGrid q = true)
    (h : recordIndex p = recordIndex q) : p = q := by
  simp only [pcOnGrid, Bool.and_eq_true, decide_eq_true_eq, recordIndex] at *
  have e : (p - Config.pcBase).toNat = (q - Config.pcBase).toNat := by
    have a := hp.2
    have b := hq.2
    rw [show Config.insnStep.toNat = 4 from rfl] at a b h
    omega
  simpa using congrArg (· + Config.pcBase) (BitVec.eq_of_toNat_eq e)

/-- The record an instruction is run from is one of that instruction, and it is the record at the
present pc where that is one. -/
theorem State.decodeFields_recordOf (s : State) (i : Instr) : decodeFields (s.recordOf i) = .op i := by
  have h : decodeFields (instrFields i) = .op i := by cases i <;> rfl
  unfold State.recordOf
  split
  · exact h
  · split
    · assumption
    · exact h

theorem State.recordOf_eq {s : State} {f : RecordFields} {i : Instr} (h : s.lookup s.pc = some f)
    (hf : decodeFields f = .op i) : s.recordOf i = f := by
  simp [State.recordOf, h, hf]

end Sys2Proof.Machine
end

