-- ==== Sys2Proof/Laws/PerInstr.lean ====
section
/-! SUPPORT. What holds of every instruction as syntax: the word the encoder writes has 0 in every bit
that the instruction's opcode leaves unused (spec/30_encoding.md R81, R82). -/

namespace Sys2Proof.Laws

open Sys2Proof

/-- R81, R82: the encoder writes 0 in the reserved bits and in every field the format does not use. -/
def Assembled.Statement (i : Instr) : Prop := recordAssembled (encode i) = true

/-- An appended word as a number. -/
theorem toNat_append {n m : Nat} (x : BitVec n) (y : BitVec m) :
    (x ++ y).toNat = x.toNat * 2 ^ m + y.toNat := by
  rw [BitVec.toNat_append, Nat.shiftLeft_eq, Nat.mul_comm, ← Nat.two_pow_add_eq_or_of_lt y.isLt,
    Nat.mul_comm]

/-- The opcode byte of a packed word. -/
theorem packFields_opcode (f : RecordFields) :
    BitVec.extractLsb' 56 8 (packFields f) = f.opcode := by
  apply BitVec.eq_of_toNat_eq
  have h := f.imm.isLt
  have h1 := f.rd.isLt
  have h2 := f.rs1.isLt
  have h3 := f.rs2.isLt
  have h4 := f.rs3.isLt
  simp only [packFields, BitVec.extractLsb'_toNat, Nat.shiftRight_eq_div_pow, toNat_append,
    BitVec.toNat_ofFin, BitVec.toNat_ofNat]
  omega

/-- A field left 0 is clear under any mask. -/
theorem fieldZero_and : BitVec.ofFin (w := 4) (0 : Reg) &&& 15#4 = 0#4 := by decide

/-- A word from fields is clear under a mask that is clear under each field in turn. -/
theorem packFields_and (f : RecordFields) (m : BitVec 8) (m1 m2 m3 m4 : BitVec 4) (m5 : BitVec 8)
    (m6 : BitVec 32) (h : f.opcode &&& m = 0#8) (h1 : BitVec.ofFin (w := 4) f.rd &&& m1 = 0#4)
    (h2 : BitVec.ofFin (w := 4) f.rs1 &&& m2 = 0#4) (h3 : BitVec.ofFin (w := 4) f.rs2 &&& m3 = 0#4)
    (h4 : BitVec.ofFin (w := 4) f.rs3 &&& m4 = 0#4) (h6 : f.imm &&& m6 = 0#32) :
    packFields f &&& (m ++ m1 ++ m2 ++ m3 ++ m4 ++ m5 ++ m6) = 0#64 := by
  unfold packFields
  rw [BitVec.and_append, BitVec.and_append, BitVec.and_append, BitVec.and_append,
    BitVec.and_append, BitVec.and_append, h, h1, h2, h3, h4, h6, BitVec.zero_and]
  rfl

/-- What is left to check of an instruction: its fields under its opcode's mask, field by field. -/
theorem assembled_of (i : Instr) (m1 m2 m3 m4 : BitVec 4) (m6 : BitVec 32)
    (hm : unusedBits (instrFields i).opcode = 0#8 ++ m1 ++ m2 ++ m3 ++ m4 ++ 255#8 ++ m6)
    (h1 : BitVec.ofFin (w := 4) (instrFields i).rd &&& m1 = 0#4)
    (h2 : BitVec.ofFin (w := 4) (instrFields i).rs1 &&& m2 = 0#4)
    (h3 : BitVec.ofFin (w := 4) (instrFields i).rs2 &&& m3 = 0#4)
    (h4 : BitVec.ofFin (w := 4) (instrFields i).rs3 &&& m4 = 0#4)
    (h6 : (instrFields i).imm &&& m6 = 0#32) : Assembled.Statement i := by
  unfold Assembled.Statement recordAssembled encode
  rw [packFields_opcode, hm, packFields_and _ _ _ _ _ _ _ _ (BitVec.and_zero) h1 h2 h3 h4 h6]
  rfl

theorem Assembled.add (rd rs1 rs2 : Reg) : Assembled.Statement (.add rd rs1 rs2) :=
  assembled_of _ 0#4 0#4 0#4 15#4 4294967295#32 rfl BitVec.and_zero BitVec.and_zero BitVec.and_zero fieldZero_and BitVec.zero_and

theorem Assembled.sub (rd rs1 rs2 : Reg) : Assembled.Statement (.sub rd rs1 rs2) :=
  assembled_of _ 0#4 0#4 0#4 15#4 4294967295#32 rfl BitVec.and_zero BitVec.and_zero BitVec.and_zero fieldZero_and BitVec.zero_and

theorem Assembled.mul (rd rs1 rs2 : Reg) : Assembled.Statement (.mul rd rs1 rs2) :=
  assembled_of _ 0#4 0#4 0#4 15#4 4294967295#32 rfl BitVec.and_zero BitVec.and_zero BitVec.and_zero fieldZero_and BitVec.zero_and

theorem Assembled.div (rd rs1 rs2 : Reg) : Assembled.Statement (.div rd rs1 rs2) :=
  assembled_of _ 0#4 0#4 0#4 15#4 4294967295#32 rfl BitVec.and_zero BitVec.and_zero BitVec.and_zero fieldZero_and BitVec.zero_and

theorem Assembled.and (rd rs1 rs2 : Reg) : Assembled.Statement (.and rd rs1 rs2) :=
  assembled_of _ 0#4 0#4 0#4 15#4 4294967295#32 rfl BitVec.and_zero BitVec.and_zero BitVec.and_zero fieldZero_and BitVec.zero_and

theorem Assembled.or (rd rs1 rs2 : Reg) : Assembled.Statement (.or rd rs1 rs2) :=
  assembled_of _ 0#4 0#4 0#4 15#4 4294967295#32 rfl BitVec.and_zero BitVec.and_zero BitVec.and_zero fieldZero_and BitVec.zero_and

theorem Assembled.xor (rd rs1 rs2 : Reg) : Assembled.Statement (.xor rd rs1 rs2) :=
  assembled_of _ 0#4 0#4 0#4 15#4 4294967295#32 rfl BitVec.and_zero BitVec.and_zero BitVec.and_zero fieldZero_and BitVec.zero_and

theorem Assembled.addl (rd rs1 : Reg) (imm : Word) : Assembled.Statement (.addl rd rs1 imm) :=
  assembled_of _ 0#4 0#4 15#4 15#4 0#32 rfl BitVec.and_zero BitVec.and_zero fieldZero_and fieldZero_and BitVec.and_zero

theorem Assembled.subl (rd rs1 : Reg) (imm : Word) : Assembled.Statement (.subl rd rs1 imm) :=
  assembled_of _ 0#4 0#4 15#4 15#4 0#32 rfl BitVec.and_zero BitVec.and_zero fieldZero_and fieldZero_and BitVec.and_zero

theorem Assembled.movc (rd : Reg) (imm : Word) : Assembled.Statement (.movc rd imm) :=
  assembled_of _ 0#4 15#4 15#4 15#4 0#32 rfl BitVec.and_zero fieldZero_and fieldZero_and fieldZero_and BitVec.and_zero

theorem Assembled.load (rd rs1 : Reg) (imm : Word) : Assembled.Statement (.load rd rs1 imm) :=
  assembled_of _ 0#4 0#4 15#4 15#4 0#32 rfl BitVec.and_zero BitVec.and_zero fieldZero_and fieldZero_and BitVec.and_zero

theorem Assembled.store (rs1 rs2 : Reg) (imm : Word) : Assembled.Statement (.store rs1 rs2 imm) :=
  assembled_of _ 15#4 0#4 0#4 15#4 0#32 rfl fieldZero_and BitVec.and_zero BitVec.and_zero fieldZero_and BitVec.and_zero

theorem Assembled.ldr (rd rs1 rs2 : Reg) : Assembled.Statement (.ldr rd rs1 rs2) :=
  assembled_of _ 0#4 0#4 0#4 15#4 4294967295#32 rfl BitVec.and_zero BitVec.and_zero BitVec.and_zero fieldZero_and BitVec.zero_and

theorem Assembled.str (rs1 rs2 rs3 : Reg) : Assembled.Statement (.str rs1 rs2 rs3) :=
  assembled_of _ 15#4 0#4 0#4 0#4 4294967295#32 rfl fieldZero_and BitVec.and_zero BitVec.and_zero BitVec.and_zero BitVec.zero_and

theorem Assembled.cmp (rs1 rs2 : Reg) : Assembled.Statement (.cmp rs1 rs2) :=
  assembled_of _ 15#4 0#4 0#4 15#4 4294967295#32 rfl fieldZero_and BitVec.and_zero BitVec.and_zero fieldZero_and BitVec.zero_and

theorem Assembled.bz (imm : Word) : Assembled.Statement (.bz imm) :=
  assembled_of _ 15#4 15#4 15#4 15#4 0#32 rfl fieldZero_and fieldZero_and fieldZero_and fieldZero_and BitVec.and_zero

theorem Assembled.bnz (imm : Word) : Assembled.Statement (.bnz imm) :=
  assembled_of _ 15#4 15#4 15#4 15#4 0#32 rfl fieldZero_and fieldZero_and fieldZero_and fieldZero_and BitVec.and_zero

theorem Assembled.jump (rs1 : Reg) (imm : Word) : Assembled.Statement (.jump rs1 imm) :=
  assembled_of _ 15#4 0#4 15#4 15#4 0#32 rfl fieldZero_and BitVec.and_zero fieldZero_and fieldZero_and BitVec.and_zero

theorem Assembled.halt : Assembled.Statement (.halt) :=
  assembled_of _ 15#4 15#4 15#4 15#4 4294967295#32 rfl fieldZero_and fieldZero_and fieldZero_and fieldZero_and BitVec.zero_and

end Sys2Proof.Laws
end

