-- ==== Sys2Proof/Laws/Run.lean ====
section
/-! SUPPORT. A stage with nothing to do changes nothing; one cycle of a machine with one record in it;
and the run to the next retirement, one cycle at a time. -/

namespace Sys2Proof.Machine

variable {s : State} {look : Word → Option RecordFields}

/-! ### Stages with nothing to do -/

theorem commitStage_nil (h : s.rob = []) : commitStage s = s := by simp [commitStage, h]

theorem dataCacheStage_none (h : s.dc = none) : dataCacheStage s = s := by simp [dataCacheStage, h]

theorem lsqStage_nil (h : s.lsq = []) : lsqStage s = s := by simp [lsqStage, h]

theorem mulStage_none (h1 : s.mul1 = none) (h2 : s.mul2 = none) (h3 : s.mul3 = none)
    (h4 : s.mul4 = none) : mulStage s = s := by
  cases s
  simp_all [mulStage, mulWriteBack, mulShift, shareProduct]

theorem logStage_none (h : s.log = none) : logStage s = s := by simp [logStage, h]

theorem intStage_none (h : s.int = none) : intStage s = s := by simp [intStage, h]

theorem issueStage_nil (h : s.iq = []) : issueStage s = s := by
  cases s
  simp_all [issueStage, issueScan]

theorem dispatchStage_none (h : s.dsp = none) (hb : s.branchRecovery = false) :
    dispatchStage s = s := by simp [dispatchStage, h, hb]

theorem decodeStage_none (h : s.dec = none) : decodeStage s = s := by simp [decodeStage, h]

theorem fetchStage_invalid (h : look s.pc = none) (hr : s.redirectPending = false) :
    fetchStage look s = s := by simp [fetchStage, h, hr]

theorem fetchStage_full (h : s.dec.isSome = true) (hr : s.redirectPending = false) :
    fetchStage look s = s := by simp [fetchStage, h, hr]

/-- R131, R132: what a fetch that delivers leaves. -/
theorem fetchStage_delivers {f : RecordFields} (h : look s.pc = some f)
    (hr : s.redirectPending = false) (hj : s.jumpInFlight = false) (hd : s.dec = none) :
    fetchStage look s =
      { s with
        dec := some (freshRecord f s.pc s.predictedTaken)
        pc := s.followed
        btb := s.fetchedBtb } := by
  simp only [fetchStage, hr, hj, hd, h, fetchRecord, State.fetchedBtb, State.followed,
    State.predictedTaken, BtbEntry.predicts]
  by_cases h1 : ((s.btbAt s.pc).present && (s.btbAt s.pc).active) = true <;> by_cases h2 : (s.btbAt s.pc).taken <;> simp [h1, h2, hr, hj]

/-! ### The instruction space of one step -/

theorem nextPc_ne (p : Word) : nextPc p ≠ p := by
  unfold nextPc Config.insnStep
  intro h
  bv_omega

theorem delivering_self (f : RecordFields) (pc : Word) : delivering f pc look pc = some f := by
  simp [delivering]

theorem delivering_other {f : RecordFields} {pc a : Word} (h : a ≠ pc) :
    delivering f pc look a = look a := by simp [delivering, h]

/-- A record that is at `pc` anyway is delivered by the program itself. -/
theorem delivering_lookup {f : RecordFields} {pc : Word} (h : look pc = some f) :
    delivering f pc look = look := by
  funext a
  by_cases ha : a = pc
  · simp [delivering, ha, h]
  · simp [delivering, ha]

/-! ### The run to the next retirement -/

/-- What follows a cycle of the run: more cycles while nothing retired or stopped. -/
def continueRun (look : Word → Option RecordFields) (n retired : Nat) (t : State) : State :=
  if t.status = .running ∧ t.retired = retired then runToRetirement look n t else t

theorem runToRetirement_succ (look : Word → Option RecordFields) (n : Nat) (s : State) :
    runToRetirement look (n + 1) s = continueRun look n s.retired (cycleWith look s) := rfl

theorem continueRun_more {n r : Nat} {t : State} (h : t.status = .running) (hr : t.retired = r) :
    continueRun look n r t = runToRetirement look n t := by simp [continueRun, h, hr]

theorem continueRun_retired {n r : Nat} {t : State} (h : t.retired ≠ r) :
    continueRun look n r t = t := by simp [continueRun, h]

theorem continueRun_stopped {n r : Nat} {t : State} (h : t.status ≠ .running) :
    continueRun look n r t = t := by simp [continueRun, h]

/-- What every cycle keeps, the run to the next retirement keeps. -/
theorem runToRetirement_keeps (P : State → Prop) (h : ∀ s, P s → P (cycleWith look s)) (n : Nat)
    (s : State) (hs : P s) : P (runToRetirement look n s) := by
  induction n generalizing s with
  | zero => exact hs
  | succ n ih =>
    rw [runToRetirement_succ]
    unfold continueRun
    split
    · exact ih _ (h _ hs)
    · exact h _ hs

/-- Everything a step can answer: a run over the loaded program, or over it with the decoded record at
the present pc. -/
theorem step_cases {t : State} (h : step s = .next t) :
    t = runLoaded s ∨ ∃ f : RecordFields, s.lookup s.pc = some f ∧ t = runRecord f s := by
  unfold step at h
  split at h
  · cases h
  · split at h
    · exact .inl (Host.Outcome.next.inj h).symm
    · rename_i f hl
      split at h
      · rename_i i hi
        refine .inr ⟨f, hl, ?_⟩
        rw [← State.recordOf_eq hl hi]
        cases i <;> exact (Host.Outcome.next.inj h).symm
      · exact .inl (Host.Outcome.next.inj h).symm

/-- A step is the run over the loaded program in every case: what `exec` delivers at the present pc is
what stands there. -/
theorem step_runs (h : s.program ≠ []) : step s = .next (runLoaded s) := by
  unfold step
  split
  · contradiction
  · split
    · rfl
    · rename_i f hl
      split
      · rename_i i hi
        have hr : runRecord (s.recordOf i) s = runLoaded s := by
          rw [State.recordOf_eq hl hi, runRecord, delivering_lookup hl]
          rfl
        cases i <;> exact congrArg _ hr
      · rfl

/-- What every cycle keeps, whatever the instruction space delivers, every step keeps. -/
theorem step_keeps (P : State → Prop) (h : ∀ look s, P s → P (cycleWith look s)) {t : State}
    (hs : P s) (ht : step s = .next t) : P t := by
  obtain rfl | ⟨i, -, rfl⟩ := step_cases ht
  · exact runToRetirement_keeps P (h _) _ _ hs
  · exact runToRetirement_keeps P (h _) _ _ hs

/-- What the count of a cycle and every stage keep, a cycle keeps. -/
theorem cycleWith_keeps (P : State → Prop) (count : ∀ s, P s → P { s with cycle := s.cycle + 1 })
    (commit : ∀ s, P s → P (commitStage s)) (dataCache : ∀ s, P s → P (dataCacheStage s))
    (lsq : ∀ s, P s → P (lsqStage s)) (mul : ∀ s, P s → P (mulStage s))
    (log : ∀ s, P s → P (logStage s)) (int : ∀ s, P s → P (intStage s))
    (issue : ∀ s, P s → P (issueStage s)) (dispatch : ∀ s, P s → P (dispatchStage s))
    (decode : ∀ s, P s → P (decodeStage s)) (fetch : ∀ look s, P s → P (fetchStage look s))
    (look : Word → Option RecordFields) (s : State) (hs : P s) : P (cycleWith look s) := by
  have h1 := commit _ (count _ hs)
  have h2 := dataCache _ h1
  unfold cycleWith
  simp only
  split
  · split
    · split
      · exact fetch _ _ (decode _ (dispatch _ (issue _ (int _ (log _ (mul _ (lsq _ h2)))))))
      · exact h2
    · exact h1
  · exact hs

/-! ### One cycle of a machine with at most one record in it -/

theorem cycleWith_stopped (h : s.status ≠ .running) : cycleWith look s = s := by
  simp [cycleWith, h]

theorem cycleWith_idle (h : Idle s) :
    cycleWith look s = fetchStage look { s with cycle := s.cycle + 1 } := by
  simp [cycleWith, laterStages, commitStage_nil, dataCacheStage_none, lsqStage_nil, mulStage_none,
    logStage_none, intStage_none, issueStage_nil, dispatchStage_none, decodeStage_none, h.running,
    h.dec, h.dsp, h.iq, h.lsq, h.rob, h.int, h.log, h.mul1, h.mul2, h.mul3, h.mul4, h.dc,
    h.branchRecovery]

/-- The first cycle of a record's run from an idle machine fetches it (R131). -/
theorem runRecord_fetched (f : RecordFields) (h : Idle s) :
    runRecord f s =
      runToRetirement (delivering f s.pc s.lookup) 15
        { s with
          dec := some (freshRecord f s.pc s.predictedTaken)
          pc := s.followed
          btb := s.fetchedBtb
          cycle := s.cycle + 1 } := by
  have h1 := cycleWith_idle (look := delivering f s.pc s.lookup) h
  have h2 := fetchStage_delivers (look := delivering f s.pc s.lookup)
    (s := { s with cycle := s.cycle + 1 }) (f := f) (delivering_self _ _) h.redirectPending
    h.jumpInFlight h.dec
  simp only [runRecord, Config.stepCycles]
  rw [runToRetirement_succ, h1, h2]
  exact continueRun_more h.running rfl

end Sys2Proof.Machine
end

