-- ==== Sys2Proof/Tests/Slice0.lean ====
section
/-! SUPPORT. Tests: ill-formed inputs refused, each instruction's word decoded, one step of each
instruction, and for each statement a state that meets its hypotheses. -/

namespace Sys2Proof.Tests

open Sys2Proof Sys2Proof.Machine

/-! ### Ill-formed inputs are refused (WellFormed) -/

/-- R390: an empty program. -/
theorem test_emptyProgram_refused : programWellFormed [] = false := by decide

/-- R402: location 4096 does not exist; 4095 does. -/
theorem test_imageOutside_refused :
    imageWellFormed [(4096, 1#32)] = false ∧ imageWellFormed [(4095, 1#32)] = true := by decide

/-- R81, R82: a HALT with one immediate bit up, and an ADD with one reserved bit up, are no words an
assembler writes. -/
theorem test_unusedBits_refused :
    recordAssembled 0x1300000000000001#64 = false ∧
      recordAssembled 0x0112300100000000#64 = false := by decide

/-- R390 (log 5): `initialize` refuses both. -/
theorem test_start_refused :
    State.start [] [] 0#32 = none ∧
      State.start [0x1300000000000000#64] [(4096, 1#32)] 0#32 = none := by decide

/-! ### The word of every instruction, written out from R81 and R83: the opcode byte, then the digits
rd rs1 rs2 rs3, then the reserved byte, then the immediate -/

theorem test_decode_add : decodeWord 0x0112300000000000#64 = .op (.add 1 2 3) := by decide
theorem test_decode_sub : decodeWord 0x02F2300000000000#64 = .op (.sub 15 2 3) := by decide
theorem test_decode_mul : decodeWord 0x031F300000000000#64 = .op (.mul 1 15 3) := by decide
theorem test_decode_div : decodeWord 0x0412F00000000000#64 = .op (.div 1 2 15) := by decide
theorem test_decode_and : decodeWord 0x0512300000000000#64 = .op (.and 1 2 3) := by decide
theorem test_decode_or : decodeWord 0x0612300000000000#64 = .op (.or 1 2 3) := by decide
theorem test_decode_xor : decodeWord 0x0712300000000000#64 = .op (.xor 1 2 3) := by decide
theorem test_decode_addl :
    decodeWord 0x08120000FFFFFFFF#64 = .op (.addl 1 2 0xFFFFFFFF#32) := by decide
theorem test_decode_subl : decodeWord 0x0912000000000005#64 = .op (.subl 1 2 5#32) := by decide
theorem test_decode_movc :
    decodeWord 0x0AF0000080000000#64 = .op (.movc 15 0x80000000#32) := by decide
theorem test_decode_load :
    decodeWord 0x0B450000FFFFFFFC#64 = .op (.load 4 5 0xFFFFFFFC#32) := by decide
theorem test_decode_store : decodeWord 0x0C01200000000003#64 = .op (.store 1 2 3#32) := by decide
theorem test_decode_ldr : decodeWord 0x0D12300000000000#64 = .op (.ldr 1 2 3) := by decide
theorem test_decode_str : decodeWord 0x0E01230000000000#64 = .op (.str 1 2 3) := by decide
theorem test_decode_cmp : decodeWord 0x0F02300000000000#64 = .op (.cmp 2 3) := by decide
theorem test_decode_bz : decodeWord 0x10000000FFFFFFF8#64 = .op (.bz 0xFFFFFFF8#32) := by decide
theorem test_decode_bnz : decodeWord 0x110000000000000C#64 = .op (.bnz 12#32) := by decide
theorem test_decode_jump : decodeWord 0x1207000000000004#64 = .op (.jump 7 4#32) := by decide
theorem test_decode_halt : decodeWord 0x1300000000000000#64 = .op .halt := by decide

/-- R82: with every unused bit up, the same HALT and the same CMP. R87: the bytes beside the table. -/
theorem test_decode_ignored :
    decodeWord 0x13FFFFFFFFFFFFFF#64 = .op .halt ∧
      decodeWord 0x0FF23FFFFFFFFFFF#64 = .op (.cmp 2 3) ∧
      decodeWord 0x0012300000000000#64 = .unrecognized 0x00#8 ∧
      decodeWord 0x1412300000000000#64 = .unrecognized 0x14#8 := by decide

/-! ### One step of each instruction

Expected values are worked out by hand from the rule named. The cycle counts are those of the timelines
of spec/95_test_vectors.md for an instruction that waits for nothing. -/

/-- The machine after reset with one record, R2 = `a` and R3 = `b`. -/
def machine (w : Nat) (a b : Word) : State :=
  ((State.reset.withFetchWord 64 w).writeReg 2 a).writeReg 3 b

/-- The state a step answers. -/
def after (s : State) : State :=
  match step s with
  | .next t => t
  | .fault _ => s
  | .refused _ => s

/-- What the tests look at: R1, `Z`, the status, the count, the cycle number. -/
def seen (s : State) : Word × Word × Status × Nat × Nat :=
  (s.readReg 1, s.z, s.status, s.retired, s.cycle)

/-- R322: 2^31 − 1 and 1 wrap; `Z` is left. -/
theorem test_add_wraps :
    seen (after (machine 0x0112300000000000 0x7FFFFFFF#32 1#32)) =
      (0x80000000#32, 0#32, .running, 1, 6) := by decide +kernel

/-- R323: 0 − 1 is all ones, and `Z` gets it. -/
theorem test_sub_borrows :
    seen (after (machine 0x0212300000000000 0#32 1#32)) =
      (0xFFFFFFFF#32, 0xFFFFFFFF#32, .running, 1, 6) := by decide +kernel

/-- R324: −3 times 5, in 9 cycles. -/
theorem test_mul_negative :
    seen (after (machine 0x0312300000000000 0xFFFFFFFD#32 5#32)) =
      (0xFFFFFFF1#32, 0#32, .running, 1, 9) := by decide +kernel

/-- R325: −7 by 2 is −3, toward zero. -/
theorem test_div_towardZero :
    seen (after (machine 0x0412300000000000 0xFFFFFFF9#32 2#32)) =
      (0xFFFFFFFD#32, 0#32, .running, 1, 6) := by decide +kernel

/-- R325, R381: a zero divisor; R1 is not written and nothing is counted. -/
theorem test_div_byZero :
    seen (after (machine 0x0412300000000000 7#32 0#32)) =
      (0#32, 0#32, .faulted .divideByZero 4000#32, 0, 6) := by decide +kernel

/-- R328. -/
theorem test_and_masks :
    seen (after (machine 0x0512300000000000 0xFF00FF00#32 0x0FF00FF0#32)) =
      (0x0F000F00#32, 0#32, .running, 1, 6) := by decide +kernel

/-- R329. -/
theorem test_or_joins :
    seen (after (machine 0x0612300000000000 0xFF00FF00#32 0x0FF00FF0#32)) =
      (0xFFF0FFF0#32, 0#32, .running, 1, 6) := by decide +kernel

/-- R330. -/
theorem test_xor_differs :
    seen (after (machine 0x0712300000000000 0xFF00FF00#32 0x0FF00FF0#32)) =
      (0xF0F0F0F0#32, 0#32, .running, 1, 6) := by decide +kernel

/-- R326: 10 + (−1). -/
theorem test_addl_negative :
    seen (after (machine 0x08120000FFFFFFFF 10#32 0#32)) = (9#32, 0#32, .running, 1, 6) := by
  decide +kernel

/-- R327: 5 − 5 is 0, and so is `Z`, which was 1. -/
theorem test_subl_zero :
    seen (after { machine 0x0912000000000005 5#32 0#32 with z := 1#32 }) =
      (0#32, 0#32, .running, 1, 6) := by decide +kernel

/-- R321: the immediate as it stands; `Z`, which was 1, is left. -/
theorem test_movc_negative :
    seen (after { machine 0x0A10000080000000 0#32 0#32 with z := 1#32 }) =
      (0x80000000#32, 1#32, .running, 1, 6) := by decide +kernel

/-- R361 at the last location: R2 = 4099, displacement −4. -/
theorem test_load_lastWord :
    seen (after ((machine 0x0B120000FFFFFFFC 4099#32 0#32).memWrite 4095 77#32)) =
      (77#32, 0#32, .running, 1, 8) := by decide +kernel

/-- R361, R382: address −1. -/
theorem test_load_negative :
    seen (after (machine 0x0B120000FFFFFFFC 3#32 0#32)) =
      (0#32, 0#32, .faulted .dataAddress 4000#32, 0, 8) := by decide +kernel

/-- R362: 2^32 − 1 and 17 wrap to location 16. -/
theorem test_ldr_wraps :
    seen (after ((machine 0x0D12300000000000 0xFFFFFFFF#32 17#32).memWrite 16 5#32)) =
      (5#32, 0#32, .running, 1, 8) := by decide +kernel

/-- R363: R3 to location R2 + 3. -/
theorem test_store_writes :
    (after (machine 0x0C03200000000003 16#32 9#32)).dmem = [(19, 9#32)] ∧
      (after (machine 0x0C03200000000003 16#32 9#32)).retired = 1 := by decide +kernel

/-- R363, R218: location 4096; the fault comes in the data-cache stage, a cycle before a load's. -/
theorem test_store_outside :
    (after (machine 0x0C03200000000003 4093#32 9#32)).dmem = [] ∧
      (after (machine 0x0C03200000000003 4093#32 9#32)).status = .faulted .dataAddress 4000#32 ∧
      (after (machine 0x0C03200000000003 4093#32 9#32)).cycle = 7 := by decide +kernel

/-- R364: R1, which is 0 here, to location R2 + R3: the entry of a word that becomes 0 goes. -/
theorem test_str_zero :
    (after ((machine 0x0E01230000000000 16#32 4#32).memWrite 20 9#32)).dmem = [] := by decide +kernel

/-- R364: R3 to location R2 + R2. -/
theorem test_str_writes :
    (after (machine 0x0E03220000000000 16#32 4#32)).dmem = [(32, 4#32)] := by decide +kernel

/-- R340: 3 − 5, and no register. -/
theorem test_cmp_writesZ :
    seen (after (machine 0x0F02300000000000 3#32 5#32)) =
      (0#32, 0xFFFFFFFE#32, .running, 1, 6) := by decide +kernel

/-- R341: taken when `Z` is 0, to 4000 + 8. -/
theorem test_bz_taken :
    (after (machine 0x1000000000000008 0#32 0#32)).pc = 4008#32 ∧
      (after (machine 0x1000000000000008 0#32 0#32)).retired = 1 := by decide +kernel

/-- R341: not taken when `Z` is 1. -/
theorem test_bz_notTaken :
    (after { machine 0x1000000000000008 0#32 0#32 with z := 1#32 }).pc = 4004#32 := by decide +kernel

/-- R342: taken when `Z` is not 0, to 4000 + 12. -/
theorem test_bnz_taken :
    (after { machine 0x110000000000000C 0#32 0#32 with z := 1#32 }).pc = 4012#32 := by decide +kernel

/-- R342: not taken when `Z` is 0. -/
theorem test_bnz_notTaken :
    (after (machine 0x110000000000000C 0#32 0#32)).pc = 4004#32 := by decide +kernel

/-- R343: to R2 + 4, any number. -/
theorem test_jump_anywhere :
    (after (machine 0x1202000000000004 4096#32 0#32)).pc = 4100#32 ∧
      (after (machine 0x1202000000000004 4096#32 0#32)).retired = 1 := by decide +kernel

/-- R343: back to its own record, which the last cycle already fetches again. -/
theorem test_jump_self :
    ((after (machine 0x1202000000000000 4000#32 0#32)).dec.map Inflight.pc) = some 4000#32 := by
  decide +kernel

/-- R344, R25: Halted after 4 cycles, counted, its own pc in the status. -/
theorem test_halt_stops :
    seen (after (machine 0x1300000000000000 0#32 0#32)) = (0#32, 0#32, .halted 4000#32, 1, 4) := by
  decide +kernel

/-- R345: byte 0xFF is a counted no-operation. -/
theorem test_unrecognized_counts :
    seen (after (machine 0xFF12300000000000 1#32 2#32)) = (0#32, 0#32, .running, 1, 4) := by
  decide +kernel

/-! ### One record in several places (R34) -/

/-- R81, R34: a fetched record holds every field of its word, the ones its opcode does not use too. -/
theorem test_record_holdsEveryField :
    (fetchStage (machine 0x1312345089ABCDEF 0#32 0#32).lookup
      (machine 0x1312345089ABCDEF 0#32 0#32)).dec.map Inflight.fields =
        some ⟨0x13#8, 1, 2, 3, 4, 0x89ABCDEF#32⟩ := by decide

/-- R185, R34: the operands captured at issue are the ROB entry's and the LSQ entry's too. -/
theorem test_issue_writesEveryCopy :
    let e := { freshRecord (instrFields (.store 1 2 0#32)) 4000#32 false with seq := 7 }
    let t := issueStage { machine 0 3#32 9#32 with rob := [e], lsq := [e], iq := [e] }
    t.rob.map Inflight.v2 = [3#32] ∧ t.lsq.map Inflight.v2 = [3#32] ∧ t.iq = [] := by decide

/-- R112, R413 (the mechanism of vector H8): the commit of `ADD R1,R1,R1` out of P4 turns the second
operand of the consumer behind it, in ROB, IQ, LSQ and `DSP`, from P4 to none, and leaves the first at
P5. -/
theorem test_commit_turnsReaders :
    let h := { freshRecord (instrFields (.add 1 1 1)) 4000#32 false with pd := some 4 }
    let e := { freshRecord (instrFields (.ldr 2 3 1)) 4004#32 false with
      seq := 1, ps1 := some 5, ps2 := some 4 }
    let t := commitStage { State.reset with rob := [h, e], iq := [e], lsq := [e], dsp := some e }
    [t.rob, t.iq, t.lsq, t.dsp.toList].all (fun l =>
      l.map (fun a => (a.ps1, a.ps2)) == [(some 5, none)]) = true := by decide

/-- R108: of two renames of R1 the newest, P7, is what it resolves to; R3 has none. -/
theorem test_resolve_newest :
    let s := { State.reset with rm := [(2, 5), (1, 7), (1, 4)] }
    s.resolve 1 = some 7 ∧ s.resolve 2 = some 5 ∧ s.resolve 3 = none := by decide

/-! ### States that meet the hypotheses of the statements -/

/-- With one record and any two register values, nothing is in flight. -/
theorem machine_idle (w : Nat) (a b : Word) : Idle (machine w a b) :=
  ⟨rfl, rfl, rfl, rfl, rfl, rfl, rfl, rfl, rfl, rfl, rfl, rfl, rfl, rfl, rfl, rfl, rfl, rfl⟩

/-- And the one record is alone. -/
theorem machine_alone (w : Nat) (a b : Word) : Alone (machine w a b) :=
  ⟨machine_idle w a b, rfl, by
    have hp : (machine w a b).program = [BitVec.ofNat 64 (w % 2 ^ 64)] := rfl
    have hc : (machine w a b).pc = 4000#32 := rfl
    have hi : recordIndex (nextPc 4000#32) = 1 := by decide
    have hg : pcOnGrid (nextPc 4000#32) = true := by decide
    rw [State.lookup, State.lookupWord, hp, hc, hi, if_pos hg]
    rfl⟩

/-- A record in flight. -/
def flying (i : Instr) (pc : Word) (seq : Nat) (pd : Option Phys) : Inflight :=
  { freshRecord (instrFields i) pc false with seq := seq, pd := pd }

/-- A record in flight with captured operands. -/
def operated (i : Instr) (pd : Option Phys) (a b : Word) : Inflight :=
  { flying i 4000#32 0 pd with v1 := a, v2 := b }

/-- Whether a step answers a next state. -/
def answers (s : State) : Bool :=
  match step s with
  | .next _ => true
  | .fault _ => false
  | .refused _ => false

theorem step_after {s : State} (h : answers s = true) : step s = .next (after s) := by
  unfold answers at h
  unfold after
  cases hs : step s <;> simp_all

theorem witness_AssembledWordsAreEncodings :
    recordAssembled 0x0A10000000000005#64 = true ∧
      decodeWord 0x0A10000000000005#64 = .op (.movc 1 5#32) := by decide

theorem witness_UnusedBitsIgnored :
    let v := 0x0A10000000000005#64
    let w := 0x0A1FFFFF00000005#64
    v ≠ w ∧ v.extractLsb' 56 8 = w.extractLsb' 56 8 ∧
      v ||| unusedBits (w.extractLsb' 56 8) = w ||| unusedBits (w.extractLsb' 56 8) := by decide

theorem witness_StepRunsTheDecodedInstruction :
    (machine 0x0112300000000000 1#32 2#32).lookupWord 4000#32 = some 0x0112300000000000#64 ∧
      decodeWord 0x0112300000000000#64 = .op (.add 1 2 3) := by decide

theorem witness_PlacedWordRuns :
    decodeTableWord 64 0x0112300000000000 = some (.add 1 2 3) ∧
      decodeTableWord 56 0x0112300000000000 = none := by decide

theorem witness_StepIsARunOfAdvances :
    (machine 0x0112300000000000 1#32 2#32).program ≠ [] ∧ State.reset.program = [] := by decide

/-- Commit stops the cycle; Data-cache stops it; nothing does. -/
theorem witness_CycleEvaluatesTheStagesInOrder :
    let halting := { State.reset with rob := [flying .halt 4000#32 0 none] }
    let storing := { State.reset with
      dc := some { flying (.store 1 2 0#32) 4000#32 0 none with addr := 4096#32 } }
    (halting.status = .running ∧
      (commitStage { halting with cycle := halting.cycle + 1 }).status ≠ .running) ∧
    (storing.status = .running ∧
      (commitStage { storing with cycle := storing.cycle + 1 }).status = .running ∧
      (dataCacheStage (commitStage { storing with cycle := storing.cycle + 1 })).status ≠ .running) ∧
    (State.reset.status = .running ∧
      (commitStage { State.reset with cycle := State.reset.cycle + 1 }).status = .running ∧
      (dataCacheStage (commitStage { State.reset with cycle := State.reset.cycle + 1 })).status =
        .running) := by decide

/-- A stopped machine, for the last clause of CycleEvaluatesTheStagesInOrder. -/
theorem witness_CycleEvaluates_stopped :
    ({ machine 0 0#32 0#32 with status := .faulted .dataAddress 4004#32 } : State).status ≠ .running ∧
      ({ machine 0 0#32 0#32 with status := .halted 4000#32 } : State).status ≠ .running ∧
      (machine 0 0#32 0#32).program ≠ [] := by decide

/-- For InitializeGivesTheResetTable and ResetMeetsTheInvariants: both ends of data memory in the
image. -/
theorem witness_InitializeGivesTheResetTable :
    let program := [0x1300000000000000#64]
    let image : List (Nat × Word) := [(4095, 7#32), (0, 5#32)]
    program ≠ [] ∧ (∀ c ∈ image, c.1 < 4096) ∧ (image.map Prod.fst).Nodup ∧
      (State.start program image 1#32).isSome = true := by decide

/-- For MoveAndAddAlone, SubtractAlone, MultiplyAlone, LogicAlone and CompareAlone; and for DivideAlone and
DivideByZeroAlone, the divisor R3 being 2 and 0. -/
theorem witness_RegisterAlone :
    Alone (machine 0x0412300000000000 7#32 2#32) ∧
      (machine 0x0412300000000000 7#32 2#32).fl =
        0 :: [1, 2, 3, 4, 5, 6, 7, 8, 9, 10, 11, 12, 13, 14] ∧
      (machine 0x0412300000000000 7#32 2#32).readReg 3 ≠ 0#32 ∧
      Alone (machine 0x0412300000000000 7#32 0#32) ∧
      (machine 0x0412300000000000 7#32 0#32).readReg 3 = 0#32 ∧
      (machine 0x0412300000000000 7#32 0#32).fl ≠ [] :=
  ⟨machine_alone _ _ _, by decide, by decide, machine_alone _ _ _, by decide, by decide⟩

/-- For LoadAlone, LoadFaultAlone, StoreAlone and StoreFaultAlone, in both address forms: locations 0 and
4095, and just outside, −1 and 4096. -/
theorem witness_MemoryAlone :
    (∀ w a b, Alone (machine w a b) ∧ (machine w a b).fl ≠ []) ∧
    (
      let ea := wrap32 (((machine 0 4#32 0#32).readReg 2).toInt + (0xFFFFFFFC#32).toInt)
      ea.toInt = 0) ∧
    (
      let ea := wrap32 (((machine 0 4000#32 95#32).readReg 2).toInt +
        ((machine 0 4000#32 95#32).readReg 3).toInt)
      0 ≤ ea.toInt ∧ ea.toInt < 4096) ∧
    (
      let ea := wrap32 (((machine 0 3#32 0#32).readReg 2).toInt + (0xFFFFFFFC#32).toInt)
      ea.toInt = -1 ∧ ¬ (0 ≤ ea.toInt ∧ ea.toInt < 4096)) ∧
    (
      let ea := wrap32 (((machine 0 4000#32 96#32).readReg 2).toInt +
        ((machine 0 4000#32 96#32).readReg 3).toInt)
      ea.toInt = 4096 ∧ ¬ (0 ≤ ea.toInt ∧ ea.toInt < 4096)) :=
  ⟨fun _ _ _ => ⟨machine_alone _ _ _, List.cons_ne_nil _ _⟩, by decide, by decide, by decide,
    by decide⟩

/-- For BranchAlone: a branch with no record behind it, not predicted, and one predicted taken to a pc
without a record. -/
theorem witness_BranchAlone :
    let s := machine 0x1000000000000008 0#32 0#32
    let p := s.setBtb 4000#32 ⟨true, true, true, 4008#32⟩
    (Idle s ∧ s.followed ≠ s.pc ∧ s.lookup s.followed = none) ∧
      (Idle p ∧ p.predictedTaken = true ∧ p.followed ≠ p.pc ∧ p.lookup p.followed = none) :=
  ⟨⟨machine_idle _ _ _, by decide, by decide⟩,
    ⟨rfl, rfl, rfl, rfl, rfl, rfl, rfl, rfl, rfl, rfl, rfl, rfl, rfl, rfl, rfl, rfl, rfl, rfl⟩,
    by decide, by decide, by decide⟩

/-- For JumpAlone and HaltAlone, with a record behind them. -/
theorem witness_JumpAlone_HaltAlone :
    let s := { machine 0x1202000000000004 4096#32 0#32 with
      program := [0x1202000000000004#64, 0x1300000000000000#64] }
    Idle s ∧ s.lookup (nextPc s.pc) = some (instrFields .halt) :=
  ⟨⟨rfl, rfl, rfl, rfl, rfl, rfl, rfl, rfl, rfl, rfl, rfl, rfl, rfl, rfl, rfl, rfl, rfl, rfl⟩,
    by decide⟩

theorem witness_UnrecognizedAlone :
    let s := machine 0x1412300000000000 1#32 2#32
    let f : RecordFields := ⟨0x14#8, 1, 2, 3, 0, 0#32⟩
    Alone s ∧ s.lookup s.pc = some f ∧ decodeFields f = .unrecognized 0x14#8 :=
  ⟨machine_alone _ _ _, by decide, by decide⟩

theorem witness_IsolatedRunIsTheArchitecturalEffect :
    Alone (machine 0x1300000000000000 0#32 0#32) ∧ (machine 0x1300000000000000 0#32 0#32).fl ≠ [] :=
  ⟨machine_alone _ _ _, by decide⟩

/-- `STORE R3,R2,#0` at location 4095, and then `LOAD R1,R2,#0`. -/
theorem witness_LoadReadsTheStoredWord :
    let s := machine 0x0C03200000000000 4095#32 9#32
    let t := after s
    Alone s ∧ s.fl ≠ [] ∧ (wrap32 ((s.readReg 2).toInt + (0#32).toInt)).toInt = 4095 ∧
      exec (.store 3 2 0#32) s = .next t ∧ Alone t ∧
      wrap32 ((t.readReg 2).toInt + (0#32).toInt) = wrap32 ((s.readReg 2).toInt + (0#32).toInt) :=
  ⟨machine_alone _ _ _, by decide, by decide, rfl,
    ⟨by constructor <;> decide +kernel, by decide +kernel, by decide +kernel⟩,
    by decide +kernel⟩

/-! #### Commit -/

/-- A machine with `h` at the ROB head and an ADD that holds P5 behind it. -/
def committing (h : Inflight) : State :=
  { State.reset with
    rob := [h, flying (.add 2 1 1) 4004#32 1 (some 5)]
    fl := [0, 1, 2, 3, 6, 7, 8, 9, 10, 11, 12, 13, 14]
    rm := [(2, 5), (1, 4)]
    ready := State.reset.ready.set 4 false |>.set 5 false
    nextSeq := 2 }

theorem witness_CommitWritesTheDestination :
    let h := flying (.sub 1 2 3) 4000#32 0 (some 4)
    (committing h).rob.head? = some h ∧ h.exc = none ∧ h.insn = .op (.sub 1 2 3) ∧
      destReg (.sub 1 2 3) = some 1 ∧ h.pd = some 4 ∧ (committing h).readyBit 4 = false ∧ ((committing h).setReady 4 true).readyBit 4 = true := by
  decide

/-- One state for each clause, the gate open and shut. -/
theorem witness_CommitWithoutRegister :
    let cmp := flying (.cmp 1 2) 4000#32 0 (some 4)
    let bz := flying (.bz 8#32) 4000#32 0 none
    let str := flying (.str 1 2 3) 4000#32 0 none
    let no := freshRecord ⟨0x14#8, 0, 0, 0, 0, 0#32⟩ 4000#32 false
    ((committing cmp).rob.head? = some cmp ∧ cmp.exc = none ∧ cmp.pd = some 4 ∧
      (committing cmp).readyBit 4 = false ∧
      ((committing cmp).setReady 4 true).readyBit 4 = true) ∧
    ((committing bz).rob.head? = some bz ∧ bz.exc = none ∧ bz.done = false ∧
      ({ bz with done := true } : Inflight).done = true) ∧
    ((committing str).rob.head? = some str ∧ str.exc = none ∧ isStore (.str 1 2 3) = true ∧ (committing str).storeDoneAt str.pc = false ∧
      ((committing str).setStoreDone str.pc).storeDoneAt str.pc = true) ∧
    ((committing no).rob.head? = some no ∧ no.exc = none ∧ no.insn = .unrecognized 0x14#8) := by decide

theorem witness_CommitJump :
    let h := flying (.jump 1 4#32) 4000#32 0 none
    h.exc = none ∧ (committing h).rob.head? = some h ∧ (committing h).jumpTaken = false ∧
      ({ committing h with jumpTaken := true } : State).jumpTaken = true := by decide

theorem witness_CommitRaisesThePendingFault :
    let h := { flying (.div 1 2 3) 4000#32 0 (some 4) with exc := some .divideByZero }
    (committing h).status = .running ∧ (committing h).rob.head? = some h ∧
      h.exc = some .divideByZero := by decide

/-- An ADD, and a STORE whose slot holds location 4095, not ready, behind the HALT; and the location is
ready after the cycle. -/
theorem witness_HaltDrain :
    let h := flying .halt 4000#32 0 none
    let a := flying (.add 2 1 1) 4004#32 1 (some 5)
    let w := flying (.store 1 2 0#32) 4008#32 2 none
    let s := (({ committing h with rob := [h, a, w] } : State).setAgen w.pc 4095#32).setMemReady
      4095#32 false
    s.status = .running ∧ s.rob = h :: [a, w] ∧ h.exc = none ∧ h.insn = .op .halt ∧
      w.isStoreRecord = true ∧ s.agenReadyAt w.pc = true ∧ s.agenAddrAt w.pc = 4095#32 ∧
      Sparse.read true s.memReady 4095 = false ∧
      Sparse.read true s.advance.1.memReady 4095 = true := by decide +kernel

/-! #### Units -/

/-- For UnitResults, DivideAndMultiplyUnits (divisor not 0 and 0) and UnitCompareAddressJump: any
instruction in any of the latches, with a register; an AND in `INT` is none of its class. -/
theorem witness_Units :
    (operated (.and 1 2 3) (some 4) 7#32 2#32).unitClass ≠ some .integer ∧
    (operated (.div 1 2 3) (some 4) 7#32 2#32).v2 ≠ 0#32 ∧
      (operated (.div 1 2 3) (some 4) 7#32 0#32).v2 = 0#32 ∧
      (∀ i : Instr, ∀ v : Word,
        (operated i (some 4) 7#32 v).insn = .op i ∧ (operated i (some 4) 7#32 v).pd = some 4 ∧
        ({ State.reset with int := some (operated i (some 4) 7#32 v) } : State).int =
          some (operated i (some 4) 7#32 v) ∧
        ({ State.reset with log := some (operated i (some 4) 7#32 v) } : State).log =
          some (operated i (some 4) 7#32 v) ∧
        ({ State.reset with mul4 := some (operated i (some 4) 7#32 v) } : State).mul4 =
          some (operated i (some 4) 7#32 v)) :=
  ⟨by decide, by decide, by decide, fun i _ => ⟨by cases i <;> rfl, rfl, rfl, rfl, rfl⟩⟩

/-- For BranchResolution: BZ and BNZ, predicted rightly and wrongly, `Z` 0 and 1. -/
theorem witness_BranchResolution :
    let r := operated (.bz 8#32) none 0#32 0#32
    let q := { operated (.bnz 8#32) none 0#32 0#32 with predTaken := true }
    let s (e : Inflight) (z : Word) : State := { State.reset with int := some e, z := z }
    ((s r 0#32).int = some r ∧ r.insn = .op (.bz 8#32) ∧
      decide ((s r 0#32).z = 0#32) ≠ r.predTaken) ∧
    ((s r 1#32).int = some r ∧ decide ((s r 1#32).z = 0#32) = r.predTaken) ∧
    ((s q 0#32).int = some q ∧ q.insn = .op (.bnz 8#32) ∧
      decide ((s q 0#32).z ≠ 0#32) ≠ q.predTaken) ∧
    ((s q 1#32).int = some q ∧ decide ((s q 1#32).z ≠ 0#32) = q.predTaken) := by decide

/-- A taken BZ with younger entries in the ROB, the IQ and `DSP`. -/
theorem witness_SquashedPathIsGone :
    let r := operated (.bz 8#32) none 0#32 0#32
    let s := { State.reset with
      int := some r
      rob := [r, flying (.add 1 2 3) 4004#32 1 (some 0)]
      iq := [flying (.add 1 2 3) 4004#32 1 (some 0)]
      dsp := some (flying (.add 1 2 3) 4008#32 0 (some 1))
      fl := [2, 3, 4, 5, 6, 7, 8, 9, 10, 11, 12, 13, 14] }
    s.status = .running ∧ s.int = some r ∧
      decide ((commitStage { s with cycle := s.cycle + 1 }).z = 0#32) ≠ r.predTaken ∧
      s.advance.1.status = .running ∧ s.advance.1.rob.length = 1 := by decide +kernel

/-! #### Issue -/

/-- A CMP of R1 whose register P5 is not ready. -/
def waiting : Inflight := { flying (.cmp 1 2) 4000#32 0 (some 3) with ps1 := some 5 }

/-- An ADD behind the CMP that waits and a MUL; and a MUL behind the CMP and a LOAD whose registers, P3 and
P1, are not ready yet. -/
theorem witness_IssueTakesAReadyHead :
    let mul := flying (.mul 1 2 3) 4004#32 1 (some 1)
    let load := flying (.load 4 2 0#32) 4004#32 1 (some 1)
    let e (i : Instr) : Inflight := { flying i 4008#32 2 (some 0) with ps1 := some 6 }
    let s (l : List Inflight) : State :=
      { State.reset with
        iq := l
        ready := ((State.reset.ready.set 5 false).set 3 false).set 1 false }
    let a := e (.add 1 2 3)
    let m := e (.mul 1 2 3)
    (a.insn = .op (.add 1 2 3) ∧ fuClass (.add 1 2 3) = some .integer ∧
      a.gateReady (s ([waiting, mul] ++ a :: [mul])) (.add 1 2 3) ∧
      waiting.unitClass = some .integer ∧ waiting.notReady (s ([waiting, mul] ++ a :: [mul])) ∧
      mul.unitClass ≠ some .integer) ∧
    m.insn = .op (.mul 1 2 3) ∧ fuClass (.mul 1 2 3) = some .multiply ∧
      m.gateReady (s ([waiting, load] ++ m :: [])) (.mul 1 2 3) ∧
      waiting.unitClass ≠ some .multiply ∧ load.unitClass ≠ some .multiply ∧
      waiting.pd = some 3 ∧ (s ([waiting, load] ++ m :: [])).readyBit 3 = false ∧
      load.pd = some 1 ∧ (s ([waiting, load] ++ m :: [])).readyBit 1 = false :=
  ⟨⟨rfl, rfl, ⟨fun _ h => by cases h; decide, fun _ h => by cases h⟩, rfl,
      ⟨_, rfl, fun h => absurd (h.1 5 rfl) (by decide)⟩, by decide⟩,
    rfl, rfl, ⟨fun _ h => by cases h; decide, fun _ h => by cases h⟩, by decide, by decide, rfl,
    by decide, rfl, by decide⟩

/-- For the last clauses of IssueTakesAReadyHead: any entry of a unit class with no rename of an operand,
alone in the queue, with its ROB entry and its LSQ entry. -/
theorem witness_IssueTakesAReadyHead_alone (i : Instr) :
    let e := flying i 4000#32 0 (some 0)
    let s := { State.reset with iq := [e], rob := [e], lsq := [e] }
    e.insn = .op i ∧ e.gateReady s i ∧ e.pd = some 0 ∧ (fuClass i).isSome = decide (i ≠ .halt) ∧
      ∀ h ∈ s.rob ++ s.lsq, h.seq = e.seq → h.v1 = e.v1 ∧ h.v2 = e.v2 ∧ h.v3 = e.v3 := by
  refine ⟨by cases i <;> rfl, ?_, rfl, by cases i <;> rfl, by simp⟩
  have no (s : State) (p : Phys) (h : none = some p) : s.readyBit p = true := by cases h
  cases i <;> first | trivial | exact no _ | exact ⟨no _, no _⟩

/-- R180, R405: in one cycle the younger BZ is in `INT` and the older CMP still in the queue. -/
theorem test_issue_overtakes :
    let t := issueStage (({ State.reset with
      iq := [waiting, flying (.bz 8#32) 4004#32 1 none] } : State).setReady 5 false)
    t.int.map Inflight.seq = some 1 ∧ t.iq.map Inflight.seq = [0] := by decide

/-- For IssueAtMostOnePerClass: an entry whose first operand is not ready. -/
theorem witness_IssueAtMostOnePerClass :
    let s := ({ State.reset with iq := [waiting] } : State).setReady 5 false
    waiting ∈ s.iq ∧ waiting.notReady s :=
  ⟨by decide, _, rfl, fun h => absurd (h.1 5 rfl) (by decide)⟩

/-- BZ, BNZ, MOVC and JUMP, each behind a MUL and the CMP that waits. -/
theorem witness_UngatedIssue :
    let m := flying (.mul 1 2 3) 4000#32 0 (some 0)
    let e (i : Instr) : Inflight := { flying i 4004#32 1 none with ps1 := some 0 }
    let s (i : Instr) : State :=
      { State.reset with
        iq := [m, waiting] ++ e i :: []
        ready := State.reset.ready.set 5 false }
    m.unitClass ≠ some .integer ∧ waiting.unitClass = some .integer ∧
      (∀ i, waiting.notReady (s i)) ∧
      (∀ i ∈ [Instr.bz 8#32, .bnz 8#32, .movc 1 5#32, .jump 1 4#32],
        (s i).iq = [m, waiting] ++ e i :: [] ∧ (e i).insn = .op i) :=
  ⟨by decide, rfl, fun _ => ⟨_, rfl, fun h => Bool.false_ne_true (h.1 5 rfl)⟩, by decide⟩

/-! #### The front end -/

/-- `n` entries of a queue. -/
def entries (n : Nat) : List Inflight :=
  (List.range n).map fun k => flying (.add 1 2 3) (4000#32 + BitVec.ofNat 32 (4 * k)) k none

/-- For DispatchAllOrNothing: recovery; room with 15 ROB, 7 IQ and 3 LSQ entries; none with 16, 8 or 4,
or with the pc of a memory instruction in the ROB already. -/
theorem witness_DispatchAllOrNothing :
    let room (s : State) (r : Inflight) : Bool :=
      decide (s.rob.length < 16 ∧ (r.insn = .op .halt ∨ s.iq.length < 8) ∧
        (r.isMemory = false ∨ s.lsq.length < 4 ∧ ∀ a ∈ s.rob, a.pc ≠ r.pc))
    let load := flying (.load 1 2 0#32) 4100#32 0 (some 0)
    let with_ (r q l : Nat) : State := { State.reset with
      dsp := some load, rob := entries r, iq := entries q, lsq := entries l }
    room (with_ 15 7 3) load = true ∧ load.isMemory = true ∧
      (with_ 15 7 3).branchRecovery = false ∧
      ({ with_ 15 7 3 with branchRecovery := true } : State).branchRecovery = true ∧
      load.pd = some 0 ∧ (flying .halt 4100#32 0 none).pd = none ∧
      room (with_ 15 7 3) (flying .halt 4100#32 0 none) = true ∧
      (flying .halt 4100#32 0 none).isMemory = false ∧
      room (with_ 16 7 3) load = false ∧ room (with_ 15 8 3) load = false ∧
      room (with_ 15 7 4) load = false ∧ room (with_ 15 7 3) { load with pc := 4000#32 } = false := by
  decide +kernel

/-- For DecodeRenames and DecodeControl: a record in `DEC`, with and without a free register; and two
renames of R1 live, none of R3. -/
theorem witness_Decode :
    let s (i : Instr) : State := { State.reset with dec := some (flying i 4000#32 0 none) }
    destReg (.add 1 2 3) = some 1 ∧ (s (.add 1 2 3)).dsp = none ∧
      (s (.add 1 2 3)).fl = 0 :: [1, 2, 3, 4, 5, 6, 7, 8, 9, 10, 11, 12, 13, 14] ∧
      ({ s (.add 1 2 3) with fl := [] } : State).fl = [] ∧
      ({ s (.add 1 2 3) with rm := [(1, 7), (2, 5), (1, 4)] } : State).rm =
        [] ++ (1, 7) :: [(2, 5), (1, 4)] ∧
      (∀ c ∈ [((1 : Reg), (7 : Phys)), (2, 5), (1, 4)], c.1 ≠ (3 : Reg)) ∧
      ({ s (.add 1 2 3) with dsp := some (flying .halt 4000#32 0 none) } : State).dsp ≠ none ∧
      (∀ i ∈ [Instr.cmp 1 2, .bz 8#32, .bnz 8#32, .jump 1 4#32, .store 1 2 0#32, .str 1 2 3, .halt],
        (s i).dec = some (flying i 4000#32 0 none) ∧ (s i).dsp = none) := by decide +kernel

/-- A redirect; a JUMP in flight; a full `DEC`; a pc past the last record, one off the grid; and a
delivery, of record 0 at 4000. -/
theorem witness_FetchFollowsThePrediction :
    let s := machine 0x0112300000000000 1#32 2#32
    ({ s with redirectPending := true } : State).redirectPending = true ∧
      ({ s with jumpInFlight := true } : State).jumpInFlight = true ∧
      ({ s with dec := some (flying .halt 4000#32 0 none) } : State).dec ≠ none ∧
      ({ s with pc := 4004#32 } : State).lookup 4004#32 = none ∧ s.lookup 4002#32 = none ∧
      s.program[0]? = some 0x0112300000000000#64 ∧ (4000#32).toNat = 4000 + 4 * 0 ∧
      (s.redirectPending = false ∧ s.jumpInFlight = false ∧ s.dec = none ∧
        s.lookup s.pc = some (instrFields (.add 1 2 3))) := by decide

/-! #### The memory path -/

/-- The gate of a load and of a store, shut and open, `DC` occupied, and a head that is no memory
instruction. -/
theorem witness_LsqHeadOnly :
    let l := flying (.load 1 2 0#32) 4000#32 0 (some 0)
    let w := flying (.store 1 2 0#32) 4000#32 0 none
    let x := flying (.add 1 2 3) 4000#32 0 (some 0)
    let s (e : Inflight) : State := { State.reset with lsq := [e], rob := [e] }
    (isLoad (.load 1 2 0#32) = true ∧ (s l).dc = none ∧ (s l).agenReadyAt l.pc = false ∧
      ((s l).setAgen l.pc 4095#32).agenReadyAt l.pc = true ∧ l.pd = some 0) ∧
    (isStore (.store 1 2 0#32) = true ∧ (s w).dc = none ∧ (s w).agenReadyAt w.pc = false ∧
      ((s w).setAgen w.pc 0#32).agenReadyAt w.pc = true ∧
      operandReady ((s w).setAgen w.pc 0#32) w .one = true ∧
      ((s w).setAgen w.pc 0#32).rob.map Inflight.seq = [w.seq]) ∧
    ({ s l with dc := some w } : State).dc ≠ none ∧
    (s x).lsq = [x] ∧ (s x).dc = none ∧ x.isMemory = false := by decide

/-- Locations 0 and 4095, −1 and 4096. -/
theorem witness_DataCacheAccess :
    let l (a : Word) : Inflight :=
      { flying (.load 1 2 0#32) 4000#32 0 (some 0) with addr := a }
    let w (a : Word) : Inflight := { flying (.str 1 2 3) 4000#32 0 none with addr := a }
    let s (r : Inflight) : State := { State.reset with dc := some r }
    let meets (a : Word) (valid : Bool) : Bool := decide ((s (l a)).dc = some (l a) ∧
      (l a).pd = some 0 ∧ dataAddressValid (l a).addr = valid ∧
      (s (w a)).dc = some (w a) ∧ dataAddressValid (w a).addr = valid)
    meets 0#32 true = true ∧ meets 4095#32 true = true ∧ meets 0xFFFFFFFF#32 false = true ∧
      meets 4096#32 false = true ∧ isLoad (.load 1 2 0#32) = true ∧ isStore (.str 1 2 3) = true := by
  decide +kernel

theorem witness_StoresWaitForTheRobHead :
    let w := flying (.store 1 2 0#32) 4000#32 0 none
    let s := ({ State.reset with lsq := [w], rob := [w] } : State).setAgen w.pc 4095#32
    s.status = .running ∧ s.advance.1.status = .running ∧ s.advance.1.dc.isSome = true ∧
      (s.advance.1.dc.map Inflight.isStoreRecord) = some true := by decide +kernel

/-! #### Writers -/

/-- For OneRetirementPerCycle, with an empty and with an occupied ROB. -/
theorem witness_OneRetirementPerCycle :
    State.reset.status = .running ∧ State.reset.rob = [] ∧
      (committing (flying .halt 4000#32 0 none)).status = .running ∧
      (committing (flying .halt 4000#32 0 none)).rob ≠ [] := by decide

/-- A SUB with result 9 committing to R1, and so to `Z`. -/
theorem witness_RegistersWrittenOnlyAtCommit_FlagWriters :
    let s := ((committing (flying (.sub 1 2 3) 4000#32 0 (some 4))).writeBack (some 4) 9#32)
    s.advance.1.readReg 1 ≠ s.readReg 1 ∧ s.advance.1.z ≠ s.z ∧
      s.advance.1.validBit 1 = true := by decide +kernel

theorem witness_MemoryWriters :
    let r := { flying (.store 1 2 0#32) 4000#32 0 none with addr := 4095#32, data := 7#32 }
    let s := { State.reset with dc := some r }
    s.advance.1.memRead 4095 ≠ s.memRead 4095 := by decide +kernel

/-! #### Invariants -/

/-- Two instructions in flight, the older one about to commit, over a program. -/
def inFlight : State :=
  { (committing (flying (.sub 1 2 3) 4000#32 0 (some 4))).writeBack (some 4) 9#32 with
    program := [0x1300000000000000#64]
    iq := [flying (.add 2 1 1) 4004#32 1 (some 5)] }

/-- For FreeListConservationKept, ProgramOrderKept, CapacityKept, QueuedEntriesAreInTheRob, TablesKept and
BranchShadowHolds: the invariants, a cycle that goes on, and a step that answers. -/
theorem witness_Invariants :
    FreeListConserved inFlight ∧ InProgramOrder inFlight ∧ WithinCapacity inFlight ∧
      InFlightMatched inFlight ∧ TablesCanonical inFlight ∧ inFlight.advance.1.status = .running ∧
      step inFlight = .next (after inFlight) ∧ (after inFlight).status = .running :=
  have order : InProgramOrder inFlight := by constructor <;> constructor <;> decide +kernel
  have registers : FreeListConserved inFlight := by constructor <;> decide +kernel
  have copy : (flying (.add 2 1 1) 4004#32 1 (some 5)).IsCopyOf
      (flying (.add 2 1 1) 4004#32 1 (some 5)) := ⟨rfl, rfl, rfl, rfl⟩
  have matched : InFlightMatched inFlight := by
    refine ⟨order, registers, ?_, ?_, ?_, ?_, ?_, ?_, ?_, ?_, ?_, ?_, ?_, ?_, ?_, ?_, ?_, ?_⟩
    · intro e he
      obtain rfl := List.mem_singleton.1 he
      exact ⟨_, .tail _ (.head _), copy⟩
    · intro e he
      obtain rfl := List.mem_singleton.1 he
      exact ⟨_, .tail _ (.head _), copy, by decide +kernel⟩
    all_goals decide +kernel
  ⟨registers, order, by constructor <;> decide +kernel, matched, by constructor <;> decide +kernel,
    by decide +kernel, step_after (by decide +kernel), by decide +kernel⟩

/-- The invariants are not met by every state: a register twice in the free list, age tags falling, a
seventeenth ROB entry, an IQ entry that is not in the ROB, a listed 0, and a branch overtaken. -/
theorem test_invariants_refuse :
    ¬ FreeListConserved { State.reset with fl := [0, 0] } ∧
      ¬ InProgramOrder { State.reset with
        rob := [flying .halt 4000#32 1 none, flying .halt 4004#32 0 none], nextSeq := 2 } ∧
      ¬ WithinCapacity { State.reset with rob := entries 17 } ∧
      ¬ InFlightMatched { State.reset with iq := [flying (.add 1 2 3) 4000#32 0 (some 0)] } ∧
      ¬ TablesCanonical { State.reset with dmem := [(0, 0#32)] } ∧
      ¬ BranchShadow { State.reset with
        int := some (flying (.add 1 2 3) 4004#32 1 (some 0))
        iq := [flying (.bz 8#32) 4000#32 0 none] } := by
  refine ⟨fun h => absurd h.partition (by decide +kernel), fun h => absurd h.rob.rising (by decide),
    fun h => absurd h.rob (by decide), fun h => ?_, fun h => absurd h.dmem (by decide), fun h => ?_⟩
  · obtain ⟨_, hm, _⟩ := h.queued _ (List.mem_singleton.2 rfl)
    cases hm
  exact absurd (h _ rfl _ (List.mem_singleton.2 rfl) rfl) (by decide)

end Sys2Proof.Tests
end

namespace Sys2Proof.Machine

-- Proofs in this part are elaborated in order: many of the tests above are still being checked, each in a
-- thread of its own, and memory for few more is left.
set_option deprecated.oldSectionVars true

/-! ### The image of the host -/

/-- R402: a location that no pair of the image names reads as before. -/
theorem read_foldl_write_of_not_mem (image : List (Nat × Word)) (m : Memory) (a : Nat)
    (ha : a ∉ image.map Prod.fst) :
    Sparse.read 0#32 (image.foldl (fun m c => Sparse.write 0#32 m c.1 c.2) m) a =
      Sparse.read 0#32 m a := by
  induction image generalizing m with
  | nil => rfl
  | cons c image ih =>
    simp only [List.map_cons, List.mem_cons, not_or] at ha
    rw [List.foldl_cons, ih _ ha.2, Sparse.read_write, if_neg ha.1]

/-- R402: a location that one pair names reads that pair's word. -/
theorem read_foldl_write_of_mem (image : List (Nat × Word)) (m : Memory)
    (hnodup : (image.map Prod.fst).Nodup) (c : Nat × Word) (hc : c ∈ image) :
    Sparse.read 0#32 (image.foldl (fun m c => Sparse.write 0#32 m c.1 c.2) m) c.1 = c.2 := by
  induction image generalizing m with
  | nil => cases hc
  | cons e image ih =>
    obtain ⟨hout, hnodup⟩ := List.nodup_cons.1 hnodup
    rcases List.mem_cons.1 hc with rfl | hc
    · rw [List.foldl_cons, read_foldl_write_of_not_mem image _ _ hout, Sparse.read_write, if_pos rfl]
    · exact ih _ hnodup hc

/-- Settles O10: the table of R52 is `State.reset`; the image is written pair by pair. -/
theorem initializeGivesTheResetTable : Obligations.InitializeGivesTheResetTable := by
  intro program image z hprogram himage hnodup
  have hwf : (programWellFormed program && imageWellFormed image) = true := by
    simp only [programWellFormed, imageWellFormed, Bool.and_eq_true, decide_eq_true_eq, List.all_eq_true]
    exact ⟨List.length_pos_iff.2 hprogram, himage⟩
  refine ⟨_, if_pos hwf, ?_⟩
  refine ⟨rfl, fun r => ?_, fun r => ?_, rfl, ?_, ?_, rfl, rfl, rfl, rfl, rfl, rfl, rfl, fun p => ?_,
    fun _ => rfl, fun _ => ⟨rfl, rfl, rfl, rfl⟩, rfl, rfl, rfl, rfl, rfl, rfl, rfl, rfl, rfl, rfl, rfl,
    rfl, rfl, rfl, rfl, rfl, rfl⟩
  · simp [State.readReg, State.reset]
  · simp [State.validBit, State.reset]
  · exact fun c hc => read_foldl_write_of_mem image [] hnodup c hc
  · exact fun a ha => read_foldl_write_of_not_mem image [] a ha
  · simp [State.readyBit, State.valueOf, State.reset]

/-! ### The drain of a HALT (R288) -/

theorem releaseOf_fl (r : Inflight) (s : State) : (s.releaseOf r).fl = s.fl ++ r.pd.toList := by
  unfold State.releaseOf
  split <;> simp_all

theorem releaseOf_rm (r : Inflight) (s : State) :
    (s.releaseOf r).rm = s.rm.filter fun c => decide (c.2 ∉ r.pd.toList) := by
  unfold State.releaseOf
  split
  · simp_all
  · simp_all [bne, beq_eq_decide]

theorem drainEntry_fl (e : Inflight) (s : State) : (drainEntry e s).fl = s.fl ++ e.pd.toList := by
  rw [← releaseOf_fl]
  simp only [drainEntry]
  split
  · rfl
  · split <;> simp

theorem drainEntry_rm (e : Inflight) (s : State) :
    (drainEntry e s).rm = s.rm.filter fun c => decide (c.2 ∉ e.pd.toList) := by
  rw [← releaseOf_rm]
  simp only [drainEntry]
  split
  · rfl
  · split <;> simp

theorem drainEntry_readyBit (e : Inflight) (s : State) (p : Phys) :
    (drainEntry e s).readyBit p = (decide (p ∈ e.pd.toList) || s.readyBit p) := by
  have hr := State.readyBit_releaseOf s e p
  have hready : (drainEntry e s).ready = (s.releaseOf e).ready := by
    simp only [drainEntry]
    split
    · rfl
    · split <;> simp
  rw [State.readyBit, hready]
  simpa [State.readyBit] using hr

/-- What an entry behind a HALT marks ready: the location of a store with its address (R288). -/
def Inflight.marksReady (e : Inflight) (s : State) (a : Nat) : Bool :=
  e.isStoreRecord && s.agenReadyAt e.pc && dataAddressValid (s.agenAddrAt e.pc) &&
    location (s.agenAddrAt e.pc) == a

theorem drainEntry_memReady (e : Inflight) (s : State) (a : Nat) :
    Sparse.read true (drainEntry e s).memReady a =
      (Sparse.read true s.memReady a || e.marksReady s a) := by
  simp only [drainEntry, Inflight.marksReady, Inflight.isStoreRecord]
  split
  · simp_all
  · have hready : (s.releaseOf e).agenReadyAt e.pc = s.agenReadyAt e.pc := by
      simp [State.agenReadyAt]
    have haddr : (s.releaseOf e).agenAddrAt e.pc = s.agenAddrAt e.pc := by simp [State.agenAddrAt]
    rw [hready, haddr]
    split
    · rw [State.read_memReady_setMemReady]
      split <;> simp_all
      rintro hv rfl
      simp_all
    · simp_all

theorem drainEntries_fl (l : List Inflight) (s : State) :
    (drainEntries l s).fl = s.fl ++ registersOf l := by
  induction l generalizing s with
  | nil => simp [drainEntries, registersOf]
  | cons e l ih =>
    rw [drainEntries, ih, drainEntry_fl]
    cases hp : e.pd <;> simp [registersOf, hp]

theorem drainEntries_rm (l : List Inflight) (s : State) :
    (drainEntries l s).rm = s.rm.filter fun c => decide (c.2 ∉ registersOf l) := by
  induction l generalizing s with
  | nil => simp [drainEntries, registersOf]
  | cons e l ih =>
    rw [drainEntries, ih, drainEntry_rm, List.filter_filter]
    refine List.filter_congr fun c _ => ?_
    cases hp : e.pd <;> simp [registersOf, hp, Bool.and_comm]

theorem drainEntries_readyBit (l : List Inflight) (s : State) (p : Phys) :
    (drainEntries l s).readyBit p = (decide (p ∈ registersOf l) || s.readyBit p) := by
  induction l generalizing s with
  | nil => simp [drainEntries, registersOf]
  | cons e l ih =>
    rw [drainEntries, ih, drainEntry_readyBit, ← Bool.or_assoc, ← Bool.decide_or]
    cases hp : e.pd <;> simp [registersOf, hp, or_comm]

theorem drainEntries_memReady (l : List Inflight) (s : State) (a : Nat) :
    Sparse.read true (drainEntries l s).memReady a =
      (Sparse.read true s.memReady a || l.any fun e => e.marksReady s a) := by
  induction l generalizing s with
  | nil => simp [drainEntries]
  | cons e l ih =>
    have hmarks (r : Inflight) : r.marksReady (drainEntry e s) a = r.marksReady s a := by
      simp [Inflight.marksReady, State.agenReadyAt, State.agenAddrAt]
    simp only [drainEntries, ih, hmarks, drainEntry_memReady, List.any_cons, Bool.or_assoc]

theorem commitStage_halt {s : State} {h : Inflight} {rest : List Inflight} (hrob : s.rob = h :: rest)
    (hexc : h.exc = none) (hi : h.insn = .op .halt) : commitStage s = commitHalt h rest s := by
  simp [commitStage, hrob, hexc, commitAction, hi]

/-- R288: the cycle that commits a HALT. -/
theorem cycleWith_commits_halt {s : State} (look : Word → Option RecordFields) {h : Inflight}
    {rest : List Inflight} (hrun : s.status = .running) (hrob : s.rob = h :: rest)
    (hexc : h.exc = none) (hi : h.insn = .op .halt) :
    cycleWith look s = commitHalt h rest { s with cycle := s.cycle + 1 } := by
  have hcommit : commitStage { s with cycle := s.cycle + 1 } =
      commitHalt h rest { s with cycle := s.cycle + 1 } := commitStage_halt hrob hexc hi
  rw [cycleWith, if_pos hrun, hcommit]
  exact if_neg (by simp [commitHalt])

/-- Settles O33: the entries behind the HALT are drained one by one. -/
theorem haltDrain : Obligations.HaltDrain := by
  intro s h rest hrun hrob hexc hi
  have hcycle := cycleWith_commits_halt s.lookup hrun hrob hexc hi
  refine ⟨commitHalt h rest { s with cycle := s.cycle + 1 }, ?_, ?_, fun p => ?_, fun a => ?_⟩
  · simp [State.advance, hcycle, commitHalt]
  · apply State.ext <;> simp [commitHalt, drainEntries_fl, drainEntries_rm]
  · exact drainEntries_readyBit rest _ p
  · exact drainEntries_memReady rest _ a

/-! ### HALT alone (R344, R288) -/

/-- A cycle of a machine with records in `DEC` and `DSP` alone is its front end. -/
theorem cycleWith_frontEnd {s : State} (look : Word → Option RecordFields) (hrun : s.status = .running)
    (hrob : s.rob = []) (hiq : s.iq = []) (hlsq : s.lsq = []) (hunits : s.inUnits = []) :
    cycleWith look s =
      fetchStage look (decodeStage (dispatchStage { s with cycle := s.cycle + 1 })) := by
  simp only [State.inUnits, List.append_eq_nil_iff, Option.toList_eq_nil_iff] at hunits
  obtain ⟨⟨⟨⟨⟨⟨hint, hlog⟩, h1⟩, h2⟩, h3⟩, h4⟩, hdc⟩ := hunits
  simp [cycleWith, laterStages, commitStage_nil, dataCacheStage_none, lsqStage_nil, mulStage_none,
    logStage_none, intStage_none, issueStage_nil, *]


theorem ArchitectureKept.trans {s t u : State} (h : ArchitectureKept s t) (k : ArchitectureKept t u) :
    ArchitectureKept s u :=
  ⟨k.x.trans h.x, k.xvalid.trans h.xvalid, k.z.trans h.z, k.dmem.trans h.dmem⟩

/-- A HALT record: its operands are none, so that no stage but commit does anything with it. -/
theorem renameAction_halt {r : Inflight} (hi : r.insn = .op .halt) (s : State) :
    renameAction r s = (r, s) := by
  simp [renameAction, hi]

theorem decodeStage_halt {s : State} {r : Inflight} (hdec : s.dec = some r) (hdsp : s.dsp = none)
    (hi : r.insn = .op .halt) :
    decodeStage s = { s with dsp := some (renameSources s r), dec := none } := by
  have hstall : s.decodeStalled r = false := by
    simp [State.decodeStalled, hdsp, Inflight.needsPd, hi, needsPd]
  have hi' : (renameSources s r).insn = .op .halt := hi
  simp [decodeStage, hdec, hstall, decodeRecord, renameAction_halt hi']

theorem dispatchStage_halt {s : State} {r : Inflight} (hdsp : s.dsp = some r)
    (hb : s.branchRecovery = false) (hrob : s.rob = []) (hi : r.insn = .op .halt) :
    dispatchStage s =
      { s with
        nextSeq := s.nextSeq + 1
        rob := [{ r with seq := s.nextSeq, done := false, exc := none }]
        dsp := none } := by
  have hroom : s.hasRoomFor r = true := by
    simp [State.hasRoomFor, hrob, Config.robCap, Inflight.needsIq, Inflight.isMemory, State.slotFree, hi,
      isLoad, isStore]
  simp [dispatchStage, hb, hdsp, hroom, enterQueues, Inflight.needsIq, Inflight.isMemory, hi, isLoad, isStore, hrob]

/-- Nothing is in IQ, LSQ, a unit or `DC`, and no recovery is on: only the ROB and the front end hold
records. -/
def FrontEndOnly (s : State) : Prop :=
  s.status = .running ∧ s.iq = [] ∧ s.lsq = [] ∧ s.inUnits = [] ∧ s.branchRecovery = false

/-- `t` is `n` cycles behind `s`, with nothing retired and the architecture kept. -/
def Waited (n : Nat) (s t : State) : Prop :=
  ArchitectureKept s t ∧ t.retired = s.retired ∧ t.cycle = s.cycle + n

/-- R140: the cycle that decodes a HALT. -/
theorem cycleWith_decodes_halt {s : State} (look : Word → Option RecordFields) {r : Inflight}
    (hs : FrontEndOnly s) (hrob : s.rob = []) (hdec : s.dec = some r) (hdsp : s.dsp = none)
    (hi : r.insn = .op .halt) :
    let t := cycleWith look s
    FrontEndOnly t ∧ Waited 1 s t ∧ t.rob = [] ∧ t.dsp = some (renameSources s r) := by
  obtain ⟨hrun, hiq, hlsq, hunits, hb⟩ := hs
  have hdispatch : dispatchStage { s with cycle := s.cycle + 1 } = { s with cycle := s.cycle + 1 } :=
    dispatchStage_none hdsp hb
  have hdecode : decodeStage { s with cycle := s.cycle + 1 } = _ := decodeStage_halt hdec hdsp hi
  rw [cycleWith_frontEnd look hrun hrob hiq hlsq hunits, hdispatch, hdecode]
  have hu : s.inUnits = [] := hunits
  refine ⟨⟨by simpa, by simpa, by simpa, ?_, by simpa⟩, ⟨⟨?_, ?_, ?_, ?_⟩, ?_, ?_⟩, by simpa, ?_⟩
  · simpa [State.inUnits] using hu
  all_goals simp
  rfl

/-- R162: the cycle that dispatches a HALT into the empty ROB. -/
theorem cycleWith_dispatches_halt {s : State} (look : Word → Option RecordFields) {r : Inflight}
    (hs : FrontEndOnly s) (hrob : s.rob = []) (hdsp : s.dsp = some r) (hi : r.insn = .op .halt) :
    let t := cycleWith look s
    t.status = .running ∧ Waited 1 s t ∧
      t.rob = [{ r with seq := s.nextSeq, done := false, exc := none }] := by
  obtain ⟨hrun, hiq, hlsq, hunits, hb⟩ := hs
  have hdispatch : dispatchStage { s with cycle := s.cycle + 1 } = _ := dispatchStage_halt hdsp hb hrob hi
  rw [cycleWith_frontEnd look hrun hrob hiq hlsq hunits, hdispatch]
  exact ⟨by simpa, ⟨⟨by simp, by simp, by simp, by simp⟩, by simp, by simp⟩, by simp⟩

/-- Settles O25: fetched, decoded, dispatched and committed, in one cycle each. -/
theorem haltAlone : Obligations.HaltAlone := by
  intro s hidle
  have hf := s.decodeFields_recordOf .halt
  refine ⟨_, rfl, ?_⟩
  generalize s.recordOf .halt = f at hf
  rw [runRecord_fetched f hidle]
  generalize delivering f s.pc s.lookup = look
  generalize hs1 : ({ s with dec := _, pc := _, btb := _, cycle := _ } : State) = s1
  have hfront : FrontEndOnly s1 := by
    subst hs1
    exact ⟨hidle.running, hidle.iq, hidle.lsq, by simp [State.inUnits, hidle.int, hidle.log, hidle.mul1,
      hidle.mul2, hidle.mul3, hidle.mul4, hidle.dc], hidle.branchRecovery⟩
  have hwait : Waited 1 s s1 := by
    subst hs1
    exact ⟨⟨rfl, rfl, rfl, rfl⟩, rfl, rfl⟩
  have hdec : s1.dec = some (freshRecord f s.pc s.predictedTaken) := by subst hs1; rfl
  have hrob : s1.rob = [] := by subst hs1; exact hidle.rob
  have hdsp : s1.dsp = none := by subst hs1; exact hidle.dsp
  obtain ⟨hfront2, hwait2, hrob2, hdsp2⟩ := cycleWith_decodes_halt look hfront hrob hdec hdsp hf
  obtain ⟨hrun3, hwait3, hrob3⟩ := cycleWith_dispatches_halt look hfront2 hrob2 hdsp2 hf
  have hcycle := cycleWith_commits_halt look hrun3 hrob3 rfl hf
  rw [runToRetirement_succ, continueRun_more hfront2.1 hwait2.2.1, runToRetirement_succ,
    continueRun_more hrun3 hwait3.2.1, runToRetirement_succ, hcycle,
    continueRun_stopped (by simp [commitHalt])]
  obtain ⟨hkept1, hretired1, hcycle1⟩ := hwait
  obtain ⟨hkept2, hretired2, hcycle2⟩ := hwait2
  obtain ⟨hkept3, hretired3, hcycle3⟩ := hwait3
  refine ⟨rfl, ((hkept1.trans hkept2).trans hkept3).trans ⟨rfl, rfl, rfl, rfl⟩, ?_, ?_⟩
  · show (cycleWith look (cycleWith look s1)).retired + 1 = _
    rw [hretired3, hretired2, hretired1]
  · show (cycleWith look (cycleWith look s1)).cycle + 1 = _
    rw [hcycle3, hcycle2, hcycle1]

end Sys2Proof.Machine

namespace Sys2Proof.Machine

-- Proofs in this part are elaborated in order: many of the tests above are still being checked, each in a
-- thread of its own, and memory for few more is left.
set_option deprecated.oldSectionVars true

/-! ### Issue (R180 to R188) -/

/-- R109. -/
theorem operandReady_iff {s : State} {e : Inflight} {k : OperandNo} :
    operandReady s e k = true ↔ ∀ p : Phys, e.ps k = some p → s.readyBit p = true := by
  unfold operandReady
  cases e.ps k <;> simp [State.readyBit]

/-- R184: the model's gate is the row written out. -/
theorem gateOpen_iff {s : State} {i : Instr} {e : Inflight} :
    gateOpen s i e = true ↔ e.gateReady s i := by
  cases i <;> simp [gateOpen, issueGate, operandReady_iff, Inflight.gateReady, Inflight.ps]

/-- R110 for an operand its opcode uses. -/
theorem operandValue_eq {s : State} {e : Inflight} {i : Instr} {k : OperandNo} {a : Reg}
    (hi : e.insn = .op i) (hk : sourceReg i k = some a) :
    operandValue s e k = s.operandRead (e.ps k) a := by
  unfold operandValue State.operandRead
  cases e.ps k <;> simp [Inflight.rs, hi, hk, State.readReg, State.valueOf]

/-- R185: the model's capture is the row written out. -/
theorem captureOperands_eq {s : State} {i : Instr} {e : Inflight} (hi : e.insn = .op i) :
    captureOperands s i e = e.issued s i := by
  have hv (k : OperandNo) (a : Reg) (hk : sourceReg i k = some a) := operandValue_eq (s := s) hi hk
  cases i <;> simp_all [captureOperands, captured, capturedAtIssue, Inflight.issued, sourceReg, Inflight.ps]

/-- A register that is not ready is not made less so. -/
theorem setReady_false_eq {s : State} {p : Phys} (h : s.readyBit p = false) :
    (s.setReady p false).ready = s.ready := by
  refine Vector.ext fun k hk => ?_
  simp only [State.setReady, Vector.getElem_set]
  split
  · rename_i heq
    subst heq
    exact h.symm
  · rfl

theorem clearReadyOf_ready {s : State} {e : Inflight}
    (h : ∀ p : Phys, e.pd = some p → s.readyBit p = false) : (clearReadyOf e s).ready = s.ready := by
  unfold clearReadyOf
  split
  · rfl
  · exact setReady_false_eq (h _ ‹_›)

/-- R186: only an Integer-class issue clears a ready bit, that of its own register. -/
theorem issueEntry_ready {s : State} {i : Instr} {c : FuClass} {e : Inflight} (hc : fuClass i = some c)
    (h : c = .integer → ∀ p : Phys, e.pd = some p → s.readyBit p = false) :
    (issueEntry i c e s).ready = s.ready := by
  have heffect : (issueEntry i c e s).ready = (issueEffect i (captureOperands s i e) s).ready := by
    cases c <;> simp [issueEntry, State.setUnitLatch]
  rw [heffect]
  cases i with
  | load | ldr | movc => exact clearReadyOf_ready (h (Option.some.inj hc.symm))
  | store | str => simp [issueEffect]
  | _ => rfl

theorem issueEntry_unitLatch_same {s : State} {i : Instr} {c : FuClass} {e : Inflight} :
    (issueEntry i c e s).unitLatch c = some (captureOperands s i e) := by
  cases c <;> rfl

theorem issueEntry_unitLatch_other {s : State} {i : Instr} {c d : FuClass} {e : Inflight} (h : c ≠ d) :
    (issueEntry i c e s).unitLatch d = s.unitLatch d := by
  cases c <;> cases d <;> first | exact absurd rfl h | simp [issueEntry, State.unitLatch, State.setUnitLatch]

theorem Busy.of_set_same (b : Busy) (c : FuClass) : (b.set c).of c = true := by cases c <;> rfl

theorem Busy.of_set_other (b : Busy) {c d : FuClass} (h : c ≠ d) : (b.set c).of d = b.of d := by
  cases c <;> cases d <;> first | rfl | exact absurd rfl h

/-- The scan at an entry of no class: purged (R181). -/
theorem issueScan_purges {e : Inflight} (h : e.unitClass = none) (l : List Inflight) (b : Busy)
    (s : State) : issueScan (e :: l) b s = issueScan l b s := by
  unfold Inflight.unitClass at h
  conv_lhs => unfold issueScan
  split at h <;> simp_all

/-- The scan at an entry that waits: it stays (R188). -/
theorem issueScan_keeps {e : Inflight} {i : Instr} {c : FuClass} (hi : e.insn = .op i)
    (hc : fuClass i = some c) (l : List Inflight) {b : Busy} {s : State}
    (h : b.of c = true ∨ ¬ e.gateReady s i) :
    issueScan (e :: l) b s = (e :: (issueScan l b s).1, (issueScan l b s).2) := by
  have hwait : (b.of c || !gateOpen s i e) = true := by
    rw [← gateOpen_iff] at h
    simpa using h
  simp [issueScan, hi, hc, hwait]

/-- The scan at an entry that issues (R187). -/
theorem issueScan_issues {e : Inflight} {i : Instr} {c : FuClass} (hi : e.insn = .op i)
    (hc : fuClass i = some c) (l : List Inflight) {b : Busy} {s : State} (hb : b.of c = false)
    (h : e.gateReady s i) : issueScan (e :: l) b s = issueScan l (b.set c) (issueEntry i c e s) := by
  simp [issueScan, hi, hc, hb, gateOpen_iff.2 h]

theorem unitClass_cases (e : Inflight) :
    e.unitClass = none ∨ ∃ (i : Instr) (c : FuClass), e.insn = .op i ∧ fuClass i = some c := by
  unfold Inflight.unitClass
  split
  · rename_i i hi
    cases hc : fuClass i with
    | none => exact .inl rfl
    | some c => exact .inr ⟨i, c, hi, hc⟩
  · exact .inl rfl

/-- R188: what stays in the IQ keeps its order. -/
theorem issueScan_sublist (l : List Inflight) (b : Busy) (s : State) :
    (issueScan l b s).1.Sublist l := by
  induction l generalizing b s with
  | nil => exact .refl _
  | cons e l ih =>
    rcases unitClass_cases e with hnone | ⟨i, c, hi, hc⟩
    · rw [issueScan_purges hnone]
      exact (ih b s).cons _
    · by_cases h : b.of c = true ∨ ¬ e.gateReady s i
      · rw [issueScan_keeps hi hc l h]
        exact (ih b s).cons_cons _
      · simp only [not_or, not_not, Bool.not_eq_true] at h
        rw [issueScan_issues hi hc l h.1 h.2]
        exact (ih _ _).cons _

/-- R183: the latch of a class whose flag is up is not written again. -/
theorem issueScan_unitLatch_busy (l : List Inflight) {b : Busy} {c : FuClass} (hb : b.of c = true)
    (s : State) : (issueScan l b s).2.unitLatch c = s.unitLatch c := by
  induction l generalizing b s with
  | nil => rfl
  | cons e l ih =>
    rcases unitClass_cases e with hnone | ⟨j, d, hj, hd⟩
    · rw [issueScan_purges hnone]
      exact ih hb s
    · by_cases h : b.of d = true ∨ ¬ e.gateReady s j
      · rw [issueScan_keeps hj hd l h]
        exact ih hb s
      · simp only [not_or, not_not, Bool.not_eq_true] at h
        have hne : d ≠ c := by
          rintro rfl
          exact absurd hb (by simp [h.1])
        rw [issueScan_issues hj hd l h.1 h.2, ih (by rw [Busy.of_set_other b hne, hb]),
          issueEntry_unitLatch_other hne]

theorem gateReady_congr {s t : State} (h : t.ready = s.ready) (e : Inflight) (i : Instr) :
    e.gateReady t i ↔ e.gateReady s i := by
  simp [Inflight.gateReady, State.readyBit, h]

theorem issued_congr {s t : State} (hx : t.x = s.x) (hv : t.value = s.value) (e : Inflight)
    (i : Instr) : e.issued t i = e.issued s i := by
  have hread (ps : Option Phys) (a : Reg) : t.operandRead ps a = s.operandRead ps a := by
    simp [State.operandRead, State.valueOf, State.readReg, hx, hv]
  simp [Inflight.issued, hread]

/-- R180: a ready entry of a free class issues, past older ones of its class that are not ready. -/
theorem issueScan_takes {e : Inflight} {i : Instr} {c : FuClass} (hi : e.insn = .op i)
    (hc : fuClass i = some c) (pre post : List Inflight) {b : Busy} {s : State} (hb : b.of c = false)
    (hready : e.gateReady s i) (hpre : ∀ a ∈ pre, a.unitClass ≠ some c ∨ a.notReady s)
    (hpd : c ≠ .integer → ∀ a ∈ pre, ∀ p : Phys, a.pd = some p → s.readyBit p = false) :
    (issueScan (pre ++ e :: post) b s).2.unitLatch c = some (e.issued s i) ∧
      (issueScan (pre ++ e :: post) b s).1.Sublist (pre ++ post) := by
  induction pre generalizing b s with
  | nil =>
    rw [List.nil_append, issueScan_issues hi hc post hb hready]
    refine ⟨?_, issueScan_sublist _ _ _⟩
    rw [issueScan_unitLatch_busy post (b.of_set_same c), issueEntry_unitLatch_same,
      captureOperands_eq hi]
  | cons a pre ih =>
    obtain ⟨ha, hpre⟩ := List.forall_mem_cons.1 hpre
    have hpd' (hne : c ≠ .integer) := List.forall_mem_cons.1 (hpd hne)
    rw [List.cons_append, List.cons_append]
    rcases unitClass_cases a with hnone | ⟨j, d, hj, hd⟩
    · rw [issueScan_purges hnone]
      obtain ⟨hlatch, hsub⟩ := ih hb hready hpre fun hne => (hpd' hne).2
      exact ⟨hlatch, hsub.cons _⟩
    · by_cases h : b.of d = true ∨ ¬ a.gateReady s j
      · rw [issueScan_keeps hj hd _ h]
        obtain ⟨hlatch, hsub⟩ := ih hb hready hpre fun hne => (hpd' hne).2
        exact ⟨hlatch, hsub.cons_cons _⟩
      · simp only [not_or, not_not, Bool.not_eq_true] at h
        rw [issueScan_issues hj hd _ h.1 h.2]
        have hne : d ≠ c := by
          rintro rfl
          obtain hclass | ⟨j', hj', hnot⟩ := ha
          · exact hclass (by simp [Inflight.unitClass, hj, hd])
          · obtain rfl : j = j' := by simpa [hj] using hj'
            exact hnot h.2
        have hsame : (issueEntry j d a s).ready = s.ready :=
          issueEntry_ready hd fun hint => (hpd' fun hcint => hne (hint.trans hcint.symm)).1
        have hbit (p : Phys) : (issueEntry j d a s).readyBit p = s.readyBit p := by
          simp [State.readyBit, hsame]
        obtain ⟨hlatch, hsub⟩ := ih (b := b.set d) (s := issueEntry j d a s)
          (by rw [Busy.of_set_other b hne, hb]) ((gateReady_congr hsame e i).2 hready)
          (fun a' ha' => (hpre a' ha').imp_right fun ⟨k, hk, hn⟩ =>
            ⟨k, hk, fun hg => hn ((gateReady_congr hsame a' k).1 hg)⟩)
          (fun hne' a' ha' p hp => (hbit p).trans ((hpd' hne').2 a' ha' p hp))
        rw [issued_congr (s := s) (by simp) (by simp)] at hlatch
        exact ⟨hlatch, hsub.cons _⟩

/-- R34: where the copies of a record hold its operands already, sharing the captured ones is writing all
three. -/
theorem onTag_takeOperands {e : Inflight} {i : Instr} {s : State} (l : List Inflight)
    (h : ∀ r ∈ l, r.seq = e.seq → r.v1 = e.v1 ∧ r.v2 = e.v2 ∧ r.v3 = e.v3) :
    onTag (captureOperands s i e).seq (takeOperands i (captureOperands s i e)) l =
      l.map fun r => if r.seq = e.seq then
        { r with
          v1 := (captureOperands s i e).v1
          v2 := (captureOperands s i e).v2
          v3 := (captureOperands s i e).v3 }
        else r := by
  refine List.map_congr_left fun r hr => ?_
  show (if r.seq = e.seq then _ else _) = _
  split
  · rename_i hq
    obtain ⟨h1, h2, h3⟩ := h r hr hq
    simp only [takeOperands, captureOperands, captured, h1, h2, h3]
    congr 1 <;> split <;> simp_all
  · rfl

theorem setMemReady_memReady (s : State) (a : Word) (b : Bool) :
    (s.setMemReady a b).memReady =
      if 0 ≤ a.toInt ∧ a.toInt < 4096 then Sparse.write true s.memReady a.toNat b else s.memReady := by
  have hvalid : dataAddressValid a = true ↔ 0 ≤ a.toInt ∧ a.toInt < 4096 := by
    rw [dataAddressValid, Bool.and_eq_true, decide_eq_true_eq, decide_eq_true_eq]
    rfl
  simp only [State.setMemReady, hvalid]
  split <;> rfl

/-- The whole stage where one ready entry is alone in the queue. -/
theorem issueStage_alone {s : State} {e : Inflight} {i : Instr} {c : FuClass} (hi : e.insn = .op i)
    (hc : fuClass i = some c) (hready : e.gateReady s i) (hiq : s.iq = [e])
    (h : ∀ r ∈ s.rob ++ s.lsq, r.seq = e.seq → r.v1 = e.v1 ∧ r.v2 = e.v2 ∧ r.v3 = e.v3) :
    let r := e.issued s i
    let shared (h : Inflight) : Inflight :=
      if h.seq = e.seq then { h with v1 := r.v1, v2 := r.v2, v3 := r.v3 } else h
    issueStage s =
      { issueEffect i r s with
        iq := []
        int := if c = .integer then some r else s.int
        log := if c = .logical then some r else s.log
        mul1 := if c = .multiply then some r else s.mul1
        rob := s.rob.map shared
        lsq := s.lsq.map shared } := by
  have hscan : issueScan [e] Busy.none s = ([], issueEntry i c e s) :=
    issueScan_issues hi hc [] (by cases c <;> rfl) hready
  have hrob := onTag_takeOperands (i := i) (s := s) s.rob fun r hr => h r (List.mem_append_left _ hr)
  have hlsq := onTag_takeOperands (i := i) (s := s) s.lsq fun r hr => h r (List.mem_append_right _ hr)
  simp only [issueStage, hiq, hscan, issueEntry]
  rw [captureOperands_eq hi] at hrob hlsq ⊢
  cases c <;> apply State.ext <;> simp [State.setUnitLatch, shareOperands, hrob, hlsq]

/-- Settles O40. -/
theorem issueTakesAReadyHead : Obligations.IssueTakesAReadyHead := by
  intro s e i c hi hc hready
  refine ⟨fun pre post hiq hpre hpd => ?_, fun hiq h => ?_⟩
  · have hscan := issueScan_takes hi hc pre post (b := Busy.none) (by cases c <;> rfl) hready hpre hpd
    rw [← hiq] at hscan
    exact ⟨by cases c <;> exact hscan.1, hscan.2⟩
  · have hstage := issueStage_alone hi hc hready hiq h
    refine ⟨fun p hload hp => ?_, ?_, ?_, fun hload hstore hmovc => ?_⟩
    · rw [hstage]
      have hp' : (e.issued s i).pd = some p := by rw [← hp, ← captureOperands_eq hi]; rfl
      have heffect : issueEffect i (e.issued s i) s = s.setReady p false := by
        cases i <;> simp_all [isLoad, issueEffect, clearReadyOf]
      rw [heffect]
      rfl
    · rintro a b imm rfl
      rw [hstage]
      apply State.ext <;> simp [issueEffect, setMemReady_memReady, effectiveAddress]
    · rintro a b d rfl
      rw [hstage]
      apply State.ext <;> simp [issueEffect, setMemReady_memReady, effectiveAddress]
    · rw [hstage]
      have heffect : issueEffect i (e.issued s i) s = s := by
        cases i <;> simp_all [isLoad, isStore, issueEffect]
      rw [heffect]

end Sys2Proof.Machine

/-! ## What the stages can do -/

namespace Sys2Proof.Machine

/-! ### What a record is, by its opcode -/

/-- Whether an opcode is JUMP (R139). -/
def isJumpOp : Instr → Bool
  | .jump _ _ => true
  | _ => false

/-- The questions the stages ask of a record's opcode, with their answers. -/
structure Inflight.Kinds (r : Inflight) (pd memory store branch jump : Bool)
    (cls : Option FuClass) : Prop where
  needsPd : r.needsPd = pd
  isMemory : r.isMemory = memory
  isStoreRecord : r.isStoreRecord = store
  isBranch : r.isBranch = branch
  isJump : r.isJump = jump
  unitClass : r.unitClass = cls

theorem Inflight.kinds_of_op {r : Inflight} {i : Instr} (hi : r.insn = .op i) :
    r.Kinds (Machine.needsPd i) (isLoad i || isStore i) (isStore i) (isCondBranch i) (isJumpOp i)
      (fuClass i) := by
  constructor
  case isJump => cases i <;> simp [Inflight.isJump, hi, isJumpOp]
  all_goals simp [Inflight.needsPd, Inflight.isMemory, Inflight.isStoreRecord, Inflight.isBranch,
    Inflight.unitClass, hi]

theorem Inflight.kinds_of_unrecognized {r : Inflight} {b : BitVec 8} (hi : r.insn = .unrecognized b) :
    r.Kinds false false false false false none := by
  constructor <;> simp [Inflight.needsPd, Inflight.isMemory, Inflight.isStoreRecord,
    Inflight.isBranch, Inflight.isJump, Inflight.unitClass, hi]

/-! ### One lemma per stage that says all it can do -/

/-- Everything the commit stage can do (R280 to R289): nothing, raise the head's fault, or retire the head. -/
inductive CommitCase (s : State) : State → Prop where
  | waits : CommitCase s s
  | faults {h : Inflight} {rest : List Inflight} {f : FaultCode} (hrob : s.rob = h :: rest)
      (hexc : h.exc = some f) : CommitCase s (s.raise f h.pc)
  | writes {h : Inflight} {rest : List Inflight} {i : Instr} {rd : Reg} {p : Phys}
      (hrob : s.rob = h :: rest) (hexc : h.exc = none) (hi : h.insn = .op i)
      (hrd : destReg i = some rd) (hp : h.pd = some p) (hready : s.readyBit p = true) :
      CommitCase s (commitWrite rd (writesZAtCommit i) p s)
  | frees {h : Inflight} {rest : List Inflight} {a b : Reg} {p : Phys}
      (hrob : s.rob = h :: rest) (hexc : h.exc = none) (hi : h.insn = .op (.cmp a b))
      (hp : h.pd = some p) (hready : s.readyBit p = true) :
      CommitCase s (s.release p).retireHead
  | retires {h : Inflight} {rest : List Inflight} (hrob : s.rob = h :: rest) (hexc : h.exc = none)
      (hpd : h.needsPd = false) (hjump : h.isJump = false) (hgate : s.commitGate h = true) :
      CommitCase s s.retireHead
  | jumps {h : Inflight} {rest : List Inflight} {a : Reg} {imm : Word} (hrob : s.rob = h :: rest)
      (hexc : h.exc = none) (hi : h.insn = .op (.jump a imm)) (htaken : s.jumpTaken = true) :
      CommitCase s (flush h.seq
        { s.retireHead with pc := s.jumpTarget, jumpInFlight := false, jumpTaken := false })
  | halts {h : Inflight} {rest : List Inflight} (hrob : s.rob = h :: rest) (hexc : h.exc = none)
      (hi : h.insn = .op .halt) : CommitCase s (commitHalt h rest s)

theorem commitDest_case {s : State} {h : Inflight} {rest : List Inflight} {i : Instr} {rd : Reg}
    (hrob : s.rob = h :: rest) (hexc : h.exc = none) (hi : h.insn = .op i)
    (hrd : destReg i = some rd) : CommitCase s (commitDest rd (writesZAtCommit i) h s) := by
  unfold commitDest
  split
  · exact .waits
  · rename_i p hp
    split
    · exact .writes hrob hexc hi hrd hp ‹_›
    · exact .waits

theorem commitCmp_case {s : State} {h : Inflight} {rest : List Inflight} {a b : Reg}
    (hrob : s.rob = h :: rest) (hexc : h.exc = none) (hi : h.insn = .op (.cmp a b)) :
    CommitCase s (commitCmp h s) := by
  unfold commitCmp
  split
  · exact .waits
  · rename_i p hp
    split
    · exact .frees hrob hexc hi hp ‹_›
    · exact .waits

theorem commitBranch_case {s : State} {h : Inflight} {rest : List Inflight}
    (hrob : s.rob = h :: rest) (hexc : h.exc = none) (hpd : h.needsPd = false)
    (hb : h.isBranch = true) (hj : h.isJump = false) : CommitCase s (commitBranch h s) := by
  unfold commitBranch
  split
  · exact .retires hrob hexc hpd hj (by simp_all [State.commitGate])
  · exact .waits

theorem commitStore_case {s : State} {h : Inflight} {rest : List Inflight}
    (hrob : s.rob = h :: rest) (hexc : h.exc = none) (hpd : h.needsPd = false)
    (hb : h.isBranch = false) (hs : h.isStoreRecord = true) (hj : h.isJump = false) :
    CommitCase s (commitStore h s) := by
  unfold commitStore
  split
  · exact .retires hrob hexc hpd hj (by simp_all [State.commitGate])
  · exact .waits

theorem commitJump_case {s : State} {h : Inflight} {rest : List Inflight} {a : Reg} {imm : Word}
    (hrob : s.rob = h :: rest) (hexc : h.exc = none) (hi : h.insn = .op (.jump a imm)) :
    CommitCase s (commitJump h s) := by
  unfold commitJump
  split
  · exact .jumps hrob hexc hi ‹_›
  · exact .waits

theorem commitStage_case (s : State) : CommitCase s (commitStage s) := by
  unfold commitStage
  split
  · exact .waits
  · rename_i h rest hrob
    split
    · exact .faults hrob ‹_›
    · rename_i hexc
      unfold commitAction
      split
      · rename_i b hi
        have hk := Inflight.kinds_of_unrecognized hi
        exact .retires hrob hexc hk.needsPd hk.isJump
          (by simp [State.commitGate, hk.needsPd, hk.isBranch, hk.isStoreRecord, hk.isJump])
      · rename_i i hi
        have hk := Inflight.kinds_of_op hi
        cases i with
        | store | str => exact commitStore_case hrob hexc hk.needsPd hk.isBranch hk.isStoreRecord hk.isJump
        | bz | bnz => exact commitBranch_case hrob hexc hk.needsPd hk.isBranch hk.isJump
        | cmp => exact commitCmp_case hrob hexc hi
        | halt => exact .halts hrob hexc hi
        | jump => exact commitJump_case hrob hexc hi
        | _ => exact commitDest_case hrob hexc hi rfl

/-- Everything the data-cache stage can do with the record `r` taken out of `DC` (R216 to R218). -/
inductive CacheCase (r : Inflight) (s : State) : State → Prop where
  | drops : CacheCase r s s
  | loads (hmem : r.isMemory = true) (v : Word) : CacheCase r s (s.writeBack r.pd v)
  | marks (hmem : r.isMemory = true) (v : Word) :
      CacheCase r s ((s.markExc r.seq .dataAddress).writeBack r.pd v)
  | stores (hstore : r.isStoreRecord = true) (hvalid : dataAddressValid r.addr = true) :
      CacheCase r s
        (((s.memWrite (location r.addr) r.data).setMemReady r.addr true).setStoreDone r.pc)
  | faults : CacheCase r s (s.raise .dataAddress r.pc)

theorem dcAction_case (r : Inflight) (s : State) : CacheCase r s (dcAction r s) := by
  unfold dcAction
  split
  · exact .drops
  · rename_i i hi
    have hk := Inflight.kinds_of_op hi
    split
    · rename_i hload
      have hmem : r.isMemory = true := by simp [hk.isMemory, hload]
      unfold dcLoad
      split
      · exact .loads hmem _
      · exact .marks hmem _
    · split
      · rename_i hstore
        unfold dcStore
        split
        · exact .stores (hk.isStoreRecord.trans hstore) ‹_›
        · exact .faults
      · exact .drops

/-- The data-cache stage: nothing in an empty `DC`, else the access of its occupant. -/
theorem dataCacheStage_case (s : State) :
    dataCacheStage s = s ∨ ∃ r : Inflight, s.dc = some r ∧ CacheCase r { s with dc := none } (dataCacheStage s) := by
  unfold dataCacheStage
  split
  · exact .inl rfl
  · exact .inr ⟨_, ‹_›, dcAction_case _ _⟩

/-- Everything the LSQ stage can do (R210 to R215). -/
inductive LsqCase (s : State) : State → Prop where
  | waits : LsqCase s s
  | drops {h : Inflight} {rest : List Inflight} (hlsq : s.lsq = h :: rest) :
      LsqCase s { s with lsq := rest }
  | loads {h : Inflight} {rest : List Inflight} (hlsq : s.lsq = h :: rest) (hdc : s.dc = none)
      (hmem : h.isMemory = true) (hagen : s.agenReadyAt h.pc = true) :
      LsqCase s
        { (clearReadyOf h s).onRobEntry h.seq fun e => { e with addr := s.agenAddrAt h.pc } with
          dc := some { h with addr := s.agenAddrAt h.pc }
          lsq := rest }
  | stores {h : Inflight} {rest : List Inflight} (hlsq : s.lsq = h :: rest) (hdc : s.dc = none)
      (hmem : h.isMemory = true) (hagen : s.agenReadyAt h.pc = true) :
      LsqCase s
        { (s.setMemReady (s.agenAddrAt h.pc) false).onRobEntry h.seq fun e =>
            { e with data := operandValue s h .one, addr := s.agenAddrAt h.pc } with
          dc := some { h with data := operandValue s h .one, addr := s.agenAddrAt h.pc }
          lsq := rest }

theorem lsqStage_case (s : State) : LsqCase s (lsqStage s) := by
  unfold lsqStage
  split
  · exact .waits
  · rename_i h rest hlsq
    split
    · exact .waits
    · rename_i hdc
      have hdc : s.dc = none := by simpa using hdc
      unfold lsqAction
      split
      · exact .drops hlsq
      · rename_i i hi
        have hk := Inflight.kinds_of_op hi
        split
        · rename_i hload
          unfold lsqLoad
          split
          · exact .loads hlsq hdc (by simp [hk.isMemory, hload]) ‹_›
          · exact .waits
        · split
          · rename_i hstore
            unfold lsqStore
            split
            · rename_i hopen
              simp only [State.storeGateOpen, Bool.and_eq_true] at hopen
              exact .stores hlsq hdc (by simp [hk.isMemory, hstore]) hopen.1.1
            · exact .waits
          · exact .drops hlsq

/-- Everything the Logical unit can do with the record `r` taken out of `LOG` (R250). -/
inductive LogCase (r : Inflight) (s : State) : State → Prop where
  | drops : LogCase r s s
  | delivers (v : Word) : LogCase r s (s.writeBack r.pd v)

theorem logAction_case (r : Inflight) (s : State) : LogCase r s (logAction r s) := by
  unfold logAction
  split
  · exact .drops
  · rename_i i _
    cases i with
    | and | or | xor => exact .delivers _
    | _ => exact .drops

/-- The Logical unit: nothing in an empty `LOG`, else the action of its occupant. -/
theorem logStage_case (s : State) :
    logStage s = s ∨ ∃ r : Inflight, s.log = some r ∧ LogCase r { s with log := none } (logStage s) := by
  unfold logStage
  split
  · exact .inl rfl
  · exact .inr ⟨_, ‹_›, logAction_case _ _⟩

/-- Everything the Integer unit can do with the record `r` taken out of `INT` (R240 to R249). -/
inductive IntCase (r : Inflight) (s : State) : State → Prop where
  | drops : IntCase r s s
  | delivers (hmem : r.isMemory = false) (v : Word) : IntCase r s (s.writeBack r.pd v)
  | divides (hmem : r.isMemory = false) (v : Word) :
      IntCase r s ((s.markExc r.seq .divideByZero).writeBack r.pd v)
  | compares (hmem : r.isMemory = false) (hcmp : r.isCompare = true) :
      IntCase r s (({ s with z := cmpFlag r.v1 r.v2 } : State).writeBack r.pd (cmpFlag r.v1 r.v2))
  | addresses (hmem : r.isMemory = true) (ea : Word) : IntCase r s (s.setAgen r.pc ea)
  | resolves (hbranch : r.isBranch = true) (e : BtbEntry) :
      IntCase r s ((s.setBtb r.pc e).markDone r.seq)
  | mispredicts (hbranch : r.isBranch = true) (e : BtbEntry) (taken : Bool) (target : Word) :
      IntCase r s (mispredict taken target r ((s.setBtb r.pc e).markDone r.seq))
  | jumps (hjump : r.isJump = true) (target : Word) :
      IntCase r s { s with jumpTarget := target, jumpTaken := true }

theorem resolveBranch_case {r : Inflight} (hbranch : r.isBranch = true) (taken : Bool) (imm : Word)
    (s : State) : IntCase r s (resolveBranch taken imm r s) := by
  simp only [resolveBranch]
  split
  · exact .resolves hbranch _
  · exact .mispredicts hbranch _ _ _

theorem unitDiv_case {r : Inflight} (hmem : r.isMemory = false) (s : State) :
    IntCase r s (unitDiv r s) := by
  simp only [unitDiv]
  split
  · exact .divides hmem _
  · exact .delivers hmem _

theorem intAction_case (r : Inflight) (s : State) : IntCase r s (intAction r s) := by
  unfold intAction
  split
  · exact .drops
  · rename_i i hi
    have hk := Inflight.kinds_of_op hi
    cases i with
    | add | sub | addl | subl | movc => exact .delivers hk.isMemory _
    | div => exact unitDiv_case hk.isMemory s
    | cmp => exact .compares hk.isMemory (by simp [Inflight.isCompare, hi])
    | load | ldr | store | str => exact .addresses hk.isMemory _
    | bz | bnz => exact resolveBranch_case hk.isBranch _ _ s
    | jump => exact .jumps hk.isJump _
    | mul | and | or | xor | halt => exact .drops

/-- The Integer unit: nothing in an empty `INT`, else the action of its occupant. -/
theorem intStage_case (s : State) :
    intStage s = s ∨ ∃ r : Inflight, s.int = some r ∧ IntCase r { s with int := none } (intStage s) := by
  unfold intStage
  split
  · exact .inl rfl
  · exact .inr ⟨_, ‹_›, intAction_case _ _⟩

/-- Everything the dispatch stage can do (R160 to R163). -/
inductive DispatchCase (s : State) : State → Prop where
  | waits (hb : s.branchRecovery = false) : DispatchCase s s
  | recovers (hb : s.branchRecovery = true) : DispatchCase s (recoverDispatch s)
  | enters {r : Inflight} (hb : s.branchRecovery = false) (hdsp : s.dsp = some r)
      (hroom : s.hasRoomFor r = true) : DispatchCase s (enterQueues r s)

theorem dispatchStage_case (s : State) : DispatchCase s (dispatchStage s) := by
  unfold dispatchStage
  split
  · exact .recovers ‹_›
  · rename_i hb
    have hb : s.branchRecovery = false := by simpa using hb
    split
    · exact .waits hb
    · split
      · exact .enters hb ‹_› ‹_›
      · exact .waits hb

/-- Everything the decode stage can do (R134 to R141): wait, take a free register for the record, or move
it on without one. -/
inductive DecodeCase (s : State) : State → Prop where
  | waits : DecodeCase s s
  | takes {r : Inflight} {p : Phys} {rest : List Phys} {rm : List (Reg × Phys)}
      (hdec : s.dec = some r) (hdsp : s.dsp = none) (hpd : r.needsPd = true)
      (hjump : r.isJump = false) (hfl : s.fl = p :: rest) (hrm : ∀ c ∈ rm, c ∈ s.rm ∨ c.2 = p) :
      DecodeCase s
        { s with
          fl := rest
          ready := s.ready.set p.val false p.isLt
          rm := rm
          dsp := some { renameSources s r with pd := some p }
          dec := none }
  | moves {r : Inflight} {btb : Sparse BtbEntry} (hdec : s.dec = some r) (hdsp : s.dsp = none)
      (hpd : r.needsPd = false) (hbtb : btb = s.btb ∨ ∃ e : BtbEntry, btb = (s.setBtb r.pc e).btb) :
      DecodeCase s
        { s with
          btb := btb
          jumpInFlight := r.isJump || s.jumpInFlight
          dsp := some (renameSources s r)
          dec := none }

theorem createBtbEntry_eq (r : Inflight) (s : State) :
    createBtbEntry r s = { s with btb := (createBtbEntry r s).btb } ∧
      ((createBtbEntry r s).btb = s.btb ∨
        ∃ e : BtbEntry, (createBtbEntry r s).btb = (s.setBtb r.pc e).btb) := by
  unfold createBtbEntry
  split
  · exact ⟨rfl, .inl rfl⟩
  · exact ⟨rfl, .inr ⟨_, rfl⟩⟩

/-- A record that takes a register, to be decoded where one is free. -/
theorem decodeRecord_takes {s : State} {r : Inflight} {p : Phys} {rest : List Phys} {i : Instr}
    (hdec : s.dec = some r) (hdsp : s.dsp = none) (hi : r.insn = .op i) (hfl : s.fl = p :: rest)
    (hpd : needsPd i = true) : DecodeCase s (decodeRecord r s) := by
  have hk := Inflight.kinds_of_op hi
  have halloc : s.allocate = some (p, { s with fl := rest }) := by simp [State.allocate, hfl]
  have hi' : (renameSources s r).insn = .op i := hi
  have hjump : isJumpOp i = false := by
    cases i with
    | jump => exact absurd hpd Bool.false_ne_true
    | _ => rfl
  have hrename : renameAction (renameSources s r) s = renameToken (renameSources s r) s ∨
      ∃ rd, renameAction (renameSources s r) s = renameDest rd (renameSources s r) s := by
    unfold renameAction
    rw [hi']
    cases i with
    | store | str | bz | bnz | jump | halt => exact absurd hpd Bool.false_ne_true
    | cmp => exact .inl rfl
    | _ => exact .inr ⟨_, rfl⟩
  unfold decodeRecord
  obtain h | ⟨rd, h⟩ := hrename
  · rw [h, renameToken, halloc]
    exact .takes (rm := s.rm) hdec hdsp (hk.needsPd.trans hpd) (hk.isJump.trans hjump) hfl
      fun c hc => .inl hc
  · rw [h, renameDest, halloc]
    refine .takes (rm := (rd, p) :: s.rm) hdec hdsp (hk.needsPd.trans hpd) (hk.isJump.trans hjump) hfl ?_
    intro c hc
    rcases List.mem_cons.1 hc with rfl | hc
    · exact .inr rfl
    · exact .inl hc

/-- A record that takes no register moves on. -/
theorem decodeRecord_moves {s : State} {r : Inflight} (hdec : s.dec = some r) (hdsp : s.dsp = none)
    (hpd : r.needsPd = false) : DecodeCase s (decodeRecord r s) := by
  have plain (hj : r.isJump = false)
      (h : renameAction (renameSources s r) s = (renameSources s r, s)) :
      DecodeCase s (decodeRecord r s) := by
    have := DecodeCase.moves (btb := s.btb) hdec hdsp hpd (.inl rfl)
    simpa only [decodeRecord, h, hj, Bool.false_or] using this
  have branch (hj : r.isJump = false)
      (h : renameAction (renameSources s r) s =
        (renameSources s r, createBtbEntry (renameSources s r) s)) :
      DecodeCase s (decodeRecord r s) := by
    obtain ⟨hb, hbtb⟩ := createBtbEntry_eq (renameSources s r) s
    have := DecodeCase.moves hdec hdsp hpd hbtb
    rw [hj, Bool.false_or] at this
    rw [decodeRecord, h]
    simp only
    rw [hb]
    exact this
  cases hi : r.insn with
  | unrecognized b =>
    have hi' : (renameSources s r).insn = .unrecognized b := hi
    exact plain (Inflight.kinds_of_unrecognized hi).isJump (by rw [renameAction, hi'])
  | op i =>
    have hi' : (renameSources s r).insn = .op i := hi
    have hk := Inflight.kinds_of_op hi
    have hpd' : needsPd i = false := hk.needsPd.symm.trans hpd
    cases i with
    | store | str | halt => exact plain hk.isJump (by rw [renameAction, hi'])
    | bz | bnz => exact branch hk.isJump (by rw [renameAction, hi'])
    | jump a imm =>
      have := DecodeCase.moves (btb := s.btb) hdec hdsp hpd (.inl rfl)
      rw [hk.isJump] at this
      rw [decodeRecord, renameAction, hi']
      exact this
    | _ => exact absurd hpd'.symm Bool.false_ne_true

theorem decodeStage_case (s : State) : DecodeCase s (decodeStage s) := by
  unfold decodeStage
  split
  · exact .waits
  · rename_i r hdec
    split
    · exact .waits
    · rename_i hstall
      simp only [State.decodeStalled, Bool.or_eq_true, Bool.and_eq_true, not_or, not_and,
        List.isEmpty_iff, Option.isSome_iff_ne_none, not_not] at hstall
      obtain ⟨hdsp, hfree⟩ := hstall
      cases hpd : r.needsPd with
      | false => exact decodeRecord_moves hdec hdsp hpd
      | true =>
        obtain ⟨p, rest, hfl⟩ := List.exists_cons_of_ne_nil (hfree hpd)
        cases hi : r.insn with
        | unrecognized b =>
          exact absurd (hpd.symm.trans (Inflight.kinds_of_unrecognized hi).needsPd) (by decide)
        | op i =>
          exact decodeRecord_takes hdec hdsp hi hfl ((Inflight.kinds_of_op hi).needsPd.symm.trans hpd)

/-- Everything the fetch stage can do (R130 to R133). -/
inductive FetchCase (look : Word → Option RecordFields) (s : State) : State → Prop where
  | waits : FetchCase look s s
  | bubbles : FetchCase look s { s with redirectPending := false }
  | fetches {f : RecordFields} (hlook : look s.pc = some f) (hjump : s.jumpInFlight = false)
      (hdec : s.dec = none) :
      FetchCase look s
        { s with
          dec := some (freshRecord f s.pc s.predictedTaken)
          pc := s.followed
          btb := s.fetchedBtb }

theorem fetchStage_case (look : Word → Option RecordFields) (s : State) :
    FetchCase look s (fetchStage look s) := by
  by_cases hr : s.redirectPending = true
  · simp only [fetchStage, hr, if_true]
    exact .bubbles
  by_cases hj : s.jumpInFlight = true
  · simp only [fetchStage, hr, hj, if_true]
    exact .waits
  by_cases hd : s.dec.isSome = true
  · simp only [fetchStage, hr, hj, hd, if_true]
    exact .waits
  simp only [Bool.not_eq_true, Option.isSome_eq_false_iff, Option.isNone_iff_eq_none] at hr hj hd
  cases hl : look s.pc with
  | none => rw [fetchStage_invalid hl hr]; exact .waits
  | some f => rw [fetchStage_delivers hl hr hj hd]; exact .fetches hl hj hd

end Sys2Proof.Machine

namespace Sys2Proof.Machine

/-! ### One cycle -/

/-- The state the stages of a cycle start from: the cycle is counted (R47). -/
def State.counted (s : State) : State := { s with cycle := s.cycle + 1 }

/-- Everything a cycle can be (R100, R104): none in a stopped machine, one that Commit or Data-cache
ends, or one of all ten stages. -/
inductive CycleCase (look : Word → Option RecordFields) (s : State) : State → Prop where
  | stopped (h : s.status ≠ .running) : CycleCase look s s
  | commitStops (h : s.status = .running) (hc : (commitStage s.counted).status ≠ .running) :
      CycleCase look s (commitStage s.counted)
  | cacheStops (h : s.status = .running) (hc : (commitStage s.counted).status = .running)
      (hd : (dataCacheStage (commitStage s.counted)).status ≠ .running) :
      CycleCase look s (dataCacheStage (commitStage s.counted))
  | completes (h : s.status = .running) (hc : (commitStage s.counted).status = .running)
      (hd : (dataCacheStage (commitStage s.counted)).status = .running) :
      CycleCase look s (laterStages look (dataCacheStage (commitStage s.counted)))

theorem cycleWith_case (look : Word → Option RecordFields) (s : State) :
    CycleCase look s (cycleWith look s) := by
  simp only [cycleWith]
  split
  · split
    · split
      · exact .completes ‹_› ‹_› ‹_›
      · exact .cacheStops ‹_› ‹_› ‹_›
    · exact .commitStops ‹_› ‹_›
  · exact .stopped ‹_›

/-! ### Who writes the architectural state -/

/-- Registers, valid bits and the count are written at commit alone (R20, R21, R26). -/
theorem CycleCase.registers {look : Word → Option RecordFields} {s t : State}
    (hc : CycleCase look s t) : t = s ∨ t.x = (commitStage s.counted).x ∧
      t.xvalid = (commitStage s.counted).xvalid ∧ t.retired = (commitStage s.counted).retired := by
  cases hc with
  | stopped => exact .inl rfl
  | commitStops => exact .inr ⟨rfl, rfl, rfl⟩
  | cacheStops | completes => right; simp

/-- R282: a register that a commit changes is the head's destination. -/
theorem CommitCase.readReg {s t : State} (hc : CommitCase s t) (r : Reg) :
    (t.readReg r = s.readReg r ∧ t.validBit r = s.validBit r) ∨
      (t.validBit r = true ∧
        ∃ (h : Inflight) (rest : List Inflight) (i : Instr) (p : Phys),
          s.rob = h :: rest ∧ h.exc = none ∧ h.insn = .op i ∧ destReg i = some r ∧ h.pd = some p ∧
            s.readyBit p = true ∧ t.readReg r = s.valueOf p) := by
  have same {t : State} (hx : t.x = s.x) (hv : t.xvalid = s.xvalid) :
      t.readReg r = s.readReg r ∧ t.validBit r = s.validBit r := by
    simp [State.readReg, State.validBit, hx, hv]
  cases hc with
  | @writes h rest i rd p hrob hexc hi hrd hp hready =>
    have hread : (commitWrite rd (writesZAtCommit i) p s).readReg r =
        if rd = r then s.valueOf p else s.readReg r := by
      rw [← State.readReg_writeReg]
      simp [commitWrite, State.readReg, State.valueOf]
    have hvalid : (commitWrite rd (writesZAtCommit i) p s).validBit r =
        (decide (rd = r) || s.validBit r) := by
      rw [← State.validBit_writeReg s rd r (s.valueOf p)]
      simp [commitWrite, State.validBit, State.valueOf]
    by_cases heq : rd = r
    · subst heq
      exact .inr ⟨by simp [hvalid], h, rest, i, p, hrob, hexc, hi, hrd, hp, hready, by simp [hread]⟩
    · exact .inl ⟨by simp [hread, heq], by simp [hvalid, heq]⟩
  | waits => exact .inl ⟨rfl, rfl⟩
  | faults | frees | retires | jumps | halts =>
    exact .inl (same (by simp [commitHalt]) (by simp [commitHalt]))

/-- Settles O50: only the commit stage writes a register, and it writes its head's destination. -/
theorem registersWrittenOnlyAtCommit : Obligations.RegistersWrittenOnlyAtCommit := by
  intro s r
  simp only [State.advance]
  rcases (cycleWith_case s.lookup s).registers with h | ⟨hx, hv, -⟩
  · rw [h]
    exact ⟨fun hne => absurd rfl hne, id⟩
  · have hread : (cycleWith s.lookup s).readReg r = (commitStage s.counted).readReg r := by
      simp [State.readReg, hx]
    have hvalid : (cycleWith s.lookup s).validBit r = (commitStage s.counted).validBit r := by
      simp [State.validBit, hv]
    rw [hread, hvalid]
    rcases (commitStage_case s.counted).readReg r with ⟨hr, hb⟩ | ⟨hb, hw⟩
    · exact ⟨fun hne => absurd hr hne, fun h => hb.trans h⟩
    · exact ⟨fun _ => ⟨hb, hw⟩, fun _ => hb⟩

/-- R283: a commit changes `Z` only for a SUB or SUBL. -/
theorem CommitCase.z {s t : State} (hc : CommitCase s t) :
    t.z = s.z ∨
      ∃ (h : Inflight) (rest : List Inflight) (i : Instr) (p : Phys),
        s.rob = h :: rest ∧ h.exc = none ∧ h.insn = .op i ∧ writesZAtCommit i = true ∧
          h.pd = some p ∧ s.readyBit p = true ∧ t.z = s.valueOf p := by
  cases hc with
  | @writes h rest i rd p hrob hexc hi hrd hp hready =>
    have hz : (commitWrite rd (writesZAtCommit i) p s).z =
        if writesZAtCommit i then s.valueOf p else s.z := by
      simp only [commitWrite, State.retireHead_z, State.release_z, State.retarget_z, commitFlag]
      split <;> rfl
    cases hw : writesZAtCommit i with
    | true => exact .inr ⟨h, rest, i, p, hrob, hexc, hi, hw, hp, hready, by simpa [hw] using hz⟩
    | false => exact .inl (by simpa [hw] using hz)
  | waits => exact .inl rfl
  | faults | frees | retires | jumps | halts => exact .inl (by simp [commitHalt])

/-- R244: the Integer unit writes `Z` only for a CMP. -/
theorem IntCase.z {r : Inflight} {s t : State} (hc : IntCase r s t) :
    t.z = s.z ∨ r.isCompare = true ∧ t.z = wrap32 (r.v1.toInt - r.v2.toInt) := by
  cases hc with
  | compares _ hcmp => exact .inr ⟨hcmp, by simp [cmpFlag]⟩
  | _ => exact .inl (by simp [mispredict])

theorem intStage_z (s : State) :
    (intStage s).z = s.z ∨ ∃ r : Inflight, s.int = some r ∧ r.isCompare = true ∧
      (intStage s).z = wrap32 (r.v1.toInt - r.v2.toInt) := by
  obtain hs | ⟨r, hr, hc⟩ := intStage_case s
  · exact .inl (by rw [hs])
  · exact hc.z.imp_right fun h => ⟨r, hr, h⟩

/-- Among the stages after Data-cache only `INT` writes `Z`. -/
theorem laterStages_z (look : Word → Option RecordFields) (s : State) :
    (laterStages look s).z = s.z ∨ ∃ r : Inflight, s.int = some r ∧ r.isCompare = true ∧
      (laterStages look s).z = wrap32 (r.v1.toInt - r.v2.toInt) := by
  simpa [laterStages] using intStage_z (logStage (mulStage (lsqStage s)))

/-- Settles O51: the commit stage and `INT` are the only writers of `Z`. -/
theorem flagWriters : Obligations.FlagWriters := by
  intro s
  simp only [State.advance]
  have hcommit := (commitStage_case s.counted).z
  have hcase := cycleWith_case s.lookup s
  generalize cycleWith s.lookup s = t at hcase
  intro hne
  cases hcase with
  | stopped => exact absurd rfl hne
  | commitStops => exact .inr (hcommit.resolve_left hne)
  | cacheStops =>
    rw [dataCacheStage_z] at hne ⊢
    exact .inr (hcommit.resolve_left hne)
  | completes =>
    rcases laterStages_z s.lookup (dataCacheStage (commitStage s.counted)) with hz | ⟨r, hr, hcmp, hz⟩
    · rw [hz, dataCacheStage_z] at hne ⊢
      exact .inr (hcommit.resolve_left hne)
    · rw [dataCacheStage_int, commitStage_int] at hr
      exact .inl ⟨r, hr, hcmp, hz⟩

/-- R217: the data-cache stage writes data memory only for a store, at its valid location. -/
theorem CacheCase.memRead {r : Inflight} {s t : State} (hc : CacheCase r s t) (a : Nat) :
    t.memRead a = s.memRead a ∨ r.isStoreRecord = true ∧ dataAddressValid r.addr = true ∧
      location r.addr = a ∧ t.memRead a = r.data := by
  cases hc with
  | stores hstore hvalid =>
    by_cases ha : location r.addr = a
    · exact .inr ⟨hstore, hvalid, ha, by simp [State.memRead, Sparse.read_write, ha]⟩
    · exact .inl (by simp [State.memRead, Sparse.read_write, Ne.symm ha])
  | _ => exact .inl (by simp [State.memRead])

theorem dataCacheStage_memRead (s : State) (a : Nat) :
    (dataCacheStage s).memRead a = s.memRead a ∨
      ∃ r : Inflight, s.dc = some r ∧ r.isStoreRecord = true ∧ dataAddressValid r.addr = true ∧
        location r.addr = a ∧ (dataCacheStage s).memRead a = r.data := by
  obtain hs | ⟨r, hr, hc⟩ := dataCacheStage_case s
  · exact .inl (by rw [hs])
  · exact (hc.memRead a).imp_right fun h => ⟨r, hr, h⟩

theorem mem_squashLatch {q : Nat} {l : Option Inflight} {r : Inflight} :
    squashLatch q l = some r ↔ l = some r ∧ r.seq ≤ q := by
  unfold squashLatch
  split
  · simp
  · split
    · simp only [reduceCtorEq, Option.some.injEq, false_iff, not_and, Nat.not_le]
      rintro rfl
      assumption
    · simp only [Option.some.injEq, iff_self_and]
      rintro rfl
      omega

/-- A commit leaves `DC` as it was, or empties it. -/
theorem CommitCase.dc {s t : State} {r : Inflight} (hc : CommitCase s t) (h : t.dc = some r) :
    s.dc = some r := by
  cases hc with
  | jumps => exact (mem_squashLatch.1 (by simpa [flush] using h)).1
  | _ => simpa [commitHalt] using h

/-- Settles O52: of the ten stages only Data-cache writes data memory, and what stands in `DC` when it
runs stood there before the cycle. -/
theorem memoryWriters : Obligations.MemoryWriters := by
  intro s a
  simp only [State.advance]
  have hcommit : (commitStage s.counted).memRead a = s.memRead a := by
    simp [State.memRead, State.counted]
  have hcache (h : (dataCacheStage (commitStage s.counted)).memRead a ≠ s.memRead a) :
      ∃ r : Inflight, s.dc = some r ∧ r.isStoreRecord = true ∧ dataAddressValid r.addr = true ∧
        location r.addr = a ∧ (dataCacheStage (commitStage s.counted)).memRead a = r.data := by
    obtain ⟨r, hr, hw⟩ :=
      (dataCacheStage_memRead (commitStage s.counted) a).resolve_left (hcommit ▸ h)
    exact ⟨r, (commitStage_case s.counted).dc hr, hw⟩
  have hcase := cycleWith_case s.lookup s
  generalize cycleWith s.lookup s = t at hcase
  intro hne
  cases hcase with
  | stopped => exact absurd rfl hne
  | commitStops => exact absurd hcommit hne
  | cacheStops => exact hcache hne
  | completes =>
    have hlater : (laterStages s.lookup (dataCacheStage (commitStage s.counted))).memRead a =
        (dataCacheStage (commitStage s.counted)).memRead a := by simp [State.memRead]
    rw [hlater] at hne ⊢
    exact hcache hne

/-- R280: a commit retires the head or nothing. -/
theorem CommitCase.retired {s t : State} (hc : CommitCase s t) :
    (t.retired = s.retired ∨ t.retired = s.retired + 1) ∧ (s.rob = [] → t.retired = s.retired) := by
  cases hc with
  | waits | faults => simp
  | writes hrob | frees hrob | retires hrob | jumps hrob | halts hrob =>
    simp [commitWrite, commitHalt, hrob]

/-- Settles O53: the cycle is counted before the stages, and only the commit stage counts an
instruction. -/
theorem oneRetirementPerCycle : Obligations.OneRetirementPerCycle := by
  intro s hrun
  simp only [State.advance]
  have hretired := (commitStage_case s.counted).retired
  have hcase := cycleWith_case s.lookup s
  generalize cycleWith s.lookup s = t at hcase ⊢
  cases hcase with
  | stopped h => exact absurd hrun h
  | commitStops | cacheStops | completes =>
    exact ⟨by simp [State.counted], by simp [State.counted], by simpa [State.counted] using hretired⟩

end Sys2Proof.Machine

namespace Sys2Proof.Machine

/-! ### What every copy of a record keeps (R34) -/

/-- What an instruction's record is known by in every place: its age tag, fetched fields, pc and
physical register (R34). No stage writes these once the record is dispatched. -/
def Inflight.ident (r : Inflight) : Nat × RecordFields × Word × Option Phys :=
  (r.seq, r.fields, r.pc, r.pd)

/-- The records of a queue or latch, as far as no stage changes them. -/
def idents (l : List Inflight) : List (Nat × RecordFields × Word × Option Phys) :=
  l.map Inflight.ident

theorem Inflight.isCopyOf_iff {e h : Inflight} : e.IsCopyOf h ↔ h.ident = e.ident := by
  simp only [Inflight.ident, Prod.mk.injEq]
  exact ⟨fun ⟨h1, h2, h3, h4⟩ => ⟨h1, h2, h3, h4⟩, fun ⟨h1, h2, h3, h4⟩ => ⟨h1, h2, h3, h4⟩⟩

@[simp] theorem idents_nil : idents [] = [] := rfl

@[simp] theorem idents_cons (e : Inflight) (l : List Inflight) :
    idents (e :: l) = e.ident :: idents l := rfl

@[simp] theorem idents_append (l m : List Inflight) : idents (l ++ m) = idents l ++ idents m :=
  List.map_append

theorem idents_seq (l : List Inflight) : (idents l).map Prod.fst = l.map Inflight.seq := by
  simp [idents, Inflight.ident, Function.comp_def]

/-- A write that keeps what a record is known by keeps it for the whole queue. -/
theorem idents_map {f : Inflight → Inflight} (hf : ∀ e, (f e).ident = e.ident) (l : List Inflight) :
    idents (l.map f) = idents l := by
  simp [idents, Function.comp_def, hf]

@[simp] theorem idents_retarget (p : Phys) (l : List Inflight) :
    idents (l.map (Inflight.retarget p)) = idents l :=
  idents_map (f := Inflight.retarget p) (fun _ => rfl) l

theorem idents_onTag {f : Inflight → Inflight} (hf : ∀ e, (f e).ident = e.ident) (q : Nat)
    (l : List Inflight) : idents (onTag q f l) = idents l :=
  idents_map (fun e => by
    split
    · exact hf e
    · rfl) l

theorem SameRecord.ident_eq {e r : Inflight} (h : SameRecord e r) : r.ident = e.ident := by
  simp only [Inflight.ident, h.seq_eq, h.fields_eq, h.pc_eq, h.pd_eq]

theorem SameRecords.idents_eq {l m : List Inflight} (h : SameRecords l m) : idents m = idents l := by
  obtain ⟨g, hg, rfl⟩ := h
  exact idents_map (fun e => (hg e).ident_eq) l

theorem idents_sublist {l m : List Inflight} (h : l.Sublist m) : (idents l).Sublist (idents m) :=
  h.map _

theorem idents_olderThan (q : Nat) (l : List Inflight) :
    (idents (olderThan q l)).Sublist (idents l) := idents_sublist List.filter_sublist

/-! ### Queues that only lose records

Every stage but dispatch takes records out of ROB, IQ and LSQ, or writes into them what they are not known
by. Order (R51) and capacity (R49) follow for all of them at once. -/

/-- `t` has of the records in ROB, IQ and LSQ of `s` some, in their order, and no new age tags. -/
structure Thinned (s t : State) : Prop where
  rob : (idents t.rob).Sublist (idents s.rob)
  iq : (idents t.iq).Sublist (idents s.iq)
  lsq : (idents t.lsq).Sublist (idents s.lsq)
  nextSeq : t.nextSeq = s.nextSeq

theorem Thinned.after {s t u : State} (k : Thinned t u) (h : Thinned s t) : Thinned s u :=
  ⟨k.rob.trans h.rob, k.iq.trans h.iq, k.lsq.trans h.lsq, k.nextSeq.trans h.nextSeq⟩

theorem Thinned.of_eq {s t : State} (hrob : t.rob = s.rob) (hiq : t.iq = s.iq) (hlsq : t.lsq = s.lsq)
    (hnext : t.nextSeq = s.nextSeq) : Thinned s t :=
  ⟨hrob ▸ .refl _, hiq ▸ .refl _, hlsq ▸ .refl _, hnext⟩

theorem flush_thinned (q : Nat) (s : State) : Thinned s (flush q s) where
  rob := by simpa [flush] using idents_olderThan q s.rob
  iq := by simpa [flush] using idents_olderThan q s.iq
  lsq := by simpa [flush] using idents_olderThan q s.lsq
  nextSeq := by simp

theorem retireHead_thinned (s : State) : Thinned s s.retireHead :=
  ⟨idents_sublist (List.tail_sublist _), .refl _, .refl _, rfl⟩

theorem onRobEntry_thinned {f : Inflight → Inflight} (hf : ∀ e, (f e).ident = e.ident) (s : State)
    (q : Nat) : Thinned s (s.onRobEntry q f) :=
  ⟨idents_onTag hf q s.rob ▸ .refl _, .refl _, .refl _, rfl⟩

theorem markExc_thinned (s : State) (q : Nat) (f : FaultCode) : Thinned s (s.markExc q f) :=
  onRobEntry_thinned (f := fun e => { e with exc := some f }) (fun _ => rfl) s q

theorem markDone_thinned (s : State) (q : Nat) : Thinned s (s.markDone q) :=
  onRobEntry_thinned (f := fun e => { e with done := true }) (fun _ => rfl) s q

theorem writeBack_thinned (s : State) (pd : Option Phys) (v : Word) :
    Thinned s (s.writeBack pd v) := .of_eq (by simp) (by simp) (by simp) (by simp)

theorem CommitCase.thinned {s t : State} (hc : CommitCase s t) : Thinned s t := by
  cases hc with
  | waits | faults => exact .of_eq rfl rfl rfl rfl
  | writes => exact (retireHead_thinned _).after (by constructor <;> simp)
  | @frees _ _ _ _ p => exact (retireHead_thinned (s.release p)).after (.of_eq rfl rfl rfl rfl)
  | retires => exact retireHead_thinned s
  | jumps =>
    exact (flush_thinned _ _).after ⟨idents_sublist (List.tail_sublist _), .refl _, .refl _, rfl⟩
  | halts => exact ⟨List.nil_sublist _, by simp [commitHalt], by simp [commitHalt], by simp [commitHalt]⟩

theorem CacheCase.thinned {r : Inflight} {s t : State} (hc : CacheCase r s t) : Thinned s t := by
  cases hc with
  | marks => exact (writeBack_thinned _ _ _).after (markExc_thinned _ _ _)
  | loads => exact writeBack_thinned _ _ _
  | drops | stores | faults => exact .of_eq (by simp) (by simp) (by simp) (by simp)

theorem dataCacheStage_thinned (s : State) : Thinned s (dataCacheStage s) := by
  obtain hs | ⟨r, -, hc⟩ := dataCacheStage_case s
  · exact hs.symm ▸ .of_eq rfl rfl rfl rfl
  · exact hc.thinned.after (.of_eq rfl rfl rfl rfl)

theorem lsqStage_thinned (s : State) : Thinned s (lsqStage s) where
  rob := (lsqStage_shares s).idents_eq ▸ .refl _
  iq := by simp
  lsq := by
    have hc := lsqStage_case s
    generalize lsqStage s = t at hc
    cases hc with
    | waits => exact .refl _
    | drops hlsq | loads hlsq | stores hlsq =>
      rw [hlsq]
      exact idents_sublist (List.sublist_cons_self _ _)
  nextSeq := by simp

theorem mulStage_thinned (s : State) : Thinned s (mulStage s) :=
  ⟨(mulStage_shares s).idents_eq ▸ .refl _, by simp, by simp, by simp⟩

theorem logStage_thinned (s : State) : Thinned s (logStage s) := .of_eq (by simp) (by simp) (by simp) (by simp)

theorem IntCase.thinned {r : Inflight} {s t : State} (hc : IntCase r s t) : Thinned s t := by
  cases hc with
  | divides => exact (writeBack_thinned _ _ _).after (markExc_thinned _ _ _)
  | delivers => exact writeBack_thinned _ _ _
  | resolves _ e => exact (markDone_thinned (s.setBtb r.pc e) _).after (.of_eq rfl rfl rfl rfl)
  | mispredicts _ e =>
    have hflush := (flush_thinned r.seq _).after (markDone_thinned (s.setBtb r.pc e) r.seq)
    exact ⟨hflush.rob, hflush.iq, hflush.lsq, hflush.nextSeq⟩
  | drops | compares | addresses | jumps => exact .of_eq (by simp) (by simp) (by simp) (by simp)

theorem intStage_thinned (s : State) : Thinned s (intStage s) := by
  obtain hs | ⟨r, -, hc⟩ := intStage_case s
  · exact hs.symm ▸ .of_eq rfl rfl rfl rfl
  · exact hc.thinned.after (.of_eq rfl rfl rfl rfl)

theorem issueStage_thinned (s : State) : Thinned s (issueStage s) where
  rob := (issueStage_shares s).1.idents_eq ▸ .refl _
  iq := idents_sublist (issueScan_sublist s.iq Busy.none s)
  lsq := (issueStage_shares s).2.idents_eq ▸ .refl _
  nextSeq := by simp

theorem recoverDispatch_thinned (s : State) : Thinned s (recoverDispatch s) :=
  .of_eq (by simp) (by simp) (by simp) (by simp)

theorem decodeStage_thinned (s : State) : Thinned s (decodeStage s) :=
  .of_eq (by simp) (by simp) (by simp) (by simp)

theorem fetchStage_thinned (look : Word → Option RecordFields) (s : State) :
    Thinned s (fetchStage look s) := .of_eq (by simp) (by simp) (by simp) (by simp)

/-- What holds of thinner queues too, and of those a dispatched record has entered, every cycle keeps. -/
theorem cycleWith_keeps_of_thinned {P : State → Prop} (thin : ∀ s t, Thinned s t → P s → P t)
    (enter : ∀ s r, s.hasRoomFor r = true → P s → P (enterQueues r s))
    (look : Word → Option RecordFields) (s : State) (hs : P s) : P (cycleWith look s) := by
  refine cycleWith_keeps P (fun s => thin s _ (.of_eq rfl rfl rfl rfl))
    (fun s => thin s _ (commitStage_case s).thinned) (fun s => thin s _ (dataCacheStage_thinned s))
    (fun s => thin s _ (lsqStage_thinned s)) (fun s => thin s _ (mulStage_thinned s))
    (fun s => thin s _ (logStage_thinned s)) (fun s => thin s _ (intStage_thinned s))
    (fun s => thin s _ (issueStage_thinned s)) (fun s hs => ?_)
    (fun s => thin s _ (decodeStage_thinned s)) (fun look s => thin s _ (fetchStage_thinned look s))
    look s hs
  have hc := dispatchStage_case s
  generalize dispatchStage s = t at hc
  cases hc with
  | waits => exact hs
  | recovers => exact thin s _ (recoverDispatch_thinned s) hs
  | enters _ _ hroom => exact enter s _ hroom hs

/-! ### Program order (R51) -/

theorem AgeOrdered.of_idents {n : Nat} {l m : List Inflight} (h : AgeOrdered n l)
    (hs : (idents m).Sublist (idents l)) : AgeOrdered n m := by
  have hseq : (m.map Inflight.seq).Sublist (l.map Inflight.seq) := by
    simpa [idents_seq] using hs.map Prod.fst
  constructor
  · exact List.pairwise_map.1 ((List.pairwise_map.2 h.rising).sublist hseq)
  · intro e he
    obtain ⟨a, ha, hae⟩ := List.mem_map.1 (hseq.subset (List.mem_map_of_mem he))
    exact hae ▸ h.given a ha

theorem InProgramOrder.of_thinned {s t : State} (h : InProgramOrder s) (ht : Thinned s t) :
    InProgramOrder t :=
  ⟨ht.nextSeq ▸ h.rob.of_idents ht.rob, ht.nextSeq ▸ h.iq.of_idents ht.iq,
    ht.nextSeq ▸ h.lsq.of_idents ht.lsq⟩

/-- R164: the next age tag is greater than every one given out. -/
theorem AgeOrdered.snoc {n : Nat} {l : List Inflight} {e : Inflight} (h : AgeOrdered n l)
    (he : e.seq = n) : AgeOrdered (n + 1) (l ++ [e]) := by
  constructor
  · rw [List.pairwise_append]
    exact ⟨h.rising, List.pairwise_singleton _ _, by simpa [he] using h.given⟩
  · intro a ha
    rcases List.mem_append.1 ha with ha | ha
    · exact Nat.lt_succ_of_lt (h.given a ha)
    · rw [List.mem_singleton.1 ha, he]
      exact Nat.lt_succ_self n

theorem AgeOrdered.succ {n : Nat} {l : List Inflight} (h : AgeOrdered n l) : AgeOrdered (n + 1) l :=
  ⟨h.rising, fun e he => Nat.lt_succ_of_lt (h.given e he)⟩

/-- The record that dispatch puts in the queues (R162, R164). -/
def State.dispatched (s : State) (r : Inflight) : Inflight :=
  { r with seq := s.nextSeq, done := false, exc := none }

/-- What dispatch leaves of a record that enters (R162, R165). -/
theorem enterQueues_eq (r : Inflight) (s : State) :
    enterQueues r s =
      { s with
        nextSeq := s.nextSeq + 1
        rob := s.rob ++ [s.dispatched r]
        iq := if r.needsIq then s.iq ++ [s.dispatched r] else s.iq
        lsq := if r.isMemory then s.lsq ++ [s.dispatched r] else s.lsq
        dsp := none
        agenReady := if r.isMemory then (s.clearSlot r.pc).agenReady else s.agenReady
        storeDone := if r.isMemory then (s.clearSlot r.pc).storeDone else s.storeDone } := by
  simp only [enterQueues]
  split <;> rfl

theorem InProgramOrder.enter {s : State} (h : InProgramOrder s) (r : Inflight) :
    InProgramOrder (enterQueues r s) := by
  have either {l : List Inflight} (c : Bool) (hl : AgeOrdered s.nextSeq l) :
      AgeOrdered (s.nextSeq + 1) (if c then l ++ [s.dispatched r] else l) := by
    split
    · exact hl.snoc rfl
    · exact hl.succ
  rw [enterQueues_eq]
  exact ⟨h.rob.snoc rfl, either _ h.iq, either _ h.lsq⟩

theorem InProgramOrder.cycleWith (look : Word → Option RecordFields) (s : State)
    (h : InProgramOrder s) : InProgramOrder (cycleWith look s) :=
  cycleWith_keeps_of_thinned (fun _ _ ht h => h.of_thinned ht) (fun _ r _ h => h.enter r) look s h

/-- Settles O55: thinner queues stay in order, and dispatch gives the next age tag. -/
theorem programOrderKept : Obligations.ProgramOrderKept :=
  ⟨fun s => InProgramOrder.cycleWith s.lookup s,
    fun _ _ => step_keeps InProgramOrder InProgramOrder.cycleWith⟩

/-! ### Capacities (R49) -/

theorem WithinCapacity.of_thinned {s t : State} (h : WithinCapacity s) (ht : Thinned s t) :
    WithinCapacity t := by
  have shorter {l m : List Inflight} (hs : (idents m).Sublist (idents l)) : m.length ≤ l.length := by
    simpa [idents] using hs.length_le
  exact ⟨(shorter ht.iq).trans h.iq, (shorter ht.rob).trans h.rob, (shorter ht.lsq).trans h.lsq⟩

/-- R161: a record enters a queue only below its capacity. -/
theorem WithinCapacity.enter {s : State} (h : WithinCapacity s) {r : Inflight}
    (hroom : s.hasRoomFor r = true) : WithinCapacity (enterQueues r s) := by
  obtain ⟨hiq, hrob, hlsq⟩ := h
  simp only [State.hasRoomFor, Bool.and_eq_true, Bool.or_eq_true, Bool.not_eq_true',
    decide_eq_true_eq] at hroom
  obtain ⟨⟨⟨rrob, riq⟩, rlsq⟩, -⟩ := hroom
  rw [enterQueues_eq]
  constructor
  · cases hneed : r.needsIq <;> simp_all
  · simpa [Nat.succ_le_iff] using rrob
  · cases hmem : r.isMemory <;> simp_all

theorem WithinCapacity.cycleWith (look : Word → Option RecordFields) (s : State)
    (h : WithinCapacity s) : WithinCapacity (cycleWith look s) :=
  cycleWith_keeps_of_thinned (fun _ _ ht h => h.of_thinned ht) (fun _ _ hroom h => h.enter hroom)
    look s h

/-- Settles O56: thinner queues stay within capacity, and dispatch asks for room. -/
theorem capacityKept : Obligations.CapacityKept :=
  ⟨fun s => WithinCapacity.cycleWith s.lookup s,
    fun _ _ => step_keeps WithinCapacity WithinCapacity.cycleWith⟩

end Sys2Proof.Machine

namespace Sys2Proof.Machine

/-! ### Canonical tables (R61, R32) -/

namespace TablesCanonical

theorem of_same {s t : State} (h : TablesCanonical s) (hdmem : t.dmem = s.dmem)
    (hmem : t.memReady = s.memReady) (hready : t.agenReady = s.agenReady)
    (haddr : t.agenAddr = s.agenAddr) (hdone : t.storeDone = s.storeDone) (hbtb : t.btb = s.btb) :
    TablesCanonical t :=
  ⟨hdmem ▸ h.dmem, hmem ▸ h.memReady, hmem ▸ h.memReadyBound, hready ▸ h.agenReady,
    haddr ▸ h.agenAddr, hdone ▸ h.storeDone, hbtb ▸ h.btb⟩

theorem setMemReady {s : State} (h : TablesCanonical s) (a : Word) (b : Bool) :
    TablesCanonical (s.setMemReady a b) := by
  unfold State.setMemReady
  split
  · rename_i hvalid
    refine { h with memReady := Sparse.wf_write _ _ _ _ h.memReady, memReadyBound := fun c hc => ?_ }
    rcases Sparse.mem_write hc with rfl | hc
    · exact location_lt hvalid
    · exact h.memReadyBound c hc
  · exact h

theorem memWrite {s : State} (h : TablesCanonical s) {a : Nat} (ha : a < Config.dmemWords) (v : Word) :
    TablesCanonical (s.memWrite a v) :=
  { h with dmem := s.memWrite_wf a v ha h.dmem }

theorem setAgen {s : State} (h : TablesCanonical s) (pc ea : Word) : TablesCanonical (s.setAgen pc ea) :=
  { h with
    agenReady := Sparse.wf_write false s.agenReady (recordIndex pc) true h.agenReady
    agenAddr := Sparse.wf_write _ _ _ _ h.agenAddr }

theorem clearSlot {s : State} (h : TablesCanonical s) (pc : Word) : TablesCanonical (s.clearSlot pc) :=
  { h with
    agenReady := Sparse.wf_write false s.agenReady (recordIndex pc) false h.agenReady
    storeDone := Sparse.wf_write false s.storeDone (recordIndex pc) false h.storeDone }

theorem setStoreDone {s : State} (h : TablesCanonical s) (pc : Word) :
    TablesCanonical (s.setStoreDone pc) :=
  { h with storeDone := Sparse.wf_write false s.storeDone (recordIndex pc) true h.storeDone }

theorem setBtb {s : State} (h : TablesCanonical s) (pc : Word) (e : BtbEntry) :
    TablesCanonical (s.setBtb pc e) :=
  { h with btb := Sparse.wf_write _ _ _ _ h.btb }

theorem drainEntries {s : State} (h : TablesCanonical s) (l : List Inflight) :
    TablesCanonical (drainEntries l s) := by
  induction l generalizing s with
  | nil => exact h
  | cons e l ih =>
    refine ih ?_
    have hr : TablesCanonical (s.releaseOf e) :=
      h.of_same (by simp) (by simp) (by simp) (by simp) (by simp) (by simp)
    simp only [drainEntry]
    split
    · exact hr
    · split
      · exact hr.setMemReady _ _
      · exact hr

theorem commit {s t : State} (h : TablesCanonical s) (hc : CommitCase s t) : TablesCanonical t := by
  cases hc with
  | @halts _ rest => exact (h.drainEntries rest).of_same rfl rfl rfl rfl rfl rfl
  | _ => exact h.of_same (by simp) (by simp) (by simp) (by simp) (by simp) (by simp)

theorem cache {r : Inflight} {s t : State} (h : TablesCanonical s) (hc : CacheCase r s t) :
    TablesCanonical t := by
  cases hc with
  | stores _ hvalid => exact ((h.memWrite (location_lt hvalid) _).setMemReady _ _).setStoreDone _
  | _ => exact h.of_same (by simp) (by simp) (by simp) (by simp) (by simp) (by simp)

theorem lsq {s t : State} (h : TablesCanonical s) (hc : LsqCase s t) : TablesCanonical t := by
  cases hc with
  | @stores e => exact (h.setMemReady (s.agenAddrAt e.pc) false).of_same rfl rfl rfl rfl rfl rfl
  | _ => exact h.of_same (by simp) (by simp) (by simp) (by simp) (by simp) (by simp)

theorem int {r : Inflight} {s t : State} (h : TablesCanonical s) (hc : IntCase r s t) :
    TablesCanonical t := by
  cases hc with
  | addresses => exact h.setAgen _ _
  | resolves _ e => exact (h.setBtb r.pc e).of_same rfl rfl rfl rfl rfl rfl
  | mispredicts _ e =>
    exact (h.setBtb r.pc e).of_same (by simp [mispredict]) (by simp [mispredict]) (by simp [mispredict])
      (by simp [mispredict]) (by simp [mispredict]) (by simp [mispredict])
  | _ => exact h.of_same (by simp) (by simp) (by simp) (by simp) (by simp) (by simp)

theorem issueEntry {s : State} (h : TablesCanonical s) (i : Instr) (c : FuClass) (e : Inflight) :
    TablesCanonical (issueEntry i c e s) := by
  have heffect (e : Inflight) : TablesCanonical (issueEffect i e s) := by
    cases i with
    | store | str => exact h.setMemReady _ _
    | load | ldr | movc =>
      exact h.of_same (clearReadyOf_dmem _ _) (clearReadyOf_memReady _ _) (clearReadyOf_agenReady _ _)
        (clearReadyOf_agenAddr _ _) (clearReadyOf_storeDone _ _) (clearReadyOf_btb _ _)
    | _ => exact h
  exact (heffect (captureOperands s i e)).of_same (by simp [Machine.issueEntry])
    (by simp [Machine.issueEntry]) (by simp [Machine.issueEntry]) (by simp [Machine.issueEntry])
    (by simp [Machine.issueEntry]) (by simp [Machine.issueEntry])

theorem issueScan {s : State} (h : TablesCanonical s) (l : List Inflight) (b : Busy) :
    TablesCanonical (issueScan l b s).2 := by
  induction l generalizing b s with
  | nil => exact h
  | cons e l ih =>
    unfold Machine.issueScan
    split
    · exact ih h b
    · split
      · exact ih h b
      · split
        · exact ih h b
        · exact ih (h.issueEntry _ _ e) _

theorem dispatch {s t : State} (h : TablesCanonical s) (hc : DispatchCase s t) :
    TablesCanonical t := by
  cases hc with
  | waits => exact h
  | recovers => exact h.of_same (by simp) (by simp) (by simp) (by simp) (by simp) (by simp)
  | @enters r =>
    cases hmem : r.isMemory with
    | true =>
      exact (h.clearSlot r.pc).of_same (by simp) (by simp) (by simp [enterQueues_eq, hmem])
        (by simp) (by simp [enterQueues_eq, hmem]) (by simp)
    | false =>
      exact h.of_same (by simp) (by simp) (by simp [enterQueues_eq, hmem]) (by simp)
        (by simp [enterQueues_eq, hmem]) (by simp)

theorem decode {s t : State} (h : TablesCanonical s) (hc : DecodeCase s t) : TablesCanonical t := by
  cases hc with
  | waits => exact h
  | takes => exact h.of_same rfl rfl rfl rfl rfl rfl
  | moves _ _ _ hbtb =>
    obtain rfl | ⟨e, rfl⟩ := hbtb
    · exact h.of_same rfl rfl rfl rfl rfl rfl
    · exact (h.setBtb _ e).of_same rfl rfl rfl rfl rfl rfl

theorem fetch {look : Word → Option RecordFields} {s t : State} (h : TablesCanonical s)
    (hc : FetchCase look s t) : TablesCanonical t := by
  cases hc with
  | waits => exact h
  | bubbles => exact h.of_same rfl rfl rfl rfl rfl rfl
  | fetches =>
    refine { h with btb := ?_ }
    show Sparse.wf BtbEntry.absent s.fetchedBtb = true
    unfold State.fetchedBtb
    split
    · split
      · rfl
      · exact Sparse.wf_write _ _ _ _ h.btb
    · exact h.btb

theorem cycleWith (look : Word → Option RecordFields) (s : State) (h : TablesCanonical s) :
    TablesCanonical (cycleWith look s) := by
  refine cycleWith_keeps TablesCanonical (count := ?count) (commit := ?commit) (dataCache := ?dataCache)
    (lsq := ?lsq) (mul := ?mul) (log := ?log) (int := ?int) (issue := ?issue) (dispatch := ?dispatch)
    (decode := ?decode) (fetch := ?fetch) look s h
  case count => exact fun s h => h.of_same rfl rfl rfl rfl rfl rfl
  case commit => exact fun s h => h.commit (commitStage_case s)
  case lsq => exact fun s h => h.lsq (lsqStage_case s)
  case mul | log =>
    exact fun s h => h.of_same (by simp) (by simp) (by simp) (by simp) (by simp) (by simp)
  case issue => exact fun s h => (h.issueScan s.iq Busy.none).of_same rfl rfl rfl rfl rfl rfl
  case dispatch => exact fun s h => h.dispatch (dispatchStage_case s)
  case decode => exact fun s h => h.decode (decodeStage_case s)
  case fetch => exact fun look s h => h.fetch (fetchStage_case look s)
  case dataCache =>
    intro s h
    obtain hs | ⟨r, -, hc⟩ := dataCacheStage_case s
    · rwa [hs]
    · exact cache (s := { s with dc := none }) (h.of_same rfl rfl rfl rfl rfl rfl) hc
  case int =>
    intro s h
    obtain hs | ⟨r, -, hc⟩ := intStage_case s
    · rwa [hs]
    · exact int (s := { s with int := none }) (h.of_same rfl rfl rfl rfl rfl rfl) hc

end TablesCanonical

/-- Settles O58: every operation on a table is a canonical write of an entry that exists. -/
theorem tablesKept : Obligations.TablesKept :=
  ⟨fun s => TablesCanonical.cycleWith s.lookup s,
    fun _ _ => step_keeps TablesCanonical TablesCanonical.cycleWith⟩

end Sys2Proof.Machine

namespace Sys2Proof.Machine

/-! ### The registers in use (R50) -/

/-- What holds of records by what they are known by holds of every copy of them. -/
theorem forall_of_idents {P : Inflight → Prop} (hP : ∀ a b : Inflight, a.ident = b.ident → P a → P b)
    {l m : List Inflight} (hs : idents m ⊆ idents l) (h : ∀ e ∈ l, P e) : ∀ e ∈ m, P e := by
  intro e he
  obtain ⟨a, ha, hae⟩ := List.mem_map.1 (hs (List.mem_map_of_mem he))
  exact hP a e hae (h a ha)

theorem Inflight.seq_congr {a b : Inflight} (h : a.ident = b.ident) : a.seq = b.seq :=
  congrArg Prod.fst h

theorem Inflight.fields_congr {a b : Inflight} (h : a.ident = b.ident) : a.fields = b.fields :=
  congrArg (·.2.1) h

theorem Inflight.pc_congr {a b : Inflight} (h : a.ident = b.ident) : a.pc = b.pc :=
  congrArg (·.2.2.1) h

theorem Inflight.pd_congr {a b : Inflight} (h : a.ident = b.ident) : a.pd = b.pd :=
  congrArg (·.2.2.2) h

theorem Inflight.needsPd_congr {a b : Inflight} (h : a.fields = b.fields) : a.needsPd = b.needsPd := by
  rw [Inflight.needsPd, Inflight.needsPd, Inflight.insn_congr h]

/-- A record past decode has a register exactly when its opcode needs one (R141). -/
def Inflight.Registered (e : Inflight) : Prop := e.pd.isSome = e.needsPd

theorem Inflight.registered_congr {a b : Inflight} (h : a.ident = b.ident) (ha : a.Registered) :
    b.Registered := by
  unfold Inflight.Registered at *
  rw [← Inflight.pd_congr h, ← Inflight.needsPd_congr (Inflight.fields_congr h), ha]

theorem registersOf_congr {l m : List Inflight} (h : idents l = idents m) :
    registersOf l = registersOf m := by
  have key (l : List Inflight) : registersOf l = (idents l).filterMap fun k => k.2.2.2 := by
    rw [idents, List.filterMap_map]
    rfl
  rw [key, key, h]

@[simp] theorem registersOf_nil : registersOf [] = [] := rfl

theorem registersOf_append (l m : List Inflight) :
    registersOf (l ++ m) = registersOf l ++ registersOf m := List.filterMap_append

theorem registersOf_cons (e : Inflight) (l : List Inflight) :
    registersOf (e :: l) = e.pd.toList ++ registersOf l := by
  cases h : e.pd <;> simp [registersOf, h]

namespace FreeListConserved

/-- Registers that leave `Held` for the tail of the free list, with their renames (R106). -/
theorem of_released {s t : State} (h : FreeListConserved s) (gone : List Phys)
    (hfl : t.fl = s.fl ++ gone) (hrm : ∀ c ∈ t.rm, c ∈ s.rm ∧ c.2 ∉ gone)
    (hheld : (gone ++ t.held).Perm s.held) (hrob : ∀ e ∈ t.rob, e.Registered)
    (hdsp : ∀ e ∈ t.dsp, e.Registered) (hdec : ∀ e ∈ t.dec, e.pd = none) : FreeListConserved t where
  partition := by
    rw [hfl, List.append_assoc]
    exact (hheld.append_left _).trans h.partition
  renames c hc := by
    obtain ⟨hold, hkeep⟩ := hrm c hc
    exact (List.mem_append.1 (hheld.mem_iff.2 (h.renames c hold))).resolve_left hkeep
  rob := hrob
  dsp := hdsp
  dec := hdec

/-- A stage that moves no register. -/
theorem of_same {s t : State} (h : FreeListConserved s) (hfl : t.fl = s.fl) (hrm : t.rm = s.rm)
    (hrob : idents t.rob = idents s.rob) (hdsp : idents t.dsp.toList = idents s.dsp.toList)
    (hdec : t.dec = s.dec) : FreeListConserved t := by
  refine h.of_released [] (by simp [hfl]) (by simp [hrm]) ?_ ?_ ?_ (hdec ▸ h.dec)
  · rw [List.nil_append, State.held, State.held, registersOf_congr hrob, registersOf_congr hdsp]
  · exact forall_of_idents (fun _ _ => Inflight.registered_congr) (List.Perm.of_eq hrob).subset h.rob
  · have hlist := forall_of_idents (fun _ _ => Inflight.registered_congr) (List.Perm.of_eq hdsp).subset
      (fun e he => h.dsp e (Option.mem_toList.1 he))
    exact fun e he => hlist e (Option.mem_toList.2 he)

/-- The head leaves the ROB, and its register `Held`. -/
theorem of_retired {s t : State} (h : FreeListConserved s) {e : Inflight} {rest : List Inflight}
    (he : s.rob = e :: rest) (hfl : t.fl = s.fl ++ e.pd.toList)
    (hrm : ∀ c ∈ t.rm, c ∈ s.rm ∧ c.2 ∉ e.pd.toList) (hrob : idents t.rob = idents rest)
    (hdsp : idents t.dsp.toList = idents s.dsp.toList) (hdec : t.dec = s.dec) :
    FreeListConserved t := by
  refine h.of_released e.pd.toList hfl hrm ?_ ?_ ?_ (hdec ▸ h.dec)
  · rw [State.held, State.held, registersOf_congr hrob, registersOf_congr hdsp, he, registersOf_cons,
      List.append_assoc]
  · exact forall_of_idents (fun _ _ => Inflight.registered_congr) (List.Perm.of_eq hrob).subset
      fun a ha => h.rob a (he ▸ List.mem_cons_of_mem _ ha)
  · have hlist := forall_of_idents (fun _ _ => Inflight.registered_congr) (List.Perm.of_eq hdsp).subset
      (fun e he => h.dsp e (Option.mem_toList.1 he))
    exact fun e he => hlist e (Option.mem_toList.2 he)

theorem head_pd_none {s : State} (h : FreeListConserved s) {e : Inflight} {rest : List Inflight}
    (he : s.rob = e :: rest) (hpd : e.needsPd = false) : e.pd = none := by
  simpa [hpd] using h.rob e (he ▸ List.mem_cons_self)

/-- A head without a register leaves the ROB. -/
theorem retireHead {s : State} (h : FreeListConserved s) {e : Inflight} {rest : List Inflight}
    (he : s.rob = e :: rest) (hpd : e.needsPd = false) : FreeListConserved s.retireHead := by
  have hnone := h.head_pd_none he hpd
  exact h.of_retired he (by simp [hnone]) (by simp [hnone]) (by simp [he]) rfl rfl

end FreeListConserved

/-- R248: a flush releases the registers of the younger entries, in order. -/
theorem releaseYounger_fl (q : Nat) (l : List Inflight) (s : State) :
    (releaseYounger q l s).fl = s.fl ++ registersOf (l.filter fun e => decide (q < e.seq)) := by
  induction l generalizing s with
  | nil => simp [releaseYounger, registersOf]
  | cons e l ih =>
    rw [releaseYounger, ih]
    by_cases hq : q < e.seq
    · simp [hq, releaseOf_fl, registersOf_cons]
    · simp [hq]

theorem releaseYounger_rm (q : Nat) (l : List Inflight) (s : State) :
    (releaseYounger q l s).rm = s.rm.filter fun c =>
      decide (c.2 ∉ registersOf (l.filter fun e => decide (q < e.seq))) := by
  induction l generalizing s with
  | nil => simp [releaseYounger, registersOf]
  | cons e l ih =>
    rw [releaseYounger, ih]
    by_cases hq : q < e.seq
    · simp only [hq, if_true, releaseOf_rm, List.filter_filter, decide_true, List.filter_cons_of_pos,
        registersOf_cons]
      refine List.filter_congr fun c _ => ?_
      simp [Bool.and_comm]
    · simp [hq]

namespace FreeListConserved

theorem flush {s : State} (h : FreeListConserved s) (q : Nat) : FreeListConserved (flush q s) := by
  have hrob : (Machine.flush q s).rob = olderThan q s.rob := by simp [Machine.flush]
  refine h.of_released (registersOf (s.rob.filter fun e => decide (q < e.seq))) ?_ ?_ ?_ ?_ ?_ ?_
  · exact releaseYounger_fl q s.rob s
  · intro c hc
    have hc : c ∈ (releaseYounger q s.rob s).rm := hc
    simpa [releaseYounger_rm] using hc
  · rw [State.held, State.held, flush_dsp, hrob, ← List.append_assoc, ← registersOf_append]
    refine List.Perm.append_right _ (List.Perm.filterMap _ ?_)
    have hnot : olderThan q s.rob = s.rob.filter fun e => !decide (q < e.seq) :=
      List.filter_congr fun e _ => by rw [← decide_not, decide_eq_decide, Nat.not_lt]
    rw [hnot]
    exact List.filter_append_perm _ _
  · rw [hrob]
    exact fun e he => h.rob e (List.mem_of_mem_filter he)
  · rw [flush_dsp]
    exact h.dsp
  · exact fun e he => nomatch he

theorem commit {s t : State} (h : FreeListConserved s) (hc : CommitCase s t) : FreeListConserved t := by
  cases hc with
  | waits | faults => exact h.of_same rfl rfl rfl rfl rfl
  | @writes e rest i rd p hrob _ _ _ hp =>
    refine h.of_retired hrob ?_ ?_ ?_ ?_ ?_
    · simp [commitWrite, hp]
    · simp [commitWrite, hp]
    · simp [commitWrite, hrob]
    · cases hd : s.dsp <;> simp [commitWrite, hd]
      rfl
    · simp
  | @frees e rest a b p hrob _ _ hp =>
    exact h.of_retired hrob (by simp [hp]) (by simp [hp]) (by simp [hrob]) (by simp) (by simp)
  | retires hrob _ hpd => exact h.retireHead hrob hpd
  | @jumps e rest a imm hrob _ hi =>
    have hpd : e.needsPd = false := (Inflight.kinds_of_op hi).needsPd
    refine FreeListConserved.flush ?_ e.seq
    exact (h.retireHead hrob hpd).of_same rfl rfl rfl rfl rfl
  | @halts e rest hrob _ hi =>
    have hnone := h.head_pd_none hrob (Inflight.kinds_of_op hi).needsPd
    refine h.of_released (registersOf rest) ?_ ?_ ?_ ?_ ?_ ?_
    · simp [commitHalt, drainEntries_fl]
    · simp [commitHalt, drainEntries_rm]
    · simp [State.held, commitHalt, hrob, registersOf_cons, hnone]
    · simp [commitHalt]
    · exact fun e he => h.dsp e (by simpa [commitHalt] using he)
    · exact fun e he => h.dec e (by simpa [commitHalt] using he)

end FreeListConserved

theorem markExc_idents (s : State) (q : Nat) (f : FaultCode) :
    idents (s.markExc q f).rob = idents s.rob :=
  idents_onTag (f := fun e => { e with exc := some f }) (fun _ => rfl) q s.rob

theorem markExc_writeBack_idents (s : State) (q : Nat) (f : FaultCode) (pd : Option Phys) (v : Word) :
    idents ((s.markExc q f).writeBack pd v).rob = idents s.rob :=
  (congrArg idents (State.writeBack_rob _ _ _)).trans (markExc_idents s q f)

theorem markDone_idents (s : State) (q : Nat) : idents (s.markDone q).rob = idents s.rob :=
  idents_onTag (f := fun e => { e with done := true }) (fun _ => rfl) q s.rob

namespace FreeListConserved

theorem cache {r : Inflight} {s t : State} (h : FreeListConserved s) (hc : CacheCase r s t) :
    FreeListConserved t := by
  cases hc with
  | marks =>
    exact h.of_same (by simp) (by simp) (markExc_writeBack_idents _ _ _ _ _) (by simp) (by simp)
  | _ => exact h.of_same (by simp) (by simp) (by simp) (by simp) (by simp)

theorem int {r : Inflight} {s t : State} (h : FreeListConserved s) (hc : IntCase r s t) :
    FreeListConserved t := by
  cases hc with
  | divides =>
    exact h.of_same (by simp) (by simp) (markExc_writeBack_idents _ _ _ _ _) (by simp) (by simp)
  | resolves _ e => exact h.of_same rfl rfl (markDone_idents (s.setBtb r.pc e) r.seq) rfl rfl
  | mispredicts _ e =>
    have hdone : FreeListConserved ((s.setBtb r.pc e).markDone r.seq) :=
      h.of_same rfl rfl (markDone_idents (s.setBtb r.pc e) r.seq) rfl rfl
    exact (hdone.flush r.seq).of_same rfl rfl rfl rfl rfl
  | _ => exact h.of_same (by simp) (by simp) (by simp) (by simp) (by simp)

theorem dispatch {s t : State} (h : FreeListConserved s) (hc : DispatchCase s t) :
    FreeListConserved t := by
  cases hc with
  | waits => exact h
  | recovers =>
    have hfl : (recoverDispatch s).fl = s.fl ++ registersOf s.dsp.toList := by
      cases hd : s.dsp with
      | none => simp [recoverDispatch, hd]
      | some r => simpa [recoverDispatch, hd, registersOf_cons] using releaseOf_fl r s
    have hrm : (recoverDispatch s).rm = s.rm.filter fun c => decide (c.2 ∉ registersOf s.dsp.toList) := by
      cases hd : s.dsp with
      | none => simp [recoverDispatch, hd]
      | some r => simpa [recoverDispatch, hd, registersOf_cons] using releaseOf_rm r s
    refine h.of_released (registersOf s.dsp.toList) hfl ?_ ?_ ?_ ?_ ?_
    · simp [hrm]
    · have hdsp : (recoverDispatch s).dsp = none := rfl
      simpa [State.held, hdsp] using List.perm_append_comm
    · exact fun e he => h.rob e (by simpa using he)
    · exact fun e he => nomatch he
    · exact fun e he => h.dec e (by simpa using he)
  | @enters r _ hdsp =>
    rw [enterQueues_eq]
    have hr : r.Registered := h.dsp r hdsp
    refine h.of_released [] (by simp) (fun c hc => ⟨hc, by simp⟩) ?_ ?_ ?_ h.dec
    · simp [State.held, hdsp, registersOf_append, registersOf_cons, State.dispatched]
    · intro e he
      rcases List.mem_append.1 he with he | he
      · exact h.rob e he
      · rw [List.mem_singleton.1 he]
        exact hr
    · exact fun e he => nomatch he

theorem decode {s t : State} (h : FreeListConserved s) (hc : DecodeCase s t) :
    FreeListConserved t := by
  cases hc with
  | waits => exact h
  | @takes r p rest rm hdec hdsp hpd _ hfl hrm =>
    have hold : s.held = registersOf s.rob := by simp [State.held, hdsp]
    refine ⟨?_, ?_, h.rob, ?_, fun e he => nomatch he⟩
    · have hp := h.partition
      rw [hold, hfl] at hp
      refine List.Perm.trans ?_ hp
      show (rest ++ (registersOf s.rob ++ [p])).Perm (p :: (rest ++ registersOf s.rob))
      rw [← List.append_assoc]
      exact List.perm_append_singleton _ _
    · intro c hc
      show c.2 ∈ registersOf s.rob ++ [p]
      rcases hrm c hc with hc | hc
      · exact List.mem_append_left _ (hold ▸ h.renames c hc)
      · simp [hc]
    · rintro e ⟨⟩
      exact hpd.symm
  | @moves r btb hdec hdsp hpd _ =>
    have hnone : r.pd = none := h.dec r hdec
    refine h.of_released [] (by simp) (fun c hc => ⟨hc, by simp⟩) ?_ h.rob ?_ fun e he => nomatch he
    · simp [State.held, hdsp, registersOf_cons, renameSources, hnone]
    · rintro e ⟨⟩
      show r.pd.isSome = r.needsPd
      rw [hnone, hpd]
      rfl

theorem fetch {look : Word → Option RecordFields} {s t : State} (h : FreeListConserved s)
    (hc : FetchCase look s t) : FreeListConserved t := by
  cases hc with
  | waits | bubbles => exact h.of_same rfl rfl rfl rfl rfl
  | fetches =>
    refine h.of_released [] (by simp) (fun c hc => ⟨hc, by simp⟩) (.refl _) h.rob h.dsp ?_
    rintro e ⟨⟩
    rfl

theorem lsqStage {s : State} (h : FreeListConserved s) : FreeListConserved (lsqStage s) :=
  h.of_same (by simp) (by simp) (lsqStage_shares s).idents_eq (by simp) (by simp)

theorem mulStage {s : State} (h : FreeListConserved s) : FreeListConserved (mulStage s) :=
  h.of_same (by simp) (by simp) (mulStage_shares s).idents_eq (by simp) (by simp)

theorem logStage {s : State} (h : FreeListConserved s) : FreeListConserved (logStage s) :=
  h.of_same (by simp) (by simp) (by simp) (by simp) (by simp)

theorem issueStage {s : State} (h : FreeListConserved s) : FreeListConserved (issueStage s) :=
  h.of_same (by simp) (by simp) (issueStage_shares s).1.idents_eq (by simp) (by simp)

theorem dataCacheStage {s : State} (h : FreeListConserved s) : FreeListConserved (dataCacheStage s) := by
  obtain hs | ⟨r, -, hc⟩ := dataCacheStage_case s
  · rwa [hs]
  · exact cache (s := { s with dc := none }) (h.of_same rfl rfl rfl rfl rfl) hc

theorem intStage {s : State} (h : FreeListConserved s) : FreeListConserved (intStage s) := by
  obtain hs | ⟨r, -, hc⟩ := intStage_case s
  · rwa [hs]
  · exact int (s := { s with int := none }) (h.of_same rfl rfl rfl rfl rfl) hc

theorem cycleWith (look : Word → Option RecordFields) (s : State) (h : FreeListConserved s) :
    FreeListConserved (cycleWith look s) :=
  cycleWith_keeps FreeListConserved (count := fun _ h => h.of_same rfl rfl rfl rfl rfl)
    (commit := fun s h => h.commit (commitStage_case s)) (dataCache := fun _ => dataCacheStage)
    (lsq := fun _ => lsqStage) (mul := fun _ => mulStage) (log := fun _ => logStage)
    (int := fun _ => intStage) (issue := fun _ => issueStage)
    (dispatch := fun s h => h.dispatch (dispatchStage_case s))
    (decode := fun s h => h.decode (decodeStage_case s))
    (fetch := fun look s h => h.fetch (fetchStage_case look s)) look s h

end FreeListConserved

/-- Settles O54: what leaves `Held` is released, and what enters it was free. -/
theorem freeListConservationKept : Obligations.FreeListConservationKept :=
  ⟨fun s => FreeListConserved.cycleWith s.lookup s,
    fun _ _ => step_keeps FreeListConserved FreeListConserved.cycleWith⟩

end Sys2Proof.Machine

namespace Sys2Proof.Machine

/-! ### The state after reset -/

/-- What `State.start` gives: the state after reset with a program, an image and a value of `Z`. -/
def State.loaded (program : List RecordWord) (dmem : Memory) (z : Word) : State :=
  { State.reset with program := program, dmem := dmem, z := z }

section

variable (program : List RecordWord) (dmem : Memory) (z : Word)

theorem loaded_freeListConserved : FreeListConserved (State.loaded program dmem z) where
  partition := by
    show [(0 : Phys), 1, 2, 3, 4, 5, 6, 7, 8, 9, 10, 11, 12, 13, 14].Perm (List.finRange 15)
    decide
  renames _ h := nomatch h
  rob _ h := nomatch h
  dsp _ h := nomatch h
  dec _ h := nomatch h

theorem loaded_inProgramOrder : InProgramOrder (State.loaded program dmem z) :=
  have empty : AgeOrdered 0 [] := ⟨.nil, fun _ h => nomatch h⟩
  ⟨empty, empty, empty⟩

theorem loaded_withinCapacity : WithinCapacity (State.loaded program dmem z) :=
  ⟨Nat.zero_le _, Nat.zero_le _, Nat.zero_le _⟩

/-- With no record anywhere, every clause about records holds of none. -/
theorem loaded_inFlightMatched : InFlightMatched (State.loaded program dmem z) where
  order := loaded_inProgramOrder program dmem z
  registers := loaded_freeListConserved program dmem z
  queued _ h := nomatch h
  copies _ h := nomatch h
  once := .nil
  int _ h := nomatch h
  log _ h := nomatch h
  mul _ h := nomatch h
  dc _ h := nomatch h
  lsq _ h := nomatch h
  dcLeft _ h := nomatch h
  noAddress _ h := nomatch h
  slots := .nil
  grid _ h := nomatch h
  renamed _ h := nomatch h
  jumpLast _ h := nomatch h
  jumpNext _ h := nomatch h
  jumpTaken h := nomatch h

theorem loaded_tablesCanonical (hdmem : Memory.wf dmem = true) :
    TablesCanonical (State.loaded program dmem z) :=
  ⟨hdmem, rfl, (fun _ h => nomatch h), rfl, rfl, rfl, rfl⟩

theorem loaded_branchShadow : BranchShadow (State.loaded program dmem z) := fun _ h => nomatch h

theorem loaded_idle : Idle (State.loaded program dmem z) := by constructor <;> rfl

theorem loaded_meets (hdmem : Memory.wf dmem = true) :
    let s := State.loaded program dmem z
    FreeListConserved s ∧ InProgramOrder s ∧ WithinCapacity s ∧ InFlightMatched s ∧
      TablesCanonical s ∧ BranchShadow s ∧ Idle s :=
  ⟨loaded_freeListConserved program dmem z, loaded_inProgramOrder program dmem z,
    loaded_withinCapacity program dmem z, loaded_inFlightMatched program dmem z,
    loaded_tablesCanonical program dmem z hdmem, loaded_branchShadow program dmem z,
    loaded_idle program dmem z⟩

end

/-- Settles O60: nothing is in flight, all registers are free and every table is empty but the image. -/
theorem resetMeetsTheInvariants : Obligations.ResetMeetsTheInvariants := by
  refine ⟨loaded_meets [] [] Config.zReset rfl, fun program image z s hs => ?_⟩
  unfold State.start at hs
  split at hs
  · rename_i hwf
    obtain rfl := Option.some.inj hs
    exact loaded_meets program (imageMemory image) z (imageMemory_wf image (Bool.and_eq_true_iff.1 hwf).2)
  · cases hs

end Sys2Proof.Machine

namespace Sys2Proof.Machine

/-! ### Records in flight and their ROB entries (R49)

`InFlightMatched` is an invariant of the cycle boundary. Within a cycle an unrecognized record may stand in
the IQ after its ROB entry has retired, until the issue stage purges it (R181, R289). `Tracked` is the
invariant that every stage keeps: it asks of an IQ entry only that it is a copy of the ROB entry with its age
tag, where there is one. -/

/-- The occupants of the multiply pipeline. -/
def State.multiplying (s : State) : List Inflight :=
  s.mul1.toList ++ s.mul2.toList ++ s.mul3.toList ++ s.mul4.toList

/-- JUMP is the last record in flight, and only a JUMP in the ROB signals its target (R139, R249). -/
structure JumpOrdered (s : State) : Prop where
  last : ∀ h ∈ s.rob, h.isJump = true →
    s.jumpInFlight = true ∧ s.dec = none ∧ s.dsp = none ∧ ∀ a ∈ s.rob, a.seq ≤ h.seq
  next : ∀ e ∈ s.dsp, e.isJump = true →
    s.branchRecovery = true ∨ s.jumpInFlight = true ∧ s.dec = none
  taken : s.jumpTaken = true → ∃ h ∈ s.rob, h.isJump = true

/-- `InFlightMatched` as every stage keeps it. -/
structure Tracked (s : State) : Prop where
  order : InProgramOrder s
  registers : FreeListConserved s
  matched : ∀ e ∈ s.iq, ∀ h ∈ s.rob, h.seq = e.seq → h.ident = e.ident
  copies : ∀ e ∈ s.unfinished, ∃ h ∈ s.rob, h.ident = e.ident ∧ s.commitGate h = false
  once : ((s.iq ++ s.inUnits).map Inflight.seq).Nodup
  int : ∀ r ∈ s.int.toList, r.unitClass = some .integer
  log : ∀ r ∈ s.log.toList, r.unitClass = some .logical
  mul : ∀ r ∈ s.multiplying, r.unitClass = some .multiply
  dc : ∀ r ∈ s.dc.toList, r.isMemory = true
  lsq : ∀ e ∈ s.lsq, e.isMemory = true
  dcLeft : ∀ r ∈ s.dc.toList, ∀ e ∈ s.lsq, r.seq ≠ e.seq
  noAddress : ∀ e ∈ s.iq ++ s.int.toList, e.isMemory = true → s.agenReadyAt e.pc = false
  slots : s.rob.Pairwise fun a b =>
    a.isMemory = true → b.isMemory = true → recordIndex a.pc ≠ recordIndex b.pc
  gridRob : ∀ e ∈ s.rob, pcOnGrid e.pc = true
  gridFront : ∀ e ∈ s.dsp.toList ++ s.dec.toList, pcOnGrid e.pc = true
  renamed : ∀ e ∈ s.dsp, ∀ p ∈ e.pd, s.readyBit p = false
  jumps : JumpOrdered s

/-! #### What the invariant says of single records -/

theorem Inflight.kinds_congr {a b : Inflight} (h : a.fields = b.fields) :
    a.Kinds b.needsPd b.isMemory b.isStoreRecord b.isBranch b.isJump b.unitClass := by
  have hi := Inflight.insn_congr h
  constructor <;>
    simp only [Inflight.needsPd, Inflight.isMemory, Inflight.isStoreRecord, Inflight.isBranch,
      Inflight.isJump, Inflight.unitClass, hi]

theorem Inflight.kinds_of_ident {a b : Inflight} (h : a.ident = b.ident) :
    a.Kinds b.needsPd b.isMemory b.isStoreRecord b.isBranch b.isJump b.unitClass :=
  Inflight.kinds_congr (Inflight.fields_congr h)

/-- R182: memory instructions are of the Integer class. -/
theorem Inflight.unitClass_of_isMemory {r : Inflight} (h : r.isMemory = true) :
    r.unitClass = some .integer := by
  cases hi : r.insn with
  | unrecognized b => simp [(Inflight.kinds_of_unrecognized hi).isMemory] at h
  | op i =>
    have hk := Inflight.kinds_of_op hi
    rw [hk.isMemory] at h
    rw [hk.unitClass]
    cases i with
    | load | ldr | store | str => rfl
    | _ => exact absurd h Bool.false_ne_true

theorem Inflight.isMemory_of_isStoreRecord {r : Inflight} (h : r.isStoreRecord = true) :
    r.isMemory = true := by
  cases hi : r.insn with
  | unrecognized b => simp [(Inflight.kinds_of_unrecognized hi).isStoreRecord] at h
  | op i =>
    have hk := Inflight.kinds_of_op hi
    rw [hk.isMemory, ← hk.isStoreRecord, h, Bool.or_true]

theorem Inflight.not_isJump_of_isBranch {r : Inflight} (h : r.isBranch = true) : r.isJump = false := by
  cases hi : r.insn with
  | unrecognized b => exact (Inflight.kinds_of_unrecognized hi).isJump
  | op i =>
    have hk := Inflight.kinds_of_op hi
    rw [hk.isBranch] at h
    rw [hk.isJump]
    cases i with
    | jump => exact absurd h Bool.false_ne_true
    | _ => rfl

theorem exists_of_idents {l m : List Inflight} (hs : idents m ⊆ idents l) {e : Inflight} (he : e ∈ m) :
    ∃ a ∈ l, a.ident = e.ident := List.mem_map.1 (hs (List.mem_map_of_mem he))

theorem seqs_of_idents {l m : List Inflight} (h : (idents m).Sublist (idents l)) :
    (m.map Inflight.seq).Sublist (l.map Inflight.seq) := by
  simpa [idents_seq] using h.map Prod.fst

/-- Two elements of a list that are not related either way are one. -/
theorem eq_of_pairwise {α : Type} {R : α → α → Prop} {l : List α} (h : l.Pairwise R) {a b : α}
    (ha : a ∈ l) (hb : b ∈ l) (hab : ¬ R a b) (hba : ¬ R b a) : a = b := by
  induction h with
  | nil => cases ha
  | cons hhead _ ih =>
    rcases List.mem_cons.1 ha with rfl | ha' <;> rcases List.mem_cons.1 hb with rfl | hb'
    · rfl
    · exact absurd (hhead b hb') hab
    · exact absurd (hhead a ha') hba
    · exact ih ha' hb'

theorem AgeOrdered.eq_of_seq {n : Nat} {l : List Inflight} (h : AgeOrdered n l) {a b : Inflight}
    (ha : a ∈ l) (hb : b ∈ l) (hab : a.seq = b.seq) : a = b :=
  eq_of_pairwise h.rising ha hb (Nat.not_lt_of_le hab.ge) (Nat.not_lt_of_le hab.le)

theorem FreeListConserved.held_nodup {s : State} (h : FreeListConserved s) : s.held.Nodup :=
  (List.nodup_append.1 (h.partition.nodup_iff.2 (List.nodup_finRange 15))).2.1

/-- R50: one register, one ROB entry. -/
theorem FreeListConserved.eq_of_pd {s : State} (h : FreeListConserved s) {a b : Inflight}
    (ha : a ∈ s.rob) (hb : b ∈ s.rob) {p : Phys} (hap : a.pd = some p) (hbp : b.pd = some p) : a = b := by
  have hnodup : (registersOf s.rob).Nodup := (List.nodup_append.1 h.held_nodup).1
  exact eq_of_pairwise (List.pairwise_filterMap.1 hnodup) ha hb (fun hne => hne p hap p hbp rfl)
    fun hne => hne p hbp p hap rfl

/-- R50: the record in `DSP` shares its register with no ROB entry. -/
theorem FreeListConserved.dsp_pd_ne {s : State} (h : FreeListConserved s) {a r : Inflight}
    (ha : a ∈ s.rob) (hr : r ∈ s.dsp) {p : Phys} (hap : a.pd = some p) : r.pd ≠ some p := by
  intro hrp
  have hdisjoint := (List.nodup_append.1 h.held_nodup).2.2
  exact hdisjoint p (List.mem_filterMap.2 ⟨a, ha, hap⟩) p
    (List.mem_filterMap.2 ⟨r, Option.mem_toList.2 hr, hrp⟩) rfl

/-- R165: one slot of the pc-indexed tables, one memory instruction in the ROB. -/
theorem Tracked.eq_of_slot {s : State} (h : Tracked s) {a b : Inflight} (ha : a ∈ s.rob)
    (hb : b ∈ s.rob) (hma : a.isMemory = true) (hmb : b.isMemory = true)
    (hab : recordIndex a.pc = recordIndex b.pc) : a = b :=
  eq_of_pairwise h.slots ha hb (fun hne => hne hma hmb hab) fun hne => hne hmb hma hab.symm

theorem JumpOrdered.eq_of_isJump {s : State} (h : JumpOrdered s) (ho : InProgramOrder s)
    {a b : Inflight} (ha : a ∈ s.rob) (hb : b ∈ s.rob) (hja : a.isJump = true)
    (hjb : b.isJump = true) : a = b := by
  obtain ⟨-, -, -, hlasta⟩ := h.last a ha hja
  obtain ⟨-, -, -, hlastb⟩ := h.last b hb hjb
  exact ho.rob.eq_of_seq ha hb (Nat.le_antisymm (hlastb a ha) (hlasta b hb))

theorem mem_unfinished {s : State} {e : Inflight} :
    e ∈ s.unfinished ↔ (e ∈ s.iq ∧ e.unitClass.isSome = true) ∨ e ∈ s.lsq ∨ e ∈ s.inUnits := by
  simp [State.unfinished]

theorem inUnits_eq (s : State) :
    s.inUnits = s.int.toList ++ (s.log.toList ++ (s.multiplying ++ s.dc.toList)) := by
  simp [State.inUnits, State.multiplying]

/-! #### Commit gates -/

/-- A gate that is shut stays shut where nothing it asks for has come about. -/
theorem commitGate_shut {s t : State} {a b : Inflight} (hid : b.ident = a.ident)
    (hready : ∀ p : Phys, a.pd = some p → t.readyBit p = true → s.readyBit p = true)
    (hdone : b.done = true → a.done = true)
    (hstore : a.isStoreRecord = true → t.storeDoneAt a.pc = true → s.storeDoneAt a.pc = true)
    (hjump : a.isJump = true → t.jumpTaken = true → s.jumpTaken = true)
    (h : s.commitGate a = false) : t.commitGate b = false := by
  have hk := Inflight.kinds_of_ident hid
  simp only [State.commitGate, hk.needsPd, hk.isBranch, hk.isStoreRecord, hk.isJump,
    Inflight.pd_congr hid, Inflight.pc_congr hid] at h ⊢
  split
  · rename_i hpd
    rw [if_pos hpd] at h
    cases hp : a.pd with
    | none => rfl
    | some p =>
      rw [hp] at h
      exact Bool.eq_false_iff.2 fun ht => Bool.eq_false_iff.1 h (hready p hp ht)
  · rename_i hpd
    rw [if_neg hpd] at h
    split
    · rename_i hb
      rw [if_pos hb] at h
      exact Bool.eq_false_iff.2 fun ht => Bool.eq_false_iff.1 h (hdone ht)
    · rename_i hb
      rw [if_neg hb] at h
      split
      · rename_i hs
        rw [if_pos hs] at h
        exact Bool.eq_false_iff.2 fun ht => Bool.eq_false_iff.1 h (hstore hs ht)
      · rename_i hs
        rw [if_neg hs] at h
        split
        · rename_i hj
          rw [if_pos hj] at h
          exact Bool.eq_false_iff.2 fun ht => Bool.eq_false_iff.1 h (hjump hj ht)
        · rename_i hj
          exact absurd h (by rw [if_neg hj]; decide)

/-- The gate of a record of a unit class is shut where nothing it may ask for is there. -/
theorem commitGate_eq_false {s : State} {a : Inflight} (hclass : a.unitClass.isSome = true)
    (hready : ∀ p : Phys, a.pd = some p → s.readyBit p = false) (hdone : a.done = false)
    (hstore : a.isStoreRecord = true → s.storeDoneAt a.pc = false)
    (hjump : a.isJump = true → s.jumpTaken = false) : s.commitGate a = false := by
  unfold State.commitGate
  split
  · cases hp : a.pd with
    | none => rfl
    | some p => exact hready p hp
  · rename_i hpd
    split
    · exact hdone
    · rename_i hb
      split
      · exact hstore ‹_›
      · rename_i hs
        split
        · exact hjump ‹_›
        · rename_i hj
          exfalso
          cases hi : a.insn with
          | unrecognized b => simp [(Inflight.kinds_of_unrecognized hi).unitClass] at hclass
          | op i =>
            have hk := Inflight.kinds_of_op hi
            rw [hk.needsPd] at hpd
            rw [hk.isBranch] at hb
            rw [hk.isStoreRecord] at hs
            rw [hk.isJump] at hj
            rw [hk.unitClass] at hclass
            cases i with
            | store | str => exact hs rfl
            | bz | bnz => exact hb rfl
            | jump => exact hj rfl
            | halt => cases hclass
            | _ => exact hpd rfl

/-! #### Places that only lose records -/

/-- `t` has of the records in the queues, units and `DC` of `s` some, each where it was. -/
structure Narrows (s t : State) : Prop extends Thinned s t where
  int : (idents t.int.toList).Sublist (idents s.int.toList)
  log : (idents t.log.toList).Sublist (idents s.log.toList)
  mul : (idents t.multiplying).Sublist (idents s.multiplying)
  dc : (idents t.dc.toList).Sublist (idents s.dc.toList)

theorem Narrows.units {s t : State} (n : Narrows s t) :
    (idents t.inUnits).Sublist (idents s.inUnits) := by
  simp only [inUnits_eq, idents_append]
  exact n.int.append (n.log.append (n.mul.append n.dc))

theorem Narrows.unfinished {s t : State} (n : Narrows s t) {e : Inflight} (he : e ∈ t.unfinished) :
    ∃ a ∈ s.unfinished, a.ident = e.ident := by
  simp only [mem_unfinished] at he ⊢
  rcases he with ⟨he, hc⟩ | he | he
  · obtain ⟨a, ha, hae⟩ := exists_of_idents n.iq.subset he
    exact ⟨a, .inl ⟨ha, (Inflight.kinds_of_ident hae).unitClass ▸ hc⟩, hae⟩
  · obtain ⟨a, ha, hae⟩ := exists_of_idents n.lsq.subset he
    exact ⟨a, .inr (.inl ha), hae⟩
  · obtain ⟨a, ha, hae⟩ := exists_of_idents n.units.subset he
    exact ⟨a, .inr (.inr ha), hae⟩

/-- What no loss of records can break, and what is left to show of the rest. -/
theorem Tracked.narrow {s t : State} (h : Tracked s) (n : Narrows s t)
    (registers : FreeListConserved t)
    (gates : ∀ e ∈ t.unfinished, ∀ a ∈ s.rob, a.seq = e.seq → s.commitGate a = false →
      ∃ b ∈ t.rob, b.ident = a.ident ∧ t.commitGate b = false)
    (agen : ∀ e ∈ t.iq ++ t.int.toList, e.isMemory = true → s.agenReadyAt e.pc = false →
      t.agenReadyAt e.pc = false)
    (gridFront : ∀ e ∈ t.dsp.toList ++ t.dec.toList, pcOnGrid e.pc = true)
    (renamed : ∀ e ∈ t.dsp, ∀ p ∈ e.pd, t.readyBit p = false)
    (jumps : JumpOrdered t) : Tracked t where
  order := h.order.of_thinned n.toThinned
  registers := registers
  matched e he a ha hae := by
    obtain ⟨e', he', hee⟩ := exists_of_idents n.iq.subset he
    obtain ⟨a', ha', haa⟩ := exists_of_idents n.rob.subset ha
    rw [← hee, ← haa]
    refine h.matched e' he' a' ha' ?_
    rw [Inflight.seq_congr haa, Inflight.seq_congr hee, hae]
  copies e he := by
    obtain ⟨e', he', hee⟩ := n.unfinished he
    obtain ⟨a, ha, hae, hgate⟩ := h.copies e' he'
    have hid : a.ident = e.ident := hae.trans hee
    obtain ⟨b, hb, hba, hshut⟩ := gates e he a ha (Inflight.seq_congr hid) hgate
    exact ⟨b, hb, hba.trans hid, hshut⟩
  once := by
    refine h.once.sublist (seqs_of_idents ?_)
    simpa using n.iq.append n.units
  int := forall_of_idents (fun _ _ hid hp => (Inflight.kinds_of_ident hid).unitClass ▸ hp) n.int.subset h.int
  log := forall_of_idents (fun _ _ hid hp => (Inflight.kinds_of_ident hid).unitClass ▸ hp) n.log.subset h.log
  mul := forall_of_idents (fun _ _ hid hp => (Inflight.kinds_of_ident hid).unitClass ▸ hp) n.mul.subset h.mul
  dc := forall_of_idents (fun _ _ hid hp => (Inflight.kinds_of_ident hid).isMemory ▸ hp) n.dc.subset h.dc
  lsq := forall_of_idents (fun _ _ hid hp => (Inflight.kinds_of_ident hid).isMemory ▸ hp) n.lsq.subset h.lsq
  dcLeft r hr e he := by
    obtain ⟨r', hr', hrr⟩ := exists_of_idents n.dc.subset hr
    obtain ⟨e', he', hee⟩ := exists_of_idents n.lsq.subset he
    rw [← Inflight.seq_congr hrr, ← Inflight.seq_congr hee]
    exact h.dcLeft r' hr' e' he'
  noAddress e he hmem := by
    have hsub : idents (t.iq ++ t.int.toList) ⊆ idents (s.iq ++ s.int.toList) := by
      simpa using (n.iq.append n.int).subset
    obtain ⟨e', he', hee⟩ := exists_of_idents hsub he
    refine agen e he hmem ?_
    rw [← Inflight.pc_congr hee]
    exact h.noAddress e' he' ((Inflight.kinds_of_ident hee).isMemory.trans hmem)
  slots := by
    have key (l : List Inflight) : (l.Pairwise fun a b =>
        a.isMemory = true → b.isMemory = true → recordIndex a.pc ≠ recordIndex b.pc) ↔
        (idents l).Pairwise fun k j =>
          (freshRecord k.2.1 k.2.2.1 false).isMemory = true →
          (freshRecord j.2.1 j.2.2.1 false).isMemory = true →
            recordIndex k.2.2.1 ≠ recordIndex j.2.2.1 := by
      rw [idents, List.pairwise_map]
      exact Iff.rfl
    rw [key]
    exact ((key s.rob).1 h.slots).sublist n.rob
  gridRob := forall_of_idents (fun _ _ hid hp => Inflight.pc_congr hid ▸ hp) n.rob.subset h.gridRob
  gridFront := gridFront
  renamed := renamed
  jumps := jumps

end Sys2Proof.Machine

namespace Sys2Proof.Machine

/-! #### Work on records that stay where they are -/

/-- `r` is a copy of a ROB entry, and no copy of it has work left. -/
structure Finished (s : State) (r : Inflight) : Prop where
  copy : ∃ a ∈ s.rob, a.ident = r.ident
  left : ∀ e ∈ s.unfinished, e.seq ≠ r.seq

/-- Where the records of a state are, as far as no stage changes them in place, and what of the rest of the
state decides where they may go. -/
def State.places (s : State) :=
  (idents s.rob, idents s.iq, idents s.lsq, idents s.int.toList, idents s.log.toList,
    idents s.multiplying, idents s.dc.toList, idents s.dsp.toList, idents s.dec.toList, s.fl, s.rm,
    s.nextSeq, s.jumpInFlight, s.branchRecovery)

/-- `t` is `s` with work done on the records where they are, which opens at most the gates that wait for a
record of `fin` (R30, R33, R45, R246). -/
structure Works (fin : Option Inflight) (s t : State) : Prop where
  places : t.places = s.places
  rob : ∃ g : Inflight → Inflight, t.rob = s.rob.map g ∧ ∀ e, (g e).ident = e.ident ∧
    ((g e).done = true → e.done = true ∨ ∃ r ∈ fin, e.seq = r.seq)
  ready : ∀ p, t.readyBit p = true → s.readyBit p = true ∨ ∃ r ∈ fin, r.pd = some p
  stores : ∀ pc, t.storeDoneAt pc = true → s.storeDoneAt pc = true ∨
    ∃ r ∈ fin, r.isMemory = true ∧ recordIndex pc = recordIndex r.pc
  taken : t.jumpTaken = true → s.jumpTaken = true ∨ ∃ r ∈ fin, r.isJump = true
  agen : t.agenReady = s.agenReady

theorem toList_eq_nil_of_idents {a b : Option Inflight} (h : idents a.toList = idents b.toList)
    (hb : b = none) : a = none := by
  subst hb
  cases a with
  | none => rfl
  | some r => cases h

theorem mem_of_idents {a b : Option Inflight} (h : idents a.toList = idents b.toList) {e : Inflight}
    (he : e ∈ a) : ∃ r ∈ b, r.ident = e.ident := by
  obtain ⟨r, hr, hid⟩ := exists_of_idents (List.Perm.of_eq h).subset (Option.mem_toList.2 he)
  exact ⟨r, Option.mem_toList.1 hr, hid⟩

/-- The clauses about JUMP, where no record moves and only a JUMP's own work signals its target. -/
theorem JumpOrdered.of_places {s t : State} (h : JumpOrdered s) (hp : t.places = s.places)
    (htaken : t.jumpTaken = true → ∃ a ∈ s.rob, a.isJump = true) : JumpOrdered t := by
  simp only [State.places, Prod.mk.injEq] at hp
  obtain ⟨hrob, -, -, -, -, -, -, hdsp, hdec, -, -, -, hflight, hrecovery⟩ := hp
  refine ⟨fun a ha hj => ?_, fun e he hj => ?_, fun ht => ?_⟩
  · obtain ⟨a', ha', haa⟩ := exists_of_idents (List.Perm.of_eq hrob).subset ha
    obtain ⟨hf, hd, hp, hlast⟩ := h.last a' ha' ((Inflight.kinds_of_ident haa).isJump.trans hj)
    refine ⟨hflight.trans hf, toList_eq_nil_of_idents hdec hd, toList_eq_nil_of_idents hdsp hp, ?_⟩
    exact forall_of_idents (fun x y hid (hx : x.seq ≤ a.seq) => Inflight.seq_congr hid ▸ hx)
      (List.Perm.of_eq hrob).subset (Inflight.seq_congr haa ▸ hlast)
  · obtain ⟨e', he', hee⟩ := mem_of_idents hdsp he
    rw [hrecovery, hflight]
    exact (h.next e' he' ((Inflight.kinds_of_ident hee).isJump.trans hj)).imp_right
      fun ⟨hf, hd⟩ => ⟨hf, toList_eq_nil_of_idents hdec hd⟩
  · obtain ⟨a, ha, hj⟩ := htaken ht
    obtain ⟨b, hb, hba⟩ := exists_of_idents (List.Perm.of_eq hrob).symm.subset ha
    exact ⟨b, hb, (Inflight.kinds_of_ident hba).isJump.trans hj⟩

theorem Narrows.of_places {s t : State} (hp : t.places = s.places) : Narrows s t := by
  simp only [State.places, Prod.mk.injEq] at hp
  obtain ⟨hrob, hiq, hlsq, hint, hlog, hmul, hdc, -, -, -, -, hnext, -, -⟩ := hp
  exact ⟨⟨hrob ▸ .refl _, hiq ▸ .refl _, hlsq ▸ .refl _, hnext⟩, hint ▸ .refl _, hlog ▸ .refl _,
    hmul ▸ .refl _, hdc ▸ .refl _⟩

namespace Tracked

/-- An unfinished record and the ROB entry it is a copy of. -/
theorem copy_of_inUnits {s : State} (h : Tracked s) {r : Inflight} (hr : r ∈ s.inUnits) :
    ∃ a ∈ s.rob, a.ident = r.ident := by
  obtain ⟨a, ha, hid, -⟩ := h.copies r (mem_unfinished.2 (.inr (.inr hr)))
  exact ⟨a, ha, hid⟩

/-- A finished record's work opens no gate of a record that still has work. -/
theorem work {fin : Option Inflight} {s t : State} (h : Tracked s) (w : Works fin s t)
    (hfin : ∀ r ∈ fin, Finished s r) : Tracked t := by
  have n := Narrows.of_places w.places
  have hp := w.places
  simp only [State.places, Prod.mk.injEq] at hp
  obtain ⟨hrob, -, -, -, -, -, -, hdsp, hdec, hfl, hrm, -, -, -⟩ := hp
  have hreg : FreeListConserved t :=
    h.registers.of_released [] (by simp [hfl]) (by simp [hrm])
      (by rw [List.nil_append, State.held, State.held, registersOf_congr hrob, registersOf_congr hdsp])
      (forall_of_idents (fun _ _ => Inflight.registered_congr) (List.Perm.of_eq hrob).subset
        h.registers.rob)
      (fun e he => by
        obtain ⟨r, hr, hid⟩ := mem_of_idents hdsp he
        exact Inflight.registered_congr hid (h.registers.dsp r hr))
      (fun e he => by
        obtain ⟨r, hr, hid⟩ := mem_of_idents hdec he
        exact (Inflight.pd_congr hid).symm.trans (h.registers.dec r hr))
  refine h.narrow n hreg ?gates (fun e _ _ he => by simpa [State.agenReadyAt, w.agen] using he) ?grid
    ?renamed ?jumps
  case gates =>
    intro e he a ha hae hshut
    obtain ⟨u, hu, hue⟩ := n.unfinished he
    have hseq : u.seq = a.seq := (Inflight.seq_congr hue).trans hae.symm
    obtain ⟨g, hg, hid⟩ := w.rob
    refine ⟨g a, hg ▸ List.mem_map_of_mem ha, (hid a).1, ?_⟩
    have notFin {r b : Inflight} (hr : r ∈ fin) (hb : b ∈ s.rob) (hbr : b.ident = r.ident) : a ≠ b := by
      rintro rfl
      exact (hfin r hr).left u hu (hseq.trans (Inflight.seq_congr hbr))
    refine commitGate_shut (hid a).1 (fun p hap ht => (w.ready p ht).resolve_right ?_)
      (fun ht => ((hid a).2 ht).resolve_right ?_) (fun hs ht => (w.stores _ ht).resolve_right ?_)
      (fun hj ht => (w.taken ht).resolve_right ?_) hshut
    · rintro ⟨r, hr, hrp⟩
      obtain ⟨b, hb, hbr⟩ := (hfin r hr).copy
      exact notFin hr hb hbr (h.registers.eq_of_pd ha hb hap ((Inflight.pd_congr hbr).trans hrp))
    · rintro ⟨r, hr, har⟩
      exact (hfin r hr).left u hu (hseq.trans har)
    · rintro ⟨r, hr, hmem, hidx⟩
      obtain ⟨b, hb, hbr⟩ := (hfin r hr).copy
      refine notFin hr hb hbr (h.eq_of_slot ha hb (Inflight.isMemory_of_isStoreRecord hs)
        ((Inflight.kinds_of_ident hbr).isMemory.trans hmem) ?_)
      rw [hidx, Inflight.pc_congr hbr]
    · rintro ⟨r, hr, hjr⟩
      obtain ⟨b, hb, hbr⟩ := (hfin r hr).copy
      exact notFin hr hb hbr (h.jumps.eq_of_isJump h.order ha hb hj
        ((Inflight.kinds_of_ident hbr).isJump.trans hjr))
  case grid =>
    have hsub : idents (t.dsp.toList ++ t.dec.toList) = idents (s.dsp.toList ++ s.dec.toList) := by
      simp [hdsp, hdec]
    exact forall_of_idents (fun _ _ hid hp => Inflight.pc_congr hid ▸ hp) (List.Perm.of_eq hsub).subset
      h.gridFront
  case renamed =>
    intro e he p hep
    obtain ⟨e', he', hee⟩ := mem_of_idents hdsp he
    have hep' : e'.pd = some p := (Inflight.pd_congr hee).trans hep
    refine Bool.eq_false_iff.2 fun ht => ?_
    rcases w.ready p ht with hs | ⟨r, hr, hrp⟩
    · exact Bool.eq_false_iff.1 (h.renamed e' he' p hep') hs
    · obtain ⟨b, hb, hbr⟩ := (hfin r hr).copy
      exact h.registers.dsp_pd_ne hb he' ((Inflight.pd_congr hbr).trans hrp) hep'
  case jumps =>
    refine h.jumps.of_places w.places fun ht => ?_
    rcases w.taken ht with hs | ⟨r, hr, hjr⟩
    · exact h.jumps.taken hs
    · obtain ⟨b, hb, hbr⟩ := (hfin r hr).copy
      exact ⟨b, hb, (Inflight.kinds_of_ident hbr).isJump.trans hjr⟩

end Tracked

/-! #### The operations that are such work -/

namespace Works

/-- Work that opens no gate. -/
theorem silent {fin : Option Inflight} {s t : State} (hplaces : t.places = s.places)
    (hrob : ∃ g : Inflight → Inflight, t.rob = s.rob.map g ∧
      ∀ e, (g e).ident = e.ident ∧ (g e).done = e.done)
    (hready : ∀ p, t.readyBit p = true → s.readyBit p = true) (hstore : t.storeDone = s.storeDone)
    (htaken : t.jumpTaken = s.jumpTaken) (hagen : t.agenReady = s.agenReady) : Works fin s t where
  places := hplaces
  rob := by
    obtain ⟨g, hg, h⟩ := hrob
    exact ⟨g, hg, fun e => ⟨(h e).1, fun hd => .inl ((h e).2 ▸ hd)⟩⟩
  ready p hp := .inl (hready p hp)
  stores pc hp := .inl (by simpa [State.storeDoneAt, hstore] using hp)
  taken ht := .inl (htaken ▸ ht)
  agen := hagen

/-- Work outside the ROB and what the gates ask for. -/
theorem elsewhere {fin : Option Inflight} {s t : State} (hplaces : t.places = s.places)
    (hrob : t.rob = s.rob) (hready : t.ready = s.ready) (hstore : t.storeDone = s.storeDone)
    (htaken : t.jumpTaken = s.jumpTaken) (hagen : t.agenReady = s.agenReady) : Works fin s t :=
  silent hplaces ⟨id, by simp [hrob], fun _ => ⟨rfl, rfl⟩⟩ (fun p hp => by rwa [State.readyBit, ← hready])
    hstore htaken hagen

theorem trans {fin : Option Inflight} {s t u : State} (h : Works fin s t) (k : Works fin t u) :
    Works fin s u where
  places := k.places.trans h.places
  rob := by
    obtain ⟨g, hg, hkeepsg⟩ := h.rob
    obtain ⟨f, hf, hkeepsf⟩ := k.rob
    refine ⟨f ∘ g, by rw [hf, hg, List.map_map],
      fun e => ⟨(hkeepsf _).1.trans (hkeepsg e).1, fun hd => ?_⟩⟩
    rcases (hkeepsf _).2 hd with hd | ⟨r, hr, hseq⟩
    · exact (hkeepsg e).2 hd
    · exact .inr ⟨r, hr, (Inflight.seq_congr (hkeepsg e).1).symm.trans hseq⟩
  ready p hp := (k.ready p hp).elim (h.ready p) .inr
  stores pc hp := (k.stores pc hp).elim (h.stores pc) .inr
  taken ht := (k.taken ht).elim h.taken .inr
  agen := k.agen.trans h.agen

theorem writeBack (r : Inflight) (s : State) (v : Word) : Works (some r) s (s.writeBack r.pd v) where
  places := by simp [State.places, State.multiplying]
  rob := ⟨id, by simp, fun e => ⟨rfl, .inl⟩⟩
  ready p hp := by
    cases hpd : r.pd with
    | none => exact .inl (by simpa [hpd, State.writeBack] using hp)
    | some q =>
      rw [hpd, State.readyBit_writeBack, Bool.or_eq_true, decide_eq_true_eq] at hp
      exact hp.symm.imp_right fun (hq : q = p) => ⟨r, rfl, hq ▸ hpd⟩
  stores pc hp := .inl (by simpa [State.storeDoneAt] using hp)
  taken ht := .inl (by simpa using ht)
  agen := by simp

theorem onRobEntry {fin : Option Inflight} {f : Inflight → Inflight}
    (hf : ∀ e, (f e).ident = e.ident ∧ (f e).done = e.done) (s : State) (q : Nat) :
    Works fin s (s.onRobEntry q f) := by
  refine .silent ?_ ⟨fun e => if e.seq = q then f e else e, rfl, fun e => ?_⟩ (fun _ => id) rfl rfl rfl
  · exact Prod.ext (idents_onTag (fun e => (hf e).1) q s.rob) rfl
  · dsimp only
    split
    · exact hf e
    · exact ⟨rfl, rfl⟩

theorem markExc {fin : Option Inflight} (s : State) (q : Nat) (f : FaultCode) :
    Works fin s (s.markExc q f) :=
  onRobEntry (f := fun e => { e with exc := some f }) (fun _ => ⟨rfl, rfl⟩) s q

theorem markDone (r : Inflight) (s : State) : Works (some r) s (s.markDone r.seq) where
  places := Prod.ext (markDone_idents s r.seq) rfl
  rob := by
    refine ⟨fun e => if e.seq = r.seq then { e with done := true } else e, rfl, fun e => ?_⟩
    dsimp only
    split
    · exact ⟨rfl, fun _ => .inr ⟨r, rfl, ‹_›⟩⟩
    · exact ⟨rfl, .inl⟩
  ready p hp := .inl hp
  stores pc hp := .inl hp
  taken ht := .inl ht
  agen := rfl

theorem stored {r : Inflight} (hmem : r.isMemory = true) (s : State) (a : Nat) (v : Word) :
    Works (some r) s (((s.memWrite a v).setMemReady r.addr true).setStoreDone r.pc) where
  places := by simp [State.places, State.multiplying]
  rob := ⟨id, by simp, fun e => ⟨rfl, .inl⟩⟩
  ready p hp := .inl (by simpa [State.readyBit] using hp)
  stores pc hp := by
    rw [State.storeDoneAt_setStoreDone, Bool.or_eq_true, decide_eq_true_eq] at hp
    refine hp.symm.imp (fun h => ?_) fun hq => ⟨r, rfl, hmem, hq⟩
    simpa [State.storeDoneAt] using h
  taken ht := .inl (by simpa using ht)
  agen := by simp

theorem clearReadyOf {fin : Option Inflight} (e : Inflight) (s : State) :
    Works fin s (clearReadyOf e s) := by
  refine .silent (by simp [State.places, State.multiplying]) ⟨id, by simp, fun _ => ⟨rfl, rfl⟩⟩
    (fun p hp => ?_) (by simp) (by simp) (by simp)
  unfold Machine.clearReadyOf at hp
  split at hp
  · exact hp
  · rw [State.readyBit_setReady] at hp
    split at hp
    · cases hp
    · exact hp

theorem setMemReady {fin : Option Inflight} (s : State) (a : Word) (b : Bool) :
    Works fin s (s.setMemReady a b) :=
  .elsewhere (by simp [State.places, State.multiplying]) (by simp) (by simp) (by simp) (by simp) (by simp)

theorem jumpTaken {r : Inflight} (hjump : r.isJump = true) (s : State) (target : Word) :
    Works (some r) s { s with jumpTarget := target, jumpTaken := true } where
  places := rfl
  rob := ⟨id, by simp, fun e => ⟨rfl, .inl⟩⟩
  ready p hp := .inl hp
  stores pc hp := .inl hp
  taken _ := .inr ⟨r, rfl, hjump⟩
  agen := rfl

end Works

end Sys2Proof.Machine

namespace Sys2Proof.Machine

/-! #### Records that leave a unit, a latch or a queue -/

/-- What of a state is in neither IQ, LSQ, a unit nor `DC`. -/
def State.besides (s : State) :=
  (s.rob, s.dsp, s.dec, s.fl, s.rm, s.ready, s.storeDone, s.agenReady, s.jumpTaken, s.jumpInFlight,
    s.branchRecovery)

theorem Inflight.isMemory_of_isBranch {r : Inflight} (h : r.isBranch = true) : r.isMemory = false := by
  cases hi : r.insn with
  | unrecognized b => exact (Inflight.kinds_of_unrecognized hi).isMemory
  | op i =>
    have hk := Inflight.kinds_of_op hi
    rw [hk.isBranch] at h
    rw [hk.isMemory]
    cases i with
    | bz | bnz => rfl
    | _ => exact absurd h Bool.false_ne_true

theorem Inflight.isMemory_of_isJump {r : Inflight} (h : r.isJump = true) : r.isMemory = false := by
  cases hi : r.insn with
  | unrecognized b => exact (Inflight.kinds_of_unrecognized hi).isMemory
  | op i =>
    have hk := Inflight.kinds_of_op hi
    rw [hk.isJump] at h
    rw [hk.isMemory]
    cases i with
    | jump => rfl
    | _ => exact absurd h Bool.false_ne_true

theorem Inflight.isMemory_of_unitClass {r : Inflight} {c : FuClass} (h : r.unitClass = some c)
    (hc : c ≠ .integer) : r.isMemory = false :=
  Bool.eq_false_iff.2 fun hm => hc (Option.some.inj (h.symm.trans (Inflight.unitClass_of_isMemory hm)))

theorem FreeListConserved.of_besides {s t : State} (h : FreeListConserved s)
    (hsame : t.besides = s.besides) : FreeListConserved t := by
  simp only [State.besides, Prod.mk.injEq] at hsame
  obtain ⟨hrob, hdsp, hdec, hfl, hrm, -⟩ := hsame
  exact h.of_same hfl hrm (by rw [hrob]) (by rw [hdsp]) hdec

theorem JumpOrdered.of_besides {s t : State} (h : JumpOrdered s) (hsame : t.besides = s.besides) :
    JumpOrdered t := by
  simp only [State.besides, Prod.mk.injEq] at hsame
  obtain ⟨hrob, hdsp, hdec, -, -, -, -, -, htaken, hflight, hrecovery⟩ := hsame
  constructor
  · rw [hrob, hdsp, hdec, hflight]; exact h.last
  · rw [hdsp, hdec, hflight, hrecovery]; exact h.next
  · rw [hrob, htaken]; exact h.taken

theorem commitGate_of_besides {s t : State} (hsame : t.besides = s.besides) (a : Inflight) :
    t.commitGate a = s.commitGate a := by
  simp only [State.besides, Prod.mk.injEq] at hsame
  obtain ⟨-, -, -, -, -, hready, hstore, -, htaken, -, -⟩ := hsame
  have hbit : t.readyBit = s.readyBit := funext fun p => by rw [State.readyBit, State.readyBit, hready]
  simp only [State.commitGate, State.storeDoneAt, hbit, hstore, htaken]

namespace Tracked

theorem lose {s t : State} (h : Tracked s) (n : Narrows s t) (hsame : t.besides = s.besides) :
    Tracked t := by
  have hgate := commitGate_of_besides hsame
  have hreg := h.registers.of_besides hsame
  have hjumps := h.jumps.of_besides hsame
  simp only [State.besides, Prod.mk.injEq] at hsame
  obtain ⟨hrob, hdsp, hdec, -, -, hready, -, hagen, -, -, -⟩ := hsame
  refine h.narrow n hreg (fun e _ a ha _ hshut => ⟨a, hrob ▸ ha, rfl, (hgate a).trans hshut⟩)
    (fun e _ _ he => by rwa [State.agenReadyAt, hagen]) ?_ ?_ hjumps
  · rw [hdsp, hdec]; exact h.gridFront
  · intro e he p hp
    rw [State.readyBit, hready]
    exact h.renamed e (hdsp ▸ he) p hp

/-- Two unfinished records with one age tag are copies of one ROB entry. -/
theorem ident_of_seq {s : State} (h : Tracked s) {e r : Inflight} (he : e ∈ s.unfinished)
    (hr : r ∈ s.unfinished) (hseq : e.seq = r.seq) : e.ident = r.ident := by
  obtain ⟨a, ha, hae, -⟩ := h.copies e he
  obtain ⟨b, hb, hbr, -⟩ := h.copies r hr
  have hab : a.seq = b.seq := (Inflight.seq_congr hae).trans (hseq.trans (Inflight.seq_congr hbr).symm)
  rw [← hae, ← hbr, h.order.rob.eq_of_seq ha hb hab]

/-- A record that needs no address is not in the LSQ. -/
theorem lsq_seq_ne {s : State} (h : Tracked s) {r : Inflight} (hr : r ∈ s.inUnits)
    (hmem : r.isMemory = false) : ∀ e ∈ s.lsq, e.seq ≠ r.seq := by
  intro e he hseq
  have hid := h.ident_of_seq (mem_unfinished.2 (.inr (.inl he))) (mem_unfinished.2 (.inr (.inr hr))) hseq
  exact absurd (((Inflight.kinds_of_ident hid).isMemory.symm.trans (h.lsq e he)).symm.trans hmem)
    (by decide)

/-- A record taken out of its unit, with no copy in the LSQ, has no work left. -/
theorem finished {s t : State} {r : Inflight} (h : Tracked s) (hrob : t.rob = s.rob)
    (hiq : t.iq = s.iq) (hlsq : t.lsq = s.lsq) (hunits : s.inUnits.Perm (r :: t.inUnits))
    (hleft : ∀ e ∈ s.lsq, e.seq ≠ r.seq) : Finished t r := by
  have hr : r ∈ s.inUnits := hunits.mem_iff.2 List.mem_cons_self
  have honce : (r.seq :: (t.iq ++ t.inUnits).map Inflight.seq).Nodup := by
    refine (List.Perm.nodup_iff ?_).1 h.once
    rw [← List.map_cons, hiq]
    exact ((hunits.append_left s.iq).trans List.perm_middle).map _
  have hother : ∀ e ∈ t.iq ++ t.inUnits, e.seq ≠ r.seq := fun e he hseq =>
    (List.nodup_cons.1 honce).1 (hseq ▸ List.mem_map_of_mem he)
  refine ⟨hrob ▸ h.copy_of_inUnits hr, fun e he => ?_⟩
  rcases mem_unfinished.1 he with ⟨he, -⟩ | he | he
  · exact hother e (List.mem_append_left _ he)
  · exact hleft e (hlsq ▸ he)
  · exact hother e (List.mem_append_right _ he)

theorem quiet {s t : State} (h : Tracked s) (w : Works none s t) : Tracked t :=
  h.work w fun _ hr => nomatch hr

/-! #### Data-cache -/

theorem takeDc {s : State} (h : Tracked s) : Tracked { s with dc := none } :=
  h.lose ⟨⟨.refl _, .refl _, .refl _, rfl⟩, .refl _, .refl _, .refl _, List.nil_sublist _⟩ rfl

theorem finishedDc {s : State} (h : Tracked s) {r : Inflight} (hr : s.dc = some r) :
    Finished { s with dc := none } r := by
  refine h.finished rfl rfl rfl ?_ fun e he => (h.dcLeft r (by simp [hr]) e he).symm
  simpa [inUnits_eq, State.multiplying, hr] using List.perm_append_singleton r
    (s.int.toList ++ (s.log.toList ++ s.multiplying))

theorem dataCacheStage {s : State} (h : Tracked s)
    (hrun : (dataCacheStage s).status = .running) : Tracked (dataCacheStage s) := by
  obtain hs | ⟨r, hr, hc⟩ := dataCacheStage_case s
  · rwa [hs]
  · have hfin (q) (hq : q ∈ some r) : Finished { s with dc := none } q := by
      cases hq
      exact h.finishedDc hr
    generalize Machine.dataCacheStage s = t at hc hrun
    cases hc with
    | drops => exact h.takeDc
    | loads => exact h.takeDc.work (.writeBack r _ _) hfin
    | marks =>
      exact h.takeDc.work (.trans (.markExc _ _ _) (.writeBack r _ _)) hfin
    | stores hstore =>
      exact h.takeDc.work (.stored (Inflight.isMemory_of_isStoreRecord hstore) _ _ _) hfin
    | faults => cases hrun

/-! #### Logical -/

theorem takeLog {s : State} (h : Tracked s) : Tracked { s with log := none } :=
  h.lose ⟨⟨.refl _, .refl _, .refl _, rfl⟩, .refl _, List.nil_sublist _, .refl _, .refl _⟩ rfl

theorem finishedLog {s : State} (h : Tracked s) {r : Inflight} (hr : s.log = some r) :
    Finished { s with log := none } r := by
  have hclass := Inflight.isMemory_of_unitClass (h.log r (by simp [hr])) (by decide)
  refine h.finished rfl rfl rfl ?_ (h.lsq_seq_ne (by simp [inUnits_eq, hr]) hclass)
  rw [inUnits_eq, inUnits_eq, hr]
  exact List.perm_middle

theorem logStage {s : State} (h : Tracked s) : Tracked (logStage s) := by
  obtain hs | ⟨r, hr, hc⟩ := logStage_case s
  · rwa [hs]
  · generalize Machine.logStage s = t at hc
    cases hc with
    | drops => exact h.takeLog
    | delivers =>
      refine h.takeLog.work (.writeBack r _ _) fun q hq => ?_
      cases hq
      exact h.finishedLog hr

end Tracked

end Sys2Proof.Machine

namespace Sys2Proof.Machine

/-! #### Multiply -/

/-- R251: the write-back of `MUL4` touches the physical register file alone. -/
theorem mulWriteBack_spec (s : State) :
    mulWriteBack s = { s with value := (mulWriteBack s).value, ready := (mulWriteBack s).ready } := by
  unfold mulWriteBack
  split
  · rfl
  · exact State.writeBack_spec _ _ _

/-- R251: the records of the first three stages stay in the pipeline, in their order. -/
theorem mulStage_multiplying (s : State) :
    idents (mulStage s).multiplying = idents ({ s with mul4 := none } : State).multiplying := by
  have h1 : (mulWriteBack s).mul1 = s.mul1 := by rw [mulWriteBack_spec]
  have h2 : (mulWriteBack s).mul2 = s.mul2 := by rw [mulWriteBack_spec]
  have h3 : (mulWriteBack s).mul3 = s.mul3 := by rw [mulWriteBack_spec]
  have hproduct : idents (s.mul1.map unitMul).toList = idents s.mul1.toList := by
    cases s.mul1 <;> rfl
  simp [State.multiplying, mulStage, mulShift, h1, h2, h3, hproduct]

/-- R251: with its last stage emptied, the pipeline moves its records on and delivers that stage's product. -/
theorem Works.mulStage (s : State) : Works s.mul4 { s with mul4 := none } (mulStage s) where
  places := by simp [State.places, (mulStage_shares s).idents_eq, mulStage_multiplying]
  rob := by
    obtain ⟨g, hg, h⟩ := mulStage_shares s
    exact ⟨g, h, fun e => ⟨(hg e).ident_eq, fun hd => .inl ((hg e).done_eq ▸ hd)⟩⟩
  ready p hp := by
    have hready : (Machine.mulStage s).readyBit p = (mulWriteBack s).readyBit p :=
      congrArg (fun v => v[p]) (shareProduct_ready (mulWriteBack s))
    rw [hready, mulWriteBack] at hp
    split at hp
    · exact .inl hp
    · rename_i r hr
      rw [hr]
      exact (Works.writeBack r s r.result).ready p hp
  stores pc hp := .inl (by simpa [State.storeDoneAt] using hp)
  taken ht := .inl (by simpa using ht)
  agen := by simp

namespace Tracked

theorem takeMul4 {s : State} (h : Tracked s) : Tracked { s with mul4 := none } :=
  h.lose ⟨⟨.refl _, .refl _, .refl _, rfl⟩, .refl _, .refl _,
    idents_sublist ((List.Sublist.refl _).append (List.nil_sublist _)), .refl _⟩ rfl

theorem finishedMul4 {s : State} (h : Tracked s) {r : Inflight} (hr : s.mul4 = some r) :
    Finished { s with mul4 := none } r := by
  have hclass := Inflight.isMemory_of_unitClass (h.mul r (by simp [State.multiplying, hr])) (by decide)
  refine h.finished rfl rfl rfl ?_ (h.lsq_seq_ne (by simp [State.inUnits, hr]) hclass)
  simpa [State.inUnits, hr] using List.perm_middle (l₂ := s.dc.toList) (a := r)
    (l₁ := s.int.toList ++ (s.log.toList ++ (s.mul1.toList ++ (s.mul2.toList ++ s.mul3.toList))))

theorem mulStage {s : State} (h : Tracked s) : Tracked (mulStage s) :=
  h.takeMul4.work (.mulStage s) fun _ hr => h.finishedMul4 hr

end Tracked

/-! #### The flush -/

/-- R248: the registers a flush makes ready are those of the younger entries. -/
theorem releaseYounger_readyBit {q : Nat} {l : List Inflight} {s : State} {p : Phys}
    (h : (releaseYounger q l s).readyBit p = true) :
    s.readyBit p = true ∨ ∃ e ∈ l, q < e.seq ∧ e.pd = some p := by
  induction l generalizing s with
  | nil => exact .inl h
  | cons e l ih =>
    rw [releaseYounger] at h
    rcases ih h with h | ⟨a, ha, hq, hp⟩
    · split at h
      · rw [State.readyBit_releaseOf, Bool.or_eq_true, decide_eq_true_eq] at h
        exact h.symm.imp_right fun hp => ⟨e, List.mem_cons_self, ‹_›, hp⟩
      · exact .inl h
    · exact .inr ⟨a, List.mem_cons_of_mem _ ha, hq, hp⟩

theorem squashLatch_sublist (q : Nat) (l : Option Inflight) :
    (squashLatch q l).toList.Sublist l.toList := by
  unfold squashLatch
  split
  · exact .refl _
  · split
    · exact List.nil_sublist _
    · exact .refl _

theorem Narrows.flush (q : Nat) (s : State) : Narrows s (flush q s) where
  toThinned := flush_thinned q s
  int := by simp
  log := by simpa [Machine.flush] using idents_sublist (squashLatch_sublist q s.log)
  mul := by
    refine idents_sublist ?_
    simp only [State.multiplying, Machine.flush, releaseYounger_mul1, releaseYounger_mul2,
      releaseYounger_mul3, releaseYounger_mul4]
    exact (((squashLatch_sublist _ _).append (squashLatch_sublist _ _)).append
      (squashLatch_sublist _ _)).append (squashLatch_sublist _ _)
  dc := by simpa [Machine.flush] using idents_sublist (squashLatch_sublist q s.dc)

/-- R248: what is left in queues and units after a flush with nothing younger in `INT` is not younger. -/
theorem seq_le_of_mem_flush {q : Nat} {s : State} (hint : ∀ r ∈ s.int, r.seq ≤ q) {e : Inflight}
    (he : e ∈ (flush q s).unfinished) : e.seq ≤ q := by
  have latch (l : Option Inflight) (h : squashLatch q l = some e) : e.seq ≤ q :=
    (mem_squashLatch.1 h).2
  have queue (l : List Inflight) (h : e ∈ olderThan q l) : e.seq ≤ q :=
    of_decide_eq_true (List.mem_filter.1 h).2
  simp only [State.unfinished, State.inUnits, List.mem_append, List.mem_filter, Option.mem_toList,
    flush_int] at he
  rcases he with (⟨he, -⟩ | he) | ((((((he | he) | he) | he) | he) | he) | he)
  · exact queue _ he
  · exact queue _ he
  · exact hint e he
  all_goals exact latch _ he

end Sys2Proof.Machine

namespace Sys2Proof.Machine

namespace Tracked

/-- R248: a flush with nothing younger in `INT`, and every JUMP among what it squashes. -/
theorem flush {s : State} (h : Tracked s) {q : Nat} (hint : ∀ r ∈ s.int, r.seq ≤ q)
    (hjump : ∀ a ∈ s.rob, a.isJump = true → q < a.seq) : Tracked (flush q s) := by
  have hrob : (Machine.flush q s).rob = olderThan q s.rob := by simp [Machine.flush]
  have hready {p : Phys} (hp : (Machine.flush q s).readyBit p = true) :
      s.readyBit p = true ∨ ∃ e ∈ s.rob, q < e.seq ∧ e.pd = some p := releaseYounger_readyBit hp
  refine h.narrow (.flush q s) (h.registers.flush q) (fun e he a ha hseq hshut => ?_)
    (fun e _ _ hno => by simpa [State.agenReadyAt] using hno) (fun e he => ?_) (fun e he p hp => ?_)
    ⟨fun a ha hj => ?_, fun e _ _ => .inl rfl, fun ht => nomatch ht⟩
  · have hq : a.seq ≤ q := hseq ▸ seq_le_of_mem_flush hint he
    refine ⟨a, hrob ▸ List.mem_filter.2 ⟨ha, decide_eq_true hq⟩, rfl, ?_⟩
    refine commitGate_shut rfl (fun p hp ht => (hready ht).resolve_right ?_) id
      (fun _ ht => by simpa [State.storeDoneAt] using ht) (fun _ ht => nomatch ht) hshut
    rintro ⟨y, hy, hyq, hyp⟩
    rw [h.registers.eq_of_pd ha hy hp hyp] at hq
    exact absurd hyq (Nat.not_lt_of_le hq)
  · refine h.gridFront e (List.mem_append_left _ ?_)
    have hdec : (Machine.flush q s).dec = none := rfl
    simpa [hdec] using he
  · have he : e ∈ s.dsp := by simpa using he
    refine Bool.eq_false_iff.2 fun ht => ?_
    rcases hready ht with hs | ⟨y, hy, -, hyp⟩
    · exact Bool.eq_false_iff.1 (h.renamed e he p hp) hs
    · exact h.registers.dsp_pd_ne hy he hyp hp
  · obtain ⟨ha, hq⟩ := List.mem_filter.1 (hrob ▸ ha)
    exact absurd (hjump a ha hj) (Nat.not_lt_of_le (of_decide_eq_true hq))

/-! #### Integer -/

theorem takeInt {s : State} (h : Tracked s) : Tracked { s with int := none } :=
  h.lose ⟨⟨.refl _, .refl _, .refl _, rfl⟩, List.nil_sublist _, .refl _, .refl _, .refl _⟩ rfl

theorem finishedInt {s : State} (h : Tracked s) {r : Inflight} (hr : s.int = some r)
    (hmem : r.isMemory = false) : Finished { s with int := none } r := by
  refine h.finished rfl rfl rfl ?_ (h.lsq_seq_ne (by simp [inUnits_eq, hr]) hmem)
  rw [inUnits_eq, inUnits_eq, hr]
  exact .refl _

/-- R165: no other memory instruction that still waits for an address has the slot of the one in `INT`. -/
theorem iq_slot_ne {s : State} (h : Tracked s) {r : Inflight} (hr : s.int = some r)
    (hmem : r.isMemory = true) {e : Inflight} (he : e ∈ s.iq) (hemem : e.isMemory = true) :
    recordIndex e.pc ≠ recordIndex r.pc := by
  intro hslot
  have hclass : e.unitClass.isSome = true := by rw [Inflight.unitClass_of_isMemory hemem]; rfl
  have hunits : r ∈ s.inUnits := by simp [inUnits_eq, hr]
  obtain ⟨a, ha, hae, -⟩ := h.copies e (mem_unfinished.2 (.inl ⟨he, hclass⟩))
  obtain ⟨b, hb, hbr⟩ := h.copy_of_inUnits hunits
  have hab : a = b := h.eq_of_slot ha hb ((Inflight.kinds_of_ident hae).isMemory.trans hemem)
    ((Inflight.kinds_of_ident hbr).isMemory.trans hmem)
    (by rw [Inflight.pc_congr hae, Inflight.pc_congr hbr, hslot])
  have hseq : e.seq = r.seq := by rw [← Inflight.seq_congr hae, ← Inflight.seq_congr hbr, hab]
  have honce := h.once
  rw [List.map_append, List.nodup_append] at honce
  exact honce.2.2 e.seq (List.mem_map_of_mem he) r.seq (List.mem_map_of_mem hunits) hseq

/-- R245: an address is generated once the record has left `INT`. -/
theorem setAgen {s : State} (h : Tracked s) {r : Inflight} (hr : s.int = some r)
    (hmem : r.isMemory = true) (ea : Word) : Tracked (({ s with int := none } : State).setAgen r.pc ea) := by
  have h' := h.takeInt
  refine h'.narrow ⟨⟨.refl _, .refl _, .refl _, rfl⟩, .refl _, .refl _, .refl _, .refl _⟩
    (h'.registers.of_same rfl rfl rfl rfl rfl) (fun e _ a ha _ hshut => ⟨a, ha, rfl, hshut⟩)
    (fun e he hemem hno => ?_) h'.gridFront h'.renamed ⟨h'.jumps.last, h'.jumps.next, h'.jumps.taken⟩
  rw [State.agenReadyAt_setAgen, hno, Bool.or_false, decide_eq_false_iff_not]
  exact h.iq_slot_ne hr hmem (by simpa [State.setAgen] using he) hemem

/-- R246, R247: a branch that has resolved, before its flush. -/
theorem resolved {s : State} (h : Tracked s) {r : Inflight} (hr : s.int = some r)
    (hbranch : r.isBranch = true) (e : BtbEntry) :
    Tracked ((({ s with int := none } : State).setBtb r.pc e).markDone r.seq) := by
  refine h.takeInt.work (.trans (t := State.setBtb _ r.pc e) ?_ (.markDone r _)) fun q hq => ?_
  · exact .elsewhere rfl rfl rfl rfl rfl rfl
  · cases hq
    exact h.finishedInt hr (Inflight.isMemory_of_isBranch hbranch)

/-- R139: a JUMP in the ROB is younger than every branch in `INT`. -/
theorem lt_of_isJump {s : State} (h : Tracked s) {r a : Inflight} (hr : s.int = some r)
    (hbranch : r.isBranch = true) (ha : a ∈ s.rob) (hj : a.isJump = true) : r.seq < a.seq := by
  obtain ⟨b, hb, hbr⟩ := h.copy_of_inUnits (r := r) (by simp [inUnits_eq, hr])
  obtain ⟨-, -, -, hlast⟩ := h.jumps.last a ha hj
  have hseq := Inflight.seq_congr hbr
  refine lt_of_le_of_ne (hseq ▸ hlast b hb) fun heq => ?_
  have hab : b = a := h.order.rob.eq_of_seq hb ha (hseq.trans heq)
  have hbj : b.isJump = r.isJump := (Inflight.kinds_of_ident hbr).isJump
  rw [hab, hj, Inflight.not_isJump_of_isBranch hbranch] at hbj
  cases hbj

theorem mispredict {s : State} (h : Tracked s) {r : Inflight} (hr : s.int = some r)
    (hbranch : r.isBranch = true) (e : BtbEntry) (taken : Bool) (target : Word) :
    Tracked (mispredict taken target r
      ((({ s with int := none } : State).setBtb r.pc e).markDone r.seq)) := by
  have hflush := (h.resolved hr hbranch e).flush (q := r.seq) (fun _ hq => nomatch hq) fun a ha hj => by
    have hid := markDone_idents (({ s with int := none } : State).setBtb r.pc e) r.seq
    obtain ⟨b, hb, hba⟩ := exists_of_idents (List.Perm.of_eq hid).subset ha
    rw [← Inflight.seq_congr hba]
    exact h.lt_of_isJump hr hbranch hb ((Inflight.kinds_of_ident hba).isJump.trans hj)
  exact hflush.quiet (.elsewhere rfl rfl rfl rfl rfl rfl)

theorem intStage {s : State} (h : Tracked s) : Tracked (intStage s) := by
  obtain hs | ⟨r, hr, hc⟩ := intStage_case s
  · rwa [hs]
  · have hfin (hmem : r.isMemory = false) (q) (hq : q ∈ some r) : Finished { s with int := none } q := by
      cases hq
      exact h.finishedInt hr hmem
    generalize Machine.intStage s = t at hc
    cases hc with
    | drops => exact h.takeInt
    | delivers hmem => exact h.takeInt.work (.writeBack r _ _) (hfin hmem)
    | divides hmem => exact h.takeInt.work (.trans (.markExc _ _ _) (.writeBack r _ _)) (hfin hmem)
    | compares hmem =>
      refine h.takeInt.work (.trans ?_ (.writeBack r _ _)) (hfin hmem)
      exact .elsewhere rfl rfl rfl rfl rfl rfl
    | addresses hmem => exact h.setAgen hr hmem _
    | resolves hbranch => exact h.resolved hr hbranch _
    | mispredicts hbranch => exact h.mispredict hr hbranch _ _ _
    | jumps hjump =>
      exact h.takeInt.work (.jumpTaken hjump _ _) (hfin (Inflight.isMemory_of_isJump hjump))

end Tracked

end Sys2Proof.Machine

namespace Sys2Proof.Machine

/-! #### Records that move on -/

namespace Tracked

/-- Records that change their place, and nothing besides. -/
theorem move {s t : State} (h : Tracked s) (hsame : t.besides = s.besides) (thin : Thinned s t)
    (hunfinished : ∀ e ∈ t.unfinished, ∃ a ∈ s.unfinished, a.ident = e.ident)
    (once : ((t.iq ++ t.inUnits).map Inflight.seq).Nodup)
    (int : ∀ r ∈ t.int.toList, r.unitClass = some .integer)
    (log : ∀ r ∈ t.log.toList, r.unitClass = some .logical)
    (mul : ∀ r ∈ t.multiplying, r.unitClass = some .multiply)
    (dc : ∀ r ∈ t.dc.toList, r.isMemory = true)
    (dcLeft : ∀ r ∈ t.dc.toList, ∀ e ∈ t.lsq, r.seq ≠ e.seq)
    (haddress : ∀ e ∈ t.iq ++ t.int.toList, ∃ a ∈ s.iq ++ s.int.toList, a.ident = e.ident) : Tracked t := by
  have hgate := commitGate_of_besides hsame
  have hreg := h.registers.of_besides hsame
  have hjumps := h.jumps.of_besides hsame
  simp only [State.besides, Prod.mk.injEq] at hsame
  obtain ⟨hrob, hdsp, hdec, -, -, hready, -, hagen, -, -, -⟩ := hsame
  refine ⟨h.order.of_thinned thin, hreg, ?matched, ?copies, once, int, log, mul, dc, ?lsq, dcLeft,
    ?noAddress, ?slots, ?gridRob, ?gridFront, ?renamed, hjumps⟩
  case matched =>
    intro e he a ha hae
    obtain ⟨e', he', hee⟩ := exists_of_idents thin.iq.subset he
    rw [← hee]
    exact h.matched e' he' a (hrob ▸ ha) (hae.trans (Inflight.seq_congr hee).symm)
  case copies =>
    intro e he
    obtain ⟨e', he', hee⟩ := hunfinished e he
    obtain ⟨a, ha, hae, hshut⟩ := h.copies e' he'
    exact ⟨a, hrob ▸ ha, hae.trans hee, (hgate a).trans hshut⟩
  case lsq =>
    exact forall_of_idents (fun _ _ hid hp => (Inflight.kinds_of_ident hid).isMemory ▸ hp)
      thin.lsq.subset h.lsq
  case noAddress =>
    intro e he hmem
    obtain ⟨e', he', hee⟩ := haddress e he
    rw [State.agenReadyAt, hagen, ← Inflight.pc_congr hee]
    exact h.noAddress e' he' ((Inflight.kinds_of_ident hee).isMemory.trans hmem)
  case slots => rw [hrob]; exact h.slots
  case gridRob => rw [hrob]; exact h.gridRob
  case gridFront => rw [hdsp, hdec]; exact h.gridFront
  case renamed =>
    intro e he p hp
    rw [State.readyBit, hready]
    exact h.renamed e (hdsp ▸ he) p hp

/-! #### LSQ -/

/-- A memory instruction with its address has left IQ and the units. -/
theorem seq_ne_of_agenReady {s : State} (h : Tracked s) {a : Inflight} (ha : a ∈ s.lsq)
    (hdc : s.dc = none) (hagen : s.agenReadyAt a.pc = true) :
    ∀ e ∈ s.iq ++ s.inUnits, e.seq ≠ a.seq := by
  intro e he hseq
  have hmem := h.lsq a ha
  have hlsq : a ∈ s.unfinished := mem_unfinished.2 (.inr (.inl ha))
  have hid : e.ident = a.ident := by
    rcases List.mem_append.1 he with he | he
    · obtain ⟨b, hb, hba, -⟩ := h.copies a hlsq
      rw [← hba]
      exact (h.matched e he b hb ((Inflight.seq_congr hba).trans hseq.symm)).symm
    · exact h.ident_of_seq (mem_unfinished.2 (.inr (.inr he))) hlsq hseq
  have hemem : e.isMemory = true := (Inflight.kinds_of_ident hid).isMemory.trans hmem
  have waits (he : e ∈ s.iq ++ s.int.toList) : False := by
    have := h.noAddress e he hemem
    rw [Inflight.pc_congr hid, hagen] at this
    cases this
  have other {c : FuClass} (hc : c ≠ .integer) (hec : e.unitClass = some c) : False := by
    have := Inflight.isMemory_of_unitClass hec hc
    rw [hemem] at this
    cases this
  simp only [inUnits_eq, hdc, Option.toList_none, List.append_nil, List.mem_append] at he
  rcases he with he | he | he | he
  · exact waits (List.mem_append_left _ he)
  · exact waits (List.mem_append_right _ he)
  · exact other (by decide) (h.log e he)
  · exact other (by decide) (h.mul e he)

/-- R210: the head of the LSQ moves into an empty `DC` with its address. -/
theorem toCache {s : State} (h : Tracked s) {a d : Inflight} {rest : List Inflight}
    (hlsq : s.lsq = a :: rest) (hdc : s.dc = none) (hagen : s.agenReadyAt a.pc = true)
    (hid : d.ident = a.ident) : Tracked { s with dc := some d, lsq := rest } := by
  have ha : a ∈ s.lsq := hlsq ▸ List.mem_cons_self
  have hrest {e : Inflight} (he : e ∈ rest) : e ∈ s.lsq := hlsq ▸ List.mem_cons_of_mem _ he
  have hseq := Inflight.seq_congr hid
  have hunits : ({ s with dc := some d, lsq := rest } : State).inUnits = s.inUnits ++ [d] := by
    simp [State.inUnits, hdc]
  refine h.move rfl ⟨.refl _, .refl _, ?_, rfl⟩ (fun e he => ?_) ?_ h.int h.log h.mul (fun r hr => ?_)
    (fun r hr e he => ?_) (fun e he => ⟨e, he, rfl⟩)
  · rw [hlsq]; exact List.sublist_cons_self _ _
  · rw [mem_unfinished, hunits, List.mem_append, List.mem_singleton] at he
    rcases he with he | he | he | rfl
    · exact ⟨e, mem_unfinished.2 (.inl he), rfl⟩
    · exact ⟨e, mem_unfinished.2 (.inr (.inl (hrest he))), rfl⟩
    · exact ⟨e, mem_unfinished.2 (.inr (.inr he)), rfl⟩
    · exact ⟨a, mem_unfinished.2 (.inr (.inl ha)), hid.symm⟩
  · rw [hunits, ← List.append_assoc, List.map_append, List.nodup_append]
    refine ⟨h.once, List.nodup_singleton _, fun q hq b hb => ?_⟩
    obtain ⟨e, he, rfl⟩ := List.mem_map.1 hq
    rw [List.mem_singleton.1 hb, hseq]
    exact h.seq_ne_of_agenReady ha hdc hagen e he
  · cases List.mem_singleton.1 hr
    exact (Inflight.kinds_of_ident hid).isMemory.trans (h.lsq a ha)
  · cases List.mem_singleton.1 hr
    have hrising := h.order.lsq.rising
    rw [hlsq, List.pairwise_cons] at hrising
    rw [hseq]
    exact (hrising.1 e he).ne

theorem lsqStage {s : State} (h : Tracked s) : Tracked (lsqStage s) := by
  have hc := lsqStage_case s
  generalize Machine.lsqStage s = t at hc
  cases hc with
  | waits => exact h
  | drops hlsq =>
    refine h.lose ⟨⟨.refl _, .refl _, ?_, rfl⟩, .refl _, .refl _, .refl _, .refl _⟩ rfl
    rw [hlsq]
    exact List.sublist_cons_self _ _
  | @loads a rest hlsq hdc _ hagen =>
    have hwork : Tracked ((clearReadyOf a s).onRobEntry a.seq fun e =>
        { e with addr := s.agenAddrAt a.pc }) :=
      h.quiet (.trans (.clearReadyOf a s) (.onRobEntry (by exact fun _ => ⟨rfl, rfl⟩) _ _))
    exact hwork.toCache (a := a) (by simpa using hlsq) (by simpa using hdc)
      (by simpa [State.agenReadyAt] using hagen) rfl
  | @stores a rest hlsq hdc _ hagen =>
    have hwork : Tracked ((s.setMemReady (s.agenAddrAt a.pc) false).onRobEntry a.seq fun e =>
        { e with data := operandValue s a .one, addr := s.agenAddrAt a.pc }) :=
      h.quiet (.trans (.setMemReady s _ _) (.onRobEntry (by exact fun _ => ⟨rfl, rfl⟩) _ _))
    exact hwork.toCache (a := a) (by simpa using hlsq) (by simpa using hdc)
      (by simpa [State.agenReadyAt] using hagen) rfl

end Tracked

end Sys2Proof.Machine

namespace Sys2Proof.Machine

/-! #### Issue -/

/-- R186: an issue makes no register ready. -/
theorem issueEffect_readyBit {i : Instr} {e : Inflight} {s : State} {p : Phys}
    (h : (issueEffect i e s).readyBit p = true) : s.readyBit p = true := by
  have hclear (h : (clearReadyOf e s).readyBit p = true) : s.readyBit p = true :=
    ((Works.clearReadyOf (fin := none) e s).ready p h).resolve_right fun ⟨_, hr, _⟩ => nomatch hr
  cases i with
  | load | ldr | movc => exact hclear h
  | store | str => simpa [issueEffect, State.readyBit] using h
  | _ => exact h

/-- R186, R34: the effects of an issue but for its move. -/
theorem Works.issue {fin : Option Inflight} (i : Instr) (e : Inflight) (s : State) (l : List Inflight) :
    Works fin { s with iq := l } { shareOperands i e (issueEffect i e s) with iq := l } := by
  have hids (m : List Inflight) : idents (onTag e.seq (takeOperands i e) m) = idents m :=
    idents_onTag (f := takeOperands i e) (fun _ => rfl) e.seq m
  refine .silent ?_ ?_ (fun p hp => issueEffect_readyBit (e := e) (s := s) hp) (by simp) (by simp) (by simp)
  · simp [State.places, State.multiplying, shareOperands, hids]
  · refine ⟨fun a => if a.seq = e.seq then takeOperands i e a else a, by simp [shareOperands, onTag],
      fun a => ?_⟩
    dsimp only
    split <;> exact ⟨rfl, rfl⟩

/-- R187: an issue fills one latch and leaves the other units as they are. -/
theorem inUnits_setUnitLatch (s : State) (c : FuClass) (d : Inflight) :
    ∃ l : List Inflight, (s.setUnitLatch c d).inUnits.Perm (d :: l) ∧ l.Sublist s.inUnits := by
  simp only [inUnits_eq]
  cases c with
  | integer => exact ⟨_, .refl _, List.sublist_append_right _ _⟩
  | logical => exact ⟨_, List.perm_middle, (List.Sublist.refl _).append (List.sublist_append_right _ _)⟩
  | multiply =>
    refine ⟨s.int.toList ++ (s.log.toList ++ (s.mul2.toList ++ s.mul3.toList ++ s.mul4.toList ++ s.dc.toList)),
      ?_, ?_⟩
    · rw [← List.append_assoc, ← List.append_assoc s.int.toList]
      exact List.perm_middle (l₁ := s.int.toList ++ s.log.toList)
    · refine (List.Sublist.refl _).append ((List.Sublist.refl _).append (.append ?_ (.refl _)))
      simp only [State.multiplying, List.append_assoc]
      exact List.sublist_append_right _ _

namespace Tracked

/-- R187: an entry goes from the IQ to the latch of its class. -/
theorem toUnit {s : State} (h : Tracked s) {e d : Inflight} {c : FuClass} {front back : List Inflight}
    (hiq : s.iq = front ++ e :: back) (hclass : e.unitClass = some c) (hid : d.ident = e.ident) :
    Tracked { s.setUnitLatch c d with iq := front ++ back } := by
  have he : e ∈ s.iq := by simp [hiq]
  have hdclass : d.unitClass = some c := (Inflight.kinds_of_ident hid).unitClass.trans hclass
  have hrest : (front ++ back).Sublist s.iq := by
    rw [hiq]
    exact (List.Sublist.refl _).append (List.sublist_cons_self _ _)
  obtain ⟨l, hperm, hsub⟩ := inUnits_setUnitLatch s c d
  have hunits : ({ s.setUnitLatch c d with iq := front ++ back } : State).inUnits =
      (s.setUnitLatch c d).inUnits := rfl
  refine h.move (by cases c <;> rfl) ⟨by simp, idents_sublist hrest, by simp, by simp⟩ (fun a ha => ?_) ?_
    (fun r hr => ?_) (fun r hr => ?_) (fun r hr => ?_) (fun r hr => ?_) (fun r hr a ha => ?_)
    (fun a ha => ?_)
  · rw [mem_unfinished, hunits, hperm.mem_iff, List.mem_cons] at ha
    rcases ha with ⟨ha, hac⟩ | ha | rfl | ha
    · exact ⟨a, mem_unfinished.2 (.inl ⟨hrest.subset ha, hac⟩), rfl⟩
    · exact ⟨a, mem_unfinished.2 (.inr (.inl (by simpa using ha))), rfl⟩
    · exact ⟨e, mem_unfinished.2 (.inl ⟨he, by rw [hclass]; rfl⟩), hid.symm⟩
    · exact ⟨a, mem_unfinished.2 (.inr (.inr (hsub.subset ha))), rfl⟩
  · rw [hunits]
    have hmove : ((front ++ back) ++ (s.setUnitLatch c d).inUnits).Perm (front ++ d :: (back ++ l)) := by
      rw [List.append_assoc]
      exact ((hperm.append_left back).trans List.perm_middle).append_left front
    have hseqs : (front ++ d :: (back ++ l)).map Inflight.seq =
        (front ++ e :: (back ++ l)).map Inflight.seq := by
      simp [Inflight.seq_congr hid]
    have hold : (front ++ e :: (back ++ l)).Sublist (s.iq ++ s.inUnits) := by
      rw [hiq, List.append_assoc, List.cons_append]
      exact (List.Sublist.refl _).append (((List.Sublist.refl _).append hsub).cons_cons e)
    rw [(hmove.map Inflight.seq).nodup_iff, hseqs]
    exact h.once.sublist (hold.map _)
  · cases c with
    | integer => cases List.mem_singleton.1 hr; exact hdclass
    | _ => exact h.int r hr
  · cases c with
    | logical => cases List.mem_singleton.1 hr; exact hdclass
    | _ => exact h.log r hr
  · cases c with
    | multiply =>
      have hold : r = d ∨ r ∈ s.multiplying := by
        simp only [State.multiplying, State.setUnitLatch, Option.toList_some, List.cons_append,
          List.nil_append, List.mem_cons, List.mem_append] at hr ⊢
        exact hr.imp_right fun hr => hr.imp_left fun hr => hr.imp_left .inr
      rcases hold with rfl | hr
      · exact hdclass
      · exact h.mul r hr
    | _ => exact h.mul r hr
  · exact h.dc r (by simpa using hr)
  · exact h.dcLeft r (by simpa using hr) a (by simpa using ha)
  · have hint : a ∈ (s.setUnitLatch c d).int.toList → a = d ∨ a ∈ s.int.toList := fun ha => by
      cases c with
      | integer => exact .inl (List.mem_singleton.1 ha)
      | _ => exact .inr ha
    rcases List.mem_append.1 ha with ha | ha
    · exact ⟨a, List.mem_append_left _ (hrest.subset ha), rfl⟩
    · rcases hint ha with rfl | ha
      · exact ⟨e, List.mem_append_left _ he, hid.symm⟩
      · exact ⟨a, List.mem_append_right _ ha, rfl⟩

theorem issueScan {s : State} {es front : List Inflight} (h : Tracked { s with iq := front ++ es })
    (b : Busy) : Tracked { (issueScan es b s).2 with iq := front ++ (issueScan es b s).1 } := by
  induction es generalizing s front b with
  | nil => exact h
  | cons e es ih =>
    rcases unitClass_cases e with hnone | ⟨i, c, hi, hc⟩
    · rw [issueScan_purges hnone]
      refine ih (h.lose ⟨⟨.refl _, idents_sublist ?_, .refl _, rfl⟩, .refl _, .refl _, .refl _, .refl _⟩ rfl) b
      exact (List.Sublist.refl _).append (List.sublist_cons_self _ _)
    · by_cases hwait : b.of c = true ∨ ¬ e.gateReady s i
      · rw [issueScan_keeps hi hc es hwait]
        have := ih (front := front ++ [e]) (by simpa using h) b
        simpa using this
      · simp only [not_or, not_not, Bool.not_eq_true] at hwait
        rw [issueScan_issues hi hc es hwait.1 hwait.2]
        refine ih ?_ _
        have hissued := (h.quiet (.issue i (captureOperands s i e) s _)).toUnit (e := e)
          (d := captureOperands s i e) (c := c) rfl (by simp [Inflight.unitClass, hi, hc]) rfl
        cases c <;> exact hissued

theorem issueStage {s : State} (h : Tracked s) : Tracked (issueStage s) :=
  issueScan (front := []) h Busy.none

end Tracked

/-- R181: what stays in the IQ waits for a unit. -/
theorem issueScan_unitClass (l : List Inflight) (b : Busy) (s : State) :
    ∀ e ∈ (issueScan l b s).1, e.unitClass.isSome = true := by
  induction l generalizing b s with
  | nil => exact fun _ he => nomatch he
  | cons e l ih =>
    rcases unitClass_cases e with hnone | ⟨i, c, hi, hc⟩
    · rw [issueScan_purges hnone]
      exact ih b s
    · by_cases h : b.of c = true ∨ ¬ e.gateReady s i
      · rw [issueScan_keeps hi hc l h]
        refine List.forall_mem_cons.2 ⟨?_, ih b s⟩
        simp [Inflight.unitClass, hi, hc]
      · simp only [not_or, not_not, Bool.not_eq_true] at h
        rw [issueScan_issues hi hc l h.1 h.2]
        exact ih _ _

end Sys2Proof.Machine

namespace Sys2Proof.Machine

/-! #### Commit -/

/-- R282, but for the register's release: the register, `Z` and the operands that wait for it. -/
theorem Works.commit {fin : Option Inflight} (rd : Reg) (writesZ : Bool) (p : Phys) (v : Word) (s : State) :
    Works fin s ((commitFlag writesZ v (s.writeReg rd v)).retarget p) := by
  have hdsp : idents (s.dsp.map (Inflight.retarget p)).toList = idents s.dsp.toList := by
    cases s.dsp <;> rfl
  refine .silent ?_ ⟨Inflight.retarget p, by simp, fun _ => ⟨rfl, rfl⟩⟩ (fun q hq => ?_) (by simp)
    (by simp) (by simp)
  · simp [State.places, State.multiplying, hdsp]
  · simpa [State.readyBit] using hq

namespace Tracked

/-- The head whose gate is open has no copy left. -/
theorem seq_ne_of_gate {s : State} (h : Tracked s) {a : Inflight} (ha : a ∈ s.rob)
    (hgate : s.commitGate a = true) : ∀ e ∈ s.unfinished, e.seq ≠ a.seq := by
  intro e he hseq
  obtain ⟨b, hb, hbe, hshut⟩ := h.copies e he
  rw [h.order.rob.eq_of_seq hb ha ((Inflight.seq_congr hbe).trans hseq), hgate] at hshut
  cases hshut

/-- The head retires once its gate is open. -/
theorem retire {s : State} (h : Tracked s) {a : Inflight} {rest : List Inflight}
    (hrob : s.rob = a :: rest) (hgate : s.commitGate a = true) (hjump : a.isJump = false) :
    Tracked (s.releaseOf a).retireHead := by
  have ha : a ∈ s.rob := hrob ▸ List.mem_cons_self
  have hrest : (s.releaseOf a).retireHead.rob = rest := by simp [hrob]
  have old {b : Inflight} (hb : b ∈ rest) : b ∈ s.rob := hrob ▸ List.mem_cons_of_mem _ hb
  have hready {p : Phys} (hp : (s.releaseOf a).retireHead.readyBit p = true) :
      s.readyBit p = true ∨ a.pd = some p := by
    have hp : (s.releaseOf a).readyBit p = true := hp
    rw [State.readyBit_releaseOf, Bool.or_eq_true, decide_eq_true_eq] at hp
    exact hp.symm
  have n : Narrows s (s.releaseOf a).retireHead := by
    refine ⟨⟨?_, by simp, by simp, by simp⟩, by simp, by simp, by simp [State.multiplying], by simp⟩
    rw [hrest, hrob]
    exact idents_sublist (List.sublist_cons_self _ _)
  refine h.narrow n (h.registers.of_retired hrob (releaseOf_fl a s) ?_ (by rw [hrest]) (by simp) (by simp))
    (fun e he b hb hseq hshut => ?_) (fun e _ _ hno => by simpa [State.agenReadyAt] using hno) ?_
    (fun e he p hp => ?_) ⟨fun b hb hj => ?_, by simpa using h.jumps.next, fun ht => ?_⟩
  · simp [releaseOf_rm]
  · obtain ⟨e', he', hee⟩ := n.unfinished he
    have hne : b.seq ≠ a.seq := by
      rw [hseq, ← Inflight.seq_congr hee]
      exact h.seq_ne_of_gate ha hgate e' he'
    have hmem : b ∈ rest := (List.mem_cons.1 (hrob ▸ hb)).resolve_left fun hab => hne (hab ▸ rfl)
    refine ⟨b, hrest.symm ▸ hmem, rfl, ?_⟩
    refine commitGate_shut rfl (fun p hp ht => (hready ht).resolve_right fun hap => ?_) id
      (fun _ ht => by simpa [State.storeDoneAt] using ht) (fun _ ht => by simpa using ht) hshut
    exact hne (h.registers.eq_of_pd hb ha hp hap ▸ rfl)
  · simpa using h.gridFront
  · have he : e ∈ s.dsp := by simpa using he
    refine Bool.eq_false_iff.2 fun ht => ?_
    rcases hready ht with hs | hap
    · exact Bool.eq_false_iff.1 (h.renamed e he p hp) hs
    · exact h.registers.dsp_pd_ne ha he hap hp
  · rw [hrest] at hb
    obtain ⟨hf, hd, hp, hlast⟩ := h.jumps.last b (old hb) hj
    refine ⟨by simpa using hf, by simpa using hd, by simpa using hp, fun c hc => hlast c (old ?_)⟩
    rwa [hrest] at hc
  · obtain ⟨b, hb, hj⟩ := h.jumps.taken (by simpa using ht)
    refine ⟨b, hrest.symm ▸ (List.mem_cons.1 (hrob ▸ hb)).resolve_left ?_, hj⟩
    rintro rfl
    rw [hj] at hjump
    cases hjump

theorem retire_plain {s : State} (h : Tracked s) {a : Inflight} {rest : List Inflight}
    (hrob : s.rob = a :: rest) (hpd : a.needsPd = false) (hgate : s.commitGate a = true)
    (hjump : a.isJump = false) : Tracked s.retireHead := by
  have hret := h.retire hrob hgate hjump
  rwa [State.releaseOf, h.registers.head_pd_none hrob hpd] at hret

/-- R284, and the last part of R282. -/
theorem retire_register {s : State} (h : Tracked s) {a : Inflight} {rest : List Inflight} {p : Phys}
    (hrob : s.rob = a :: rest) (hneeds : a.needsPd = true) (hp : a.pd = some p)
    (hready : s.readyBit p = true) (hjump : a.isJump = false) : Tracked (s.release p).retireHead := by
  have hgate : s.commitGate a = true := by simp [State.commitGate, hneeds, hp, hready]
  have hret := h.retire hrob hgate hjump
  rwa [State.releaseOf, hp] at hret

/-- R139: nothing but the JUMP is in flight when it retires. -/
theorem rest_of_isJump {s : State} (h : Tracked s) {a : Inflight} {rest : List Inflight}
    (hrob : s.rob = a :: rest) (hj : a.isJump = true) : rest = [] := by
  obtain ⟨-, -, -, hlast⟩ := h.jumps.last a (hrob ▸ List.mem_cons_self) hj
  have hrising := h.order.rob.rising
  rw [hrob, List.pairwise_cons] at hrising
  refine List.eq_nil_iff_forall_not_mem.2 fun b hb => ?_
  exact absurd (hrising.1 b hb) (Nat.not_lt_of_le (hlast b (hrob ▸ List.mem_cons_of_mem _ hb)))

/-- R286: a JUMP retires from a machine with nothing else in flight. -/
theorem retire_jump {s : State} (h : Tracked s) {a : Inflight} {rest : List Inflight}
    (hrob : s.rob = a :: rest) (hj : a.isJump = true) (hgate : s.commitGate a = true)
    (hpd : a.needsPd = false) :
    Tracked (Machine.flush a.seq
      { s.retireHead with pc := s.jumpTarget, jumpInFlight := false, jumpTaken := false }) := by
  have ha : a ∈ s.rob := hrob ▸ List.mem_cons_self
  have hrest := h.rest_of_isJump hrob hj
  have hnone : ∀ e ∈ s.unfinished, False := fun e he => by
    obtain ⟨b, hb, hbe, -⟩ := h.copies e he
    rw [hrob, hrest, List.mem_singleton] at hb
    exact h.seq_ne_of_gate ha hgate e he (hb ▸ Inflight.seq_congr hbe).symm
  obtain ⟨-, -, hdsp, -⟩ := h.jumps.last a ha hj
  have hreg : FreeListConserved { s.retireHead with
      pc := s.jumpTarget, jumpInFlight := false, jumpTaken := false } :=
    (h.registers.retireHead hrob hpd).of_same rfl rfl rfl rfl rfl
  have n := Narrows.flush a.seq { s.retireHead with
    pc := s.jumpTarget, jumpInFlight := false, jumpTaken := false }
  have n' : Narrows s (Machine.flush a.seq { s.retireHead with
      pc := s.jumpTarget, jumpInFlight := false, jumpTaken := false }) :=
    ⟨n.toThinned.after ⟨idents_sublist (List.tail_sublist _), .refl _, .refl _, rfl⟩, n.int, n.log, n.mul, n.dc⟩
  refine h.narrow n' (hreg.flush _) (fun e he => ?_)
    (fun e _ _ hno => by simpa [State.agenReadyAt] using hno) (fun e he => ?_) (fun e he => ?_)
    ⟨fun b hb => ?_, fun e he => ?_, fun ht => nomatch ht⟩
  · obtain ⟨e', he', -⟩ := n'.unfinished he
    exact (hnone e' he').elim
  · simp [hdsp, Machine.flush] at he
  · simp [hdsp] at he
  · simp [Machine.flush, hrob, hrest, olderThan] at hb
  · simp [hdsp] at he

theorem commitStage {s : State} (h : Tracked s) (hrun : (commitStage s).status = .running) :
    Tracked (commitStage s) := by
  have hc := commitStage_case s
  generalize Machine.commitStage s = t at hc hrun
  cases hc with
  | waits => exact h
  | faults => cases hrun
  | halts => cases hrun
  | @writes a rest i rd p hrob _ hi hrd hp hready =>
    have hk := Inflight.kinds_of_op hi
    have hneeds : needsPd i = true ∧ isJumpOp i = false := by
      cases i with
      | store | str | cmp | bz | bnz | jump | halt => cases hrd
      | _ => exact ⟨rfl, rfl⟩
    have hwork := h.quiet (.commit rd (writesZAtCommit i) p (s.valueOf p) s)
    refine hwork.retire_register (a := a.retarget p) (rest := rest.map (Inflight.retarget p)) ?_
      (hk.needsPd.trans hneeds.1) hp ?_ (hk.isJump.trans hneeds.2)
    · simp [hrob]
    · simpa [State.readyBit] using hready
  | frees hrob _ hi hp hready =>
    have hk := Inflight.kinds_of_op hi
    exact h.retire_register hrob hk.needsPd hp hready hk.isJump
  | retires hrob _ hpd hjump hgate => exact h.retire_plain hrob hpd hgate hjump
  | @jumps a rest b imm hrob _ hi htaken =>
    have hk := Inflight.kinds_of_op hi
    refine h.retire_jump hrob hk.isJump ?_ hk.needsPd
    simp [State.commitGate, hk.needsPd, hk.isBranch, hk.isStoreRecord, hk.isJump, htaken, Machine.needsPd,
      isCondBranch, isStore, isJumpOp]

end Tracked

end Sys2Proof.Machine

namespace Sys2Proof.Machine

/-! #### Dispatch -/

theorem mem_enterQueues_iq {r : Inflight} {s : State} {e : Inflight} (he : e ∈ (enterQueues r s).iq) :
    e ∈ s.iq ∨ e = s.dispatched r := by
  rw [enterQueues_eq] at he
  dsimp only at he
  split at he
  · simpa using he
  · exact .inl he

theorem mem_enterQueues_lsq {r : Inflight} {s : State} {e : Inflight} (he : e ∈ (enterQueues r s).lsq) :
    e ∈ s.lsq ∨ e = s.dispatched r ∧ r.isMemory = true := by
  rw [enterQueues_eq] at he
  dsimp only at he
  split at he
  · rename_i hmem
    simpa [hmem] using he
  · exact .inl he

theorem enterQueues_rob (r : Inflight) (s : State) : (enterQueues r s).rob = s.rob ++ [s.dispatched r] := by
  rw [enterQueues_eq]

theorem enterQueues_inUnits (r : Inflight) (s : State) : (enterQueues r s).inUnits = s.inUnits := by
  rw [enterQueues_eq]
  rfl

/-- What has work left after a dispatch had it before, or is the record that entered. -/
theorem mem_unfinished_enterQueues {r : Inflight} {s : State} {e : Inflight}
    (he : e ∈ (enterQueues r s).unfinished) :
    e ∈ s.unfinished ∨ e = s.dispatched r ∧ r.unitClass.isSome = true := by
  simp only [mem_unfinished, enterQueues_inUnits] at he ⊢
  rcases he with ⟨he, hc⟩ | he | he
  · rcases mem_enterQueues_iq he with he | rfl
    · exact .inl (.inl ⟨he, hc⟩)
    · exact .inr ⟨rfl, hc⟩
  · rcases mem_enterQueues_lsq he with he | ⟨rfl, hmem⟩
    · exact .inl (.inr (.inl he))
    · exact .inr ⟨rfl, by rw [Inflight.unitClass_of_isMemory hmem]; rfl⟩
  · exact .inl (.inr (.inr he))

/-- R162, R165: the slot of a memory instruction that enters is cleared. -/
theorem enterQueues_storeDoneAt (r : Inflight) (s : State) (pc : Word) :
    (enterQueues r s).storeDoneAt pc =
      (!(r.isMemory && decide (recordIndex pc = recordIndex r.pc)) && s.storeDoneAt pc) := by
  have hclear := State.storeDoneAt_clearSlot s r.pc pc
  rw [enterQueues_eq]
  cases r.isMemory with
  | false => simp [State.storeDoneAt]
  | true => simpa [State.storeDoneAt] using hclear

theorem enterQueues_agenReadyAt (r : Inflight) (s : State) (pc : Word) :
    (enterQueues r s).agenReadyAt pc =
      (!(r.isMemory && decide (recordIndex pc = recordIndex r.pc)) && s.agenReadyAt pc) := by
  have hclear := State.agenReadyAt_clearSlot s r.pc pc
  rw [enterQueues_eq]
  cases r.isMemory with
  | false => simp [State.agenReadyAt]
  | true => simpa [State.agenReadyAt] using hclear

namespace Tracked

/-- R160: the record in `DSP` is discarded with its register. -/
theorem recoverDispatch {s : State} (h : Tracked s) (hb : s.branchRecovery = true) :
    Tracked (recoverDispatch s) := by
  have hready {p : Phys} (hp : (Machine.recoverDispatch s).readyBit p = true) :
      s.readyBit p = true ∨ ∃ r ∈ s.dsp, r.pd = some p := by
    cases hd : s.dsp with
    | none => exact .inl (by simpa [Machine.recoverDispatch, hd, State.readyBit] using hp)
    | some r =>
      have hp : (s.releaseOf r).readyBit p = true := by
        simpa [Machine.recoverDispatch, hd, State.readyBit] using hp
      rw [State.readyBit_releaseOf, Bool.or_eq_true, decide_eq_true_eq] at hp
      exact hp.symm.imp_right fun hp => ⟨r, rfl, hp⟩
  have n : Narrows s (Machine.recoverDispatch s) :=
    ⟨recoverDispatch_thinned s, by simp, by simp, by simp [State.multiplying], by simp⟩
  refine h.narrow n (h.registers.dispatch (.recovers hb)) (fun e he a ha _ hshut => ?_)
    (fun e _ _ hno => by simpa [State.agenReadyAt] using hno) (fun e he => ?_) (fun e he => nomatch he)
    ⟨fun a ha hj => ?_, (fun _ he => nomatch he), fun ht => ?_⟩
  · refine ⟨a, by simpa using ha, rfl, ?_⟩
    refine commitGate_shut rfl (fun p hp ht => (hready ht).resolve_right ?_) id
      (fun _ ht => by simpa [State.storeDoneAt] using ht) (fun _ ht => by simpa using ht) hshut
    rintro ⟨r, hr, hrp⟩
    exact h.registers.dsp_pd_ne ha hr hp hrp
  · refine h.gridFront e (List.mem_append_right _ ?_)
    have hdsp : (Machine.recoverDispatch s).dsp = none := rfl
    simpa [hdsp] using he
  · obtain ⟨hf, hd, -, hlast⟩ := h.jumps.last a (by simpa using ha) hj
    exact ⟨by simpa using hf, by simpa using hd, rfl, fun b hb => hlast b (by simpa using hb)⟩
  · obtain ⟨a, ha, hj⟩ := h.jumps.taken (by simpa using ht)
    exact ⟨a, by simpa using ha, hj⟩

/-- R164: every age tag given out is below the next one. -/
theorem seq_lt {s : State} (h : Tracked s) {e : Inflight} (he : e ∈ s.unfinished) :
    e.seq < s.nextSeq := by
  obtain ⟨a, ha, hae, -⟩ := h.copies e he
  exact Inflight.seq_congr hae ▸ h.order.rob.given a ha

/-- R139: no JUMP is in the ROB while a record is in `DSP`. -/
theorem not_isJump_of_dsp {s : State} (h : Tracked s) {r : Inflight} (hdsp : s.dsp = some r) :
    ∀ a ∈ s.rob, a.isJump = false := fun a ha => Bool.eq_false_iff.2 fun hj => by
  obtain ⟨-, -, hnone, -⟩ := h.jumps.last a ha hj
  rw [hdsp] at hnone
  cases hnone

theorem seq_ne_nextSeq {s : State} (h : Tracked s) : ∀ e ∈ s.iq ++ s.inUnits, e.seq ≠ s.nextSeq := by
  intro e he
  rcases List.mem_append.1 he with he | he
  · exact (h.order.iq.given e he).ne
  · exact (h.seq_lt (mem_unfinished.2 (.inr (.inr he)))).ne

theorem jumpTaken_of_dsp {s : State} (h : Tracked s) {r : Inflight} (hdsp : s.dsp = some r) :
    s.jumpTaken = false := Bool.eq_false_iff.2 fun ht => by
  obtain ⟨a, ha, hj⟩ := h.jumps.taken ht
  exact Bool.eq_false_iff.1 (h.not_isJump_of_dsp hdsp a ha) hj

theorem enter_matched {s : State} (h : Tracked s) (r : Inflight) :
    ∀ e ∈ (enterQueues r s).iq, ∀ a ∈ (enterQueues r s).rob, a.seq = e.seq → a.ident = e.ident := by
  intro e he a ha hae
  rw [enterQueues_rob, List.mem_append, List.mem_singleton] at ha
  rcases mem_enterQueues_iq he with he | rfl <;> rcases ha with ha | rfl
  · exact h.matched e he a ha hae
  · exact absurd (h.order.iq.given e he) (hae ▸ Nat.lt_irrefl _)
  · exact absurd (h.order.rob.given a ha) (hae ▸ Nat.lt_irrefl _)
  · rfl

/-- A record enters with its gate shut: its register was given out in decode, its slot is cleared, and no
JUMP has signaled its target. -/
theorem enter_copies {s : State} (h : Tracked s) {r : Inflight} (hdsp : s.dsp = some r) :
    ∀ e ∈ (enterQueues r s).unfinished, ∃ a ∈ (enterQueues r s).rob,
      a.ident = e.ident ∧ (enterQueues r s).commitGate a = false := by
  have htaken : (enterQueues r s).jumpTaken = s.jumpTaken := by rw [enterQueues_eq]
  have hready (p : Phys) : (enterQueues r s).readyBit p = s.readyBit p := by rw [enterQueues_eq]; rfl
  intro e he
  rw [enterQueues_rob]
  rcases mem_unfinished_enterQueues he with he | ⟨rfl, hclass⟩
  · obtain ⟨a, ha, hae, hshut⟩ := h.copies e he
    refine ⟨a, List.mem_append_left _ ha, hae, commitGate_shut rfl (fun p _ ht => hready p ▸ ht) id
      (fun _ ht => ?_) (fun _ ht => htaken ▸ ht) hshut⟩
    rw [enterQueues_storeDoneAt, Bool.and_eq_true] at ht
    exact ht.2
  · refine ⟨_, List.mem_append_right _ (List.mem_singleton_self _), rfl, commitGate_eq_false hclass
      (fun p hp => (hready p).trans (h.renamed r hdsp p hp)) rfl (fun hs => ?_)
      fun _ => htaken.trans (h.jumpTaken_of_dsp hdsp)⟩
    have hmem : r.isMemory = true := Inflight.isMemory_of_isStoreRecord (r := r) hs
    rw [enterQueues_storeDoneAt, hmem]
    simp [State.dispatched]

theorem enter_once {s : State} (h : Tracked s) (r : Inflight) :
    (((enterQueues r s).iq ++ (enterQueues r s).inUnits).map Inflight.seq).Nodup := by
  rw [enterQueues_inUnits, enterQueues_eq]
  dsimp only
  split
  · have hperm : ((s.iq ++ [s.dispatched r]) ++ s.inUnits).Perm (s.dispatched r :: (s.iq ++ s.inUnits)) := by
      simp
    rw [(hperm.map Inflight.seq).nodup_iff, List.map_cons, List.nodup_cons]
    refine ⟨fun hmem => ?_, h.once⟩
    obtain ⟨e, he, hseq⟩ := List.mem_map.1 hmem
    exact h.seq_ne_nextSeq e he hseq
  · exact h.once

theorem enter_noAddress {s : State} (h : Tracked s) (r : Inflight) :
    ∀ e ∈ (enterQueues r s).iq ++ (enterQueues r s).int.toList, e.isMemory = true →
      (enterQueues r s).agenReadyAt e.pc = false := by
  intro e he hmem
  have hint : (enterQueues r s).int = s.int := by rw [enterQueues_eq]
  rw [hint, List.mem_append] at he
  rw [enterQueues_agenReadyAt]
  have old (he : e ∈ s.iq ++ s.int.toList) : s.agenReadyAt e.pc = false := h.noAddress e he hmem
  rcases he with he | he
  · rcases mem_enterQueues_iq he with he | rfl
    · rw [old (List.mem_append_left _ he), Bool.and_false]
    · have hmem : r.isMemory = true := hmem
      simp [State.dispatched, hmem]
  · rw [old (List.mem_append_right _ he), Bool.and_false]

/-- R165: a memory instruction enters only where no other has its slot. -/
theorem enter_slots {s : State} (h : Tracked s) {r : Inflight} (hdsp : s.dsp = some r)
    (hroom : s.hasRoomFor r = true) : (enterQueues r s).rob.Pairwise fun a b =>
      a.isMemory = true → b.isMemory = true → recordIndex a.pc ≠ recordIndex b.pc := by
  rw [enterQueues_rob, List.pairwise_append]
  refine ⟨h.slots, List.pairwise_singleton _ _, fun a ha b hb _ hmem heq => ?_⟩
  cases List.mem_singleton.1 hb
  have hmem : r.isMemory = true := hmem
  simp only [State.hasRoomFor, State.slotFree, hmem, Bool.and_eq_true, Bool.not_true, Bool.false_or,
    List.all_eq_true, bne_iff_ne] at hroom
  exact hroom.2 a ha (recordIndex_inj (h.gridRob a ha) (h.gridFront r (by simp [hdsp])) heq)

theorem enter_jumps {s : State} (h : Tracked s) {r : Inflight} (hb : s.branchRecovery = false)
    (hdsp : s.dsp = some r) : JumpOrdered (enterQueues r s) := by
  have hrob := enterQueues_rob r s
  have hdspNone : (enterQueues r s).dsp = none := by rw [enterQueues_eq]
  refine ⟨fun a ha hj => ?_, fun e he => ?_, fun ht => ?_⟩
  · rw [hrob, List.mem_append, List.mem_singleton] at ha
    rcases ha with ha | rfl
    · exact absurd hj (Bool.eq_false_iff.1 (h.not_isJump_of_dsp hdsp a ha))
    · have hnext := h.jumps.next r hdsp hj
      rw [hb] at hnext
      obtain ⟨hf, hd⟩ := hnext.resolve_left Bool.false_ne_true
      refine ⟨by rwa [enterQueues_eq], by rwa [enterQueues_eq], hdspNone, fun b hbm => ?_⟩
      rw [hrob, List.mem_append, List.mem_singleton] at hbm
      rcases hbm with hbm | rfl
      · exact (h.order.rob.given b hbm).le
      · exact Nat.le_refl _
  · rw [hdspNone] at he
    cases he
  · have htaken : (enterQueues r s).jumpTaken = s.jumpTaken := by rw [enterQueues_eq]
    rw [htaken, h.jumpTaken_of_dsp hdsp] at ht
    cases ht

/-- R162 to R165: a record enters ROB, IQ and LSQ. -/
theorem enter {s : State} (h : Tracked s) {r : Inflight} (hb : s.branchRecovery = false)
    (hdsp : s.dsp = some r) (hroom : s.hasRoomFor r = true) : Tracked (enterQueues r s) where
  order := h.order.enter r
  registers := h.registers.dispatch (.enters hb hdsp hroom)
  matched := h.enter_matched r
  copies := h.enter_copies hdsp
  once := h.enter_once r
  int := by rw [enterQueues_eq]; exact h.int
  log := by rw [enterQueues_eq]; exact h.log
  mul := by rw [enterQueues_eq]; exact h.mul
  dc := by rw [enterQueues_eq]; exact h.dc
  lsq e he := by
    rcases mem_enterQueues_lsq he with he | ⟨rfl, hmem⟩
    · exact h.lsq e he
    · exact hmem
  dcLeft a ha e he := by
    have ha : a ∈ s.dc.toList := by rwa [enterQueues_eq] at ha
    rcases mem_enterQueues_lsq he with he | ⟨rfl, -⟩
    · exact h.dcLeft a ha e he
    · exact h.seq_ne_nextSeq a (List.mem_append_right _ (by simp [State.inUnits, Option.mem_toList.1 ha]))
  noAddress := h.enter_noAddress r
  slots := h.enter_slots hdsp hroom
  gridRob := by
    rw [enterQueues_rob]
    have hgrid : pcOnGrid r.pc = true := h.gridFront r (by simp [hdsp])
    exact List.forall_mem_append.2 ⟨h.gridRob, by simpa [State.dispatched] using hgrid⟩
  gridFront e he := by
    rw [enterQueues_eq] at he
    exact h.gridFront e (List.mem_append_right _ he)
  renamed e he := by
    rw [enterQueues_eq] at he
    cases he
  jumps := h.enter_jumps hb hdsp

theorem dispatchStage {s : State} (h : Tracked s) : Tracked (dispatchStage s) := by
  have hc := dispatchStage_case s
  generalize Machine.dispatchStage s = t at hc
  cases hc with
  | waits => exact h
  | recovers hb => exact h.recoverDispatch hb
  | enters hb hdsp hroom => exact h.enter hb hdsp hroom

end Tracked

end Sys2Proof.Machine

namespace Sys2Proof.Machine

/-! #### Decode and fetch -/

namespace Tracked

theorem decodeStage {s : State} (h : Tracked s) : Tracked (decodeStage s) := by
  have hc := decodeStage_case s
  have hreg := h.registers.decode hc
  generalize Machine.decodeStage s = t at hc hreg
  have hnotLast {r a : Inflight} (hdec : s.dec = some r) (ha : a ∈ s.rob) : a.isJump = false :=
    Bool.eq_false_iff.2 fun hj => by
      obtain ⟨-, hnone, -⟩ := h.jumps.last a ha hj
      rw [hdec] at hnone
      cases hnone
  have hgrid {r : Inflight} (hdec : s.dec = some r) : pcOnGrid r.pc = true :=
    h.gridFront r (by simp [hdec])
  cases hc with
  | waits => exact h
  | @takes r p rest rm hdec hdsp hpd hjump hfl _ =>
    refine h.narrow ⟨⟨.refl _, .refl _, .refl _, rfl⟩, .refl _, .refl _, .refl _, .refl _⟩ hreg
      (fun e _ a ha _ hshut => ⟨a, ha, rfl, ?_⟩) (fun e _ _ hno => hno) ?_ ?_
      ⟨fun a ha hj => ?_, ?_, h.jumps.taken⟩
    · refine commitGate_shut (s := s) rfl (fun q _ hq => ?_) id (fun _ => id) (fun _ => id) hshut
      have hq : (s.setReady p false).readyBit q = true := hq
      rw [State.readyBit_setReady] at hq
      split at hq
      · cases hq
      · exact hq
    · simpa [renameSources] using hgrid hdec
    · rintro e ⟨⟩ q ⟨⟩
      have hclear := State.readyBit_setReady s p p false
      rwa [if_pos rfl] at hclear
    · exact absurd hj (Bool.eq_false_iff.1 (hnotLast hdec ha))
    · rintro e ⟨⟩ hj
      have hj : r.isJump = true := hj
      rw [hjump] at hj
      cases hj
  | @moves r btb hdec hdsp hpd _ =>
    refine h.narrow ⟨⟨.refl _, .refl _, .refl _, rfl⟩, .refl _, .refl _, .refl _, .refl _⟩ hreg
      (fun e _ a ha _ hshut => ⟨a, ha, rfl, hshut⟩) (fun e _ _ hno => hno) ?_ ?_
      ⟨fun a ha hj => ?_, ?_, h.jumps.taken⟩
    · simpa [renameSources] using hgrid hdec
    · rintro e ⟨⟩ q hq
      have hnone : r.pd = none := h.registers.dec r hdec
      have hq : r.pd = some q := hq
      rw [hnone] at hq
      cases hq
    · exact absurd hj (Bool.eq_false_iff.1 (hnotLast hdec ha))
    · rintro e ⟨⟩ hj
      have hj : r.isJump = true := hj
      exact .inr ⟨by simp [hj], rfl⟩

theorem fetchStage {look : Word → Option RecordFields}
    (hlook : ∀ a f, look a = some f → pcOnGrid a = true) {s : State} (h : Tracked s) :
    Tracked (fetchStage look s) := by
  have hc := fetchStage_case look s
  have hreg := h.registers.fetch hc
  generalize Machine.fetchStage look s = t at hc hreg
  cases hc with
  | waits => exact h
  | bubbles => exact h.quiet (.elsewhere rfl rfl rfl rfl rfl rfl)
  | @fetches f hf hjump hdec =>
    have notInFlight : ¬ s.jumpInFlight = true := Bool.eq_false_iff.1 hjump
    refine h.narrow ⟨⟨.refl _, .refl _, .refl _, rfl⟩, .refl _, .refl _, .refl _, .refl _⟩ hreg
      (fun e _ a ha _ hshut => ⟨a, ha, rfl, hshut⟩) (fun e _ _ hno => hno) (fun e he => ?_) h.renamed
      ⟨fun a ha hj => ?_, fun e he hj => ?_, h.jumps.taken⟩
    · rcases List.mem_append.1 he with he | he
      · exact h.gridFront e (List.mem_append_left _ he)
      · cases List.mem_singleton.1 he
        exact hlook s.pc f hf
    · exact absurd (h.jumps.last a ha hj).1 notInFlight
    · exact .inl ((h.jumps.next e he hj).resolve_right fun hn => notInFlight hn.1)

end Tracked

/-! #### The cycle boundary -/

theorem InFlightMatched.tracked {s : State} (h : InFlightMatched s) : Tracked s where
  order := h.order
  registers := h.registers
  matched e he a ha hae := by
    obtain ⟨b, hb, hcopy⟩ := h.queued e (List.mem_append_left _ he)
    rw [h.order.rob.eq_of_seq ha hb (hae.trans hcopy.seq.symm)]
    exact Inflight.isCopyOf_iff.1 hcopy
  copies e he := by
    obtain ⟨a, ha, hcopy, hshut⟩ := h.copies e he
    exact ⟨a, ha, Inflight.isCopyOf_iff.1 hcopy, hshut⟩
  once := h.once
  int r hr := h.int r (Option.mem_toList.1 hr)
  log r hr := h.log r (Option.mem_toList.1 hr)
  mul := h.mul
  dc r hr := h.dc r (Option.mem_toList.1 hr)
  lsq := h.lsq
  dcLeft r hr := h.dcLeft r (Option.mem_toList.1 hr)
  noAddress := h.noAddress
  slots := h.slots
  gridRob e he := h.grid e (List.mem_append_left _ (List.mem_append_left _ he))
  gridFront e he := h.grid e (by
    rw [List.append_assoc]
    exact List.mem_append_right _ he)
  renamed := h.renamed
  jumps := ⟨h.jumpLast, h.jumpNext, h.jumpTaken⟩

/-- R49: each IQ entry is a copy of a ROB entry. -/
def State.IqInRob (s : State) : Prop := ∀ e ∈ s.iq, ∃ a ∈ s.rob, a.ident = e.ident

theorem Tracked.inFlightMatched {s : State} (h : Tracked s) (hiq : s.IqInRob) : InFlightMatched s where
  order := h.order
  registers := h.registers
  queued e he := by
    rcases List.mem_append.1 he with he | he
    · obtain ⟨a, ha, hid⟩ := hiq e he
      exact ⟨a, ha, Inflight.isCopyOf_iff.2 hid⟩
    · obtain ⟨a, ha, hid, -⟩ := h.copies e (mem_unfinished.2 (.inr (.inl he)))
      exact ⟨a, ha, Inflight.isCopyOf_iff.2 hid⟩
  copies e he := by
    obtain ⟨a, ha, hid, hshut⟩ := h.copies e he
    exact ⟨a, ha, Inflight.isCopyOf_iff.2 hid, hshut⟩
  once := h.once
  int r hr := h.int r (Option.mem_toList.2 hr)
  log r hr := h.log r (Option.mem_toList.2 hr)
  mul := h.mul
  dc r hr := h.dc r (Option.mem_toList.2 hr)
  lsq := h.lsq
  dcLeft r hr := h.dcLeft r (Option.mem_toList.2 hr)
  noAddress := h.noAddress
  slots := h.slots
  grid e he := by
    rw [List.append_assoc] at he
    exact (List.mem_append.1 he).elim (h.gridRob e) (h.gridFront e)
  renamed := h.renamed
  jumpLast := h.jumps.last
  jumpNext := h.jumps.next
  jumpTaken := h.jumps.taken

/-- R181: the issue stage leaves no entry in the IQ that has no unit to go to. -/
theorem Tracked.iqInRob_issueStage {s : State} (h : Tracked s) : (Machine.issueStage s).IqInRob := by
  intro e he
  have hclass : e.unitClass.isSome = true := issueScan_unitClass s.iq Busy.none s e he
  obtain ⟨a, ha, hid, -⟩ := h.issueStage.copies e (mem_unfinished.2 (.inl ⟨he, hclass⟩))
  exact ⟨a, ha, hid⟩

theorem State.IqInRob.dispatchStage {s : State} (h : s.IqInRob) : (dispatchStage s).IqInRob := by
  have hc := dispatchStage_case s
  generalize Machine.dispatchStage s = t at hc
  cases hc with
  | waits => exact h
  | recovers => simpa [State.IqInRob] using h
  | enters =>
    intro e he
    rw [enterQueues_rob]
    rcases mem_enterQueues_iq he with he | rfl
    · obtain ⟨a, ha, hid⟩ := h e he
      exact ⟨a, List.mem_append_left _ ha, hid⟩
    · exact ⟨_, List.mem_append_right _ (List.mem_singleton_self _), rfl⟩

/-- What the eight stages after the memory access leave at the cycle boundary. -/
theorem Tracked.laterStages {look : Word → Option RecordFields}
    (hlook : ∀ a f, look a = some f → pcOnGrid a = true) {s : State} (h : Tracked s) :
    InFlightMatched (laterStages look s) := by
  have hissue := h.lsqStage.mulStage.logStage.intStage
  have hdispatch := hissue.iqInRob_issueStage.dispatchStage
  refine Tracked.inFlightMatched (hissue.issueStage.dispatchStage.decodeStage.fetchStage hlook) ?_
  simpa [State.IqInRob, Machine.laterStages] using hdispatch

/-- The cycle, where both ends run: a fault and a HALT's drain end the run (R288, R383). -/
theorem InFlightMatched.cycleWith {look : Word → Option RecordFields}
    (hlook : ∀ a f, look a = some f → pcOnGrid a = true) (s : State)
    (h : s.status = .running → InFlightMatched s) (hrun : (cycleWith look s).status = .running) :
    InFlightMatched (cycleWith look s) := by
  have hc := cycleWith_case look s
  generalize Machine.cycleWith look s = t at hc hrun
  cases hc with
  | stopped => exact h hrun
  | commitStops _ hstop => exact absurd hrun hstop
  | cacheStops _ _ hstop => exact absurd hrun hstop
  | completes hs hcommit hcache =>
    have hcounted : Tracked s.counted := (h hs).tracked.quiet (.elsewhere rfl rfl rfl rfl rfl rfl)
    exact ((hcounted.commitStage hcommit).dataCacheStage hcache).laterStages hlook

/-- R67: the instruction space holds records at the pcs of the program's records alone. -/
theorem State.pcOnGrid_of_lookup (s : State) (a : Word) (f : RecordFields) (h : s.lookup a = some f) :
    pcOnGrid a = true := by
  obtain ⟨w, hw, -⟩ := (State.lookup_eq_some s a f).1 h
  exact ((State.lookupWord_eq_some s a w).1 hw).1

theorem InFlightMatched.step {s t : State} (h : InFlightMatched s) (ht : step s = .next t)
    (hrun : t.status = .running) : InFlightMatched t := by
  have keeps (n : Nat) := runToRetirement_keeps (look := s.lookup)
    (fun u => u.status = .running → InFlightMatched u)
    (fun u => InFlightMatched.cycleWith s.pcOnGrid_of_lookup u) n s fun _ => h
  obtain rfl | ⟨f, hf, rfl⟩ := step_cases ht
  · exact keeps _ hrun
  · rw [runRecord, delivering_lookup hf] at hrun ⊢
    exact keeps _ hrun

/-- R49, R51: the tag of a queued entry is that of its own ROB entry alone. -/
theorem InFlightMatched.one_robEntry {s : State} (h : InFlightMatched s) {e : Inflight}
    (he : e ∈ s.iq ++ s.lsq) : (s.rob.filter fun a => a.seq == e.seq).length = 1 := by
  obtain ⟨a, ha, hcopy⟩ := h.queued e he
  have hnodup : (s.rob.map Inflight.seq).Nodup :=
    List.pairwise_map.2 (h.order.rob.rising.imp Nat.ne_of_lt)
  rw [← List.countP_eq_length_filter, ← hcopy.seq]
  have hcount : (s.rob.map Inflight.seq).count a.seq = 1 :=
    List.count_eq_one_of_mem hnodup (List.mem_map_of_mem ha)
  rwa [List.count, List.countP_map] at hcount

/-- Settles O57: every stage keeps `Tracked`, a record in flight being a copy of a ROB entry whose gate stays
shut until the last copy has left, and at a cycle boundary that is `InFlightMatched`. -/
theorem queuedEntriesAreInTheRob : Obligations.QueuedEntriesAreInTheRob :=
  ⟨fun _ h _ he => h.one_robEntry he,
    fun s h => InFlightMatched.cycleWith s.pcOnGrid_of_lookup s fun _ => h,
    fun _ _ h => h.step⟩

end Sys2Proof.Machine

namespace Sys2Proof.Machine

/-! ### The step and the instruction space (R67, R91, R131) -/

theorem exec_eq_runRecord (i : Instr) (s : State) : exec i s = .next (runRecord (s.recordOf i) s) := by
  cases i <;> rfl

/-- Settles O6: a record word stands at the pc, so a program is loaded and the step is `exec` of what the
word decodes to. -/
theorem stepRunsTheDecodedInstruction : Obligations.StepRunsTheDecodedInstruction := by
  intro s w i hw hi
  have hlookup : s.lookup s.pc = some (recordFields w) := s.lookup_eq_some _ _ |>.2 ⟨w, hw, rfl⟩
  have hprogram : s.program ≠ [] := by
    obtain ⟨-, hk⟩ := (s.lookupWord_eq_some _ _).1 hw
    rintro hnil
    simp [hnil] at hk
  rw [step_runs hprogram, exec_eq_runRecord, State.recordOf_eq hlookup hi, runRecord,
    delivering_lookup hlookup, runLoaded]

theorem placeRecord_getElem? (w : RecordWord) {k : Nat} {l : List RecordWord} (hk : k ≤ l.length) :
    (placeRecord w k l)[k]? = some w := by
  induction l generalizing k with
  | nil =>
    obtain rfl : k = 0 := Nat.le_zero.1 hk
    rfl
  | cons v l ih =>
    cases k with
    | zero => rfl
    | succ k => exact ih (Nat.le_of_succ_le_succ hk)

/-- Log 3: the placed word is the record at the pc where the machine then fetches. -/
theorem lookupWord_withFetchWord (s : State) (nbits w : Nat) :
    (s.withFetchWord nbits w).lookupWord (s.withFetchWord nbits w).pc =
      some (BitVec.ofNat 64 (w % 2 ^ nbits)) := by
  rw [State.lookupWord_eq_some]
  unfold State.withFetchWord
  simp only
  split
  · rename_i h
    simp only [Bool.and_eq_true, decide_eq_true_eq] at h
    exact ⟨h.1, placeRecord_getElem? _ h.2⟩
  · have hindex : recordIndex Config.pcBase = 0 := by decide
    refine ⟨show pcOnGrid Config.pcBase = true by decide, ?_⟩
    show (placeRecord _ 0 s.program)[recordIndex Config.pcBase]? = _
    rw [hindex]
    exact placeRecord_getElem? _ (Nat.zero_le _)

theorem decodeTableWord_eq_some {nbits w : Nat} {i : Instr} :
    decodeTableWord nbits w = some i ↔ decodeWord (BitVec.ofNat 64 (w % 2 ^ nbits)) = .op i := by
  unfold decodeTableWord
  split <;> simp_all

/-- Settles O7: the placed word is the record at the present pc, and the step runs that one (O6). -/
theorem placedWordRuns : Obligations.PlacedWordRuns := fun s nbits w i hi =>
  stepRunsTheDecodedInstruction _ _ i (lookupWord_withFetchWord s nbits w)
    (decodeTableWord_eq_some.1 hi)

/-! ### Fetch (R130 to R133) -/

/-- R91, R133: record `k` is at the pc `4000 + 4k`, and at no other. -/
theorem pcOnGrid_and_recordIndex_iff (a : Word) (k : Nat) :
    pcOnGrid a = true ∧ recordIndex a = k ↔ a.toNat = 4000 + 4 * k := by
  have hbase : Config.pcBase.toNat = 4000 := rfl
  have hstep : Config.insnStep.toNat = 4 := rfl
  simp only [pcOnGrid, recordIndex, Bool.and_eq_true, decide_eq_true_eq, BitVec.toNat_sub, hbase, hstep]
  have := a.isLt
  omega

theorem lookup_eq_some_iff (s : State) (a : Word) (f : RecordFields) :
    s.lookup a = some f ↔
      ∃ (k : Nat) (w : RecordWord), s.program[k]? = some w ∧ a.toNat = 4000 + 4 * k ∧
        recordFields w = f := by
  simp only [State.lookup_eq_some, State.lookupWord_eq_some, ← pcOnGrid_and_recordIndex_iff]
  constructor
  · rintro ⟨w, ⟨hgrid, hw⟩, hf⟩
    exact ⟨_, w, hw, ⟨hgrid, rfl⟩, hf⟩
  · rintro ⟨k, w, hw, ⟨hgrid, rfl⟩, hf⟩
    exact ⟨w, ⟨hgrid, hw⟩, hf⟩

theorem fetchStage_bubble {look : Word → Option RecordFields} {s : State}
    (h : s.redirectPending = true) : fetchStage look s = { s with redirectPending := false } := by
  simp [fetchStage, h]

theorem fetchStage_waits_for_jump {look : Word → Option RecordFields} {s : State}
    (h : s.jumpInFlight = true) (hr : s.redirectPending = false) : fetchStage look s = s := by
  simp [fetchStage, h, hr]

/-- Settles O46: the branches of the fetch stage, and what a fetched record is. -/
theorem fetchFollowsThePrediction : Obligations.FetchFollowsThePrediction := by
  refine fun s => ⟨lookup_eq_some_iff s, fetchStage_bubble, fun hr hwait => ?_,
    fun f hr hj hd hl => fetchStage_delivers hl hr hj hd⟩
  rcases hwait with hj | hd | hl
  · exact fetchStage_waits_for_jump hj hr
  · exact fetchStage_full (Option.isSome_iff_ne_none.2 hd) hr
  · exact fetchStage_invalid hl hr

end Sys2Proof.Machine

namespace Sys2Proof.Machine

/-! ### Stores in `DC` (R71, R214) -/

/-- The age tag of the ROB head. -/
def State.headTag (s : State) : Option Nat := (s.rob.map Inflight.seq).head?

theorem State.headTag_eq_some {s : State} {q : Nat} :
    s.headTag = some q ↔ ∃ (e : Inflight) (tail : List Inflight), s.rob = e :: tail ∧ e.seq = q := by
  unfold State.headTag
  cases s.rob <;> simp

theorem State.isRobHead_iff {s : State} {h : Inflight} :
    s.isRobHead h = true ↔ s.headTag = some h.seq := by
  unfold State.isRobHead State.headTag
  split <;> simp_all

theorem State.headTag_congr {s t : State} (h : idents t.rob = idents s.rob) : t.headTag = s.headTag := by
  rw [State.headTag, State.headTag, ← idents_seq, h, idents_seq]

/-- R71, R214: a store in `DC` is the ROB head. -/
def StoreAtHead (s : State) : Prop :=
  ∀ r : Inflight, s.dc = some r → r.isStoreRecord = true → s.headTag = some r.seq

theorem dataCacheStage_empties (s : State) : (dataCacheStage s).dc = none := by
  unfold dataCacheStage
  split
  · assumption
  · rename_i r _
    have hc := dcAction_case r { s with dc := none }
    generalize dcAction r _ = t at hc
    cases hc <;> simp

theorem isStore_of_isLoad {i : Instr} (h : isLoad i = true) : isStore i = false := by
  cases i with
  | load | ldr => rfl
  | _ => cases h

theorem isLoad_of_isStore {i : Instr} (h : isStore i = true) : isLoad i = false := by
  cases i with
  | store | str => rfl
  | _ => cases h

/-- R212: the load gate lets a load through, no store. -/
theorem lsqLoad_dc {h : Inflight} {i : Instr} (hi : h.insn = .op i) (hload : isLoad i = true)
    (rest : List Inflight) {s : State} (hdc : s.dc = none) {r : Inflight}
    (hr : (lsqLoad h rest s).dc = some r) : r.isStoreRecord = false := by
  unfold lsqLoad at hr
  split at hr
  · have hr : { h with addr := s.agenAddrAt h.pc } = r := Option.some.inj hr
    have hi' : r.insn = .op i := hr ▸ hi
    rw [(Inflight.kinds_of_op hi').isStoreRecord, isStore_of_isLoad hload]
  · simp [hdc] at hr

/-- R213: the store gate asks for the ROB head. -/
theorem lsqStore_dc {h : Inflight} (rest : List Inflight) {s : State} (hdc : s.dc = none) {r : Inflight}
    (hr : (lsqStore h rest s).dc = some r) : s.headTag = some r.seq := by
  unfold lsqStore at hr
  split at hr
  · rename_i hgate
    simp only [State.storeGateOpen, Bool.and_eq_true] at hgate
    obtain ⟨-, hhead⟩ := hgate
    have hr : { h with data := operandValue s h .one, addr := s.agenAddrAt h.pc } = r := Option.some.inj hr
    exact hr ▸ State.isRobHead_iff.1 hhead
  · simp [hdc] at hr

/-- R210: what the LSQ stage puts into an empty `DC` is a load, or the store at the ROB head. -/
theorem storeAtHead_lsqStage {s : State} (hdc : s.dc = none) : StoreAtHead (lsqStage s) := by
  intro r hr hstore
  rw [State.headTag_congr (lsqStage_shares s).idents_eq]
  unfold lsqStage at hr
  split at hr
  · simp [hdc] at hr
  · rw [if_neg (by simp [hdc])] at hr
    unfold lsqAction at hr
    split at hr
    · simp [hdc] at hr
    · rename_i i hi
      split at hr
      · exact absurd hstore (by simp [lsqLoad_dc hi ‹_› _ hdc hr])
      · split at hr
        · exact lsqStore_dc _ hdc hr
        · simp [hdc] at hr

namespace StoreAtHead

theorem of_tags {s t : State} (h : StoreAtHead s) (hdc : t.dc = s.dc) (htag : t.headTag = s.headTag) :
    StoreAtHead t := by
  intro r hr hstore
  rw [htag]
  exact h r (hdc ▸ hr) hstore

theorem enterQueues {s : State} (h : StoreAtHead s) (r : Inflight) :
    StoreAtHead (enterQueues r s) := by
  intro d hd hstore
  obtain ⟨e, tail, hrob, hq⟩ := State.headTag_eq_some.1 (h d (by simpa [enterQueues_eq] using hd) hstore)
  exact State.headTag_eq_some.2 ⟨e, tail ++ [s.dispatched r], by simp [enterQueues_rob, hrob], hq⟩

theorem flush {s : State} (h : StoreAtHead s) (q : Nat) : StoreAtHead (flush q s) := by
  intro r hr hstore
  have hlatch : squashLatch q s.dc = some r := by simpa [Machine.flush] using hr
  obtain ⟨hdc, hle⟩ := mem_squashLatch.1 hlatch
  obtain ⟨e, tail, hrob, hq⟩ := State.headTag_eq_some.1 (h r hdc hstore)
  refine State.headTag_eq_some.2 ⟨e, olderThan q tail, ?_, hq⟩
  simp [Machine.flush, olderThan, hrob, hq, hle]

theorem int {r : Inflight} {s t : State} (h : StoreAtHead s) (hc : IntCase r s t) : StoreAtHead t := by
  cases hc with
  | drops | delivers | addresses | compares | jumps => exact h.of_tags (by simp) (by simp [State.headTag])
  | divides => exact h.of_tags (by simp) (State.headTag_congr (markExc_writeBack_idents _ _ _ _ _))
  | resolves _ e => exact h.of_tags (by simp) (State.headTag_congr (markDone_idents (s.setBtb r.pc e) _))
  | mispredicts _ e =>
    have hresolved : StoreAtHead ((s.setBtb r.pc e).markDone r.seq) :=
      h.of_tags (by simp) (State.headTag_congr (markDone_idents (s.setBtb r.pc e) _))
    exact hresolved.flush r.seq

theorem intStage {s : State} (h : StoreAtHead s) : StoreAtHead (intStage s) := by
  obtain hs | ⟨r, -, hc⟩ := intStage_case s
  · exact hs.symm ▸ h
  · exact int (s := { s with int := none }) h hc

theorem dispatchStage {s : State} (h : StoreAtHead s) : StoreAtHead (dispatchStage s) := by
  have hc := dispatchStage_case s
  generalize Machine.dispatchStage s = t at hc
  cases hc with
  | waits => exact h
  | recovers => exact h.of_tags (by simp) (by simp [State.headTag])
  | enters => exact h.enterQueues _

theorem laterStages (look : Word → Option RecordFields) {s : State} (h : s.dc = none) :
    StoreAtHead (laterStages look s) := by
  have hlsq := storeAtHead_lsqStage h
  have hmul : StoreAtHead (mulStage (lsqStage s)) :=
    hlsq.of_tags (by simp) (State.headTag_congr (mulStage_shares _).idents_eq)
  have hlog : StoreAtHead (logStage (mulStage (lsqStage s))) :=
    hmul.of_tags (by simp) (by simp [State.headTag])
  have hissue : StoreAtHead (issueStage (Machine.intStage (logStage (mulStage (lsqStage s))))) :=
    hlog.intStage.of_tags (by simp) (State.headTag_congr (issueStage_shares _).1.idents_eq)
  exact hissue.dispatchStage.of_tags (by simp [Machine.laterStages])
    (by simp [Machine.laterStages, State.headTag])

end StoreAtHead

/-- Settles O49: of what the LSQ stage lets into the `DC` that the data-cache stage has emptied, a store is
the ROB head (`storeAtHead_lsqStage`), and no later stage of the cycle takes the head from in front of it. -/
theorem storesWaitForTheRobHead : Obligations.StoresWaitForTheRobHead := by
  intro s r hrun hrun' hr hstore
  simp only [State.advance] at hrun' hr ⊢
  have hcase := cycleWith_case s.lookup s
  generalize cycleWith s.lookup s = t at *
  cases hcase with
  | stopped h => exact absurd hrun h
  | commitStops _ h | cacheStops _ _ h => exact absurd hrun' h
  | completes =>
    exact State.headTag_eq_some.1
      (StoreAtHead.laterStages s.lookup (dataCacheStage_empties _) r hr hstore)

end Sys2Proof.Machine

namespace Sys2Proof.Machine

/-! ### A memory instruction alone in the machine (R8, R360 to R364)

The record goes through `DEC`, `DSP`, the queues, `INT` and `DC` one cycle each, nothing else moves, and
commit waits for it. `carrying` says where it is, and the state it is put on holds the rest. -/

/-- The state with these records in IQ, LSQ and ROB, `INT` and `DC`. -/
def State.carrying (iq lsq rob : List Inflight) (int dc : Option Inflight) (s : State) : State :=
  { s with iq := iq, lsq := lsq, rob := rob, int := int, dc := dc }

/-- The state with this record in `DEC` and no other one. -/
def State.decoding (r : Inflight) (s : State) : State :=
  { s.carrying [] [] [] none none with dec := some r }

/-- The state with this record in `DSP` and no other one. -/
def State.dispatching (r : Inflight) (s : State) : State :=
  { s.carrying [] [] [] none none with dsp := some r }

/-- Nothing is in the front end and in the Logical and Multiply units, and fetch delivers nothing. -/
structure BackEndOnly (look : Word → Option RecordFields) (s : State) : Prop where
  running : s.status = .running
  dec : s.dec = none
  dsp : s.dsp = none
  log : s.log = none
  mul1 : s.mul1 = none
  mul2 : s.mul2 = none
  mul3 : s.mul3 = none
  mul4 : s.mul4 = none
  redirectPending : s.redirectPending = false
  branchRecovery : s.branchRecovery = false
  invalid : look s.pc = none

/-- The fields that `BackEndOnly` is about. -/
def State.frontFields (s : State) :=
  (s.status, s.dec, s.dsp, s.log, s.mul1, s.mul2, s.mul3, s.mul4, s.redirectPending, s.branchRecovery, s.pc)

section FrontFields

variable (s : State)

@[simp] theorem State.frontFields_counted : s.counted.frontFields = s.frontFields := rfl
@[simp] theorem State.frontFields_carrying (iq lsq rob : List Inflight) (int dc : Option Inflight) :
    (s.carrying iq lsq rob int dc).frontFields = s.frontFields := rfl
@[simp] theorem State.frontFields_clearSlot (pc : Word) :
    (s.clearSlot pc).frontFields = s.frontFields := rfl
@[simp] theorem State.frontFields_setAgen (pc ea : Word) :
    (s.setAgen pc ea).frontFields = s.frontFields := rfl
@[simp] theorem State.frontFields_setReady (p : Phys) (b : Bool) :
    (s.setReady p b).frontFields = s.frontFields := rfl
@[simp] theorem State.frontFields_bind (a : Reg) (p : Phys) :
    (s.bind a p).frontFields = s.frontFields := rfl
@[simp] theorem State.frontFields_delivered (p : Phys) (v : Word) :
    (s.delivered p v).frontFields = s.frontFields := rfl
@[simp] theorem State.frontFields_writeReg (r : Reg) (v : Word) :
    (s.writeReg r v).frontFields = s.frontFields := rfl
@[simp] theorem State.frontFields_release (p : Phys) :
    (s.release p).frontFields = s.frontFields := rfl
@[simp] theorem State.frontFields_retireHead : s.retireHead.frontFields = s.frontFields := rfl
@[simp] theorem State.frontFields_memWrite (a : Nat) (v : Word) :
    (s.memWrite a v).frontFields = s.frontFields := rfl
@[simp] theorem State.frontFields_setStoreDone (pc : Word) :
    (s.setStoreDone pc).frontFields = s.frontFields := rfl
@[simp] theorem State.frontFields_setMemReady (a : Word) (b : Bool) :
    (s.setMemReady a b).frontFields = s.frontFields := by simp [State.frontFields]
@[simp] theorem State.frontFields_issueEffect (i : Instr) (e : Inflight) :
    (issueEffect i e s).frontFields = s.frontFields := by simp [State.frontFields]

end FrontFields

variable {look : Word → Option RecordFields}

theorem BackEndOnly.of_frontFields {s t : State} (h : BackEndOnly look s)
    (hsame : t.frontFields = s.frontFields) : BackEndOnly look t := by
  simp only [State.frontFields, Prod.mk.injEq] at hsame
  obtain ⟨hrun, hdec, hdsp, hlog, h1, h2, h3, h4, hr, hb, hpc⟩ := hsame
  exact ⟨hrun ▸ h.running, hdec ▸ h.dec, hdsp ▸ h.dsp, hlog ▸ h.log, h1 ▸ h.mul1, h2 ▸ h.mul2,
    h3 ▸ h.mul3, h4 ▸ h.mul4, hr ▸ h.redirectPending, hb ▸ h.branchRecovery, hpc ▸ h.invalid⟩

/-- R101: a cycle in which only commit, data-cache, LSQ, `INT` and issue have something to do. -/
theorem cycleWith_backEnd {s c t : State} (hrun : s.status = .running)
    (hcommit : commitStage s.counted = c) (hc : BackEndOnly look c)
    (hstages : issueStage (intStage (lsqStage (dataCacheStage c))) = t) (ht : BackEndOnly look t) :
    cycleWith look s = t := by
  have hmul : mulStage (lsqStage (dataCacheStage c)) = lsqStage (dataCacheStage c) :=
    mulStage_none (by simp [hc.mul1]) (by simp [hc.mul2]) (by simp [hc.mul3]) (by simp [hc.mul4])
  have hlog : logStage (lsqStage (dataCacheStage c)) = lsqStage (dataCacheStage c) :=
    logStage_none (by simp [hc.log])
  have hcache : (dataCacheStage c).status = .running := by
    have := ht.running
    rw [← hstages] at this
    simpa using this
  have hlater : laterStages look (dataCacheStage c) = t := by
    rw [laterStages, hmul, hlog, hstages, dispatchStage_none ht.dsp ht.branchRecovery,
      decodeStage_none ht.dec, fetchStage_invalid ht.invalid ht.redirectPending]
  have hcycle : cycleWith look s = _ := if_pos hrun
  rw [hcycle]
  simp only [State.counted] at hcommit
  simp only [hcommit, hc.running, hcache, if_true, hlater]

/-- A cycle that neither retires nor stops is followed by the next one. -/
theorem runToRetirement_continues {s t : State} (n : Nat) (hcycle : cycleWith look s = t)
    (ht : t.status = .running) (hretired : t.retired = s.retired) :
    runToRetirement look (n + 1) s = runToRetirement look n t := by
  rw [runToRetirement_succ, hcycle, continueRun_more ht hretired]

theorem runToRetirement_retires {s t : State} (n : Nat) (hcycle : cycleWith look s = t)
    (hretired : t.retired ≠ s.retired) : runToRetirement look (n + 1) s = t := by
  rw [runToRetirement_succ, hcycle, continueRun_retired hretired]

/-! #### Commit waits -/

theorem needsPd_of_destReg {i : Instr} {rd : Reg} (h : destReg i = some rd) : needsPd i = true := by
  cases i with
  | store | str | cmp | bz | bnz | jump | halt => cases h
  | _ => rfl

/-- R282 to R289: a head without a fault stays where it is while its gate is shut. -/
theorem commitStage_waits {s : State} {h : Inflight} {rest : List Inflight} (hrob : s.rob = h :: rest)
    (hexc : h.exc = none) (hclass : h.unitClass.isSome = true) (hgate : s.commitGate h = false) :
    commitStage s = s := by
  have hc := commitStage_case s
  generalize commitStage s = t at hc
  have head {a : Inflight} {l : List Inflight} (ha : s.rob = a :: l) : a = h := by
    rw [hrob] at ha
    exact (List.cons.inj ha).1.symm
  have op {i : Instr} (hi : h.insn = .op i) := Inflight.kinds_of_op hi
  cases hc with
  | waits => rfl
  | faults ha hf =>
    obtain rfl := head ha
    simp [hexc] at hf
  | @writes a _ i _ p ha _ hi hrd hp hready =>
    obtain rfl := head ha
    simp [State.commitGate, (op hi).needsPd, needsPd_of_destReg hrd, hp, hready] at hgate
  | frees ha _ hi hp hready =>
    obtain rfl := head ha
    simp [State.commitGate, (op hi).needsPd, needsPd, hp, hready] at hgate
  | retires ha _ _ _ hopen =>
    obtain rfl := head ha
    simp [hopen] at hgate
  | jumps ha _ hi htaken =>
    obtain rfl := head ha
    simp [State.commitGate, (op hi).needsPd, (op hi).isBranch, (op hi).isStoreRecord, (op hi).isJump,
      needsPd, isCondBranch, isStore, isJumpOp, htaken] at hgate
  | halts ha _ hi =>
    obtain rfl := head ha
    simp [(op hi).unitClass, fuClass] at hclass

/-! #### The record -/

/-- A record of the memory instruction `i` that reads its operands from the registers. -/
structure Inflight.MemoryRecord (e : Inflight) (i : Instr) : Prop where
  insn : e.insn = .op i
  memory : (isLoad i || isStore i) = true
  ps1 : e.ps1 = none
  ps2 : e.ps2 = none
  ps3 : e.ps3 = none
  exc : e.exc = none

theorem SameRecord.memoryRecord {e r : Inflight} {i : Instr} (hr : SameRecord e r)
    (h : e.MemoryRecord i) : r.MemoryRecord i :=
  ⟨hr.insn_eq.trans h.insn, h.memory, hr ▸ h.ps1, hr ▸ h.ps2, hr ▸ h.ps3, hr.exc_eq.trans h.exc⟩

theorem issued_sameRecord (e : Inflight) (s : State) (i : Instr) : SameRecord e (e.issued s i) := by
  cases i <;> rfl

/-- R185: the issued record differs from the queued one in the operand values alone. -/
theorem issued_operands (e : Inflight) (s : State) (i : Instr) :
    { e with v1 := (e.issued s i).v1, v2 := (e.issued s i).v2, v3 := (e.issued s i).v3 } =
      e.issued s i := by
  cases i <;> rfl

theorem fuClass_of_memory {i : Instr} (h : (isLoad i || isStore i) = true) :
    fuClass i = some .integer := by
  cases i with
  | load | ldr | store | str => rfl
  | _ => cases h

/-- R360, R245: the effective address of a memory instruction, from the registers. -/
def State.addressOf (s : State) : Instr → Word
  | .load _ a imm => effectiveAddress (s.readReg a) imm
  | .ldr _ a b => effectiveAddress (s.readReg a) (s.readReg b)
  | .store _ b imm => effectiveAddress (s.readReg b) imm
  | .str _ b c => effectiveAddress (s.readReg b) (s.readReg c)
  | _ => 0#32

/-- R186: what the issue of a load in state `s` does to `t`. -/
theorem issueEffect_issued_load {e : Inflight} {i : Instr} (hload : isLoad i = true) {p : Phys}
    (hp : e.pd = some p) (s t : State) : issueEffect i (e.issued s i) t = t.setReady p false := by
  have hpd := (issued_sameRecord e s i).pd_eq.trans hp
  cases i with
  | load | ldr => simp only [issueEffect, clearReadyOf, hpd]
  | _ => cases hload

namespace Inflight.MemoryRecord

variable {e : Inflight} {i : Instr}

/-- R162: so it is with its age tag. -/
theorem dispatched (he : e.MemoryRecord i) (s : State) : (s.dispatched e).MemoryRecord i :=
  ⟨he.insn, he.memory, he.ps1, he.ps2, he.ps3, rfl⟩

/-- R185: so it is with its operands. -/
theorem issued (he : e.MemoryRecord i) (s : State) : (e.issued s i).MemoryRecord i :=
  (issued_sameRecord e s i).memoryRecord he

theorem isMemory (he : e.MemoryRecord i) : e.isMemory = true :=
  (Inflight.kinds_of_op he.insn).isMemory.trans he.memory

theorem needsIq (he : e.MemoryRecord i) : e.needsIq = true := by
  obtain ⟨hi, hmem⟩ := he
  cases i with
  | halt => cases hmem
  | _ => simp [Inflight.needsIq, hi]

theorem unitClass (he : e.MemoryRecord i) : e.unitClass = some .integer :=
  (Inflight.kinds_of_op he.insn).unitClass.trans (fuClass_of_memory he.memory)

theorem gateReady (he : e.MemoryRecord i) (s : State) : e.gateReady s i := by
  obtain ⟨-, -, h1, h2, h3, -⟩ := he
  cases i <;> simp [Inflight.gateReady, h1, h2, h3]

/-- R245: what `INT` does with the record that has been issued in state `s`. -/
theorem intAction_issued (he : e.MemoryRecord i) (s t : State) :
    intAction (e.issued s i) t = t.setAgen e.pc (s.addressOf i) := by
  have hi := (he.issued s).insn
  unfold intAction
  rw [hi]
  obtain ⟨-, hmem, h1, h2, h3, -⟩ := he
  cases i with
  | load | ldr | store | str =>
    simp [unitLoad, unitLdr, unitStore, unitStr, Inflight.issued, State.operandRead, State.addressOf,
      h1, h2, h3]
  | _ => cases hmem

/-- R186: what the issue of a store in state `s` does to `t`. -/
theorem issueEffect_store (he : e.MemoryRecord i) (hstore : isStore i = true) (s t : State) :
    issueEffect i (e.issued s i) t = t.setMemReady (s.addressOf i) false := by
  obtain ⟨-, -, h1, h2, h3, -⟩ := he
  cases i with
  | store | str => simp [issueEffect, Inflight.issued, State.operandRead, State.addressOf, h1, h2, h3]
  | _ => cases hstore

theorem operandValue_one (he : e.MemoryRecord i) {a : Reg} (ha : sourceReg i .one = some a) (s : State) :
    operandValue s e .one = s.readReg a := by
  simp [operandValue_eq he.insn ha, State.operandRead, Inflight.ps, he.ps1]

end Inflight.MemoryRecord

/-! #### The stages a memory instruction goes through -/

section Stages

variable {s : State} {e : Inflight} {i : Instr} {rest : List Inflight}

theorem clearReadyOf_some {p : Phys} (hp : e.pd = some p) : clearReadyOf e s = s.setReady p false := by
  simp [clearReadyOf, hp]

theorem onTag_singleton (f : Inflight → Inflight) (e : Inflight) : onTag e.seq f [e] = [f e] := by
  simp [onTag]

/-- R212. -/
theorem lsqStage_load (hlsq : s.lsq = e :: rest) (hdc : s.dc = none) (hi : e.insn = .op i)
    (hload : isLoad i = true) (haddr : s.agenReadyAt e.pc = true) :
    lsqStage s =
      { (clearReadyOf e s).onRobEntry e.seq fun h => { h with addr := s.agenAddrAt e.pc } with
        dc := some { e with addr := s.agenAddrAt e.pc }
        lsq := rest } := by
  simp [lsqStage, hlsq, hdc, lsqAction, hi, hload, lsqLoad, haddr]

/-- R213. -/
theorem lsqStage_store (hlsq : s.lsq = e :: rest) (hdc : s.dc = none) (hi : e.insn = .op i)
    (hstore : isStore i = true) (hgate : s.storeGateOpen e = true) :
    lsqStage s =
      { (s.setMemReady (s.agenAddrAt e.pc) false).onRobEntry e.seq fun h =>
          { h with data := operandValue s e .one, addr := s.agenAddrAt e.pc } with
        dc := some { e with data := operandValue s e .one, addr := s.agenAddrAt e.pc }
        lsq := rest } := by
  simp [lsqStage, hlsq, hdc, lsqAction, hi, isLoad_of_isStore hstore, hstore, lsqStore, hgate]

/-- R216, at a valid address. -/
theorem dataCacheStage_load (hdc : s.dc = some e) (hi : e.insn = .op i) (hload : isLoad i = true)
    (hvalid : dataAddressValid e.addr = true) :
    dataCacheStage s = ({ s with dc := none } : State).writeBack e.pd (s.memRead (location e.addr)) := by
  simp only [dataCacheStage, hdc, dcAction, hi, hload, if_true, dcLoad, hvalid]
  rfl

/-- R217, at a valid address. -/
theorem dataCacheStage_store (hdc : s.dc = some e) (hi : e.insn = .op i) (hstore : isStore i = true)
    (hvalid : dataAddressValid e.addr = true) :
    dataCacheStage s =
      ((({ s with dc := none } : State).memWrite (location e.addr) e.data).setMemReady e.addr
        true).setStoreDone e.pc := by
  simp [dataCacheStage, hdc, dcAction, hi, isLoad_of_isStore hstore, hstore, dcStore, hvalid]

/-- R282, R283: a load writes its register and no flag. -/
theorem commitStage_load (hrob : s.rob = e :: rest) (hexc : e.exc = none) (hi : e.insn = .op i)
    (hload : isLoad i = true) {rd : Reg} (hrd : destReg i = some rd) {p : Phys} (hp : e.pd = some p)
    (hready : s.readyBit p = true) : commitStage s = commitWrite rd false p s := by
  have hready : s.ready[p] = true := hready
  cases i with
  | load | ldr =>
    obtain rfl := Option.some.inj hrd
    simp [commitStage, hrob, hexc, commitAction, hi, commitDest, hp, hready]
  | _ => cases hload

/-- R287. -/
theorem commitStage_store (hrob : s.rob = e :: rest) (hexc : e.exc = none) (hi : e.insn = .op i)
    (hstore : isStore i = true) (hdone : s.storeDoneAt e.pc = true) :
    commitStage s = s.retireHead := by
  cases i with
  | store | str => simp [commitStage, hrob, hexc, commitAction, hi, commitStore, hdone]
  | _ => cases hstore

end Stages

/-! #### The cycles of the back end -/

section BackEnd

variable {s : State} {e : Inflight} {i : Instr}

theorem setMemReady_carrying (a : Word) (ready : Bool) (iq lsq rob : List Inflight)
    (int dc : Option Inflight) (s : State) :
    (s.carrying iq lsq rob int dc).setMemReady a ready =
      (s.setMemReady a ready).carrying iq lsq rob int dc := by
  unfold State.setMemReady
  split <;> rfl

theorem issueEffect_carrying (i : Instr) (e : Inflight) (iq lsq rob : List Inflight)
    (int dc : Option Inflight) (s : State) :
    issueEffect i e (s.carrying iq lsq rob int dc) =
      (issueEffect i e s).carrying iq lsq rob int dc := by
  cases i with
  | load | ldr | movc => simp only [issueEffect, clearReadyOf]; split <;> rfl
  | store | str => exact setMemReady_carrying _ _ _ _ _ _ _ _
  | _ => rfl

/-- R210: a memory instruction at the LSQ head waits for its address. -/
theorem lsqStage_waits {rest : List Inflight} (hlsq : s.lsq = e :: rest) (he : e.MemoryRecord i)
    (haddr : s.agenReadyAt e.pc = false) : lsqStage s = s := by
  have hgate : s.storeGateOpen e = false := by simp [State.storeGateOpen, haddr]
  simp only [lsqStage, hlsq, lsqAction, he.insn, lsqLoad, lsqStore, haddr, hgate]
  have hmem := he.memory
  cases i with
  | load | ldr | store | str => simp [isLoad, isStore]
  | _ => cases hmem

/-- A cycle in which the one record there is moves on and commit waits for it. -/
theorem cycleWith_waits (hs : BackEndOnly look s) (he : e.MemoryRecord i) (hgate : s.commitGate e = false)
    {iq lsq : List Inflight} {int dc : Option Inflight} {t : State}
    (hstages : issueStage (intStage (lsqStage (dataCacheStage (s.counted.carrying iq lsq [e] int dc)))) = t)
    (ht : t.frontFields = s.frontFields) : cycleWith look (s.carrying iq lsq [e] int dc) = t :=
  cycleWith_backEnd hs.running
    (commitStage_waits (s := s.counted.carrying iq lsq [e] int dc) rfl he.exc (by simp [he.unitClass]) hgate)
    (hs.of_frontFields (by simp)) hstages (hs.of_frontFields ht)

/-- A cycle in which the one record there is retires. -/
theorem cycleWith_commits (hs : BackEndOnly look s) {t : State}
    (hcommit : commitStage (s.counted.carrying [] [] [e] none none) = t.carrying [] [] [] none none)
    (ht : t.frontFields = s.frontFields) :
    cycleWith look (s.carrying [] [] [e] none none) = t.carrying [] [] [] none none := by
  have hback : BackEndOnly look (t.carrying [] [] [] none none) := hs.of_frontFields (by simp [ht])
  refine cycleWith_backEnd hs.running hcommit hback ?_ hback
  rw [dataCacheStage_none rfl, lsqStage_nil rfl, intStage_none rfl, issueStage_nil rfl]

/-- R186, R187: the cycle that issues the record to `INT`. -/
theorem cycleWith_issues (hs : BackEndOnly look s) (he : e.MemoryRecord i)
    (hgate : s.commitGate e = false) (haddr : s.agenReadyAt e.pc = false) :
    cycleWith look (s.carrying [e] [e] [e] none none) =
      (issueEffect i (e.issued s i) s.counted).carrying [] [e.issued s i] [e.issued s i]
        (some (e.issued s i)) none := by
  have hwaits : lsqStage (s.counted.carrying [e] [e] [e] none none) =
      s.counted.carrying [e] [e] [e] none none := lsqStage_waits rfl he haddr
  have hissue := issueStage_alone (s := s.counted.carrying [e] [e] [e] none none) he.insn
    (fuClass_of_memory he.memory) (he.gateReady _) rfl (by simp [State.carrying])
  refine cycleWith_waits hs he hgate ?_ (by simp)
  have hissued : e.issued (s.counted.carrying [e] [e] [e] none none) i = e.issued s i :=
    issued_congr rfl rfl e i
  rw [dataCacheStage_none rfl, hwaits, intStage_none rfl, hissue, hissued, issueEffect_carrying]
  simp only [State.carrying, List.map_cons, List.map_nil, if_true, issued_operands]
  apply State.ext <;> simp [State.counted]

/-- R245: the cycle in which `INT` computes the effective address. -/
theorem cycleWith_addresses (hs : BackEndOnly look s) (he : e.MemoryRecord i)
    (hgate : s.commitGate e = false) (haddr : s.agenReadyAt e.pc = false) {ea : Word}
    (hint : ∀ t : State, intAction e t = t.setAgen e.pc ea) :
    cycleWith look (s.carrying [] [e] [e] (some e) none) =
      (s.counted.setAgen e.pc ea).carrying [] [e] [e] none none := by
  have hwaits : lsqStage (s.counted.carrying [] [e] [e] (some e) none) =
      s.counted.carrying [] [e] [e] (some e) none := lsqStage_waits rfl he haddr
  have hunit : intStage (s.counted.carrying [] [e] [e] (some e) none) =
      (s.counted.setAgen e.pc ea).carrying [] [e] [e] none none := hint _
  refine cycleWith_waits hs he hgate ?_ (by simp)
  rw [dataCacheStage_none rfl, hwaits, hunit, issueStage_nil rfl]

/-- R212: the cycle in which a load leaves the LSQ. -/
theorem cycleWith_loads (hs : BackEndOnly look s) (he : e.MemoryRecord i) (hload : isLoad i = true)
    {p : Phys} (hp : e.pd = some p) (hgate : s.commitGate e = false)
    (haddr : s.agenReadyAt e.pc = true) :
    let r := { e with addr := s.agenAddrAt e.pc }
    cycleWith look (s.carrying [] [e] [e] none none) =
      (s.counted.setReady p false).carrying [] [] [r] none (some r) := by
  intro r
  have hlsq : lsqStage (s.counted.carrying [] [e] [e] none none) =
      (s.counted.setReady p false).carrying [] [] [r] none (some r) := by
    rw [lsqStage_load (s := s.counted.carrying [] [e] [e] none none) rfl rfl he.insn hload haddr,
      clearReadyOf_some hp]
    simp only [State.onRobEntry, State.setReady, State.carrying, onTag_singleton]
    rfl
  refine cycleWith_waits hs he hgate ?_ (by simp)
  rw [dataCacheStage_none rfl, hlsq, intStage_none rfl, issueStage_nil rfl]

/-- R213: the cycle in which a store leaves the LSQ, being the ROB head. -/
theorem cycleWith_stores (hs : BackEndOnly look s) (he : e.MemoryRecord i) (hstore : isStore i = true)
    {a : Reg} (ha : sourceReg i .one = some a) (hgate : s.commitGate e = false)
    (haddr : s.agenReadyAt e.pc = true) :
    let r := { e with data := s.readReg a, addr := s.agenAddrAt e.pc }
    cycleWith look (s.carrying [] [e] [e] none none) =
      (s.counted.setMemReady (s.agenAddrAt e.pc) false).carrying [] [] [r] none (some r) := by
  intro r
  have hlsq : lsqStage (s.counted.carrying [] [e] [e] none none) =
      (s.counted.setMemReady (s.agenAddrAt e.pc) false).carrying [] [] [r] none (some r) := by
    have hopen : (s.counted.carrying [] [e] [e] none none).storeGateOpen e = true := by
      have hready : operandReady (s.counted.carrying [] [e] [e] none none) e .one = true :=
        operandReady_iff.2 fun p hp => absurd (he.ps1.symm.trans hp) (by simp)
      have hhead : (s.counted.carrying [] [e] [e] none none).isRobHead e = true := beq_self_eq_true e.seq
      simp only [State.storeGateOpen, hready, hhead, Bool.and_true]
      exact haddr
    rw [lsqStage_store rfl rfl he.insn hstore hopen, he.operandValue_one ha, setMemReady_carrying]
    simp only [State.onRobEntry, State.carrying, onTag_singleton]
    rfl
  refine cycleWith_waits hs he hgate ?_ (by simp)
  rw [dataCacheStage_none rfl, hlsq, intStage_none rfl, issueStage_nil rfl]

/-- R216: the cycle in which a load reads memory. -/
theorem cycleWith_reads (hs : BackEndOnly look s) (he : e.MemoryRecord i) (hload : isLoad i = true)
    {p : Phys} (hp : e.pd = some p) (hgate : s.commitGate e = false)
    (hvalid : dataAddressValid e.addr = true) :
    cycleWith look (s.carrying [] [] [e] none (some e)) =
      (s.counted.delivered p (s.memRead (location e.addr))).carrying [] [] [e] none none := by
  have hcache : dataCacheStage (s.counted.carrying [] [] [e] none (some e)) =
      (s.counted.delivered p (s.memRead (location e.addr))).carrying [] [] [e] none none := by
    rw [dataCacheStage_load rfl he.insn hload hvalid, hp]
    rfl
  refine cycleWith_waits hs he hgate ?_ (by simp)
  rw [hcache, lsqStage_nil rfl, intStage_none rfl, issueStage_nil rfl]

/-- R217: the cycle in which a store writes memory. -/
theorem cycleWith_writes (hs : BackEndOnly look s) (he : e.MemoryRecord i) (hstore : isStore i = true)
    (hgate : s.commitGate e = false) (hvalid : dataAddressValid e.addr = true) :
    cycleWith look (s.carrying [] [] [e] none (some e)) =
      (((s.counted.memWrite (location e.addr) e.data).setMemReady e.addr true).setStoreDone
        e.pc).carrying [] [] [e] none none := by
  have hcache : dataCacheStage (s.counted.carrying [] [] [e] none (some e)) =
      (((s.counted.memWrite (location e.addr) e.data).setMemReady e.addr true).setStoreDone
        e.pc).carrying [] [] [e] none none := by
    rw [dataCacheStage_store rfl he.insn hstore hvalid]
    exact congrArg (State.setStoreDone · e.pc)
      (setMemReady_carrying e.addr true [] [] [e] none none (s.counted.memWrite (location e.addr) e.data))
  refine cycleWith_waits hs he hgate ?_ (by simp)
  rw [hcache, lsqStage_nil rfl, intStage_none rfl, issueStage_nil rfl]

/-- R282: the cycle in which a load commits. -/
theorem cycleWith_commits_load (hs : BackEndOnly look s) (he : e.MemoryRecord i)
    (hload : isLoad i = true) {rd : Reg} (hrd : destReg i = some rd) {p : Phys} (hp : e.pd = some p)
    (hready : s.readyBit p = true) :
    cycleWith look (s.carrying [] [] [e] none none) =
      (((s.counted.writeReg rd (s.valueOf p)).release p).retireHead).carrying [] [] [] none none := by
  have hcommit : commitStage (s.counted.carrying [] [] [e] none none) =
      (((s.counted.writeReg rd (s.valueOf p)).release p).retireHead).carrying [] [] [] none none := by
    rw [commitStage_load (s := s.counted.carrying [] [] [e] none none) rfl he.exc he.insn hload hrd hp hready]
    apply State.ext <;> simp [commitWrite, commitFlag, State.carrying, State.counted, State.valueOf, hs.dsp]
  exact cycleWith_commits hs hcommit (by simp)

/-- R287: the cycle in which a store commits. -/
theorem cycleWith_commits_store (hs : BackEndOnly look s) (he : e.MemoryRecord i)
    (hstore : isStore i = true) (hdone : s.storeDoneAt e.pc = true) :
    cycleWith look (s.carrying [] [] [e] none none) =
      s.counted.retireHead.carrying [] [] [] none none :=
  cycleWith_commits hs
    (commitStage_store (s := s.counted.carrying [] [] [e] none none) rfl he.exc he.insn hstore hdone)
    (by simp)

end BackEnd

/-! #### The cycles of the front end -/

section FrontEnd

variable {s : State} {r : Inflight} {i : Instr}

theorem renameSources_eq (hrm : s.rm = []) (hr : r.MemoryRecord i) : renameSources s r = r := by
  obtain ⟨-, -, h1, h2, h3, -⟩ := hr
  have hnone (o : Option Reg) : o.bind s.resolve = none := by
    cases o <;> simp [State.resolve, resolveIn, hrm]
  cases r
  simp_all [renameSources]

/-- R134, R136: a load takes the oldest free register. -/
theorem decodeStage_load (hdec : s.dec = some r) (hdsp : s.dsp = none) (hrm : s.rm = [])
    (hr : r.MemoryRecord i) (hload : isLoad i = true) {rd : Reg} (hrd : destReg i = some rd) {p : Phys}
    {rest : List Phys} (hfl : s.fl = p :: rest) :
    decodeStage s =
      { ((({ s with fl := rest } : State).setReady p false).bind rd p) with
        dsp := some { r with pd := some p }, dec := none } := by
  have hstall : s.decodeStalled r = false := by simp [State.decodeStalled, hdsp, hfl]
  have hrename : renameAction r s = renameDest rd r s := by
    cases i with
    | load | ldr =>
      obtain rfl := Option.some.inj hrd
      simp [renameAction, hr.insn]
    | _ => cases hload
  have halloc : s.allocate = some (p, { s with fl := rest }) := by simp [State.allocate, hfl]
  simp [decodeStage, hdec, hstall, decodeRecord, renameSources_eq hrm hr, hrename, renameDest, halloc]

/-- R134, R141: a store takes no register. -/
theorem decodeStage_store (hdec : s.dec = some r) (hdsp : s.dsp = none) (hrm : s.rm = [])
    (hr : r.MemoryRecord i) (hstore : isStore i = true) :
    decodeStage s = { s with dsp := some r, dec := none } := by
  have hpd : needsPd i = false := by
    cases i with
    | store | str => rfl
    | _ => cases hstore
  have hstall : s.decodeStalled r = false := by
    simp [State.decodeStalled, hdsp, (Inflight.kinds_of_op hr.insn).needsPd, hpd]
  have hrename : renameAction r s = (r, s) := by
    cases i with
    | store | str => simp [renameAction, hr.insn]
    | _ => cases hstore
  simp [decodeStage, hdec, hstall, decodeRecord, renameSources_eq hrm hr, hrename]

theorem BackEndOnly.inUnits_carrying (hs : BackEndOnly look s) :
    (s.carrying [] [] [] none none).inUnits = [] := by
  simp [State.inUnits, State.carrying, hs.log, hs.mul1, hs.mul2, hs.mul3, hs.mul4]

/-- The cycle that decodes the one record there is. -/
theorem cycleWith_decodes (hs : BackEndOnly look s) (r : Inflight) :
    cycleWith look (s.decoding r) = decodeStage (s.counted.decoding r) := by
  have hdispatch : dispatchStage (s.counted.decoding r) = s.counted.decoding r :=
    dispatchStage_none hs.dsp hs.branchRecovery
  have hfetch : fetchStage look (decodeStage (s.counted.decoding r)) = decodeStage (s.counted.decoding r) :=
    fetchStage_invalid ((decodeStage_pc _).symm ▸ hs.invalid)
      ((decodeStage_redirectPending _).trans hs.redirectPending)
  calc cycleWith look (s.decoding r)
      _ = fetchStage look (decodeStage (dispatchStage (s.counted.decoding r))) :=
        cycleWith_frontEnd look hs.running rfl rfl rfl hs.inUnits_carrying
      _ = decodeStage (s.counted.decoding r) := by rw [hdispatch, hfetch]

/-- R134, R136: the cycle that decodes a load. -/
theorem cycleWith_decodes_load (hs : BackEndOnly look s) (hrm : s.rm = []) (hr : r.MemoryRecord i)
    (hload : isLoad i = true) {rd : Reg} (hrd : destReg i = some rd) {p : Phys} {rest : List Phys}
    (hfl : s.fl = p :: rest) :
    cycleWith look (s.decoding r) =
      ((({ s.counted with fl := rest } : State).setReady p false).bind rd p).dispatching
        { r with pd := some p } := by
  rw [cycleWith_decodes hs,
    decodeStage_load (s := s.counted.decoding r) rfl hs.dsp hrm hr hload hrd hfl]
  apply State.ext <;> simp [State.decoding, State.dispatching, State.carrying, State.counted, hs.dec]

/-- R134, R141: the cycle that decodes a store. -/
theorem cycleWith_decodes_store (hs : BackEndOnly look s) (hrm : s.rm = []) (hr : r.MemoryRecord i)
    (hstore : isStore i = true) : cycleWith look (s.decoding r) = s.counted.dispatching r := by
  rw [cycleWith_decodes hs, decodeStage_store (s := s.counted.decoding r) rfl hs.dsp hrm hr hstore]
  apply State.ext <;> simp [State.decoding, State.dispatching, State.carrying, State.counted, hs.dec]

/-- R162, R164, R165: the cycle that dispatches the one record there is. -/
theorem cycleWith_dispatches (hs : BackEndOnly look s) (hr : r.MemoryRecord i) :
    let e := s.dispatched r
    cycleWith look (s.dispatching r) =
      ({ s.counted.clearSlot r.pc with nextSeq := s.nextSeq + 1 } : State).carrying [e] [e] [e] none
        none := by
  intro e
  let t : State := ({ s.counted.clearSlot r.pc with nextSeq := s.nextSeq + 1 } : State).carrying
    [e] [e] [e] none none
  have hroom : (s.counted.dispatching r).hasRoomFor r = true := by
    simp [State.hasRoomFor, State.dispatching, State.carrying, Config.robCap, Config.iqCap, Config.lsqCap,
      State.slotFree]
  have henter : enterQueues r (s.counted.dispatching r) = t := by
    rw [enterQueues_eq]
    simp only [hr.isMemory, hr.needsIq, if_true]
    apply State.ext <;>
      simp [t, e, State.dispatching, State.carrying, State.counted, State.dispatched, hs.dsp]
  have hdispatch : dispatchStage (s.counted.dispatching r) = t := by
    have hb : (s.counted.dispatching r).branchRecovery = false := hs.branchRecovery
    simp only [dispatchStage, hb]
    exact (if_pos hroom).trans henter
  calc cycleWith look (s.dispatching r)
      _ = fetchStage look (decodeStage (dispatchStage (s.counted.dispatching r))) :=
        cycleWith_frontEnd look hs.running rfl rfl rfl hs.inUnits_carrying
      _ = t := by
        rw [hdispatch, decodeStage_none (s := t) hs.dec,
          fetchStage_invalid (s := t) hs.invalid hs.redirectPending]

end FrontEnd

/-! #### The whole path -/

section Path

variable {s : State} {e : Inflight} {i : Instr}

/-- The gate of a load is its register's (R282). -/
theorem commitGate_load (he : e.MemoryRecord i) (hload : isLoad i = true) {p : Phys} (hp : e.pd = some p) :
    s.commitGate e = s.readyBit p := by
  have hpd : needsPd i = true := by
    cases i with
    | load | ldr => rfl
    | _ => cases hload
  simp [State.commitGate, (Inflight.kinds_of_op he.insn).needsPd, hpd, hp]

/-- The gate of a store is its slot's (R287). -/
theorem commitGate_store (he : e.MemoryRecord i) (hstore : isStore i = true) :
    s.commitGate e = s.storeDoneAt e.pc := by
  have hk := Inflight.kinds_of_op he.insn
  cases i with
  | store | str =>
    simp [State.commitGate, hk.needsPd, hk.isBranch, hk.isStoreRecord, needsPd, isCondBranch, isStore]
  | _ => cases hstore

/-- The gate that is shut when the record issues is shut behind it (R186). -/
theorem commitGate_issued (hgate : s.commitGate e = false) :
    (issueEffect i (e.issued s i) s.counted).commitGate (e.issued s i) = false := by
  have hsame := issued_sameRecord e s i
  refine commitGate_shut hsame.ident_eq (fun p _ h => issueEffect_readyBit h) (fun h => hsame.done_eq ▸ h)
    (fun _ h => ?_) (fun _ h => ?_) hgate
  · simpa [State.storeDoneAt] using h
  · simpa using h

/-- R187, R245: from the queues to the address. -/
theorem runToRetirement_addresses (n : Nat) (hs : BackEndOnly look s) (he : e.MemoryRecord i)
    (hgate : s.commitGate e = false) (haddr : s.agenReadyAt e.pc = false) :
    let r := e.issued s i
    runToRetirement look (n + 2) (s.carrying [e] [e] [e] none none) =
      runToRetirement look n (((issueEffect i r s.counted).counted.setAgen e.pc
        (s.addressOf i)).carrying [] [r] [r] none none) := by
  intro r
  have hpc : r.pc = e.pc := (issued_sameRecord e s i).pc_eq
  have hint := he.intAction_issued s
  rw [← hpc] at hint
  have hissues := cycleWith_issues hs he hgate haddr
  have haddresses := cycleWith_addresses (look := look) (s := issueEffect i r s.counted)
    (hs.of_frontFields (by simp)) (he.issued s) (commitGate_issued hgate)
    (by rw [hpc]; simpa [State.agenReadyAt, State.counted] using haddr) hint
  rw [runToRetirement_continues _ hissues, runToRetirement_continues _ haddresses, hpc]
  all_goals simp [State.carrying, State.counted, hs.running]

theorem addressOf_congr {s t : State} (h : t.x = s.x) (i : Instr) : t.addressOf i = s.addressOf i := by
  cases i <;> simp [State.addressOf, State.readReg, h]

/-- The effects of an issue are not about the age tags and the cycle count. -/
theorem issueEffect_counters (i : Instr) (e : Inflight) (s : State) (q n : Nat) :
    issueEffect i e { s with nextSeq := q, cycle := n } =
      { issueEffect i e s with nextSeq := q, cycle := n } := by
  cases i with
  | load | ldr | movc => simp only [issueEffect, clearReadyOf]; split <;> rfl
  | store | str => simp only [issueEffect, State.setMemReady]; split <;> rfl
  | _ => rfl

/-- R162, R187, R245: from `DSP` to the address. -/
theorem runToRetirement_dispatches (n : Nat) (hs : BackEndOnly look s) {r : Inflight}
    (hr : r.MemoryRecord i) (hpd : ∀ p : Phys, r.pd = some p → s.readyBit p = false) :
    let e := (s.dispatched r).issued s i
    runToRetirement look (n + 3) (s.dispatching r) =
      runToRetirement look n
        (({ (issueEffect i e (s.clearSlot r.pc)).setAgen r.pc (s.addressOf i) with
          nextSeq := s.nextSeq + 1, cycle := s.cycle + 3 } : State).carrying [] [e] [e] none none) := by
  intro e
  have hd := hr.dispatched s
  let t : State := { s.clearSlot r.pc with nextSeq := s.nextSeq + 1, cycle := s.cycle + 1 }
  have ht : BackEndOnly look t := hs.of_frontFields rfl
  have hdispatches : cycleWith look (s.dispatching r) =
      t.carrying [s.dispatched r] [s.dispatched r] [s.dispatched r] none none := cycleWith_dispatches hs hr
  have hgate : t.commitGate (s.dispatched r) = false := by
    refine commitGate_eq_false (by simp [hd.unitClass]) hpd rfl (fun _ => ?_) fun hj => ?_
    · exact (s.storeDoneAt_clearSlot r.pc r.pc).trans (by simp)
    · exact absurd (Inflight.isMemory_of_isJump hj) (by simp [hd.isMemory])
  have haddr : t.agenReadyAt (s.dispatched r).pc = false :=
    (s.agenReadyAt_clearSlot r.pc r.pc).trans (by simp)
  have hissued : (s.dispatched r).issued t i = e := issued_congr rfl rfl _ _
  have hstate : (issueEffect i e t.counted).counted.setAgen r.pc (t.addressOf i) =
      { (issueEffect i e (s.clearSlot r.pc)).setAgen r.pc (s.addressOf i) with
        nextSeq := s.nextSeq + 1, cycle := s.cycle + 3 } := by
    rw [addressOf_congr (show t.x = s.x from rfl)]
    exact congrArg (fun u : State => u.counted.setAgen r.pc (s.addressOf i))
      (issueEffect_counters i e (s.clearSlot r.pc) (s.nextSeq + 1) (s.cycle + 2))
  rw [runToRetirement_continues _ hdispatches hs.running rfl,
    runToRetirement_addresses n ht hd hgate haddr, hissued]
  exact congrArg (fun u : State => runToRetirement look n (u.carrying [] [e] [e] none none)) hstate

/-- R213, R217, R287: from the address to commit, what a store leaves. -/
theorem runToRetirement_stores (n : Nat) (hs : BackEndOnly look s) (he : e.MemoryRecord i)
    (hstore : isStore i = true) {a : Reg} (ha : sourceReg i .one = some a)
    (hdone : s.storeDoneAt e.pc = false) (haddr : s.agenReadyAt e.pc = true)
    (hvalid : dataAddressValid (s.agenAddrAt e.pc) = true) :
    let ea := s.agenAddrAt e.pc
    runToRetirement look (n + 3) (s.carrying [] [e] [e] none none) =
      ({ ((((s.setMemReady ea false).memWrite (location ea) (s.readReg a)).setMemReady ea
          true).setStoreDone e.pc) with
        retired := s.retired + 1, cycle := s.cycle + 3 } : State).carrying [] [] [] none none := by
  intro ea
  let r : Inflight := { e with data := s.readReg a, addr := ea }
  have hr : r.MemoryRecord i := SameRecord.memoryRecord (e := e) rfl he
  let s1 := s.counted.setMemReady ea false
  let s2 := ((s1.counted.memWrite (location ea) (s.readReg a)).setMemReady ea true).setStoreDone e.pc
  have hstores := cycleWith_stores hs he hstore ha ((commitGate_store he hstore).trans hdone) haddr
  have hwrites : cycleWith look (s1.carrying [] [] [r] none (some r)) = s2.carrying [] [] [r] none none :=
    cycleWith_writes (hs.of_frontFields (by simp [s1])) hr hstore
      ((commitGate_store hr hstore).trans (by simpa [s1, State.storeDoneAt, State.counted] using hdone))
      hvalid
  have hcommits : cycleWith look (s2.carrying [] [] [r] none none) =
      s2.counted.retireHead.carrying [] [] [] none none :=
    cycleWith_commits_store (hs.of_frontFields (by simp [s2, s1])) hr
      hstore (by simp [s2, r, State.storeDoneAt_setStoreDone])
  rw [runToRetirement_continues _ hstores, runToRetirement_continues _ hwrites,
    runToRetirement_retires _ hcommits]
  · apply State.ext <;> simp [s2, s1, State.carrying, State.counted, setMemReady_memReady]
  all_goals simp [s2, s1, State.carrying, State.counted, hs.running]

/-- R212, R216, R282: from the address to commit, what a load leaves. -/
theorem runToRetirement_loads (n : Nat) (hs : BackEndOnly look s) (he : e.MemoryRecord i)
    (hload : isLoad i = true) {rd : Reg} (hrd : destReg i = some rd) {p : Phys} (hp : e.pd = some p)
    (hready : s.readyBit p = false) (haddr : s.agenReadyAt e.pc = true)
    (hvalid : dataAddressValid (s.agenAddrAt e.pc) = true) :
    let v := s.memRead (location (s.agenAddrAt e.pc))
    runToRetirement look (n + 3) (s.carrying [] [e] [e] none none) =
      ({ (((s.writeReg rd v).delivered p v).release p) with
        retired := s.retired + 1, cycle := s.cycle + 3 } : State).carrying [] [] [] none none := by
  intro v
  let r : Inflight := { e with addr := s.agenAddrAt e.pc }
  have hr : r.MemoryRecord i := SameRecord.memoryRecord (e := e) rfl he
  let s1 := s.counted.setReady p false
  let s2 := s1.counted.delivered p v
  have hvalue : s2.valueOf p = v := by simp [s2, State.valueOf, State.delivered]
  have hloads := cycleWith_loads hs he hload hp ((commitGate_load he hload hp).trans hready) haddr
  have hreads : cycleWith look (s1.carrying [] [] [r] none (some r)) = s2.carrying [] [] [r] none none :=
    cycleWith_reads (s := s1) (hs.of_frontFields (by simp [s1])) hr hload hp
      ((commitGate_load hr hload hp).trans (by simp [s1, State.readyBit_setReady])) hvalid
  have hcommits := cycleWith_commits_load (look := look) (s := s2) (hs.of_frontFields (by simp [s2, s1]))
    hr hload hrd hp (by simp [s2, State.readyBit, State.delivered])
  rw [hvalue] at hcommits
  rw [runToRetirement_continues _ hloads, runToRetirement_continues _ hreads,
    runToRetirement_retires _ hcommits]
  · apply State.ext <;> simp [s2, s1, State.carrying, State.counted, State.delivered]
  all_goals simp [s2, s1, State.carrying, State.counted, State.delivered, hs.running]

/-- The state behind the cycle that fetches the one record there is (R131). -/
def State.fetchedOn (s : State) : State :=
  { s with pc := nextPc s.pc, btb := s.fetchedBtb, cycle := s.cycle + 1 }

theorem Alone.backEndOnly (h : Alone s) (f : RecordFields) :
    BackEndOnly (delivering f s.pc s.lookup) s.fetchedOn := by
  obtain ⟨h, -, hlast⟩ := h
  exact ⟨h.running, h.dec, h.dsp, h.log, h.mul1, h.mul2, h.mul3, h.mul4, h.redirectPending,
    h.branchRecovery, (delivering_other (nextPc_ne s.pc)).trans hlast⟩

/-- R130, R131: the cycle that fetches the record of `exec`. -/
theorem Alone.runRecord_eq (h : Alone s) (f : RecordFields) :
    runRecord f s = runToRetirement (delivering f s.pc s.lookup) 15
      (s.fetchedOn.decoding (freshRecord f s.pc false)) := by
  obtain ⟨hidle, hpred, -⟩ := h
  rw [runRecord_fetched f hidle]
  congr 1
  apply State.ext <;>
    simp [State.decoding, State.carrying, State.fetchedOn, State.followed, hpred, hidle.iq, hidle.lsq,
      hidle.rob, hidle.int, hidle.dc]

theorem freshRecord_memoryRecord {f : RecordFields} (hf : decodeFields f = .op i)
    (hmem : (isLoad i || isStore i) = true) (pc : Word) : (freshRecord f pc false).MemoryRecord i :=
  ⟨hf, hmem, rfl, rfl, rfl, rfl⟩

/-- From `DSP` to commit: what a store leaves. -/
theorem runToRetirement_dispatches_store (n : Nat) (hs : BackEndOnly look s) {r : Inflight}
    (hr : r.MemoryRecord i) (hstore : isStore i = true) (hpd : r.pd = none) {a : Reg}
    (ha : sourceReg i .one = some a) (hvalid : dataAddressValid (s.addressOf i) = true) :
    let ea := s.addressOf i
    runToRetirement look (n + 6) (s.dispatching r) =
      ({ ((((((s.clearSlot r.pc).setMemReady ea false).setAgen r.pc ea).setMemReady ea false).memWrite
          (location ea) (s.readReg a)).setMemReady ea true).setStoreDone r.pc with
        retired := s.retired + 1, nextSeq := s.nextSeq + 1, cycle := s.cycle + 6 } : State).carrying
        [] [] [] none none := by
  intro ea
  have hd := hr.dispatched s
  have he := hd.issued s
  have hpc : ((s.dispatched r).issued s i).pc = r.pc := (issued_sameRecord (s.dispatched r) s i).pc_eq
  rw [runToRetirement_dispatches (n + 3) hs hr (by simp [hpd]), hd.issueEffect_store hstore]
  generalize (s.dispatched r).issued s i = e at he hpc
  let t : State := { ((s.clearSlot r.pc).setMemReady ea false).setAgen r.pc ea with
    nextSeq := s.nextSeq + 1, cycle := s.cycle + 3 }
  have ht : BackEndOnly look t := hs.of_frontFields (by simp [t, State.frontFields])
  have hdone : t.storeDoneAt e.pc = false := by
    have hcleared := s.storeDoneAt_clearSlot r.pc r.pc
    simpa [t, hpc, State.storeDoneAt] using hcleared
  have hready : t.agenReadyAt e.pc = true := by
    rw [hpc]
    exact (State.agenReadyAt_setAgen _ r.pc ea r.pc).trans (by simp)
  have haddr : t.agenAddrAt e.pc = ea := by
    rw [hpc]
    exact (State.agenAddrAt_setAgen _ r.pc ea r.pc).trans (if_pos rfl)
  have hread : t.readReg a = s.readReg a := by simp [t, State.readReg]
  refine (runToRetirement_stores n ht he hstore ha hdone hready (haddr ▸ hvalid)).trans ?_
  rw [haddr, hread, hpc]
  apply State.ext <;> simp [t, State.carrying, setMemReady_memReady]

/-- From `DSP` to commit: what a load leaves. -/
theorem runToRetirement_dispatches_load (n : Nat) (hs : BackEndOnly look s) {r : Inflight}
    (hr : r.MemoryRecord i) (hload : isLoad i = true) {rd : Reg} (hrd : destReg i = some rd) {p : Phys}
    (hpd : r.pd = some p) (hbusy : s.readyBit p = false)
    (hvalid : dataAddressValid (s.addressOf i) = true) :
    let ea := s.addressOf i
    let v := s.memRead (location ea)
    runToRetirement look (n + 6) (s.dispatching r) =
      ({ ((((s.clearSlot r.pc).setAgen r.pc ea).writeReg rd v).delivered p v).release p with
        retired := s.retired + 1, nextSeq := s.nextSeq + 1, cycle := s.cycle + 6 } : State).carrying
        [] [] [] none none := by
  intro ea v
  have hd := hr.dispatched s
  have he := hd.issued s
  have hsame := issued_sameRecord (s.dispatched r) s i
  have hpc : ((s.dispatched r).issued s i).pc = r.pc := hsame.pc_eq
  have hpd' : ((s.dispatched r).issued s i).pd = r.pd := hsame.pd_eq
  rw [runToRetirement_dispatches (n + 3) hs hr (by simp [hpd, hbusy]),
    issueEffect_issued_load (e := s.dispatched r) hload hpd]
  generalize (s.dispatched r).issued s i = e at he hpc hpd'
  let t : State := { ((s.clearSlot r.pc).setReady p false).setAgen r.pc ea with
    nextSeq := s.nextSeq + 1, cycle := s.cycle + 3 }
  have ht : BackEndOnly look t := hs.of_frontFields (by simp [t, State.frontFields])
  have hready : t.agenReadyAt e.pc = true := by
    rw [hpc]
    exact (State.agenReadyAt_setAgen _ r.pc ea r.pc).trans (by simp)
  have haddr : t.agenAddrAt e.pc = ea := by
    rw [hpc]
    exact (State.agenAddrAt_setAgen _ r.pc ea r.pc).trans (if_pos rfl)
  have hbusy' : t.readyBit p = false := (State.readyBit_setReady _ p p false).trans (if_pos rfl)
  refine (runToRetirement_loads n ht he hload hrd (hpd'.trans hpd) hbusy' hready (haddr ▸ hvalid)).trans ?_
  rw [haddr]
  apply State.ext <;> simp [t, v, State.carrying, State.delivered, State.memRead]

theorem fetchedBtb_congr {s t : State} (hbtb : t.btb = s.btb) (hpc : t.pc = s.pc) :
    t.fetchedBtb = s.fetchedBtb := by
  rw [State.fetchedBtb, State.btbAt, hbtb, hpc, State.fetchedBtb, State.btbAt]

/-- R363, R364: what a store alone in the machine leaves. -/
theorem exec_store_alone (h : Alone s) (hstore : isStore i = true) {a : Reg}
    (ha : sourceReg i .one = some a) (hvalid : dataAddressValid (s.addressOf i) = true) :
    exec i s = .next ((s.stored (s.addressOf i) (s.readReg a)).retiredAfter 8) := by
  rw [exec_eq_runRecord]
  have hf := s.decodeFields_recordOf i
  generalize s.recordOf i = f at hf
  have hback := h.backEndOnly f
  rw [h.runRecord_eq f]
  generalize delivering f s.pc s.lookup = look at hback
  have hr := freshRecord_memoryRecord hf (by simp [hstore]) s.pc
  let b := s.fetchedOn.counted
  have hb : BackEndOnly look b := hback.of_frontFields (by simp [b])
  have haddr : b.addressOf i = s.addressOf i := addressOf_congr rfl i
  rw [runToRetirement_continues _ (cycleWith_decodes_store hback h.idle.rm hr hstore) hback.running rfl,
    runToRetirement_dispatches_store 8 hb hr hstore rfl ha (haddr ▸ hvalid), haddr]
  refine congrArg Host.Outcome.next ?_
  obtain ⟨hidle, -, -⟩ := h
  have hbtb : (s.stored (s.addressOf i) (s.readReg a)).fetchedBtb = s.fetchedBtb :=
    fetchedBtb_congr (by simp [State.stored]) (by simp [State.stored])
  rw [State.retiredAfter, hbtb]
  apply State.ext <;>
    simp [b, State.carrying, State.stored, State.fetchedOn, State.counted, setMemReady_memReady, hidle.iq,
      hidle.lsq, hidle.rob, hidle.int, hidle.dc, freshRecord, State.readReg]

/-- R361, R362: what a load alone in the machine leaves. -/
theorem exec_load_alone (h : Alone s) (hload : isLoad i = true) {rd : Reg} (hrd : destReg i = some rd)
    {p : Phys} {rest : List Phys} (hfl : s.fl = p :: rest)
    (hvalid : dataAddressValid (s.addressOf i) = true) :
    exec i s = .next ((s.addressed (s.addressOf i)).registerRun p rest rd
      (s.memRead (location (s.addressOf i))) 8) := by
  rw [exec_eq_runRecord]
  have hf := s.decodeFields_recordOf i
  generalize s.recordOf i = f at hf
  have hback := h.backEndOnly f
  rw [h.runRecord_eq f]
  generalize delivering f s.pc s.lookup = look at hback
  have hr := freshRecord_memoryRecord hf (by simp [hload]) s.pc
  let r : Inflight := { freshRecord f s.pc false with pd := some p }
  have hr' : r.MemoryRecord i := ⟨hf, hr.memory, rfl, rfl, rfl, rfl⟩
  let b := ((({ s.fetchedOn.counted with fl := rest } : State).setReady p false).bind rd p)
  have hb : BackEndOnly look b := hback.of_frontFields (by simp [b, State.frontFields, State.counted])
  have hdecodes : cycleWith look (s.fetchedOn.decoding (freshRecord f s.pc false)) = b.dispatching r :=
    cycleWith_decodes_load hback h.idle.rm hr hload hrd hfl
  have hretired : (b.dispatching r).retired =
      (s.fetchedOn.decoding (freshRecord f s.pc false)).retired := by
    simp [b, State.dispatching, State.decoding, State.carrying, State.counted]
  have haddr : b.addressOf i = s.addressOf i := addressOf_congr rfl i
  have hbusy : b.readyBit p = false := (State.readyBit_setReady _ p p false).trans (if_pos rfl)
  rw [runToRetirement_continues _ hdecodes hb.running hretired,
    runToRetirement_dispatches_load 8 hb hr' hload hrd rfl hbusy (haddr ▸ hvalid), haddr]
  refine congrArg Host.Outcome.next ?_
  obtain ⟨hidle, -, -⟩ := h
  let v := s.memRead (location (s.addressOf i))
  have hbtb : (((s.addressed (s.addressOf i)).writeReg rd v).passedThrough p rest v).fetchedBtb =
      s.fetchedBtb := rfl
  rw [State.registerRun, State.retiredAfter, hbtb]
  apply State.ext <;>
    simp [b, r, State.carrying, State.addressed, State.passedThrough, State.delivered, State.fetchedOn,
      State.counted, hidle.iq, hidle.lsq, hidle.rob, hidle.int, hidle.dc, hidle.rm, freshRecord,
      State.memRead]

end Path

theorem dataAddressValid_iff (a : Word) :
    dataAddressValid a = true ↔ 0 ≤ a.toInt ∧ a.toInt < 4096 := by
  rw [dataAddressValid, Bool.and_eq_true, decide_eq_true_eq, decide_eq_true_eq]
  rfl

theorem memRead_stored (s : State) (ea v : Word) (n : Nat) :
    ((s.stored ea v).retiredAfter n).memRead (location ea) = v := by
  simp [State.memRead, State.retiredAfter, State.stored, Sparse.read_write]

/-- Settles O28: the store leaves its word at the location (`exec_store_alone`), and the load writes the
word it finds there into its register (`exec_load_alone`). -/
theorem loadReadsTheStoredWord : Obligations.LoadReadsTheStoredWord := by
  intro s t rs1 rs2 rd ra imm imm' ea hs hfl hlow hhigh hstore ht haddr
  have hvalid : dataAddressValid ea = true := (dataAddressValid_iff ea).2 ⟨hlow, hhigh⟩
  have hrun : exec (.store rs1 rs2 imm) s = .next ((s.stored ea (s.readReg rs1)).retiredAfter 8) :=
    exec_store_alone hs rfl rfl hvalid
  obtain rfl := Host.Outcome.next.inj (hrun.symm.trans hstore)
  generalize hstored : (s.stored ea (s.readReg rs1)).retiredAfter 8 = t at *
  have hfl' : t.fl = s.fl := by simp [← hstored, State.retiredAfter, State.stored]
  have hword : t.memRead (location ea) = s.readReg rs1 := hstored ▸ memRead_stored s ea _ 8
  obtain ⟨p, rest, hfree⟩ := List.exists_cons_of_ne_nil (hfl' ▸ hfl : t.fl ≠ [])
  have haddr : t.addressOf (.load rd ra imm') = ea := haddr
  refine ⟨_, exec_load_alone ht rfl rfl hfree (haddr ▸ hvalid), ?_⟩
  rw [haddr, hword]
  exact (State.readReg_writeReg (t.addressed ea) rd rd (s.readReg rs1)).trans (if_pos rfl)

end Sys2Proof.Machine

namespace Sys2Proof

/-! ### The record word and its fields (R80 to R88)

A word is its fields and the reserved byte, so decoding undoes packing. In the other direction, a word with
the unused bits of its opcode cleared is the encoding of what it decodes to; that one fact gives the
uniqueness of an assembled word and that unused bits do not matter. -/

theorem regField_toNat (w : RecordWord) (lo : Nat) :
    (regField w lo).val = w.toNat / 2 ^ lo % 16 := by
  rw [← Nat.shiftRight_eq_div_pow]
  exact BitVec.extractLsb'_toNat ..

/-- R81: a packed word as a number, its fields from the top. -/
theorem packFields_toNat (f : RecordFields) :
    (packFields f).toNat =
      ((((f.opcode.toNat * 16 + f.rd) * 16 + f.rs1) * 16 + f.rs2) * 16 + f.rs3) * 2 ^ 40 + f.imm.toNat := by
  simp only [packFields, Laws.toNat_append, BitVec.toNat_ofFin, BitVec.toNat_ofNat]
  omega

/-- R81: unpacking a packed word gives back every field. -/
theorem recordFields_packFields (f : RecordFields) : recordFields (packFields f) = f := by
  have himm := f.imm.isLt
  have hword := packFields_toNat f
  have field_eq (lo : Nat) (r : Reg) (h : (packFields f).toNat / 2 ^ lo % 16 = r.val) :
      regField (packFields f) lo = r := Fin.ext ((regField_toNat _ _).trans h)
  have imm_eq : (packFields f).extractLsb' 0 32 = f.imm := by
    apply BitVec.eq_of_toNat_eq
    rw [BitVec.extractLsb'_toNat, Nat.shiftRight_zero]
    omega
  rw [recordFields, Laws.packFields_opcode, field_eq 52 f.rd (by omega), field_eq 48 f.rs1 (by omega),
    field_eq 44 f.rs2 (by omega), field_eq 40 f.rs3 (by omega), imm_eq]

/-- R81: a word whose reserved bits are 0 is packed from its fields. -/
theorem packFields_recordFields {w : RecordWord} (h : w.extractLsb' 32 8 = 0#8) :
    packFields (recordFields w) = w := by
  have hreserved : w.toNat / 2 ^ 32 % 256 = 0 := by
    rw [← Nat.shiftRight_eq_div_pow]
    exact (BitVec.extractLsb'_toNat ..).symm.trans (congrArg BitVec.toNat h)
  apply BitVec.eq_of_toNat_eq
  have hw := w.isLt
  simp only [packFields_toNat, recordFields, regField_toNat, BitVec.extractLsb'_toNat,
    Nat.shiftRight_eq_div_pow]
  omega

/-- R83, R85: the fields written for an instruction decode to it. -/
theorem decodeFields_instrFields (i : Instr) : decodeFields (instrFields i) = .op i := by
  cases i <;> rfl

/-- Settles O1: unpacking undoes packing, and the decoder's table undoes the encoder's. -/
theorem decodeEncodeAgree : Obligations.DecodeEncodeAgree := by
  intro i
  rw [decodeWord, encode, recordFields_packFields, decodeFields_instrFields]

/-- R87: the decoder names an opcode byte unrecognized exactly when it is none of `0x01` to `0x13`. -/
theorem decodeFields_eq_unrecognized {f : RecordFields} {b : BitVec 8} :
    decodeFields f = .unrecognized b ↔ b = f.opcode ∧ (b.toNat = 0x00 ∨ 0x14 ≤ b.toNat) := by
  constructor
  · intro h
    unfold decodeFields at h
    split at h <;> cases h
    refine ⟨rfl, ?_⟩
    simp only [imp_false] at *
    omega
  · rintro ⟨rfl, hrange⟩
    unfold decodeFields
    split
    case h_20 => rfl
    all_goals omega

/-- Settles O4. -/
theorem unrecognizedOpcodes : Obligations.UnrecognizedOpcodes :=
  fun _ _ => decodeFields_eq_unrecognized

/-- Settles O5: each word is the encoding of its instruction. -/
theorem writtenWordsDecode : Obligations.WrittenWordsDecode :=
  ⟨decodeEncodeAgree (.add 2 0 1), decodeEncodeAgree (.store 0 1 0#32), decodeEncodeAgree (.str 3 0 1),
    decodeEncodeAgree (.bz 8#32), decodeEncodeAgree (.jump 0 4#32)⟩

/-! ### Clearing the unused bits (R82, R83, R88) -/

/-- The bits that an opcode byte does not leave unused. -/
def usedBits (opcode : BitVec 8) : RecordWord := ~~~unusedBits opcode

/-- The word with 0 in every bit that its opcode leaves unused. -/
def clearUnused (w : RecordWord) : RecordWord := w &&& usedBits (w.extractLsb' 56 8)

theorem usedBits_opcode (b : BitVec 8) : (usedBits b).extractLsb' 56 8 = BitVec.allOnes 8 := by
  unfold usedBits unusedBits
  split <;> rfl

theorem usedBits_reserved (b : BitVec 8) : (usedBits b).extractLsb' 32 8 = 0#8 := by
  unfold usedBits unusedBits
  split <;> rfl

theorem clearUnused_opcode (w : RecordWord) :
    (clearUnused w).extractLsb' 56 8 = w.extractLsb' 56 8 := by
  rw [clearUnused, BitVec.extractLsb'_and, usedBits_opcode, BitVec.and_allOnes]

theorem clearUnused_reserved (w : RecordWord) : (clearUnused w).extractLsb' 32 8 = 0#8 := by
  rw [clearUnused, BitVec.extractLsb'_and, usedBits_reserved]
  exact BitVec.and_zero

theorem clearUnused_of_assembled {w : RecordWord} (h : recordAssembled w = true) :
    clearUnused w = w := by
  have hclear : w &&& unusedBits (w.extractLsb' 56 8) = 0#64 := eq_of_beq h
  calc w &&& ~~~unusedBits (w.extractLsb' 56 8)
      = w &&& unusedBits (w.extractLsb' 56 8) ||| w &&& ~~~unusedBits (w.extractLsb' 56 8) := by
        rw [hclear, BitVec.zero_or]
    _ = w := by rw [← BitVec.and_or_distrib_left, BitVec.or_not_self, BitVec.and_allOnes]

theorem clearUnused_congr {v w : RecordWord} (hop : v.extractLsb' 56 8 = w.extractLsb' 56 8)
    (h : v ||| unusedBits (w.extractLsb' 56 8) = w ||| unusedBits (w.extractLsb' 56 8)) :
    clearUnused v = clearUnused w := by
  rw [clearUnused, clearUnused, hop, usedBits]
  generalize unusedBits _ = m at h
  have or_and_not (x : RecordWord) : (x ||| m) &&& ~~~m = x &&& ~~~m := by
    rw [BitVec.and_or_distrib_right, BitVec.and_not_self]
    exact BitVec.or_zero
  rw [← or_and_not v, h, or_and_not w]

theorem regField_and_of_used {w m : RecordWord} {lo : Nat} (h : m.extractLsb' lo 4 = 15#4) :
    regField (w &&& m) lo = regField w lo := by
  rw [regField, BitVec.extractLsb'_and, h, show 15#4 = BitVec.allOnes 4 from rfl, BitVec.and_allOnes,
    regField]

theorem regField_and_of_unused {w m : RecordWord} {lo : Nat} (h : m.extractLsb' lo 4 = 0#4) :
    regField (w &&& m) lo = 0 := by
  rw [regField, BitVec.extractLsb'_and, h, BitVec.and_zero]
  rfl

/-- R85: the opcode byte of a record that decodes to an instruction is that instruction's. -/
theorem opcode_of_decodeFields {f : RecordFields} {i : Instr} (h : decodeFields f = .op i) :
    f.opcode = (instrFields i).opcode := by
  unfold decodeFields at h
  split at h <;> cases h <;> exact BitVec.eq_of_toNat_eq ‹_›

theorem imm_and_of_used (imm : Word) : imm &&& 4294967295#32 = imm := BitVec.and_allOnes

/-- R83, R85: clearing the unused bits leaves the fields of the instruction a word decodes to, and 0 in the
fields its format does not list; row by row of the opcode table. -/
theorem recordFields_clearUnused {w : RecordWord} {i : Instr} (h : decodeWord w = .op i) :
    recordFields (clearUnused w) = instrFields i := by
  have hcode : w.extractLsb' 56 8 = (instrFields i).opcode := opcode_of_decodeFields h
  rw [recordFields, clearUnused_opcode, hcode, clearUnused, hcode, BitVec.extractLsb'_and]
  unfold decodeWord decodeFields at h
  split at h <;> cases h <;>
    simp [instrFields, usedBits, unusedBits, regField_and_of_used, regField_and_of_unused, imm_and_of_used,
      recordFields]

/-- R81, R82: with its unused bits cleared, a word is the encoding of what it decodes to. -/
theorem clearUnused_eq_encode {w : RecordWord} {i : Instr} (h : decodeWord w = .op i) :
    clearUnused w = encode i := by
  rw [encode, ← recordFields_clearUnused h, packFields_recordFields (clearUnused_reserved w)]

/-- R82, R88: clearing the unused bits does not change what a word decodes to. -/
theorem decodeWord_clearUnused (w : RecordWord) : decodeWord (clearUnused w) = decodeWord w := by
  cases h : decodeWord w with
  | op i => rw [clearUnused_eq_encode h, decodeEncodeAgree i]
  | unrecognized b =>
    rw [unrecognizedOpcodes, clearUnused_opcode]
    exact (unrecognizedOpcodes w b).1 h

/-- Settles O2: an assembled word has no unused bit to clear. -/
theorem assembledWordsAreEncodings : Obligations.AssembledWordsAreEncodings := by
  intro w i hassembled hdecode
  rw [← clearUnused_eq_encode hdecode, clearUnused_of_assembled hassembled]

/-- Settles O3: the two words are one once their unused bits are cleared. -/
theorem unusedBitsIgnored : Obligations.UnusedBitsIgnored := by
  intro v w hopcode hused
  rw [← decodeWord_clearUnused v, clearUnused_congr hopcode hused, decodeWord_clearUnused]

end Sys2Proof

namespace Sys2Proof.Machine

/-! ### One call of `advance` (R100, R101, R104, R27) -/

section Advance

variable {s t : State} {look : Word → Option RecordFields}

/-- R104: a status set by Commit ends the cycle. -/
theorem cycleWith_commit_stops (hrun : s.status = .running)
    (hc : (commitStage s.counted).status ≠ .running) : cycleWith look s = commitStage s.counted := by
  rw [cycleWith, if_pos hrun]
  exact if_neg hc

/-- R104: and so does one set by Data-cache. -/
theorem cycleWith_cache_stops (hrun : s.status = .running)
    (hc : (commitStage s.counted).status = .running)
    (hd : (dataCacheStage (commitStage s.counted)).status ≠ .running) :
    cycleWith look s = dataCacheStage (commitStage s.counted) := by
  rw [cycleWith, if_pos hrun]
  exact (if_pos hc).trans (if_neg hd)

/-- R101: a cycle that neither of them ends evaluates the later stages. -/
theorem cycleWith_completes (hrun : s.status = .running)
    (hc : (commitStage s.counted).status = .running)
    (hd : (dataCacheStage (commitStage s.counted)).status = .running) :
    cycleWith look s = laterStages look (dataCacheStage (commitStage s.counted)) := by
  rw [cycleWith, if_pos hrun]
  exact (if_pos hc).trans (if_pos hd)

/-- R27: a stopped machine answers true and stays as it is. -/
theorem State.advance_stopped (h : s.status ≠ .running) : s.advance = (s, true) := by
  simp [State.advance, cycleWith_stopped h, h]

/-- A cycle that stops the machine is its last. -/
theorem State.advance_stops (hcycle : cycleWith s.lookup s = t) (ht : t.status ≠ .running) :
    s.advance = (t, true) ∧ t.advance = (t, true) :=
  ⟨by simp [State.advance, hcycle, ht], advance_stopped ht⟩

theorem State.advance_continues (hcycle : cycleWith s.lookup s = t) (ht : t.status = .running) :
    s.advance = (t, false) := by
  simp [State.advance, hcycle, ht]

/-- R27: the first cycle of a step of a stopped machine changes nothing and is the last. -/
theorem step_stopped (h : s.status ≠ .running) (hprogram : s.program ≠ []) : step s = .next s := by
  have hrun : runLoaded s = s := by
    simp [runLoaded, Config.stepCycles, runToRetirement, cycleWith_stopped h, h]
  rw [step_runs hprogram, hrun]

end Advance

/-- Settles O9: how a running machine's cycle ends, case by case, and the machine that has stopped. -/
theorem cycleEvaluatesTheStagesInOrder : Obligations.CycleEvaluatesTheStagesInOrder := by
  refine fun s => ⟨fun hrun => ⟨fun hc => ?_, fun hc hd => ?_, fun hc hd => ?_⟩, fun hstop => ?_⟩
  · exact State.advance_stops (cycleWith_commit_stops hrun hc) hc
  · exact State.advance_stops (cycleWith_cache_stops hrun hc hd) hd
  · exact State.advance_continues (cycleWith_completes hrun hc hd) ((laterStages_status _ _).trans hd)
  · exact ⟨State.advance_stopped hstop, step_stopped hstop⟩

/-! ### Commit of a destination-writing head (R282, R283, R112) -/

/-- R280, R283: a head with a destination commits it, with `Z` for SUB and SUBL alone. -/
theorem commitStage_dest {s : State} {h : Inflight} {rest : List Inflight} {i : Instr} {rd : Reg}
    (hrob : s.rob = h :: rest) (hexc : h.exc = none) (hi : h.insn = .op i) (hrd : destReg i = some rd) :
    commitStage s = commitDest rd (writesZAtCommit i) h s := by
  simp only [commitStage, hrob, hexc, commitAction, hi]
  cases i with
  | store | str | cmp | bz | bnz | jump | halt => cases hrd
  | _ =>
    obtain rfl := Option.some.inj hrd
    rfl

theorem commitDest_of_pd {h : Inflight} {p : Phys} (rd : Reg) (writesZ : Bool) (s : State)
    (hp : h.pd = some p) :
    commitDest rd writesZ h s = if s.readyBit p then commitWrite rd writesZ p s else s := by
  rw [commitDest, hp]
  rfl

/-- Settles O29: the open gate is `commitWrite`, field by field. -/
theorem commitWritesTheDestination : Obligations.CommitWritesTheDestination := by
  intro s h rest i rd p hrob hexc hi hrd hp
  have hcommit := (commitStage_dest hrob hexc hi hrd).trans (commitDest_of_pd rd _ s hp)
  constructor
  · intro hready
    simp [hcommit, hready]
  · intro hready turned
    have hturned : turned = Inflight.retarget p := rfl
    rw [hcommit, if_pos hready, hturned, commitWrite, commitFlag]
    cases writesZAtCommit i <;>
      simp [State.retireHead, State.release, State.retarget, State.writeReg, subFlag, hrob, State.valueOf]

/-! ### Decode and rename (R134 to R141) -/

/-- R108. -/
theorem State.resolve_eq_iff (s : State) (a : Reg) (o : Option Phys) :
    s.resolve a = o ↔ s.newestRename a o := by
  cases o with
  | none => exact resolveIn_eq_none
  | some p => exact resolveIn_eq_some

section Decode

variable {s t : State} {r e : Inflight} {i : Instr}

/-- R134 (a): whatever the record, it waits for `DSP`. -/
theorem decodeStage_waits_for_dsp (hdec : s.dec = some r) (hdsp : s.dsp ≠ none) :
    decodeStage s = s := by
  simp [decodeStage, hdec, State.decodeStalled, Option.isSome_iff_ne_none.2 hdsp]

/-- R134 (b): a record that needs a physical register waits for one. -/
theorem decodeStage_waits_for_register (hdec : s.dec = some r) (hi : r.insn = .op i)
    (hpd : needsPd i = true) (hfl : s.fl = []) : decodeStage s = s := by
  simp [decodeStage, hdec, State.decodeStalled, (Inflight.kinds_of_op hi).needsPd, hpd, hfl]

/-- R134, R140: a record that need not wait is renamed and moves on. -/
theorem decodeStage_moves (hdec : s.dec = some r) (hdsp : s.dsp = none)
    (hfree : r.needsPd = true → s.fl ≠ []) (hrename : renameAction (renameSources s r) s = (e, t)) :
    decodeStage s = { t with dec := none, dsp := some e } := by
  have hstall : s.decodeStalled r = false := by simpa [State.decodeStalled, hdsp] using hfree
  simp [decodeStage, hdec, hstall, decodeRecord, hrename]

/-- R134, R140: no free register is asked for where `needs_pd` is 0. -/
theorem decodeStage_moves_op (hdec : s.dec = some r) (hdsp : s.dsp = none) (hi : r.insn = .op i)
    (hpd : needsPd i = false) (hrename : renameAction (renameSources s r) s = (e, t)) :
    decodeStage s = { t with dec := none, dsp := some e } :=
  decodeStage_moves hdec hdsp
    (fun h => absurd ((Inflight.kinds_of_op hi).needsPd.symm.trans h) (by simp [hpd])) hrename

/-- Renaming the sources leaves the opcode. -/
theorem renameSources_insn (s : State) (r : Inflight) : (renameSources s r).insn = r.insn := rfl

/-- R135, by the source columns of the opcode. -/
theorem renameSources_op (s : State) (hi : r.insn = .op i) :
    renameSources s r =
      { r with
        ps1 := (sourceReg i .one).bind s.resolve
        ps2 := (sourceReg i .two).bind s.resolve
        ps3 := (sourceReg i .three).bind s.resolve } := by
  simp [renameSources, Inflight.rs, hi]

theorem renameSources_unrecognized {b : BitVec 8} (s : State) (hi : r.insn = .unrecognized b) :
    renameSources s r = { r with ps1 := none, ps2 := none, ps3 := none } := by
  simp [renameSources, Inflight.rs, hi]

/-- R136, R141: the destination action of the instructions that have one. -/
theorem renameAction_dest {rd : Reg} (s : State) (hi : r.insn = .op i) (hrd : destReg i = some rd) :
    renameAction r s = renameDest rd r s := by
  simp only [renameAction, hi]
  cases i with
  | store | str | cmp | bz | bnz | jump | halt => cases hrd
  | _ =>
    obtain rfl := Option.some.inj hrd
    rfl

theorem renameDest_of_fl {p : Phys} {rest : List Phys} (rd : Reg) (r : Inflight)
    (hfl : s.fl = p :: rest) :
    renameDest rd r s =
      ({ r with pd := some p },
        { s with fl := rest, ready := s.ready.set p.val false p.isLt, rm := (rd, p) :: s.rm }) := by
  have halloc := (State.allocate_eq_some s _ p).2 ⟨rest, hfl, rfl⟩
  simp [renameDest, halloc, State.setReady, State.bind]

theorem renameToken_of_fl {p : Phys} {rest : List Phys} (r : Inflight) (hfl : s.fl = p :: rest) :
    renameToken r s =
      ({ r with pd := some p }, { s with fl := rest, ready := s.ready.set p.val false p.isLt }) := by
  have halloc := (State.allocate_eq_some s _ p).2 ⟨rest, hfl, rfl⟩
  simp [renameToken, halloc, State.setReady]

/-- R138. -/
theorem createBtbEntry_writes_btb (r : Inflight) (s : State) :
    createBtbEntry r s =
      { s with
        btb :=
          if (s.btbAt r.pc).present then s.btb
          else Sparse.write BtbEntry.absent s.btb (recordIndex r.pc) ⟨true, false, false, 0#32⟩ } := by
  unfold createBtbEntry
  split <;> rfl

end Decode

/-- Settles O44: `renameSources` in the renames as they were, then `renameDest`. -/
theorem decodeRenames : Obligations.DecodeRenames := by
  intro s r i rd hdec hi hrd
  refine ⟨s.resolve_eq_iff, fun hwait => ?_, fun p rest hdsp hfl => ?_⟩
  · rcases hwait with hdsp | hfl
    · exact decodeStage_waits_for_dsp hdec hdsp
    · exact decodeStage_waits_for_register hdec hi (needsPd_of_destReg hrd) hfl
  · have hrename : renameAction (renameSources s r) s = _ :=
      (renameAction_dest s ((renameSources_insn s r).trans hi) hrd).trans (renameDest_of_fl rd _ hfl)
    rw [decodeStage_moves hdec hdsp (fun _ => by simp [hfl]) hrename, renameSources_op s hi]

section DecodeControl

variable {s : State} {r : Inflight}

/-- R137: CMP takes a token and binds nothing. -/
theorem decodeStage_cmp {a b : Reg} (hdec : s.dec = some r) (hdsp : s.dsp = none)
    (hi : r.insn = .op (.cmp a b)) {p : Phys} {rest : List Phys} (hfl : s.fl = p :: rest) :
    decodeStage s =
      { s with
        dec := none
        dsp := some { r with ps1 := s.resolve a, ps2 := s.resolve b, ps3 := none, pd := some p }
        fl := rest
        ready := s.ready.set p.val false p.isLt } := by
  have haction : renameAction (renameSources s r) s = renameToken (renameSources s r) s := by
    simp only [renameAction, renameSources_insn, hi]
  rw [decodeStage_moves hdec hdsp (fun _ => by simp [hfl]) (haction.trans (renameToken_of_fl _ hfl)),
    renameSources_op s hi]
  rfl

/-- R138: BZ and BNZ, which have no source. -/
theorem decodeStage_branch {imm : Word} (hdec : s.dec = some r) (hdsp : s.dsp = none)
    (hi : r.insn = .op (.bz imm) ∨ r.insn = .op (.bnz imm)) :
    decodeStage s =
      { s with
        dec := none
        dsp := some { r with ps1 := none, ps2 := none, ps3 := none }
        btb :=
          if (s.btbAt r.pc).present then s.btb
          else Sparse.write BtbEntry.absent s.btb (recordIndex r.pc) ⟨true, false, false, 0#32⟩ } := by
  have haction : renameAction (renameSources s r) s =
      (renameSources s r, createBtbEntry (renameSources s r) s) := by
    rcases hi with hi | hi <;> simp only [renameAction, renameSources_insn, hi]
  rcases hi with hi | hi <;>
  · rw [decodeStage_moves_op hdec hdsp hi rfl haction, createBtbEntry_writes_btb, renameSources_op s hi]
    rfl

/-- R139: JUMP stops fetch. -/
theorem decodeStage_jump {a : Reg} {imm : Word} (hdec : s.dec = some r) (hdsp : s.dsp = none)
    (hi : r.insn = .op (.jump a imm)) :
    decodeStage s =
      { s with
        dec := none
        dsp := some { r with ps1 := s.resolve a, ps2 := none, ps3 := none }
        jumpInFlight := true } := by
  have haction : renameAction (renameSources s r) s =
      (renameSources s r, { s with jumpInFlight := true }) := by
    simp only [renameAction, renameSources_insn, hi]
  rw [decodeStage_moves_op hdec hdsp hi rfl haction, renameSources_op s hi]
  rfl

/-- R141: STORE and STR have sources and no destination action. -/
theorem decodeStage_renames_store {i : Instr} (hdec : s.dec = some r) (hdsp : s.dsp = none)
    (hi : r.insn = .op i) (hstore : isStore i = true) :
    decodeStage s =
      { s with
        dec := none
        dsp := some
          { r with
            ps1 := (sourceReg i .one).bind s.resolve
            ps2 := (sourceReg i .two).bind s.resolve
            ps3 := (sourceReg i .three).bind s.resolve } } := by
  have haction : needsPd i = false ∧ renameAction (renameSources s r) s = (renameSources s r, s) := by
    simp only [renameAction, renameSources_insn, hi]
    cases i with
    | store | str => exact ⟨rfl, rfl⟩
    | _ => cases hstore
  rw [decodeStage_moves_op hdec hdsp hi haction.1 haction.2, renameSources_op s hi]

/-- R140: an unrecognized record just moves on. -/
theorem decodeStage_unrecognized {b : BitVec 8} (hdec : s.dec = some r) (hdsp : s.dsp = none)
    (hi : r.insn = .unrecognized b) :
    decodeStage s =
      { s with dec := none, dsp := some { r with ps1 := none, ps2 := none, ps3 := none } } := by
  have haction : renameAction (renameSources s r) s = (renameSources s r, s) := by
    simp only [renameAction, renameSources_insn, hi]
  have hfree : r.needsPd = true → s.fl ≠ [] := by
    simp [(Inflight.kinds_of_unrecognized hi).needsPd]
  rw [decodeStage_moves hdec hdsp hfree haction, renameSources_unrecognized s hi]

end DecodeControl

/-- Settles O45: a lemma for each remaining row of the table of R141. -/
theorem decodeControl : Obligations.DecodeControl := by
  refine fun s r hdec => ⟨s.resolve_eq_iff, decodeStage_waits_for_dsp hdec, fun hdsp =>
    ⟨fun a b hi => ⟨decodeStage_waits_for_register hdec hi rfl,
        fun _ _ => decodeStage_cmp hdec hdsp hi⟩,
      fun _ => decodeStage_branch hdec hdsp,
      fun _ _ => decodeStage_jump hdec hdsp,
      fun a b imm hi => decodeStage_renames_store hdec hdsp hi rfl,
      fun a b c hi => decodeStage_renames_store hdec hdsp hi rfl, ?_⟩⟩
  rintro (hi | ⟨b, hi⟩)
  · rw [decodeStage_halt hdec hdsp hi, renameSources_op s hi]
    rfl
  · exact decodeStage_unrecognized hdec hdsp hi

end Sys2Proof.Machine

namespace Sys2Proof.Machine

/-! ### Dispatch (R160 to R165) -/

section Dispatch

variable {s : State} {r : Inflight}

/-- R161: only a HALT asks for no IQ slot. -/
theorem Inflight.needsIq_eq_false_iff : r.needsIq = false ↔ r.insn = .op .halt := by
  unfold Inflight.needsIq
  split <;> simp_all

theorem Inflight.needsIq_eq_true_iff : r.needsIq = true ↔ r.insn ≠ .op .halt := by
  rw [← Bool.not_eq_false, ne_eq, Inflight.needsIq_eq_false_iff]

/-- A HALT is no memory instruction. -/
theorem Inflight.needsIq_of_isMemory (h : r.isMemory = true) : r.needsIq = true := by
  refine Inflight.needsIq_eq_true_iff.2 fun hi => ?_
  rw [(Inflight.kinds_of_op hi).isMemory] at h
  cases h

/-- R161, R165: the room a record needs, structure by structure. -/
theorem State.hasRoomFor_iff :
    s.hasRoomFor r = true ↔
      s.rob.length < 16 ∧ (r.insn = .op .halt ∨ s.iq.length < 8) ∧
        (r.isMemory = false ∨ s.lsq.length < 4 ∧ ∀ a ∈ s.rob, a.pc ≠ r.pc) := by
  rw [← Inflight.needsIq_eq_false_iff]
  simp only [State.hasRoomFor, State.slotFree, Bool.and_eq_true, Bool.or_eq_true, Bool.not_eq_true',
    List.all_eq_true, bne_iff_ne, decide_eq_true_eq, and_assoc, or_and_left]
  rfl

/-- R160. -/
theorem dispatchStage_recovers (hb : s.branchRecovery = true) : dispatchStage s = recoverDispatch s :=
  if_pos hb

/-- R161, R162: with room in every structure it needs, the record enters them. -/
theorem dispatchStage_enters (hdsp : s.dsp = some r) (hb : s.branchRecovery = false)
    (hroom : s.hasRoomFor r = true) : dispatchStage s = enterQueues r s := by
  simp [dispatchStage, hb, hdsp, hroom]

/-- R163: without, it waits. -/
theorem dispatchStage_stalls (hdsp : s.dsp = some r) (hb : s.branchRecovery = false)
    (hroom : ¬ s.hasRoomFor r = true) : dispatchStage s = s := by
  simp [dispatchStage, hb, hdsp, hroom]

/-- R160: an occupant without a register is only discarded. -/
theorem recoverDispatch_of_pd_none (hdsp : s.dsp = some r) (hpd : r.pd = none) :
    recoverDispatch s = { s with dsp := none, branchRecovery := false } := by
  simp [recoverDispatch, hdsp, State.releaseOf, hpd]

/-- R160, R106: the register of a discarded occupant is released. -/
theorem recoverDispatch_of_pd_some {p : Phys} (hdsp : s.dsp = some r) (hpd : r.pd = some p) :
    recoverDispatch s =
      { s with
        dsp := none
        branchRecovery := false
        fl := s.fl ++ [p]
        ready := s.ready.set p.val true p.isLt
        rm := s.rm.filter fun c => c.2 != p } := by
  simp [recoverDispatch, hdsp, State.releaseOf, hpd, State.release]

/-- R162 for a record that needs no LSQ slot. -/
theorem enterQueues_of_not_memory (hmem : r.isMemory = false) :
    enterQueues r s =
      { s with
        dsp := none
        nextSeq := s.nextSeq + 1
        rob := s.rob ++ [s.dispatched r]
        iq := if r.insn = .op .halt then s.iq else s.iq ++ [s.dispatched r] } := by
  rw [enterQueues_eq]
  simp [hmem, Inflight.needsIq_eq_true_iff]

/-- R162, R165 for a memory record: into all three queues, its slot's bits cleared. -/
theorem enterQueues_of_memory (hmem : r.isMemory = true) :
    enterQueues r s =
      { s with
        agenReady := Sparse.write false s.agenReady (recordIndex r.pc) false
        storeDone := Sparse.write false s.storeDone (recordIndex r.pc) false
        dsp := none
        nextSeq := s.nextSeq + 1
        rob := s.rob ++ [s.dispatched r]
        iq := s.iq ++ [s.dispatched r]
        lsq := s.lsq ++ [s.dispatched r] } := by
  rw [enterQueues_eq]
  simp [hmem, Inflight.needsIq_of_isMemory hmem]

end Dispatch

/-- Settles O43: discarded under recovery, else in every queue it needs or nowhere, by its room. -/
theorem dispatchAllOrNothing : Obligations.DispatchAllOrNothing := by
  refine fun s r hdsp => ⟨fun hb => ⟨fun hpd => ?_, fun p hpd => ?_⟩, fun hb => ⟨fun hroom => ?_,
    fun hroom hmem => ?_, fun hroom hmem => ?_⟩⟩
  · rw [dispatchStage_recovers hb, recoverDispatch_of_pd_none hdsp hpd]
  · rw [dispatchStage_recovers hb, recoverDispatch_of_pd_some hdsp hpd]
  · exact dispatchStage_stalls hdsp hb (mt State.hasRoomFor_iff.1 hroom)
  · rw [dispatchStage_enters hdsp hb (State.hasRoomFor_iff.2 hroom), enterQueues_of_not_memory hmem]
    rfl
  · rw [dispatchStage_enters hdsp hb (State.hasRoomFor_iff.2 hroom), enterQueues_of_memory hmem]
    rfl

/-! ### The cycle of a misprediction (R160, R247, R248) -/

/-- Nothing younger than age tag `q` is in a queue, a unit latch or `DC`. -/
structure NothingYounger (q : Nat) (s : State) : Prop where
  rob : ∀ e ∈ s.rob, e.seq ≤ q
  iq : ∀ e ∈ s.iq, e.seq ≤ q
  lsq : ∀ e ∈ s.lsq, e.seq ≤ q
  units : ∀ e ∈ s.inUnits, e.seq ≤ q

/-- A write that keeps the age tags keeps them old enough. -/
theorem seq_le_of_idents {q : Nat} {l m : List Inflight} (hs : idents m ⊆ idents l)
    (h : ∀ e ∈ l, e.seq ≤ q) : ∀ e ∈ m, e.seq ≤ q :=
  forall_of_idents (fun _ _ hab ha => Inflight.seq_congr hab ▸ ha) hs h

/-- R248: what a flush leaves while `INT` is empty. -/
theorem NothingYounger.flush (q : Nat) {s : State} (hint : s.int = none) :
    NothingYounger q (flush q s) := by
  have queue (l : List Inflight) : ∀ e ∈ olderThan q l, e.seq ≤ q := fun e he =>
    of_decide_eq_true (List.mem_filter.1 he).2
  exact ⟨queue _, queue _, queue _, fun e he =>
    seq_le_of_mem_flush (by simp [hint]) (mem_unfinished.2 (.inr (.inr he)))⟩

theorem issueEntry_inUnits_seq_le {q : Nat} {e : Inflight} {s : State} (i : Instr) (c : FuClass)
    (he : e.seq ≤ q) (hs : ∀ a ∈ s.inUnits, a.seq ≤ q) :
    ∀ a ∈ (issueEntry i c e s).inUnits, a.seq ≤ q := by
  intro a ha
  let d := captureOperands s i e
  obtain ⟨l, hperm, hsub⟩ := inUnits_setUnitLatch (shareOperands i d (issueEffect i d s)) c d
  rcases List.mem_cons.1 (hperm.mem_iff.1 ha) with rfl | ha
  · exact he
  · exact hs a (by simpa [State.inUnits] using hsub.subset ha)

/-- What the scan leaves in the units was there or in the queue. -/
theorem issueScan_inUnits_seq_le {q : Nat} (l : List Inflight) (b : Busy) (s : State)
    (hl : ∀ e ∈ l, e.seq ≤ q) (hs : ∀ e ∈ s.inUnits, e.seq ≤ q) :
    ∀ e ∈ (issueScan l b s).2.inUnits, e.seq ≤ q := by
  induction l generalizing b s with
  | nil => exact hs
  | cons e l ih =>
    obtain ⟨he, hl⟩ := List.forall_mem_cons.1 hl
    rcases unitClass_cases e with hnone | ⟨i, c, hi, hc⟩
    · rw [issueScan_purges hnone]
      exact ih b s hl hs
    · by_cases h : b.of c = true ∨ ¬ e.gateReady s i
      · rw [issueScan_keeps hi hc l h]
        exact ih b s hl hs
      · simp only [not_or, not_not, Bool.not_eq_true] at h
        rw [issueScan_issues hi hc l h.1 h.2]
        exact ih _ _ hl (issueEntry_inUnits_seq_le i c he hs)

theorem NothingYounger.issueStage {q : Nat} {s : State} (h : NothingYounger q s) :
    NothingYounger q (issueStage s) where
  rob := seq_le_of_idents (issueStage_thinned s).rob.subset h.rob
  iq := seq_le_of_idents (issueStage_thinned s).iq.subset h.iq
  lsq := seq_le_of_idents (issueStage_thinned s).lsq.subset h.lsq
  units := issueScan_inUnits_seq_le s.iq Busy.none s h.iq h.units

theorem NothingYounger.recoverDispatch {q : Nat} {s : State} (h : NothingYounger q s) :
    NothingYounger q (recoverDispatch s) where
  rob := by simpa using h.rob
  iq := by simpa using h.iq
  lsq := by simpa using h.lsq
  units := by simpa [State.inUnits] using h.units

section Misprediction

variable {s : State} {r : Inflight} {imm : Word} {taken : Bool}

/-- R246: BZ and BNZ resolve by the `Z` they find. -/
theorem intStage_resolves (hint : s.int = some r)
    (hbranch : (r.insn = .op (.bz imm) ∧ taken = decide (s.z = 0#32)) ∨
      (r.insn = .op (.bnz imm) ∧ taken = decide (s.z ≠ 0#32))) :
    intStage s = resolveBranch taken imm r { s with int := none } := by
  rcases hbranch with ⟨hi, rfl⟩ | ⟨hi, rfl⟩
  · simp [intStage, hint, intAction, hi, unitBz, bzTaken, zeroCondition]
  · simp [intStage, hint, intAction, hi, unitBnz, bnzTaken, zeroCondition]

/-- R160, R247: what the stages behind Integer make of a state with the recovery flag and the bubble up
and `DEC` empty, as a misprediction leaves them. -/
theorem stages_behind_misprediction (look : Word → Option RecordFields)
    (hrecovery : s.branchRecovery = true) (hdec : s.dec = none) (hbubble : s.redirectPending = true) :
    fetchStage look (decodeStage (dispatchStage (issueStage s))) =
      { recoverDispatch (issueStage s) with redirectPending := false } := by
  rw [dispatchStage_recovers (by simpa using hrecovery), decodeStage_none (by simpa using hdec),
    fetchStage_bubble (by simpa using hbubble)]

/-- R246, R247: against the prediction, Integer has taken the branch out of its latch and flushes. -/
theorem intStage_mispredicts (hint : s.int = some r)
    (hbranch : (r.insn = .op (.bz imm) ∧ taken = decide (s.z = 0#32)) ∨
      (r.insn = .op (.bnz imm) ∧ taken = decide (s.z ≠ 0#32)))
    (htaken : taken ≠ r.predTaken) :
    ∃ t : State, t.int = none ∧ intStage s = mispredict taken (branchTarget r.pc imm) r t :=
  ⟨_, rfl, (intStage_resolves hint hbranch).trans (if_neg htaken)⟩

/-- R247, R248: a misprediction with `INT` emptied. -/
theorem NothingYounger.mispredict (taken : Bool) (target : Word) (r : Inflight)
    (hint : s.int = none) : NothingYounger r.seq (mispredict taken target r s) := by
  obtain ⟨hrob, hiq, hlsq, hunits⟩ := NothingYounger.flush r.seq hint
  exact ⟨hrob, hiq, hlsq, hunits⟩

/-- R160, R247: Issue, Dispatch, Decode and Fetch behind a misprediction bring nothing younger in. -/
theorem mispredict_ends_cycle (look : Word → Option RecordFields) (taken : Bool) (target : Word)
    (r : Inflight) (hint : s.int = none) :
    let t := fetchStage look (decodeStage (dispatchStage (issueStage (mispredict taken target r s))))
    t.pc = (if taken then target else nextPc r.pc) ∧ NothingYounger r.seq t ∧ t.dec = none ∧
      t.dsp = none ∧ t.redirectPending = false ∧ t.branchRecovery = false := by
  obtain ⟨hrob, hiq, hlsq, hunits⟩ :=
    (NothingYounger.mispredict taken target r hint).issueStage.recoverDispatch
  rw [stages_behind_misprediction look rfl rfl rfl]
  exact ⟨by simp [mispredict], ⟨hrob, hiq, hlsq, hunits⟩, by simp [mispredict, flush], rfl, rfl, rfl⟩

end Misprediction

/-- R104: a cycle that leaves the machine running has evaluated all the stages. -/
theorem cycleWith_completed {look : Word → Option RecordFields} {s : State}
    (h : (cycleWith look s).status = .running) :
    cycleWith look s = laterStages look (dataCacheStage (commitStage s.counted)) := by
  have hcase := cycleWith_case look s
  generalize cycleWith look s = t at hcase h ⊢
  cases hcase with
  | stopped hs | commitStops _ hs | cacheStops _ _ hs => exact absurd h hs
  | completes => rfl

/-- Settles O38: the cycle completes, Integer finds the branch and the `Z` of the cycle's commit, and
the stages behind it bring nothing younger in. -/
theorem squashedPathIsGone : Obligations.SquashedPathIsGone := by
  intro s r imm taken _ hint z hbranch htaken hend
  let u := logStage (mulStage (lsqStage (dataCacheStage (commitStage s.counted))))
  have hu : u.int = some r := by simpa [u, State.counted] using hint
  have hz : u.z = z := by simp [u, z, State.counted]
  obtain ⟨t, ht, hmispredict⟩ := intStage_mispredicts hu (hz ▸ hbranch) htaken
  have hcycle : s.advance.1 = fetchStage s.lookup (decodeStage (dispatchStage (issueStage
      (mispredict taken (branchTarget r.pc imm) r t)))) :=
    (cycleWith_completed hend).trans (by rw [laterStages, hmispredict])
  obtain ⟨hpc, ⟨hrob, hiq, hlsq, hunits⟩, hlatches⟩ :=
    mispredict_ends_cycle s.lookup taken (branchTarget r.pc imm) r ht
  rw [hcycle]
  exact ⟨hpc, hrob, hiq, hlsq, hunits, hlatches⟩

end Sys2Proof.Machine

namespace Sys2Proof.Machine

/-! ### The order of the issue queue (R180 to R188, R404, R405, R408)

O40 says when an entry leaves the queue for its unit. The opcodes without a row in R184 are ready at once,
which is O41; O42 is about the entries that stay. -/

/-! #### Entries that wait for nothing -/

/-- Settles O41: the row of R184 is empty, so the entry is a ready head of the Integer class, and R185 writes
no operand of it but the base of a JUMP. -/
theorem ungatedIssue : Obligations.UngatedIssue := by
  intro s pre post e hiq hpre
  have hissues (i : Instr) (hi : e.insn = .op i) (hc : fuClass i = some .integer)
      (hready : e.gateReady s i) : (issueStage s).int = some (e.issued s i) :=
    ((issueTakesAReadyHead s e i .integer hi hc hready).1 pre post hiq hpre (absurd rfl)).1
  exact ⟨fun _ hi => hissues _ hi rfl trivial, fun _ hi => hissues _ hi rfl trivial,
    fun _ _ hi => hissues _ hi rfl trivial, fun _ _ hi => hissues _ hi rfl trivial⟩

/-! #### What the scan does with its first entry -/

/-- R181, R184, R187, R188: the first entry is of no class and purged, stays, or issues to a class whose flag
is down. -/
inductive ScanCase (e : Inflight) (l : List Inflight) (b : Busy) (s : State) : Prop
  | purges (hclass : e.unitClass = none) (hscan : issueScan (e :: l) b s = issueScan l b s)
  | keeps (hscan : issueScan (e :: l) b s = (e :: (issueScan l b s).1, (issueScan l b s).2))
  | issues (i : Instr) (c : FuClass) (hi : e.insn = .op i) (hclass : e.unitClass = some c)
      (hfree : b.of c = false) (hready : e.gateReady s i)
      (hscan : issueScan (e :: l) b s = issueScan l (b.set c) (issueEntry i c e s))

theorem issueScan_case (e : Inflight) (l : List Inflight) (b : Busy) (s : State) : ScanCase e l b s := by
  obtain hnone | ⟨i, c, hi, hc⟩ := unitClass_cases e
  · exact .purges hnone (issueScan_purges hnone l b s)
  · by_cases hwait : b.of c = true ∨ ¬ e.gateReady s i
    · exact .keeps (issueScan_keeps hi hc l hwait)
    · obtain ⟨hfree, hready⟩ : b.of c = false ∧ e.gateReady s i := by simpa using hwait
      exact .issues i c hi (by simp [Inflight.unitClass, hi, hc]) hfree hready
        (issueScan_issues hi hc l hfree hready)

/-! #### At most one entry of a class leaves (R183) -/

/-- The entries of a class, in their order. -/
def ofClass (c : FuClass) (l : List Inflight) : List Inflight :=
  l.filter fun e => e.unitClass == some c

theorem ofClass_cons_same {c : FuClass} {e : Inflight} (h : e.unitClass = some c) (l : List Inflight) :
    ofClass c (e :: l) = e :: ofClass c l := by simp [ofClass, h]

theorem ofClass_cons_other {c : FuClass} {e : Inflight} (h : e.unitClass ≠ some c) (l : List Inflight) :
    ofClass c (e :: l) = ofClass c l := by simp [ofClass, h]

theorem ofClass_cons_congr {c : FuClass} {l m : List Inflight} (e : Inflight)
    (h : ofClass c l = ofClass c m) : ofClass c (e :: l) = ofClass c (e :: m) := by
  by_cases he : e.unitClass = some c
  · rw [ofClass_cons_same he, ofClass_cons_same he, h]
  · rw [ofClass_cons_other he, ofClass_cons_other he, h]

/-- R183: no entry of a class whose flag is up leaves the queue. -/
theorem issueScan_ofClass_busy {c : FuClass} (l : List Inflight) {b : Busy} (hb : b.of c = true)
    (s : State) : ofClass c (issueScan l b s).1 = ofClass c l := by
  induction l generalizing b s with
  | nil => rfl
  | cons e l ih =>
    cases issueScan_case e l b s with
    | purges hclass hscan =>
      rw [hscan, ih hb, ofClass_cons_other (by simp [hclass])]
    | keeps hscan =>
      rw [hscan]
      exact ofClass_cons_congr e (ih hb s)
    | issues i d _ hclass hfree _ hscan =>
      have hne : d ≠ c := by
        rintro rfl
        exact Bool.false_ne_true (hfree.symm.trans hb)
      rw [hscan, ih (by rw [Busy.of_set_other b hne, hb]), ofClass_cons_other (by simpa [hclass] using hne)]

/-- R183: the first entry of a class to leave raises the flag of the class. -/
theorem issueScan_ofClass_length (c : FuClass) (l : List Inflight) (b : Busy) (s : State) :
    (ofClass c l).length ≤ (ofClass c (issueScan l b s).1).length + 1 := by
  induction l generalizing b s with
  | nil => exact Nat.zero_le _
  | cons e l ih =>
    cases issueScan_case e l b s with
    | purges hclass hscan =>
      rw [hscan, ofClass_cons_other (by simp [hclass])]
      exact ih b s
    | keeps hscan =>
      rw [hscan]
      by_cases he : e.unitClass = some c
      · rw [ofClass_cons_same he, ofClass_cons_same he]
        exact Nat.succ_le_succ (ih b s)
      · rw [ofClass_cons_other he, ofClass_cons_other he]
        exact ih b s
    | issues i d _ hclass _ _ hscan =>
      rw [hscan]
      by_cases hd : d = c
      · subst hd
        rw [issueScan_ofClass_busy l (b.of_set_same d), ofClass_cons_same hclass]
        exact le_rfl
      · rw [ofClass_cons_other (by simpa [hclass] using hd)]
        exact ih _ _

/-! #### An entry that is not ready stays (R184, R404) -/

/-- R184: a row asks for ready bits that are up, and for none that is down. -/
theorem Inflight.gateReady.mono {e : Inflight} {i : Instr} {s t : State}
    (h : ∀ p : Phys, t.readyBit p = true → s.readyBit p = true) (hready : e.gateReady t i) :
    e.gateReady s i := by
  have hbit {ps : Option Phys} (hps : ∀ p : Phys, ps = some p → t.readyBit p = true) (p : Phys)
      (hp : ps = some p) : s.readyBit p = true := h p (hps p hp)
  cases i with
  | addl | subl | load | store => exact hbit hready
  | bz | bnz | jump | movc | halt => trivial
  | _ => exact ⟨hbit hready.1, hbit hready.2⟩

/-- R186: an issue makes no register ready. -/
theorem issueEntry_readyBit {i : Instr} {c : FuClass} {e : Inflight} {s : State} {p : Phys}
    (h : (issueEntry i c e s).readyBit p = true) : s.readyBit p = true := by
  refine issueEffect_readyBit (i := i) (e := captureOperands s i e) ?_
  simpa [issueEntry, shareOperands, State.readyBit] using h

theorem Inflight.notReady.issueEntry {a : Inflight} {s : State} (h : a.notReady s) (i : Instr)
    (c : FuClass) (e : Inflight) : a.notReady (issueEntry i c e s) := by
  obtain ⟨j, hj, hwait⟩ := h
  exact ⟨j, hj, fun hready => hwait (hready.mono fun _ => issueEntry_readyBit)⟩

/-- R181: HALT, the one opcode without a class, has no row in R184. -/
theorem Inflight.notReady.unitClass_ne_none {e : Inflight} {s : State} (h : e.notReady s) :
    e.unitClass ≠ none := by
  obtain ⟨i, hi, hwait⟩ := h
  rw [(Inflight.kinds_of_op hi).unitClass]
  cases i with
  | halt => exact absurd trivial hwait
  | _ => exact Option.some_ne_none _

/-- R180, R184: an entry that is not ready as the scan begins is not ready when the scan reaches it. -/
theorem mem_issueScan_of_notReady {a : Inflight} {l : List Inflight} {s : State} (ha : a ∈ l)
    (hwait : a.notReady s) (b : Busy) : a ∈ (issueScan l b s).1 := by
  induction l generalizing b s with
  | nil => exact nomatch ha
  | cons e l ih =>
    cases issueScan_case e l b s with
    | purges hclass hscan =>
      have hl : a ∈ l := (List.mem_cons.1 ha).resolve_left fun h =>
        hwait.unitClass_ne_none (h ▸ hclass)
      rw [hscan]
      exact ih hl hwait b
    | keeps hscan =>
      rw [hscan]
      exact List.mem_cons.2 ((List.mem_cons.1 ha).imp_right fun hl => ih hl hwait b)
    | issues i c hi _ _ hready hscan =>
      have hl : a ∈ l := (List.mem_cons.1 ha).resolve_left fun h => by
        obtain ⟨j, hj, hnot⟩ := hwait
        obtain rfl : j = i := by simpa [← h, hj] using hi
        exact hnot (h ▸ hready)
      rw [hscan]
      exact ih hl (hwait.issueEntry i c e) _

/-- Settles O42: the four clauses, each of the scan that leaves the queue. -/
theorem issueAtMostOnePerClass : Obligations.IssueAtMostOnePerClass := by
  intro s c
  refine ⟨issueScan_sublist s.iq .none s, fun e he => ?_, issueScan_ofClass_length c s.iq .none s,
    fun e he hwait => mem_issueScan_of_notReady he hwait .none⟩
  exact Option.isSome_iff_ne_none.1 (issueScan_unitClass s.iq .none s e he)

end Sys2Proof.Machine

namespace Sys2Proof.Machine

/-! ### The LSQ stage (R210 to R215) -/

section LoadStoreQueue

variable {s : State} {h : Inflight} {rest : List Inflight} {i : Instr}

/-- R215: an occupied `DC` stalls the stage. -/
theorem lsqStage_stalls (hlsq : s.lsq = h :: rest) (hdc : s.dc ≠ none) : lsqStage s = s := by
  simp [lsqStage, hlsq, Option.isSome_iff_ne_none.2 hdc]

/-- R210: into an empty `DC` the stage does what its head asks for. -/
theorem lsqStage_acts (hlsq : s.lsq = h :: rest) (hdc : s.dc = none) :
    lsqStage s = lsqAction h rest s := by
  simp [lsqStage, hlsq, hdc]

/-- R211. -/
theorem lsqAction_drops (hmem : h.isMemory = false) : lsqAction h rest s = { s with lsq := rest } := by
  cases hi : h.insn with
  | unrecognized b => simp [lsqAction, hi]
  | op i =>
    rw [(Inflight.kinds_of_op hi).isMemory, Bool.or_eq_false_iff] at hmem
    obtain ⟨hload, hstore⟩ := hmem
    simp [lsqAction, hi, hload, hstore]

/-- R212: a load waits for its address. -/
theorem lsqAction_load_waits (hi : h.insn = .op i) (hload : isLoad i = true)
    (haddr : s.agenReadyAt h.pc = false) : lsqAction h rest s = s := by
  simp [lsqAction, hi, hload, lsqLoad, haddr]

/-- R213: a store waits behind its gate. -/
theorem lsqAction_store_waits (hi : h.insn = .op i) (hstore : isStore i = true)
    (hgate : ¬ s.storeGateOpen h = true) : lsqAction h rest s = s := by
  simp [lsqAction, hi, isLoad_of_isStore hstore, hstore, lsqStore, hgate]

/-- R213: the gate asks for the address, the data and the ROB head. -/
theorem State.storeGateOpen_iff :
    s.storeGateOpen h = true ↔
      s.agenReadyAt h.pc = true ∧ (∀ p : Phys, h.ps1 = some p → s.readyBit p = true) ∧
        ∃ (e : Inflight) (tail : List Inflight), s.rob = e :: tail ∧ e.seq = h.seq := by
  rw [State.storeGateOpen, Bool.and_eq_true, Bool.and_eq_true, operandReady_iff, State.isRobHead_iff,
    State.headTag_eq_some, and_assoc]
  rfl

/-- R363, R364: what a store writes is its first source. -/
theorem isStore_and_source_of_store {a : Reg}
    (hi : (∃ (b : Reg) (imm : Word), i = .store a b imm) ∨ ∃ b c : Reg, i = .str a b c) :
    isStore i = true ∧ sourceReg i .one = some a := by
  obtain ⟨b, imm, rfl⟩ | ⟨b, c, rfl⟩ := hi <;> exact ⟨rfl, rfl⟩

end LoadStoreQueue

/-- Settles O47: `DC` occupied, then the head by its kind, a memory instruction with its gate shut and open. -/
theorem lsqHeadOnly : Obligations.LsqHeadOnly := by
  intro s h rest i hlsq
  refine ⟨lsqStage_stalls hlsq, fun hdc hmem => ?_, fun hi => ⟨fun hdc hload => ⟨fun haddr => ?_,
    fun p haddr hp => ?_⟩, fun a hdc hop => ?_⟩⟩
  · rw [lsqStage_acts hlsq hdc, lsqAction_drops hmem]
  · rw [lsqStage_acts hlsq hdc, lsqAction_load_waits hi hload haddr]
  · rw [lsqStage_load hlsq hdc hi hload haddr, clearReadyOf_some hp]
    rfl
  · obtain ⟨hstore, ha⟩ := isStore_and_source_of_store hop
    have hdata : operandValue s h .one = s.operandRead h.ps1 a := operandValue_eq hi ha
    intro data opens
    refine ⟨fun hshut => ?_, fun hopen => ?_⟩
    · rw [lsqStage_acts hlsq hdc,
        lsqAction_store_waits hi hstore fun hgate => hshut (State.storeGateOpen_iff.1 hgate)]
    · rw [lsqStage_store hlsq hdc hi hstore (State.storeGateOpen_iff.2 hopen), hdata,
        ← setMemReady_memReady]
      apply State.ext <;> simp [onTag, data]

/-! ### The data-cache stage (R216 to R218) -/

section DataCache

variable {s : State} {r : Inflight} {i : Instr}

/-- R216, R218: at an invalid address a load delivers 0 and leaves the fault to the commit of its entry. -/
theorem dataCacheStage_load_invalid (hdc : s.dc = some r) (hi : r.insn = .op i) (hload : isLoad i = true)
    (hinvalid : dataAddressValid r.addr = false) :
    dataCacheStage s =
      (({ s with dc := none } : State).markExc r.seq .dataAddress).writeBack r.pd 0#32 := by
  simp [dataCacheStage, hdc, dcAction, hi, hload, dcLoad, hinvalid]

/-- R217, R218: a store raises the fault at once. -/
theorem dataCacheStage_store_invalid (hdc : s.dc = some r) (hi : r.insn = .op i)
    (hstore : isStore i = true) (hinvalid : dataAddressValid r.addr = false) :
    dataCacheStage s = ({ s with dc := none } : State).raise .dataAddress r.pc := by
  simp [dataCacheStage, hdc, dcAction, hi, isLoad_of_isStore hstore, hstore, dcStore, hinvalid]

theorem State.setMemReady_of_valid {a : Word} (hvalid : dataAddressValid a = true) (b : Bool) :
    s.setMemReady a b = { s with memReady := Sparse.write true s.memReady (location a) b } :=
  if_pos hvalid

end DataCache

/-- Settles O48: a load and a store, each at a valid and at an invalid address. -/
theorem dataCacheAccess : Obligations.DataCacheAccess := by
  intro s r i hdc hi
  refine ⟨fun p hload hp => ⟨fun hvalid => ?_, fun hinvalid => ?_⟩,
    fun hstore => ⟨fun hvalid => ?_, fun hinvalid => ?_⟩⟩
  · rw [dataCacheStage_load hdc hi hload hvalid, hp]
    rfl
  · rw [dataCacheStage_load_invalid hdc hi hload hinvalid, hp]
    rfl
  · rw [dataCacheStage_store hdc hi hstore hvalid, State.setMemReady_of_valid hvalid]
    rfl
  · exact dataCacheStage_store_invalid hdc hi hstore hinvalid

end Sys2Proof.Machine

namespace Sys2Proof.Machine

/-! ### The functional units (R240 to R253)

What each unit does with the record it finds in its latch, and what a flush takes out. The instructions that
deliver a result, and those that have an address, are each one case: the tables below say which value. -/

/-! #### The flush (R248) -/

/-- R248: exactly the registers of the younger entries are made ready. -/
theorem readyBit_releaseYounger (q : Nat) (l : List Inflight) (s : State) (p : Phys) :
    (releaseYounger q l s).readyBit p =
      (decide (p ∈ registersOf (l.filter fun e => decide (q < e.seq))) || s.readyBit p) := by
  induction l generalizing s with
  | nil => simp [releaseYounger, registersOf]
  | cons e l ih =>
    rw [releaseYounger, ih]
    by_cases hq : q < e.seq
    · simp only [hq, if_true, State.readyBit_releaseOf, decide_true, List.filter_cons_of_pos,
        registersOf_cons, List.mem_append, Option.mem_toList, Bool.decide_or]
      rw [Bool.or_left_comm, Bool.or_assoc]
    · simp [hq]

/-- R248: a latch keeps its occupant unless that is younger. -/
theorem squashLatch_eq_filter (q : Nat) (l : Option Inflight) :
    squashLatch q l = l.filter fun e => decide (e.seq ≤ q) := by
  ext r
  rw [mem_squashLatch, Option.filter_eq_some_iff, decide_eq_true_eq]

/-- Settles O39: the loop over the ROB moves the registers (`releaseYounger_fl`, `releaseYounger_rm`,
`readyBit_releaseYounger`), and the squash of a latch is a filter. -/
theorem flushReleasesTheYounger : Obligations.FlushReleasesTheYounger := by
  intro q s
  refine ⟨?_, readyBit_releaseYounger q s.rob s⟩
  apply State.ext <;>
    simp [flush, olderThan, squashLatch_eq_filter, releaseYounger_fl, releaseYounger_rm]

/-! #### Results delivered in one cycle (R241, R243, R250) -/

section Units

variable {s : State} {r : Inflight} {i : Instr} {p : Phys}

theorem State.writeBack_some (v : Word) : s.writeBack (some p) v = s.delivered p v := rfl

/-- R240: the record is taken out of `INT`, and its action is done. -/
theorem intStage_some (hint : s.int = some r) : intStage s = intAction r { s with int := none } := by
  simp [intStage, hint]

/-- R250: the record is taken out of `LOG`, and its action is done. -/
theorem logStage_some (hlog : s.log = some r) : logStage s = logAction r { s with log := none } := by
  simp [logStage, hlog]

/-- R241, R243: what the Integer unit delivers of an instruction that does nothing else there. -/
def integerResult (r : Inflight) : Instr → Option Word
  | .add _ _ _ => some (wrap32 (r.v1.toInt + r.v2.toInt))
  | .sub _ _ _ => some (wrap32 (r.v1.toInt - r.v2.toInt))
  | .addl _ _ imm => some (wrap32 (r.v1.toInt + imm.toInt))
  | .subl _ _ imm => some (wrap32 (r.v1.toInt - imm.toInt))
  | .movc _ imm => some imm
  | _ => none

/-- R250: what the Logical unit delivers. -/
def logicalResult (r : Inflight) : Instr → Option Word
  | .and _ _ _ => some (r.v1 &&& r.v2)
  | .or _ _ _ => some (r.v1 ||| r.v2)
  | .xor _ _ _ => some (r.v1 ^^^ r.v2)
  | _ => none

theorem intAction_delivers {v : Word} (hi : r.insn = .op i) (hv : integerResult r i = some v) :
    intAction r s = s.writeBack r.pd v := by
  unfold intAction
  rw [hi]
  cases i with
  | add | sub | addl | subl | movc =>
    cases hv
    rfl
  | _ => cases hv

theorem logAction_delivers {v : Word} (hi : r.insn = .op i) (hv : logicalResult r i = some v) :
    logAction r s = s.writeBack r.pd v := by
  unfold logAction
  rw [hi]
  cases i with
  | and | or | xor =>
    cases hv
    rfl
  | _ => cases hv

theorem intStage_delivers {v : Word} (hp : r.pd = some p) (hint : s.int = some r)
    (hi : r.insn = .op i) (hv : integerResult r i = some v) :
    intStage s = { s.delivered p v with int := none } := by
  rw [intStage_some hint, intAction_delivers hi hv, hp]
  rfl

theorem logStage_delivers {v : Word} (hp : r.pd = some p) (hlog : s.log = some r)
    (hi : r.insn = .op i) (hv : logicalResult r i = some v) :
    logStage s = { s.delivered p v with log := none } := by
  rw [logStage_some hlog, logAction_delivers hi hv, hp]
  rfl

end Units

/-- Settles O34: each opcode with its row of `integerResult` or `logicalResult`. -/
theorem unitResults : Obligations.UnitResults := by
  intro s r p hp
  exact ⟨fun _ _ _ hint hi => intStage_delivers hp hint hi rfl,
    fun _ _ _ hint hi => intStage_delivers hp hint hi rfl,
    fun _ _ _ hint hi => intStage_delivers hp hint hi rfl,
    fun _ _ _ hint hi => intStage_delivers hp hint hi rfl,
    fun _ _ hint hi => intStage_delivers hp hint hi rfl,
    fun _ _ _ hlog hi => logStage_delivers hp hlog hi rfl,
    fun _ _ _ hlog hi => logStage_delivers hp hlog hi rfl,
    fun _ _ _ hlog hi => logStage_delivers hp hlog hi rfl⟩

/-! #### DIV and the multiply pipeline (R242, R251) -/

section DivideAndMultiply

variable {s : State} {r : Inflight} {rd a b : Reg}

theorem intStage_div (hint : s.int = some r) (hi : r.insn = .op (.div rd a b)) :
    intStage s = unitDiv r { s with int := none } := by
  simp [intStage_some hint, intAction, hi]

theorem unitDiv_of_ne_zero (hv : r.v2 ≠ 0#32) :
    unitDiv r s = s.writeBack r.pd (wrap32 (r.v1.toInt.tdiv r.v2.toInt)) := by
  simp [unitDiv, divResult, hv]

/-- R242: a zero divisor marks the ROB entry and delivers 0. -/
theorem unitDiv_of_zero (hv : r.v2 = 0#32) :
    unitDiv r s = (s.markExc r.seq .divideByZero).writeBack r.pd 0#32 := by
  simp [unitDiv, divResult, hv]

theorem mulWriteBack_none (h : s.mul4 = none) : mulWriteBack s = s := by
  simp [mulWriteBack, h]

theorem mulWriteBack_some (h : s.mul4 = some r) : mulWriteBack s = s.writeBack r.pd r.result := by
  simp [mulWriteBack, h]

/-- R251: behind an empty first stage. -/
theorem mulShift_of_none (h : s.mul1 = none) :
    mulShift s = { s with mul4 := s.mul3, mul3 := s.mul2, mul2 := none, mul1 := none } := by
  simp [mulShift, shareProduct, h]

/-- R251, R34: the product of the first stage goes on in the pipeline and into the ROB entry. -/
theorem mulShift_of_some (h : s.mul1 = some r) :
    mulShift s =
      { s.onRobEntry r.seq fun e => { e with result := wrap32 (r.v1.toInt * r.v2.toInt) } with
        mul4 := s.mul3
        mul3 := s.mul2
        mul2 := some { r with result := wrap32 (r.v1.toInt * r.v2.toInt) }
        mul1 := none } := by
  simp [mulShift, shareProduct, h, unitMul, mulResult]

end DivideAndMultiply

/-- Settles O35: DIV by its divisor; the pipeline by the occupants of its last and its first stage. -/
theorem divideAndMultiplyUnits : Obligations.DivideAndMultiplyUnits := by
  refine ⟨fun s r rd a b p hint hi hp => ⟨fun hv => ?_, fun hv => ?_⟩, fun s => ?_⟩
  · rw [intStage_div hint hi, unitDiv_of_ne_zero hv, hp]
    rfl
  · rw [intStage_div hint hi, unitDiv_of_zero hv, hp]
    rfl
  · have hempty (h4 : s.mul4 = none) : mulStage s = mulShift s := by
      rw [mulStage, mulWriteBack_none h4]
    have hfull (r : Inflight) (p : Phys) (h4 : s.mul4 = some r) (hp : r.pd = some p) :
        mulStage s = mulShift (s.delivered p r.result) := by
      rw [mulStage, mulWriteBack_some h4, hp, State.writeBack_some]
    cases h1 : s.mul1 with
    | none =>
      exact ⟨fun h4 => (hempty h4).trans (mulShift_of_none h1),
        fun r p h4 hp => (hfull r p h4 hp).trans (mulShift_of_none h1)⟩
    | some =>
      exact ⟨fun h4 => (hempty h4).trans (mulShift_of_some h1),
        fun r p h4 hp => (hfull r p h4 hp).trans (mulShift_of_some h1)⟩

/-! #### CMP, addresses, JUMP, and what is dropped (R244, R245, R249, R253) -/

section CompareAddressJump

variable {s : State} {r : Inflight} {i : Instr}

/-- R245: the effective address a memory instruction has in `INT`. -/
def generatedAddress (r : Inflight) : Instr → Option Word
  | .load _ _ imm => some (wrap32 (r.v1.toInt + imm.toInt))
  | .ldr _ _ _ => some (wrap32 (r.v1.toInt + r.v2.toInt))
  | .store _ _ imm => some (wrap32 (r.v2.toInt + imm.toInt))
  | .str _ _ _ => some (wrap32 (r.v2.toInt + r.v3.toInt))
  | _ => none

/-- R245: it goes to the slot of the record's pc. -/
theorem intStage_addresses {ea : Word} (hint : s.int = some r) (hi : r.insn = .op i)
    (hea : generatedAddress r i = some ea) :
    intStage s = ({ s with int := none } : State).setAgen r.pc ea := by
  rw [intStage_some hint, intAction, hi]
  cases i with
  | load | ldr | store | str =>
    cases hea
    rfl
  | _ => cases hea

/-- R244: `Z` and the token get the same difference. -/
theorem intStage_cmp {a b : Reg} (hint : s.int = some r) (hi : r.insn = .op (.cmp a b)) :
    intStage s = unitCmp r { s with int := none } := by
  simp [intStage_some hint, intAction, hi]

/-- R249. -/
theorem intStage_jump {a : Reg} {imm : Word} (hint : s.int = some r)
    (hi : r.insn = .op (.jump a imm)) : intStage s = unitJump imm r { s with int := none } := by
  simp [intStage_some hint, intAction, hi]

/-- R253: an opcode of another class is dropped. -/
theorem intAction_of_other_class (hclass : r.unitClass ≠ some .integer) : intAction r s = s := by
  cases hi : r.insn with
  | unrecognized b => simp [intAction, hi]
  | op i =>
    replace hclass : fuClass i ≠ some .integer := by simpa [Inflight.unitClass, hi] using hclass
    cases i with
    | mul | and | or | xor | halt => simp [intAction, hi]
    | _ => exact absurd rfl hclass

end CompareAddressJump

/-- Settles O36: CMP, the rows of `generatedAddress`, JUMP, and the opcodes that are dropped. -/
theorem unitCompareAddressJump : Obligations.UnitCompareAddressJump := by
  intro s r hint addressed
  refine ⟨fun a b p hi hp => ?_, fun _ _ _ hi => intStage_addresses hint hi rfl,
    fun _ _ _ hi => intStage_addresses hint hi rfl, fun _ _ _ hi => intStage_addresses hint hi rfl,
    fun _ _ _ hi => intStage_addresses hint hi rfl, fun _ _ hi => intStage_jump hint hi,
    fun hclass => ?_⟩
  · rw [intStage_cmp hint hi, unitCmp, hp]
    rfl
  · rw [intStage_some hint, intAction_of_other_class hclass]

/-! #### Branch resolution (R246, R247) -/

section Resolution

variable {s : State} {r : Inflight} {imm : Word} {taken : Bool}

theorem resolveBranch_of_predicted (h : taken = r.predTaken) :
    resolveBranch taken imm r s =
      (s.setBtb r.pc ⟨true, true, taken, r.pc + imm⟩).markDone r.seq := if_pos h

theorem resolveBranch_of_mispredicted (h : taken ≠ r.predTaken) :
    resolveBranch taken imm r s =
      mispredict taken (r.pc + imm) r
        ((s.setBtb r.pc ⟨true, true, taken, r.pc + imm⟩).markDone r.seq) := if_neg h

end Resolution

/-- Settles O37: the branch resolves (`intStage_resolves`), with and against its prediction. -/
theorem branchResolution : Obligations.BranchResolution := by
  intro s r imm taken hint hbranch resolved
  rw [intStage_resolves hint hbranch]
  exact ⟨resolveBranch_of_predicted, resolveBranch_of_mispredicted⟩

end Sys2Proof.Machine

namespace Sys2Proof.Machine

/-! ### Commit of every other head (R281, R284 to R287, R289)

A head that names no destination is an action behind at most one gate: `commitStage` is that action by the head's
opcode, and an open gate takes the head out of the ROB. -/

section HeadActions

variable {s : State} {h : Inflight} {rest : List Inflight}

/-- What `if gate then t else s` says of a stage: it waits behind a shut gate, and acts behind an open one. -/
theorem gated_of_eq_ite {t u : State} {gate : Bool} (hu : u = if gate then t else s) :
    (gate = false → u = s) ∧ (gate = true → u = t) := by
  cases gate <;> simp [hu]

theorem State.retireHead_eq (hrob : s.rob = h :: rest) :
    s.retireHead = { s with rob := rest, retired := s.retired + 1 } := by
  simp [State.retireHead, hrob]

/-- R281: a pending fault comes before any gate. -/
theorem commitStage_raises {f : FaultCode} (hrob : s.rob = h :: rest) (hexc : h.exc = some f) :
    commitStage s = s.raise f h.pc := by
  simp only [commitStage, hrob, hexc]

/-- R280: without one, it is the opcode's case. -/
theorem commitStage_acts (hrob : s.rob = h :: rest) (hexc : h.exc = none) :
    commitStage s = commitAction h rest s := by
  simp only [commitStage, hrob, hexc]

/-- R284. -/
theorem commitAction_cmp {a b : Reg} {p : Phys} (hi : h.insn = .op (.cmp a b)) (hp : h.pd = some p) :
    commitAction h rest s = if s.readyBit p then (s.release p).retireHead else s := by
  simp only [commitAction, hi, commitCmp, hp]
  rfl

/-- R285: both branches have one gate. -/
theorem commitAction_branch {imm : Word} (hi : h.insn = .op (.bz imm) ∨ h.insn = .op (.bnz imm)) :
    commitAction h rest s = if h.done then s.retireHead else s := by
  rcases hi with hi | hi <;> simp only [commitAction, hi, commitBranch]

/-- R286. -/
theorem commitAction_jump {rs1 : Reg} {imm : Word} (hi : h.insn = .op (.jump rs1 imm)) :
    commitAction h rest s =
      if s.jumpTaken then
        flush h.seq
          { s.retireHead with pc := s.jumpTarget, jumpInFlight := false, jumpTaken := false }
      else s := by
  simp only [commitAction, hi, commitJump]

/-- R287: both stores have one gate. -/
theorem commitAction_store {i : Instr} (hi : h.insn = .op i) (hstore : isStore i = true) :
    commitAction h rest s = if s.storeDoneAt h.pc then s.retireHead else s := by
  cases i with
  | store | str => simp only [commitAction, hi, commitStore]
  | _ => cases hstore

/-- R289: no gate. -/
theorem commitAction_unrecognized {b : BitVec 8} (hi : h.insn = .unrecognized b) :
    commitAction h rest s = s.retireHead := by
  simp only [commitAction, hi, commitUnrecognized]

end HeadActions

/-- Settles O30: each opcode's action is its gate before `retireHead`, which CMP does after `release`. -/
theorem commitWithoutRegister : Obligations.CommitWithoutRegister := by
  intro s h rest hrob hexc
  have hacts := commitStage_acts hrob hexc
  rw [← State.retireHead_eq hrob, hacts]
  refine ⟨fun a b p hi hp => ?_, fun imm hi => gated_of_eq_ite (commitAction_branch hi),
    fun i hstore hi => gated_of_eq_ite (commitAction_store hi hstore),
    fun b hi => commitAction_unrecognized hi⟩
  have hrelease := State.retireHead_eq (s := s.release p) hrob
  exact gated_of_eq_ite (hrelease ▸ commitAction_cmp hi hp)

namespace CommitHeads -- `Machine.commitJump` is the model's action.

/-- Settles O31: behind the taken-jump signal, `retireHead` and the redirect are what the flush starts from. -/
theorem commitJump : Obligations.CommitJump := by
  intro s h rest rs1 imm hrob hexc hi
  have haction := commitAction_jump (s := s) (rest := rest) hi
  rw [State.retireHead_eq hrob] at haction
  exact gated_of_eq_ite ((commitStage_acts hrob hexc).trans haction)

end CommitHeads

/-- Settles O32: the fault raised by Commit stops the cycle (`cycleWith_commit_stops`). -/
theorem commitRaisesThePendingFault : Obligations.CommitRaisesThePendingFault := by
  intro s h rest f hrun hrob hexc
  have hcommit : commitStage s.counted = s.counted.raise f h.pc := commitStage_raises hrob hexc
  have hstop : (commitStage s.counted).status ≠ .running := by simp [hcommit, State.raise]
  have hadvance := (State.advance_stops (cycleWith_commit_stops hrun hstop) hstop).1
  rwa [hcommit] at hadvance

end Sys2Proof.Machine

namespace Sys2Proof.Machine

/-! ### An arithmetic or logical instruction alone in the machine (R8, R320 to R330)

The record goes through `DEC`, `DSP`, the IQ and the latches of its unit one cycle each, with nothing in LSQ and
`DC`; commit waits for its physical register. As for the memory instructions, `carrying` says where the
record is; the latch of its unit stands beside it. -/

/-- A record of the instruction `i` that a unit computes into physical register `p` from the registers. -/
structure Inflight.ComputingRecord (e : Inflight) (i : Instr) (p : Phys) : Prop where
  insn : e.insn = .op i
  computes : (Machine.needsPd i && !isLoad i) = true
  pd : e.pd = some p
  ps1 : e.ps1 = none
  ps2 : e.ps2 = none
  ps3 : e.ps3 = none
  exc : e.exc = none

namespace Inflight.ComputingRecord

variable {e r : Inflight} {i : Instr} {p : Phys}

/-- Work fields apart (R34), it is the same record. -/
theorem of_sameRecord (he : e.ComputingRecord i p) (hr : SameRecord e r) : r.ComputingRecord i p :=
  ⟨hr.insn_eq.trans he.insn, he.computes, hr.pd_eq.trans he.pd, hr ▸ he.ps1, hr ▸ he.ps2, hr ▸ he.ps3,
    hr.exc_eq.trans he.exc⟩

theorem needsPd (he : e.ComputingRecord i p) : e.needsPd = true :=
  (Inflight.kinds_of_op he.insn).needsPd.trans (Bool.and_eq_true_iff.1 he.computes).1

theorem isMemory (he : e.ComputingRecord i p) : e.isMemory = false := by
  have hcomputes := he.computes
  rw [(Inflight.kinds_of_op he.insn).isMemory]
  cases i with
  | load | ldr | store | str => cases hcomputes
  | _ => rfl

/-- Its instruction is not HALT, the only one that needs no IQ slot (R161) and is in no class (R182). -/
theorem not_halt (he : e.ComputingRecord i p) : i ≠ .halt := by
  rintro rfl
  cases he.computes

theorem unitClass_isSome (he : e.ComputingRecord i p) : e.unitClass.isSome = true := by
  have hhalt := he.not_halt
  rw [(Inflight.kinds_of_op he.insn).unitClass]
  cases i with
  | halt => exact absurd rfl hhalt
  | _ => rfl

theorem gateReady (he : e.ComputingRecord i p) (s : State) : e.gateReady s i := by
  obtain ⟨-, -, -, h1, h2, h3, -⟩ := he
  cases i <;> simp [Inflight.gateReady, h1, h2, h3]

/-- R282, R284: commit waits for its register. -/
theorem commitGate (he : e.ComputingRecord i p) (s : State) : s.commitGate e = s.readyBit p := by
  simp [State.commitGate, he.needsPd, he.pd]

/-- R186: MOVC alone clears a ready bit at issue, that of its own register, which is clear already. -/
theorem issueEffect (he : e.ComputingRecord i p) {s : State} (hbusy : s.readyBit p = false) :
    issueEffect i e s = s := by
  have hcomputes := he.computes
  cases i with
  | movc =>
    rw [Machine.issueEffect, clearReadyOf_some he.pd, State.setReady]
    exact congrArg (fun ready => ({ s with ready := ready } : State)) (setReady_false_eq hbusy)
  | load | ldr | store | str => cases hcomputes
  | _ => rfl

end Inflight.ComputingRecord

/-! #### The cycles -/

/-- The front end holds nothing, and fetch delivers nothing. -/
def FrontEndEmpty (look : Word → Option RecordFields) (s : State) : Prop :=
  s.dec = none ∧ s.dsp = none ∧ s.redirectPending = false ∧ s.branchRecovery = false ∧ look s.pc = none

/-- The oldest free register is bound to `rd`, the only live rename (R105, R136). -/
def State.renamed (p : Phys) (rest : List Phys) (rd : Reg) (s : State) : State :=
  { s with fl := rest, ready := s.ready.set p.val false p.isLt, rm := [(rd, p)] }

section Retired

variable (s : State)

@[simp] theorem State.counted_retired : s.counted.retired = s.retired := rfl
@[simp] theorem State.carrying_retired (iq lsq rob : List Inflight) (int dc : Option Inflight) :
    (s.carrying iq lsq rob int dc).retired = s.retired := rfl
@[simp] theorem State.decoding_retired (r : Inflight) : (s.decoding r).retired = s.retired := rfl
@[simp] theorem State.dispatching_retired (r : Inflight) : (s.dispatching r).retired = s.retired := rfl
@[simp] theorem State.delivered_retired (p : Phys) (v : Word) : (s.delivered p v).retired = s.retired := rfl
@[simp] theorem State.renamed_retired (p : Phys) (rest : List Phys) (rd : Reg) :
    (s.renamed p rest rd).retired = s.retired := rfl
@[simp] theorem State.counted_readyBit (p : Phys) : s.counted.readyBit p = s.readyBit p := rfl

end Retired

section RegisterCycles

variable {s : State} {e r : Inflight} {i : Instr} {p : Phys} {look : Word → Option RecordFields}

theorem BackEndOnly.frontEndEmpty (hs : BackEndOnly look s) : FrontEndEmpty look s :=
  ⟨hs.dec, hs.dsp, hs.redirectPending, hs.branchRecovery, hs.invalid⟩

/-- R134, R136: the cycle that decodes the record, which takes the oldest free register. -/
theorem cycleWith_decodes_register (hs : BackEndOnly look s) (hrm : s.rm = []) {f : RecordFields}
    (hi : decodeFields f = .op i) {rd : Reg} (hrd : destReg i = some rd) {rest : List Phys}
    (hfl : s.fl = p :: rest) (pc : Word) :
    cycleWith look (s.decoding (freshRecord f pc false)) =
      (s.counted.renamed p rest rd).dispatching { freshRecord f pc false with pd := some p } := by
  have hnone (o : Option Reg) : o.bind (s.counted.decoding (freshRecord f pc false)).resolve = none := by
    cases o
    · rfl
    · exact resolveIn_eq_none.2 (by simp [State.decoding, State.carrying, State.counted, hrm])
  obtain ⟨-, -, hmoves⟩ := decodeRenames (s.counted.decoding (freshRecord f pc false)) _ i rd rfl hi hrd
  rw [cycleWith_decodes hs, hmoves p rest hs.dsp hfl, hnone, hnone, hnone]
  simp only [State.decoding, State.dispatching, State.carrying, State.counted, State.renamed, hs.dec, hrm,
    freshRecord]

/-- R162, R164: the cycle that dispatches the record. -/
theorem cycleWith_dispatches_computing (hs : BackEndOnly look s) (hr : r.ComputingRecord i p) :
    cycleWith look (s.dispatching r) =
      ({ s.counted with nextSeq := s.nextSeq + 1 } : State).carrying [s.dispatched r] []
        [s.dispatched r] none none := by
  let t : State := ({ s.counted with nextSeq := s.nextSeq + 1 } : State).carrying [s.dispatched r] []
    [s.dispatched r] none none
  have hroom : (s.counted.dispatching r).hasRoomFor r = true :=
    State.hasRoomFor_iff.2 ⟨Nat.zero_lt_succ _, .inr (Nat.zero_lt_succ _), .inl hr.isMemory⟩
  have hhalt : r.insn ≠ .op .halt := fun h => hr.not_halt (Fetched.op.inj (hr.insn.symm.trans h))
  have hdispatch : dispatchStage (s.counted.dispatching r) = t := by
    rw [dispatchStage_enters (s := s.counted.dispatching r) rfl hs.branchRecovery hroom,
      enterQueues_of_not_memory hr.isMemory, if_neg hhalt]
    simp only [t, State.dispatching, State.carrying, State.counted, State.dispatched, hs.dsp, List.nil_append]
  calc cycleWith look (s.dispatching r)
      _ = fetchStage look (decodeStage (dispatchStage (s.counted.dispatching r))) :=
        cycleWith_frontEnd look hs.running rfl rfl rfl hs.inUnits_carrying
      _ = t := by
        rw [hdispatch, decodeStage_none (s := t) hs.dec,
          fetchStage_invalid (s := t) hs.invalid hs.redirectPending]

/-- R101: a cycle in which commit waits for the one record there is, which is in the IQ or a unit. -/
theorem cycleWith_executes {t : State} (hrun : s.status = .running) (hrob : s.rob = [e])
    (he : e.ComputingRecord i p) (hbusy : s.readyBit p = false) (hlsq : s.lsq = []) (hdc : s.dc = none)
    (hstages : issueStage (intStage (logStage (mulStage s.counted))) = t) (ht : FrontEndEmpty look t) :
    cycleWith look s = t := by
  obtain ⟨hdec, hdsp, hredirect, hrecovery, hinvalid⟩ := ht
  have hcommit : commitStage s.counted = s.counted :=
    commitStage_waits hrob he.exc he.unitClass_isSome ((he.commitGate _).trans hbusy)
  have hcache : dataCacheStage s.counted = s.counted := dataCacheStage_none hdc
  have hlsqStage : lsqStage s.counted = s.counted := lsqStage_nil hlsq
  have hboth : dataCacheStage (commitStage s.counted) = s.counted := by rw [hcommit, hcache]
  rw [cycleWith_completes hrun (by rwa [hcommit]) (by rwa [hboth]), hboth, laterStages, hlsqStage, hstages,
    dispatchStage_none hdsp hrecovery, decodeStage_none hdec, fetchStage_invalid hinvalid hredirect]

/-- R186, R187: the cycle that issues the record to the latch of its class. -/
theorem cycleWith_issues_computing (hs : BackEndOnly look s) (he : e.ComputingRecord i p)
    (hbusy : s.readyBit p = false) {c : FuClass} (hc : fuClass i = some c) :
    cycleWith look (s.carrying [e] [] [e] none none) =
      (s.counted.carrying [] [] [e.issued s i] none none).setUnitLatch c (e.issued s i) := by
  let u := s.counted.carrying [e] [] [e] none none
  have hmul : mulStage u = u := mulStage_none hs.mul1 hs.mul2 hs.mul3 hs.mul4
  have hlog : logStage u = u := logStage_none hs.log
  have hint : intStage u = u := intStage_none rfl
  have hissued : e.issued u i = e.issued s i := issued_congr rfl rfl e i
  have heffect : issueEffect i (e.issued s i) u = u :=
    (he.of_sameRecord (issued_sameRecord e s i)).issueEffect (s := u) hbusy
  have hissue := issueStage_alone (s := u) he.insn hc (he.gateReady u) rfl (by simp [u, State.carrying])
  simp only [hissued, heffect] at hissue
  have hlatch : issueStage (intStage (logStage (mulStage u))) =
      (s.counted.carrying [] [] [e.issued s i] none none).setUnitLatch c (e.issued s i) := by
    rw [hmul, hlog, hint, hissue]
    cases c <;>
      simp only [u, State.carrying, State.setUnitLatch, List.map_cons, List.map_nil, if_true, if_false,
        reduceCtorEq, issued_operands]
  refine cycleWith_executes (s := s.carrying [e] [] [e] none none) hs.running rfl he hbusy rfl rfl hlatch ?_
  simpa [FrontEndEmpty, State.carrying, State.counted] using hs.frontEndEmpty

/-- The cycle in which the unit takes the record out of its last latch and delivers `v`; its ROB copy is `r`
then (R34). -/
theorem cycleWith_delivers {u : State} {v : Word} (hs : BackEndOnly look s) (hrun : u.status = .running)
    (hrob : u.rob = [e]) (he : e.ComputingRecord i p) (hbusy : u.readyBit p = false) (hlsq : u.lsq = [])
    (hdc : u.dc = none)
    (hunits : intStage (logStage (mulStage u.counted)) =
      (s.counted.delivered p v).carrying [] [] [r] none none) :
    cycleWith look u = (s.counted.delivered p v).carrying [] [] [r] none none :=
  cycleWith_executes hrun hrob he hbusy hlsq hdc ((congrArg issueStage hunits).trans (issueStage_nil rfl))
    hs.frontEndEmpty

/-- R240: from `INT`. -/
theorem cycleWith_delivers_int {v : Word} (hs : BackEndOnly look s) (he : e.ComputingRecord i p)
    (hbusy : s.readyBit p = false)
    (hint : intAction e (s.counted.carrying [] [] [e] none none) =
      (s.counted.delivered p v).carrying [] [] [r] none none) :
    cycleWith look (s.carrying [] [] [e] (some e) none) =
      (s.counted.delivered p v).carrying [] [] [r] none none := by
  refine cycleWith_delivers hs hs.running rfl he hbusy rfl rfl ?_
  let u := s.counted.carrying [] [] [e] (some e) none
  have hmul : mulStage u = u := mulStage_none hs.mul1 hs.mul2 hs.mul3 hs.mul4
  have hlog : logStage u = u := logStage_none hs.log
  calc intStage (logStage (mulStage u))
      _ = intAction e { u with int := none } := by rw [hmul, hlog, intStage_some (s := u) rfl]
      _ = _ := hint

/-- R250: from `LOG`. -/
theorem cycleWith_delivers_log {v : Word} (hs : BackEndOnly look s) (he : e.ComputingRecord i p)
    (hbusy : s.readyBit p = false) (hi : logicalResult e i = some v) :
    cycleWith look { s.carrying [] [] [e] none none with log := some e } =
      (s.counted.delivered p v).carrying [] [] [e] none none := by
  refine cycleWith_delivers hs hs.running rfl he hbusy rfl rfl ?_
  let u : State := { s.counted.carrying [] [] [e] none none with log := some e }
  have hmul : mulStage u = u := mulStage_none hs.mul1 hs.mul2 hs.mul3 hs.mul4
  calc intStage (logStage (mulStage u))
      _ = intStage { u.delivered p v with log := none } := by
        rw [hmul, logStage_delivers (s := u) he.pd rfl he.insn hi]
      _ = { u.delivered p v with log := none } := intStage_none rfl
      _ = _ := by simp only [u, State.delivered, State.carrying, State.counted, hs.log]

/-- R282, R283: the cycle that commits the record. -/
theorem cycleWith_commits_register (hs : BackEndOnly look s) (he : e.ComputingRecord i p) {rd : Reg}
    (hrd : destReg i = some rd) (hready : s.readyBit p = true) :
    cycleWith look (s.carrying [] [] [e] none none) =
      ({ ((s.counted.writeReg rd (s.valueOf p)).release p).retireHead with
        z := if writesZAtCommit i then s.valueOf p else s.z } : State).carrying [] [] [] none none := by
  refine cycleWith_commits hs ?_ rfl
  obtain ⟨-, hopen⟩ := commitWritesTheDestination (s.counted.carrying [] [] [e] none none) e [] i rd p rfl
    he.exc he.insn hrd he.pd
  rw [hopen hready]
  simp only [State.carrying, State.counted, State.valueOf, State.writeReg, State.release, State.retireHead,
    hs.dsp, List.map_nil, Option.map_none]

end RegisterCycles

/-! #### The multiply pipeline (R251, R252) -/

/-- The state with this record in the ROB and these ones in the multiply pipeline. -/
def State.inMultiplier (e : Inflight) (m1 m2 m3 m4 : Option Inflight) (s : State) : State :=
  { s.carrying [] [] [e] none none with mul1 := m1, mul2 := m2, mul3 := m3, mul4 := m4 }

section Multiply

variable {s : State} {e r : Inflight} {i : Instr} {p : Phys} {look : Word → Option RecordFields}

theorem BackEndOnly.inMultiplier_mul1 (hs : BackEndOnly look s) (e : Inflight) :
    (s.carrying [] [] [e] none none).setUnitLatch .multiply e =
      s.inMultiplier e (some e) none none none := by
  simp only [State.inMultiplier, State.carrying, State.setUnitLatch, hs.mul2, hs.mul3, hs.mul4]

theorem BackEndOnly.inMultiplier_none (hs : BackEndOnly look s) (e : Inflight) :
    s.inMultiplier e none none none none = s.carrying [] [] [e] none none := by
  simp only [State.inMultiplier, State.carrying, hs.mul1, hs.mul2, hs.mul3, hs.mul4]

/-- A cycle in which commit waits and the pipeline moves, taking the record's ROB copy to `r`. -/
theorem runToRetirement_moves {m1 m2 m3 m4 n1 n2 n3 n4 : Option Inflight} {t : State} (n : Nat)
    (hs : BackEndOnly look s) (he : e.ComputingRecord i p) (hbusy : s.readyBit p = false)
    (hmul : mulStage (s.counted.inMultiplier e m1 m2 m3 m4) = t.inMultiplier r n1 n2 n3 n4)
    (ht : t.frontFields = s.frontFields) (hretired : t.retired = s.retired) :
    runToRetirement look (n + 1) (s.inMultiplier e m1 m2 m3 m4) =
      runToRetirement look n (t.inMultiplier r n1 n2 n3 n4) := by
  have hback : BackEndOnly look t := hs.of_frontFields ht
  have hlog : logStage (t.inMultiplier r n1 n2 n3 n4) = _ := logStage_none hback.log
  have hint : intStage (t.inMultiplier r n1 n2 n3 n4) = _ := intStage_none rfl
  have hissue : issueStage (t.inMultiplier r n1 n2 n3 n4) = _ := issueStage_nil rfl
  have hstages : issueStage (intStage (logStage (mulStage (s.counted.inMultiplier e m1 m2 m3 m4)))) =
      t.inMultiplier r n1 n2 n3 n4 := by rw [hmul, hlog, hint, hissue]
  have hcycle : cycleWith look (s.inMultiplier e m1 m2 m3 m4) = t.inMultiplier r n1 n2 n3 n4 :=
    cycleWith_executes hs.running rfl he hbusy rfl rfl hstages hback.frontEndEmpty
  exact runToRetirement_continues n hcycle hback.running hretired

/-- R251, R34: the product of stage 1 goes on with the record. -/
theorem mulStage_computes (s : State) (e : Inflight) :
    mulStage (s.inMultiplier e (some e) none none none) =
      s.inMultiplier { e with result := wrap32 (e.v1.toInt * e.v2.toInt) } none
        (some { e with result := wrap32 (e.v1.toInt * e.v2.toInt) }) none none := by
  rw [mulStage, mulWriteBack_none rfl, mulShift_of_some rfl]
  simp only [State.onRobEntry, State.inMultiplier, State.carrying, onTag_singleton]

theorem mulStage_shifts (s : State) (e : Inflight) (m2 m3 : Option Inflight) :
    mulStage (s.inMultiplier e none m2 m3 none) = s.inMultiplier e none none m2 m3 := by
  rw [mulStage, mulWriteBack_none rfl, mulShift_of_none rfl]
  rfl

/-- R251: the product is delivered from stage 4. -/
theorem mulStage_delivers (s : State) (hp : e.pd = some p) :
    mulStage (s.inMultiplier e none none none (some e)) =
      (s.delivered p e.result).inMultiplier e none none none none := by
  rw [mulStage, mulWriteBack_some rfl, hp, mulShift_of_none rfl]
  rfl

/-- R251: one cycle in each of the four stages. -/
theorem runToRetirement_multiplies (n : Nat) (hs : BackEndOnly look s)
    (he : e.ComputingRecord i p) (hbusy : s.readyBit p = false) :
    let v := wrap32 (e.v1.toInt * e.v2.toInt)
    runToRetirement look (n + 4) ((s.carrying [] [] [e] none none).setUnitLatch .multiply e) =
      runToRetirement look n ((({ s with cycle := s.cycle + 4 } : State).delivered p v).carrying [] []
        [{ e with result := v }] none none) := by
  intro v
  let r : Inflight := { e with result := v }
  have hr : r.ComputingRecord i p := he.of_sameRecord rfl
  have h1 : BackEndOnly look s.counted := hs.of_frontFields (by simp)
  have h2 : BackEndOnly look s.counted.counted := hs.of_frontFields (by simp)
  have h3 : BackEndOnly look s.counted.counted.counted := hs.of_frontFields (by simp)
  have h4 : BackEndOnly look (s.counted.counted.counted.counted.delivered p v) := hs.of_frontFields (by simp)
  rw [hs.inMultiplier_mul1 e,
    runToRetirement_moves (n + 3) hs he hbusy (mulStage_computes _ e) (by simp) (by simp),
    runToRetirement_moves (n + 2) h1 hr (by simpa) (mulStage_shifts _ r _ _) (by simp) (by simp),
    runToRetirement_moves (n + 1) h2 hr (by simpa) (mulStage_shifts _ r _ _) (by simp) (by simp),
    runToRetirement_moves n h3 hr (by simpa) (mulStage_delivers _ hr.pd) (by simp) (by simp),
    h4.inMultiplier_none r]
  simp only [r, v, State.carrying, State.counted, State.delivered]

end Multiply

/-! #### The whole path -/

/-- The record of `i` alone in the machine, as it waits in the IQ (R131, R136, R164). -/
def State.queued (i : Instr) (p : Phys) (s : State) : Inflight :=
  { freshRecord (s.recordOf i) s.pc false with pd := some p, seq := s.nextSeq }

/-- And as it stands in its unit, with its operands (R185). -/
def State.executing (i : Instr) (p : Phys) (s : State) : Inflight := (s.queued i p).issued s i

/-- The rest of the machine `n` cycles on, while the record is behind dispatch (R131, R136, R164). -/
def State.underway (n : Nat) (p : Phys) (rest : List Phys) (rd : Reg) (s : State) : State :=
  { s.fetchedOn.renamed p rest rd with nextSeq := s.nextSeq + 1, cycle := s.cycle + n }

section RegisterPath

variable {s : State} {e : Inflight} {i : Instr} {p : Phys} {rest : List Phys} {rd : Reg} {v : Word}

theorem computes_of_destReg (hrd : destReg i = some rd) (hload : isLoad i = false) :
    (needsPd i && !isLoad i) = true := by
  rw [needsPd_of_destReg hrd, hload]
  rfl

theorem queued_computingRecord (hrd : destReg i = some rd) (hload : isLoad i = false) (s : State)
    (p : Phys) : (s.queued i p).ComputingRecord i p :=
  ⟨s.decodeFields_recordOf i, computes_of_destReg hrd hload, rfl, rfl, rfl, rfl, rfl⟩

theorem executing_computingRecord (hrd : destReg i = some rd) (hload : isLoad i = false) (s : State)
    (p : Phys) : (s.executing i p).ComputingRecord i p :=
  (queued_computingRecord hrd hload s p).of_sameRecord (issued_sameRecord _ s i)

theorem underway_readyBit (n : Nat) (p : Phys) (rest : List Phys) (rd : Reg) (s : State) :
    (s.underway n p rest rd).readyBit p = false :=
  (State.readyBit_setReady s p p false).trans (if_pos rfl)

theorem Alone.underway (h : Alone s) (n : Nat) (p : Phys) (rest : List Phys) (rd : Reg) (f : RecordFields) :
    BackEndOnly (delivering f s.pc s.lookup) (s.underway n p rest rd) :=
  (h.backEndOnly f).of_frontFields rfl

/-- R131, R136, R162, R187: fetch, decode, dispatch and issue, in one cycle each. -/
theorem exec_issues (h : Alone s) (hfl : s.fl = p :: rest) (hrd : destReg i = some rd)
    (hload : isLoad i = false) {c : FuClass} (hc : fuClass i = some c) :
    exec i s = .next (runToRetirement (delivering (s.recordOf i) s.pc s.lookup) 12
      (((s.underway 4 p rest rd).carrying [] [] [s.executing i p] none none).setUnitLatch c
        (s.executing i p))) := by
  have hback := h.backEndOnly (s.recordOf i)
  let r : Inflight := { freshRecord (s.recordOf i) s.pc false with pd := some p }
  have hr : r.ComputingRecord i p :=
    ⟨s.decodeFields_recordOf i, computes_of_destReg hrd hload, rfl, rfl, rfl, rfl, rfl⟩
  let b := s.fetchedOn.counted.renamed p rest rd
  have hb : BackEndOnly (delivering (s.recordOf i) s.pc s.lookup) b := hback.of_frontFields rfl
  have hdecodes := cycleWith_decodes_register hback h.idle.rm (s.decodeFields_recordOf i) hrd hfl s.pc
  have hdispatches : cycleWith _ (b.dispatching r) =
      (s.underway 3 p rest rd).carrying [s.queued i p] [] [s.queued i p] none none :=
    cycleWith_dispatches_computing hb hr
  have hd := h.underway 3 p rest rd (s.recordOf i)
  have hissues := cycleWith_issues_computing hd (queued_computingRecord hrd hload s p)
    (underway_readyBit 3 p rest rd s) hc
  have hissued : (s.queued i p).issued (s.underway 3 p rest rd) i = s.executing i p :=
    issued_congr rfl rfl _ _
  rw [hissued] at hissues
  have hrun : (((s.underway 3 p rest rd).counted.carrying [] [] [s.executing i p] none none).setUnitLatch c
      (s.executing i p)).status = .running := (State.setUnitLatch_status _ _ _).trans hd.running
  rw [exec_eq_runRecord, h.runRecord_eq, runToRetirement_continues _ hdecodes hb.running (by simp),
    runToRetirement_continues _ hdispatches hd.running (by simp [b, State.underway]),
    runToRetirement_continues _ hissues hrun (by simp)]
  rfl

/-- R282, R283: the cycle behind the delivery of `v` retires the instruction. -/
theorem runToRetirement_commits_register (n k : Nat) (h : Alone s) (f : RecordFields)
    (he : e.ComputingRecord i p) (hrd : destReg i = some rd) (v : Word) :
    runToRetirement (delivering f s.pc s.lookup) (n + 1)
        (((s.underway k p rest rd).delivered p v).carrying [] [] [e] none none) =
      { s.registerRun p rest rd v (k + 1) with z := if writesZAtCommit i then v else s.z } := by
  have hback : BackEndOnly (delivering f s.pc s.lookup) ((s.underway k p rest rd).delivered p v) :=
    (h.underway k p rest rd f).of_frontFields (by simp)
  have hvalue : ((s.underway k p rest rd).delivered p v).valueOf p = v := by
    simp [State.valueOf, State.delivered]
  have hcommits := cycleWith_commits_register hback he hrd (by simp [State.readyBit, State.delivered])
  rw [hvalue] at hcommits
  rw [runToRetirement_retires _ hcommits (by simp [State.carrying, State.counted, State.retireHead])]
  obtain ⟨hidle, -, -⟩ := h
  have hbtb : ((s.writeReg rd v).passedThrough p rest v).fetchedBtb = s.fetchedBtb := rfl
  have hfreed : [(rd, p)].filter (fun c => c.2 != p) = [] := by simp
  rw [State.registerRun, State.retiredAfter, hbtb]
  simp only [State.underway, State.renamed, State.delivered, State.carrying, State.passedThrough,
    State.fetchedOn, State.counted, State.writeReg, State.release, State.retireHead, hidle.iq, hidle.lsq,
    hidle.rob, hidle.int, hidle.dc, hidle.rm, hfreed, Vector.set_set, Nat.add_assoc]

/-- R320: an instruction whose unit has delivered `v` after `k` cycles in all has run after one more. -/
theorem exec_register_alone {n k : Nat} (h : Alone s) (hfl : s.fl = p :: rest)
    (hrd : destReg i = some rd) (hload : isLoad i = false) {c : FuClass} (hc : fuClass i = some c)
    (he : e.ComputingRecord i p)
    (hunit : runToRetirement (delivering (s.recordOf i) s.pc s.lookup) 12
        (((s.underway 4 p rest rd).carrying [] [] [s.executing i p] none none).setUnitLatch c
          (s.executing i p)) =
      runToRetirement (delivering (s.recordOf i) s.pc s.lookup) (n + 1)
        (((s.underway k p rest rd).delivered p v).carrying [] [] [e] none none)) :
    exec i s =
      .next { s.registerRun p rest rd v (k + 1) with z := if writesZAtCommit i then v else s.z } := by
  rw [exec_issues h hfl hrd hload hc, hunit, runToRetirement_commits_register n k h _ he hrd v]

/-- R240: an instruction for which the Integer unit only delivers `v`. -/
theorem exec_integer_alone (h : Alone s) (hfl : s.fl = p :: rest) (hrd : destReg i = some rd)
    (hload : isLoad i = false) (hc : fuClass i = some .integer)
    (hint : ∀ t : State, intAction (s.executing i p) t = t.delivered p v) :
    exec i s =
      .next { s.registerRun p rest rd v 6 with z := if writesZAtCommit i then v else s.z } := by
  have hr := executing_computingRecord hrd hload s p
  have hback := h.underway 4 p rest rd (s.recordOf i)
  have hdelivers := cycleWith_delivers_int hback hr (underway_readyBit 4 p rest rd s) (hint _)
  exact exec_register_alone (n := 10) (k := 5) h hfl hrd hload hc hr
    (runToRetirement_continues _ hdelivers hback.running rfl)

/-- R241, R243: the rows of `integerResult`. -/
theorem exec_integerResult_alone (h : Alone s) (hfl : s.fl = p :: rest) (hrd : destReg i = some rd)
    (hload : isLoad i = false) (hc : fuClass i = some .integer)
    (hv : integerResult (s.executing i p) i = some v) :
    exec i s =
      .next { s.registerRun p rest rd v 6 with z := if writesZAtCommit i then v else s.z } := by
  have hr := executing_computingRecord hrd hload s p
  refine exec_integer_alone h hfl hrd hload hc fun t => ?_
  rw [intAction_delivers hr.insn hv, hr.pd, State.writeBack_some]

/-- R250: the rows of `logicalResult`. -/
theorem exec_logicalResult_alone (h : Alone s) (hfl : s.fl = p :: rest) (hrd : destReg i = some rd)
    (hload : isLoad i = false) (hc : fuClass i = some .logical)
    (hv : logicalResult (s.executing i p) i = some v) :
    exec i s =
      .next { s.registerRun p rest rd v 6 with z := if writesZAtCommit i then v else s.z } := by
  have hr := executing_computingRecord hrd hload s p
  have hback := h.underway 4 p rest rd (s.recordOf i)
  have hdelivers := cycleWith_delivers_log hback hr (underway_readyBit 4 p rest rd s) hv
  exact exec_register_alone (n := 10) (k := 5) h hfl hrd hload hc hr
    (runToRetirement_continues _ hdelivers hback.running rfl)

end RegisterPath

/-! #### Division -/

section Division

variable {s : State} {e : Inflight} {rd a b : Reg} {p : Phys}

theorem intAction_div (hi : e.insn = .op (.div rd a b)) : intAction e s = unitDiv e s := by
  simp [intAction, hi]

/-- R242: a zero divisor delivers 0, and the fault goes into the ROB entry. -/
theorem intAction_div_zero (he : e.ComputingRecord (.div rd a b) p) (hv : e.v2 = 0#32) :
    intAction e (s.carrying [] [] [e] none none) =
      (s.delivered p 0#32).carrying [] [] [{ e with exc := some .divideByZero }] none none := by
  have hmarks : (s.carrying [] [] [e] none none).markExc e.seq .divideByZero =
      s.carrying [] [] [{ e with exc := some .divideByZero }] none none := by
    simp only [State.markExc, State.onRobEntry, State.carrying, onTag_singleton]
  calc intAction e (s.carrying [] [] [e] none none)
      _ = (s.carrying [] [] [{ e with exc := some .divideByZero }] none none).writeBack (some p) 0#32 := by
        rw [intAction_div he.insn, unitDiv_of_zero hv, hmarks, he.pd]
      _ = _ := rfl

/-- R281: the cycle in which commit finds a fault at the head is the last. -/
theorem runToRetirement_faults {look : Word → Option RecordFields} {f : FaultCode} {rest : List Inflight}
    (n : Nat) (hrun : s.status = .running) (hrob : s.rob = e :: rest) (hexc : e.exc = some f) :
    runToRetirement look (n + 1) s = s.counted.raise f e.pc := by
  have hcommit : commitStage s.counted = s.counted.raise f e.pc := commitStage_raises hrob hexc
  have hstops : (commitStage s.counted).status ≠ .running := by simp [hcommit, State.raise]
  rw [runToRetirement_succ, cycleWith_commit_stops hrun hstops, continueRun_stopped hstops, hcommit]

/-- R383: in the cycle behind the delivery the fault stops the machine and writes nothing else. -/
theorem faultedRun_raise (s : State) (p : Phys) (rest : List Phys) (rd : Reg) (v : Word) (k : Nat)
    (rob : List Inflight) (f : FaultCode) :
    FaultedRun s ((((s.underway k p rest rd).delivered p v).carrying [] [] rob none none).counted.raise f s.pc)
      f (k + 1) := by
  refine ⟨rfl, ⟨?_, ?_, ?_, ?_⟩, ?_, ?_⟩
  all_goals
    simp [State.counted, State.carrying, State.delivered, State.underway, State.renamed, State.fetchedOn,
      Nat.add_assoc]

end Division

/-- Settles O12: three rows of `integerResult`, read off the operands the record took at issue. -/
theorem moveAndAddAlone : Obligations.MoveAndAddAlone := by
  intro s p rest h hfl
  exact ⟨fun _ _ => exec_integerResult_alone h hfl rfl rfl rfl rfl,
    fun _ _ _ => exec_integerResult_alone h hfl rfl rfl rfl rfl,
    fun _ _ _ => exec_integerResult_alone h hfl rfl rfl rfl rfl⟩

/-- Settles O13: the other two rows, whose commit writes `Z` too. -/
theorem subtractAlone : Obligations.SubtractAlone := by
  intro s p rest h hfl
  exact ⟨fun _ _ _ => exec_integerResult_alone h hfl rfl rfl rfl rfl,
    fun _ _ _ => exec_integerResult_alone h hfl rfl rfl rfl rfl⟩

/-- Settles O14: four cycles in the pipeline in place of one (`runToRetirement_multiplies`). -/
theorem multiplyAlone : Obligations.MultiplyAlone := by
  intro s p rest rd rs1 rs2 h hfl
  let i : Instr := .mul rd rs1 rs2
  have hr := executing_computingRecord (i := i) rfl rfl s p
  have hmultiplies := runToRetirement_multiplies 8 (h.underway 4 p rest rd (s.recordOf i)) hr
    (underway_readyBit 4 p rest rd s)
  have hproduct (v : Word) : ({ s.executing i p with result := v } : Inflight).ComputingRecord i p :=
    hr.of_sameRecord rfl
  exact exec_register_alone (n := 7) (k := 8) h hfl rfl rfl rfl (hproduct _) hmultiplies

/-- Settles O15: with a divisor that is not 0 the unit only delivers the quotient. -/
theorem divideAlone : Obligations.DivideAlone := by
  intro s p rest rd rs1 rs2 h hfl hdivisor
  have hr := executing_computingRecord (i := .div rd rs1 rs2) rfl rfl s p
  refine exec_integer_alone h hfl rfl rfl rfl fun t => ?_
  rw [intAction_div hr.insn, unitDiv_of_ne_zero hdivisor, hr.pd]
  rfl

/-- Settles O16: the unit marks the ROB entry, and commit raises the fault in the next cycle. -/
theorem divideByZeroAlone : Obligations.DivideByZeroAlone := by
  intro s rd rs1 rs2 h hfl hdivisor
  obtain ⟨p, rest, hfl⟩ := List.exists_cons_of_ne_nil hfl
  let i : Instr := .div rd rs1 rs2
  have hr := executing_computingRecord (i := i) rfl rfl s p
  have hback := h.underway 4 p rest rd (s.recordOf i)
  have hmarks := cycleWith_delivers_int hback hr (underway_readyBit 4 p rest rd s)
    (intAction_div_zero hr hdivisor)
  have hstops := (runToRetirement_continues 11 hmarks hback.running rfl).trans
    (runToRetirement_faults 10 hback.running rfl rfl)
  have hissues := exec_issues (i := i) h hfl rfl rfl (c := .integer) rfl
  exact ⟨_, hissues.trans (congrArg Host.Outcome.next hstops), faultedRun_raise s p rest rd 0#32 5 _ _⟩

/-- Settles O17: the three rows of `logicalResult`. -/
theorem logicAlone : Obligations.LogicAlone := by
  intro s p rest rd rs1 rs2 h hfl
  exact ⟨exec_logicalResult_alone h hfl rfl rfl rfl rfl, exec_logicalResult_alone h hfl rfl rfl rfl rfl,
    exec_logicalResult_alone h hfl rfl rfl rfl rfl⟩

end Sys2Proof.Machine

namespace Sys2Proof.Machine

/-! ### What emptying leaves of a machine that is empty there -/

section Empty

variable {s : State}

theorem State.clearDec_of_none (h : s.dec = none) : ({ s with dec := none } : State) = s := by rw [← h]

theorem State.clearDsp_of_none (h : s.dsp = none) : ({ s with dsp := none } : State) = s := by rw [← h]

theorem State.endBubble_of_none (h : s.redirectPending = false) :
    ({ s with redirectPending := false } : State) = s := by rw [← h]

/-- R160: no recovery is on. -/
def State.recovered (s : State) : State := { s with branchRecovery := false }

theorem State.recovered_of_none (h : s.branchRecovery = false) : s.recovered = s := by
  rw [State.recovered, ← h]

theorem State.endJump_of_none (hjump : s.jumpInFlight = false) (htaken : s.jumpTaken = false) :
    ({ s with jumpInFlight := false, jumpTaken := false } : State) = s :=
  congrArg₂ (fun inFlight taken => ({ s with jumpInFlight := inFlight, jumpTaken := taken } : State))
    hjump.symm htaken.symm

/-- R248: what a flush does to the front end and the control flags. -/
def State.flushed (s : State) : State :=
  { s with dec := none, branchRecovery := true, jumpInFlight := false, jumpTaken := false }

theorem State.flushed_recovered (hdec : s.dec = none) (hrecovery : s.branchRecovery = false)
    (hjump : s.jumpInFlight = false) (htaken : s.jumpTaken = false) : s.flushed.recovered = s :=
  calc s.flushed.recovered
    _ = { ({ s with dec := none } : State).recovered with jumpInFlight := false, jumpTaken := false } := rfl
    _ = { s with jumpInFlight := false, jumpTaken := false } := by
      rw [State.clearDec_of_none hdec, State.recovered_of_none hrecovery]
    _ = s := State.endJump_of_none hjump htaken

theorem Idle.carrying_nil (h : Idle s) : s.carrying [] [] [] none none = s := by
  have hsame : s.carrying s.iq s.lsq s.rob s.int s.dc = s := rfl
  rwa [h.iq, h.lsq, h.rob, h.int, h.dc] at hsame

theorem Idle.retiredAfter (h : Idle s) (n : Nat) : Idle (s.retiredAfter n) := by
  obtain ⟨⟩ := h
  constructor <;> assumption

/-- R108: without a live rename every register is read from the register file. -/
theorem State.resolve_of_rm_nil (h : s.rm = []) (a : Reg) : s.resolve a = none :=
  congrArg (resolveIn · a) h

end Empty

/-! ### The instructions that redirect fetch -/

/-- R138, R139: BZ, BNZ and JUMP. -/
theorem control_cases {i : Instr} (h : (isCondBranch i || isJumpOp i) = true) :
    (∃ imm, i = .bz imm) ∨ (∃ imm, i = .bnz imm) ∨ ∃ a imm, i = .jump a imm := by
  cases i with
  | bz imm => exact .inl ⟨imm, rfl⟩
  | bnz imm => exact .inr (.inl ⟨imm, rfl⟩)
  | jump a imm => exact .inr (.inr ⟨a, imm, rfl⟩)
  | _ => cases h

end Sys2Proof.Machine

namespace Sys2Proof.Machine

/-! ### The branch shadow (R419)

A branch waits for no operand (R184), so the scan of the IQ, oldest first, passes none while the Integer class
is free. -/

/-- R419 for an occupant of `INT` and a queue: the occupant has an age tag below `next`, and below that of
every conditional branch in the queue. -/
def ShadowClear (next : Nat) (iq : List Inflight) (int : Option Inflight) : Prop :=
  ∀ r ∈ int, r.seq < next ∧ ∀ b ∈ iq, b.isBranch = true → r.seq < b.seq

section BranchShadow

variable {s : State} {n : Nat} {l : List Inflight} {e : Inflight}

theorem AgeOrdered.of_cons (h : AgeOrdered n (e :: l)) :
    (e.seq < n ∧ ∀ a ∈ l, e.seq < a.seq) ∧ AgeOrdered n l := by
  obtain ⟨hrising, hgiven⟩ := h
  obtain ⟨hbehind, hrising⟩ := List.pairwise_cons.1 hrising
  obtain ⟨he, hgiven⟩ := List.forall_mem_cons.1 hgiven
  exact ⟨⟨he, hbehind⟩, ⟨hrising, hgiven⟩⟩

/-- R182, R184: a conditional branch is of the Integer class and waits for nothing. -/
theorem Inflight.branch_ready {i : Instr} {c : FuClass} (hi : e.insn = .op i) (hc : fuClass i = some c)
    (hbranch : e.isBranch = true) : c = .integer ∧ e.gateReady s i := by
  have hcond : isCondBranch i = true := (Inflight.kinds_of_op hi).isBranch.symm.trans hbranch
  obtain ⟨_, rfl⟩ | ⟨_, rfl⟩ | ⟨_, _, rfl⟩ := control_cases (Bool.or_eq_true_iff.2 (.inl hcond))
  · exact ⟨(Option.some.inj hc).symm, trivial⟩
  · exact ⟨(Option.some.inj hc).symm, trivial⟩
  · cases hcond

/-- R180, R183: the scan issues the first Integer entry it can, with every branch that stays behind it. -/
theorem issueScan_shadowClear (h : AgeOrdered n l) {b : Busy} (hb : b.of .integer = false)
    (hint : s.int = none) : ShadowClear n (issueScan l b s).1 (issueScan l b s).2.int := by
  induction l generalizing b s with
  | nil => simp [issueScan, ShadowClear, hint]
  | cons e l ih =>
    obtain ⟨⟨he, hbehind⟩, hl⟩ := h.of_cons
    obtain hnone | ⟨i, c, hi, hc⟩ := unitClass_cases e
    · rw [issueScan_purges hnone]
      exact ih hl hb hint
    · by_cases hwait : b.of c = true ∨ ¬ e.gateReady s i
      · have hother : e.isBranch = false := by
          refine Bool.eq_false_iff.2 fun hbranch => ?_
          obtain ⟨rfl, hready⟩ := Inflight.branch_ready (s := s) hi hc hbranch
          simp [hb, hready] at hwait
        rw [issueScan_keeps hi hc l hwait]
        intro r hr
        obtain ⟨hgiven, hclear⟩ := ih hl hb hint r hr
        exact ⟨hgiven, List.forall_mem_cons.2 ⟨by simp [hother], hclear⟩⟩
      · obtain ⟨hfree, hready⟩ : b.of c = false ∧ e.gateReady s i := by simpa using hwait
        rw [issueScan_issues hi hc l hfree hready]
        by_cases hclass : c = .integer
        · subst hclass
          have hissued : (issueScan l (b.set .integer) (issueEntry i .integer e s)).2.int =
              some (captureOperands s i e) :=
            (issueScan_unitLatch_busy l (b.of_set_same .integer) _).trans issueEntry_unitLatch_same
          intro r hr
          obtain rfl : captureOperands s i e = r := Option.some.inj (hissued.symm.trans hr)
          exact ⟨he, fun a ha _ => hbehind a ((issueScan_sublist l _ _).subset ha)⟩
        · exact ih hl ((b.of_set_other hclass).trans hb) ((issueEntry_unitLatch_other hclass).trans hint)

/-- R240: the Integer unit empties its latch. -/
theorem intStage_empties (s : State) : (intStage s).int = none := by
  unfold intStage
  split
  · assumption
  · exact intAction_int _ _

/-- R164: what dispatch puts in the IQ is younger than anything issued. -/
theorem dispatchStage_shadowClear (h : ShadowClear s.nextSeq s.iq s.int) :
    BranchShadow (dispatchStage s) := by
  have hc := dispatchStage_case s
  generalize dispatchStage s = t at hc
  intro r hr b hb hbranch
  cases hc with
  | waits => exact (h r hr).2 b hb hbranch
  | recovers => exact (h r (by simpa using hr)).2 b (by simpa using hb) hbranch
  | @enters d =>
    obtain ⟨hgiven, hclear⟩ := h r (by simpa using hr)
    rw [enterQueues_eq] at hb
    simp only at hb
    split at hb
    · rcases List.mem_append.1 hb with hb | hb
      · exact hclear b hb hbranch
      · rw [List.mem_singleton.1 hb]
        exact hgiven
    · exact hclear b hb hbranch

/-- R101, R419: the stages of a cycle that goes on. -/
theorem laterStages_branchShadow (look : Word → Option RecordFields) (h : InProgramOrder s) :
    BranchShadow (laterStages look s) := by
  let u := intStage (logStage (mulStage (lsqStage s)))
  have hu : InProgramOrder u := (((h.of_thinned (lsqStage_thinned _)).of_thinned
    (mulStage_thinned _)).of_thinned (logStage_thinned _)).of_thinned (intStage_thinned _)
  have hissued : ShadowClear u.nextSeq (issueStage u).iq (issueStage u).int :=
    issueScan_shadowClear hu.iq rfl (intStage_empties _)
  have hnext : (issueStage u).nextSeq = u.nextSeq := (issueStage_thinned u).nextSeq
  have hdispatched : BranchShadow (dispatchStage (issueStage u)) :=
    dispatchStage_shadowClear (hnext ▸ hissued)
  simpa [laterStages, BranchShadow, u] using hdispatched

theorem cycleWith_branchShadow (look : Word → Option RecordFields) (h : InProgramOrder s)
    (hrun : (cycleWith look s).status = .running) : BranchShadow (cycleWith look s) := by
  rw [cycleWith_completed hrun]
  have hcounted : InProgramOrder s.counted := h.of_thinned (.of_eq rfl rfl rfl rfl)
  exact laterStages_branchShadow look
    ((hcounted.of_thinned (commitStage_case _).thinned).of_thinned (dataCacheStage_thinned _))

/-- What holds behind every cycle from a state with `P`, which every cycle keeps, holds where a run ends. -/
theorem runToRetirement_ends {look : Word → Option RecordFields} {P Q : State → Prop}
    (keeps : ∀ s, P s → P (cycleWith look s)) (ends : ∀ s, P s → Q (cycleWith look s)) (n : Nat)
    (hs : P s) : Q (runToRetirement look (n + 1) s) := by
  induction n generalizing s with
  | zero =>
    rw [runToRetirement_succ, continueRun, runToRetirement, ite_self]
    exact ends s hs
  | succ n ih =>
    rw [runToRetirement_succ, continueRun]
    split
    · exact ih (keeps s hs)
    · exact ends s hs

end BranchShadow

/-- Settles O59: the shadow is clear behind every cycle that goes on, whatever it was before, and a step ends
in such a cycle. -/
theorem branchShadowHolds : Obligations.BranchShadowHolds := by
  refine ⟨fun s h => cycleWith_branchShadow s.lookup h, fun s t h ht => ?_⟩
  have hrun (look : Word → Option RecordFields) (hend : (runToRetirement look 16 s).status = .running) :
      BranchShadow (runToRetirement look 16 s) :=
    runToRetirement_ends (Q := fun t => t.status = .running → BranchShadow t)
      (InProgramOrder.cycleWith look) (fun _ => cycleWith_branchShadow look) 15 h hend
  obtain rfl | ⟨f, -, rfl⟩ := step_cases ht
  · exact hrun _
  · exact hrun _

/-! ### The host's call without a program (R390) -/

/-- Settles O11: the call asks for a record and, of an image, for locations of data memory; the empty image
names none. -/
theorem initializeRefusesAnEmptyProgram : Obligations.InitializeRefusesAnEmptyProgram := by
  refine ⟨fun image z => rfl, fun program z hprogram => ?_⟩
  have hwf : (programWellFormed program && imageWellFormed []) = true :=
    Bool.and_eq_true_iff.2 ⟨decide_eq_true (List.length_pos_iff.2 hprogram), rfl⟩
  simp [State.start, hwf]

end Sys2Proof.Machine

namespace Sys2Proof.Machine

/-! ### Loads and stores alone in the machine (R8, R360 to R364, R382)

`exec_load_alone` and `exec_store_alone` are the runs at an address of data memory. At another address the
run is the same until the instruction has its address, in its fifth cycle; `Addressed` is what holds there. -/

/-- The instruction `i` of `s` has its effective address after `n` cycles: nothing has changed that an
architectural effect is about, and commit waits for its record `e`. -/
structure Addressed (look : Word → Option RecordFields) (i : Instr) (s : State) (n : Nat) (e : Inflight)
    (t : State) : Prop where
  backEnd : BackEndOnly look t
  waited : Waited n s t
  record : e.MemoryRecord i
  gate : t.commitGate e = false
  agenReady : t.agenReadyAt e.pc = true
  agenAddr : t.agenAddrAt e.pc = s.addressOf i

section Faults

variable {look : Word → Option RecordFields} {s t u : State} {e r : Inflight} {i : Instr} {n k : Nat}

theorem Waited.trans {m : Nat} (h : Waited n s t) (hm : Waited m t u) : Waited (n + m) s u := by
  obtain ⟨hkept, hretired, hcycle⟩ := h
  obtain ⟨hkept', hretired', hcycle'⟩ := hm
  exact ⟨hkept.trans hkept', hretired'.trans hretired, by rw [hcycle', hcycle, Nat.add_assoc]⟩

/-- R383: a fault writes the status alone. -/
theorem Waited.faultedRun (h : Waited n s t) (f : FaultCode) : FaultedRun s (t.raise f s.pc) f n := by
  obtain ⟨⟨hx, hxvalid, hz, hdmem⟩, hretired, hcycle⟩ := h
  exact ⟨rfl, ⟨hx, hxvalid, hz, hdmem⟩, hretired, hcycle⟩

/-- R162, R187, R245: dispatch, issue and address generation, in one cycle each. -/
theorem runToRetirement_addressed (n : Nat) (ht : BackEndOnly look t) (hwaited : Waited k s t)
    (hr : r.MemoryRecord i) (hpd : ∀ p : Phys, r.pd = some p → t.readyBit p = false) :
    ∃ (e : Inflight) (u : State), e.pc = r.pc ∧ e.pd = r.pd ∧ Addressed look i s (k + 3) e u ∧
      runToRetirement look (n + 3) (t.dispatching r) =
        runToRetirement look n (u.carrying [] [e] [e] none none) := by
  have hd := hr.dispatched t
  have hsame := issued_sameRecord (t.dispatched r) t i
  have hpc : ((t.dispatched r).issued t i).pc = r.pc := hsame.pc_eq
  have he := hd.issued t
  refine ⟨_, _, hpc, hsame.pd_eq, ?_, runToRetirement_dispatches n ht hr hpd⟩
  have haddr : t.addressOf i = s.addressOf i := addressOf_congr hwaited.1.x i
  rw [haddr]
  refine ⟨ht.of_frontFields (by simp [State.frontFields]), hwaited.trans ?_, he, ?_, ?_, ?_⟩
  · exact ⟨⟨by simp, by simp, by simp, by simp⟩, by simp, rfl⟩
  · refine commitGate_eq_false (by simp [he.unitClass]) (fun p hp => ?_) hsame.done_eq (fun _ => ?_)
      fun hj => absurd (Inflight.isMemory_of_isJump hj) (by simp [he.isMemory])
    · have hbusy := hpd p (hsame.pd_eq.symm.trans hp)
      exact Bool.eq_false_iff.2 fun hready =>
        Bool.eq_false_iff.1 hbusy (issueEffect_readyBit (s := t.clearSlot r.pc) hready)
    · have hcleared := t.storeDoneAt_clearSlot r.pc r.pc
      simpa [hpc, State.storeDoneAt] using hcleared
  · rw [hpc]
    exact (State.agenReadyAt_setAgen _ r.pc (s.addressOf i) r.pc).trans (by simp)
  · rw [hpc]
    exact (State.agenAddrAt_setAgen _ r.pc _ r.pc).trans (if_pos rfl)

/-- A load alone has its address after 5 cycles. -/
theorem exec_load_addressed (h : Alone s) (hload : isLoad i = true) {rd : Reg} (hrd : destReg i = some rd)
    {p : Phys} {rest : List Phys} (hfl : s.fl = p :: rest) :
    ∃ (look : Word → Option RecordFields) (e : Inflight) (t : State), e.pc = s.pc ∧ e.pd = some p ∧
      Addressed look i s 5 e t ∧
      exec i s = .next (runToRetirement look 11 (t.carrying [] [e] [e] none none)) := by
  have hback := h.backEndOnly (s.recordOf i)
  have hf := s.decodeFields_recordOf i
  have hr := freshRecord_memoryRecord hf (by simp [hload]) s.pc
  have hdecodes := cycleWith_decodes_load hback h.idle.rm hr hload hrd hfl
  let b := ((({ s.fetchedOn.counted with fl := rest } : State).setReady p false).bind rd p)
  have hb : BackEndOnly (delivering (s.recordOf i) s.pc s.lookup) b := hback.of_frontFields rfl
  have hbusy : b.readyBit p = false := (State.readyBit_setReady _ p p false).trans (if_pos rfl)
  obtain ⟨e, t, hpc, hpd, ht, hrun⟩ := runToRetirement_addressed (s := s) (k := 2) 11 hb
    ⟨⟨rfl, rfl, rfl, rfl⟩, rfl, rfl⟩
    (r := { freshRecord (s.recordOf i) s.pc false with pd := some p })
    ⟨hf, hr.memory, rfl, rfl, rfl, rfl⟩ (by rintro _ ⟨⟩; exact hbusy)
  refine ⟨_, e, t, hpc, hpd, ht, ?_⟩
  rw [exec_eq_runRecord, h.runRecord_eq, runToRetirement_continues _ hdecodes hb.running rfl, hrun]

/-- And so does a store. -/
theorem exec_store_addressed (h : Alone s) (hstore : isStore i = true) :
    ∃ (look : Word → Option RecordFields) (e : Inflight) (t : State), e.pc = s.pc ∧
      Addressed look i s 5 e t ∧
      exec i s = .next (runToRetirement look 11 (t.carrying [] [e] [e] none none)) := by
  have hback := h.backEndOnly (s.recordOf i)
  have hr := freshRecord_memoryRecord (s.decodeFields_recordOf i) (by simp [hstore]) s.pc
  have hdecodes := cycleWith_decodes_store hback h.idle.rm hr hstore
  have hb : BackEndOnly (delivering (s.recordOf i) s.pc s.lookup) s.fetchedOn.counted :=
    hback.of_frontFields rfl
  obtain ⟨e, t, hpc, -, ht, hrun⟩ := runToRetirement_addressed (s := s) (k := 2) 11 hb
    ⟨⟨rfl, rfl, rfl, rfl⟩, rfl, rfl⟩ hr nofun
  refine ⟨_, e, t, hpc, ht, ?_⟩
  rw [exec_eq_runRecord, h.runRecord_eq, runToRetirement_continues _ hdecodes hb.running rfl, hrun]

theorem markExc_carrying (s : State) (e : Inflight) (f : FaultCode) :
    (s.carrying [] [] [e] none none).markExc e.seq f =
      s.carrying [] [] [{ e with exc := some f }] none none := by
  simp only [State.markExc, State.onRobEntry, State.carrying, onTag_singleton]

/-- R216, R218: the cycle in which a load finds no location marks its ROB entry and delivers 0. -/
theorem cycleWith_reads_invalid (hs : BackEndOnly look s) (he : e.MemoryRecord i) (hload : isLoad i = true)
    {p : Phys} (hp : e.pd = some p) (hgate : s.commitGate e = false)
    (hinvalid : dataAddressValid e.addr = false) :
    cycleWith look (s.carrying [] [] [e] none (some e)) =
      (s.counted.delivered p 0#32).carrying [] [] [{ e with exc := some .dataAddress }] none none := by
  have hcache : dataCacheStage (s.counted.carrying [] [] [e] none (some e)) =
      (s.counted.delivered p 0#32).carrying [] [] [{ e with exc := some .dataAddress }] none none := by
    have hmarks := markExc_carrying s.counted e .dataAddress
    refine (dataCacheStage_load_invalid rfl he.insn hload hinvalid).trans ?_
    exact (congrArg (State.writeBack · e.pd 0#32) hmarks).trans (hp ▸ rfl)
  refine cycleWith_waits hs he hgate ?_ (by simp)
  rw [hcache, lsqStage_nil rfl, intStage_none rfl, issueStage_nil rfl]

/-- R217, R218: the cycle in which a store finds no location is the last. -/
theorem runToRetirement_store_invalid (n : Nat) (hs : BackEndOnly look s) (he : e.MemoryRecord i)
    (hstore : isStore i = true) (hgate : s.commitGate e = false)
    (hinvalid : dataAddressValid e.addr = false) :
    runToRetirement look (n + 1) (s.carrying [] [] [e] none (some e)) =
      (s.counted.carrying [] [] [e] none none).raise .dataAddress e.pc := by
  let c := s.counted.carrying [] [] [e] none (some e)
  have hcommit : commitStage c = c :=
    commitStage_waits (s := c) rfl he.exc (by simp [he.unitClass]) hgate
  have hcache : dataCacheStage (commitStage c) =
      (s.counted.carrying [] [] [e] none none).raise .dataAddress e.pc :=
    hcommit.symm ▸ dataCacheStage_store_invalid (s := c) rfl he.insn hstore hinvalid
  have hstops : (dataCacheStage (commitStage c)).status ≠ .running := by simp [hcache, State.raise]
  have hcycle : cycleWith look (s.carrying [] [] [e] none (some e)) = _ :=
    cycleWith_cache_stops hs.running (hcommit.symm ▸ hs.running) hstops
  rw [runToRetirement_succ, hcycle]
  exact (continueRun_stopped hstops).trans hcache

/-- R212, R216, R281: LSQ, data-cache, and the commit that raises the fault. -/
theorem Addressed.load_faults (h : Addressed look i s k e t) (hload : isLoad i = true) {p : Phys}
    (hp : e.pd = some p) (hpc : e.pc = s.pc) (hinvalid : dataAddressValid (s.addressOf i) = false) (n : Nat) :
    FaultedRun s (runToRetirement look (n + 3) (t.carrying [] [e] [e] none none)) .dataAddress (k + 3) := by
  obtain ⟨hback, hwaited, he, hgate, hready, haddr⟩ := h
  have hloads := cycleWith_loads hback he hload hp hgate hready
  rw [haddr] at hloads
  let r : Inflight := { e with addr := s.addressOf i }
  have hr : r.MemoryRecord i := SameRecord.memoryRecord (e := e) rfl he
  let t1 := t.counted.setReady p false
  have hback1 : BackEndOnly look t1 := hback.of_frontFields rfl
  have hgate1 : t1.commitGate r = false :=
    (commitGate_load hr hload hp).trans ((State.readyBit_setReady _ p p false).trans (if_pos rfl))
  have hreads := cycleWith_reads_invalid hback1 hr hload hp hgate1 hinvalid
  let t2 := t1.counted.delivered p 0#32
  let f := { r with exc := some .dataAddress }
  have hback2 : BackEndOnly look t2 := hback1.of_frontFields rfl
  have hfaults := runToRetirement_faults (look := look) (s := t2.carrying [] [] [f] none none) n
    hback2.running rfl rfl
  have hwaited1 : Waited (k + 1) s t1 := hwaited.trans (m := 1) ⟨⟨rfl, rfl, rfl, rfl⟩, rfl, rfl⟩
  have hwaited2 : Waited (k + 2) s t2 := hwaited1.trans (m := 1) ⟨⟨rfl, rfl, rfl, rfl⟩, rfl, rfl⟩
  have hwaited3 : Waited (k + 3) s (t2.counted.carrying [] [] [f] none none) :=
    hwaited2.trans (m := 1) ⟨⟨rfl, rfl, rfl, rfl⟩, rfl, rfl⟩
  have hfaulted := hwaited3.faultedRun .dataAddress
  rw [← hpc] at hfaulted
  rw [runToRetirement_continues _ hloads hback1.running rfl,
    runToRetirement_continues _ hreads hback2.running rfl, hfaults]
  exact hfaulted

/-- R213, R217: LSQ, and the data-cache access that raises the fault. -/
theorem Addressed.store_faults (h : Addressed look i s k e t) (hstore : isStore i = true) {a : Reg}
    (ha : sourceReg i .one = some a) (hpc : e.pc = s.pc)
    (hinvalid : dataAddressValid (s.addressOf i) = false) (n : Nat) :
    FaultedRun s (runToRetirement look (n + 2) (t.carrying [] [e] [e] none none)) .dataAddress (k + 2) := by
  obtain ⟨hback, hwaited, he, hgate, hready, haddr⟩ := h
  have hstores := cycleWith_stores hback he hstore ha hgate hready
  have hsame : t.counted.setMemReady (s.addressOf i) false = t.counted :=
    if_neg (Bool.eq_false_iff.1 hinvalid)
  rw [haddr, hsame] at hstores
  let r : Inflight := { e with data := t.readReg a, addr := s.addressOf i }
  have hr : r.MemoryRecord i := SameRecord.memoryRecord (e := e) rfl he
  have hback1 : BackEndOnly look t.counted := hback.of_frontFields rfl
  have hgate1 : t.counted.commitGate r = false :=
    (commitGate_store hr hstore).trans ((commitGate_store he hstore).symm.trans hgate)
  rw [runToRetirement_continues _ hstores hback1.running rfl,
    runToRetirement_store_invalid n hback1 hr hstore hgate1 hinvalid]
  have hwaits : Waited 2 t (t.counted.counted.carrying [] [] [r] none none) :=
    ⟨⟨rfl, rfl, rfl, rfl⟩, rfl, rfl⟩
  have hfaulted := (hwaited.trans hwaits).faultedRun .dataAddress
  rwa [← hpc] at hfaulted

/-- R361, R362, R382: a load alone outside data memory. -/
theorem exec_load_faults (h : Alone s) (hfl : s.fl ≠ []) (hload : isLoad i = true) {rd : Reg}
    (hrd : destReg i = some rd) (hinvalid : dataAddressValid (s.addressOf i) = false) :
    ∃ t : State, exec i s = .next t ∧ FaultedRun s t .dataAddress 8 := by
  obtain ⟨p, rest, hfl⟩ := List.exists_cons_of_ne_nil hfl
  obtain ⟨look, e, t, hpc, hp, ht, hrun⟩ := exec_load_addressed h hload hrd hfl
  exact ⟨_, hrun, ht.load_faults hload hp hpc hinvalid 8⟩

/-- R363, R364, R382: a store alone outside data memory. -/
theorem exec_store_faults (h : Alone s) (hstore : isStore i = true) {a : Reg}
    (ha : sourceReg i .one = some a) (hinvalid : dataAddressValid (s.addressOf i) = false) :
    ∃ t : State, exec i s = .next t ∧ FaultedRun s t .dataAddress 7 := by
  obtain ⟨look, e, t, hpc, ht, hrun⟩ := exec_store_addressed h hstore
  exact ⟨_, hrun, ht.store_faults hstore ha hpc hinvalid 9⟩

theorem dataAddressValid_eq_false {a : Word} (h : ¬ (0 ≤ a.toInt ∧ a.toInt < 4096)) :
    dataAddressValid a = false :=
  Bool.eq_false_iff.2 (mt (dataAddressValid_iff a).1 h)

/-- R363, R364: a store alone writes one location. -/
theorem exec_store_writes (h : Alone s) (hstore : isStore i = true) {a : Reg}
    (ha : sourceReg i .one = some a) {ea : Word} (hea : s.addressOf i = ea) (hlow : 0 ≤ ea.toInt)
    (hhigh : ea.toInt < 4096) :
    ∃ t : State, exec i s = .next t ∧ t = (s.stored ea (s.readReg a)).retiredAfter 8 ∧
      t.memRead ea.toNat = s.readReg a ∧ ∀ b : Nat, b ≠ ea.toNat → t.memRead b = s.memRead b := by
  subst hea
  refine ⟨_, exec_store_alone h hstore ha ((dataAddressValid_iff _).2 ⟨hlow, hhigh⟩), rfl,
    memRead_stored s _ _ 8, fun b hb => ?_⟩
  have hother : b ≠ location (s.addressOf i) := hb
  simp [State.memRead, State.retiredAfter, State.stored, Sparse.read_write, hother]

end Faults

/-- Settles O18: `exec_load_alone`, for both address forms. -/
theorem loadAlone : Obligations.LoadAlone := by
  intro s p rest h hfl
  exact ⟨fun _ _ _ hlow hhigh => exec_load_alone h rfl rfl hfl ((dataAddressValid_iff _).2 ⟨hlow, hhigh⟩),
    fun _ _ _ hlow hhigh => exec_load_alone h rfl rfl hfl ((dataAddressValid_iff _).2 ⟨hlow, hhigh⟩)⟩

/-- Settles O19: the fault is marked in the seventh cycle and raised by the commit of the eighth. -/
theorem loadFaultAlone : Obligations.LoadFaultAlone := by
  intro s h hfl
  exact ⟨fun _ _ _ hout => exec_load_faults h hfl rfl rfl (dataAddressValid_eq_false hout),
    fun _ _ _ hout => exec_load_faults h hfl rfl rfl (dataAddressValid_eq_false hout)⟩

/-- Settles O20: `exec_store_alone`, for both address forms. -/
theorem storeAlone : Obligations.StoreAlone := by
  intro s h
  exact ⟨fun _ _ _ => exec_store_writes h rfl rfl rfl, fun _ _ _ => exec_store_writes h rfl rfl rfl⟩

/-- Settles O21: the data-cache stage of the seventh cycle raises the fault. -/
theorem storeFaultAlone : Obligations.StoreFaultAlone := by
  intro s h
  exact ⟨fun _ _ _ hout => exec_store_faults h rfl rfl (dataAddressValid_eq_false hout),
    fun _ _ _ hout => exec_store_faults h rfl rfl (dataAddressValid_eq_false hout)⟩

end Sys2Proof.Machine

namespace Sys2Proof.Machine

/-! ### An unrecognized record alone in the machine (R345)

It takes a place in the IQ like any record but a HALT (R161), and is purged from there in the cycle that
commits it. -/

/-- R164: one more age tag is given out. -/
def State.tagged (s : State) : State := { s with nextSeq := s.nextSeq + 1 }

section PlainRecord

variable {s : State} {look : Word → Option RecordFields} {r : Inflight}

/-- R161, R162: the cycle that dispatches a record into ROB and IQ. -/
theorem cycleWith_dispatches_to_iq (hs : BackEndOnly look s) (hmem : r.isMemory = false)
    (hhalt : r.insn ≠ .op .halt) :
    cycleWith look (s.dispatching r) =
      s.counted.tagged.carrying [s.dispatched r] [] [s.dispatched r] none none := by
  let t := s.counted.tagged.carrying [s.dispatched r] [] [s.dispatched r] none none
  have hroom : (s.counted.dispatching r).hasRoomFor r = true :=
    State.hasRoomFor_iff.2 ⟨Nat.zero_lt_succ _, .inr (Nat.zero_lt_succ _), .inl hmem⟩
  have hdispatch : dispatchStage (s.counted.dispatching r) = t := by
    rw [dispatchStage_enters (s := s.counted.dispatching r) rfl hs.branchRecovery hroom,
      enterQueues_of_not_memory hmem, if_neg hhalt]
    exact State.clearDsp_of_none (s := t) hs.dsp
  calc cycleWith look (s.dispatching r)
      _ = fetchStage look (decodeStage (dispatchStage (s.counted.dispatching r))) :=
        cycleWith_frontEnd look hs.running rfl rfl rfl hs.inUnits_carrying
      _ = t := by
        rw [hdispatch, decodeStage_none (s := t) hs.dec,
          fetchStage_invalid (s := t) hs.invalid hs.redirectPending]

end PlainRecord

section Unrecognized

variable {s : State} {look : Word → Option RecordFields} {r : Inflight} {b : BitVec 8}

/-- R140: the cycle that decodes an unrecognized record. -/
theorem cycleWith_decodes_unrecognized (hs : BackEndOnly look s) {f : RecordFields}
    (hf : decodeFields f = .unrecognized b) (pc : Word) :
    cycleWith look (s.decoding (freshRecord f pc false)) =
      s.counted.dispatching (freshRecord f pc false) := by
  have hdecode := decodeStage_unrecognized (s := s.counted.decoding (freshRecord f pc false)) rfl hs.dsp hf
  rw [cycleWith_decodes hs, hdecode]
  exact State.clearDec_of_none (s := s.counted.dispatching (freshRecord f pc false)) hs.dec

/-- R289, R181: the cycle that commits it takes it out of the IQ too. -/
theorem cycleWith_commits_unrecognized (hs : BackEndOnly look s) (hr : r.insn = .unrecognized b)
    (hexc : r.exc = none) :
    cycleWith look (s.carrying [r] [] [r] none none) =
      s.counted.retireHead.carrying [] [] [] none none := by
  let c := s.counted.retireHead.carrying [r] [] [] none none
  have hback : BackEndOnly look c := hs.of_frontFields rfl
  have hcommit : commitStage (s.counted.carrying [r] [] [r] none none) = c :=
    (commitStage_acts rfl hexc).trans (commitAction_unrecognized hr)
  have hpurge : issueStage c = s.counted.retireHead.carrying [] [] [] none none := by
    have hscan : issueScan c.iq Busy.none c = ([], c) :=
      issueScan_purges (Inflight.kinds_of_unrecognized hr).unitClass [] Busy.none c
    rw [issueStage, hscan]
    rfl
  refine cycleWith_backEnd hs.running hcommit hback ?_ (hs.of_frontFields rfl)
  rw [dataCacheStage_none (s := c) rfl, lsqStage_nil (s := c) rfl, intStage_none (s := c) rfl, hpurge]

end Unrecognized

/-- Settles O26: fetched, decoded, dispatched and committed, in one cycle each. -/
theorem unrecognizedAlone : Obligations.UnrecognizedAlone := by
  intro s f b h hlookup hf
  have hprogram : s.program ≠ [] := by
    intro hempty
    obtain ⟨w, hw, -⟩ := (s.lookup_eq_some s.pc f).1 hlookup
    simpa [hempty] using ((s.lookupWord_eq_some s.pc w).1 hw).2
  have hloaded : runLoaded s = runRecord f s :=
    congrArg (runToRetirement · Config.stepCycles s) (delivering_lookup hlookup).symm
  have hback := h.backEndOnly f
  have hdecodes := cycleWith_decodes_unrecognized hback hf s.pc
  have hb : BackEndOnly (delivering f s.pc s.lookup) s.fetchedOn.counted := hback.of_frontFields rfl
  let r := freshRecord f s.pc false
  have hr : r.insn = .unrecognized b := hf
  have hdispatches := cycleWith_dispatches_to_iq hb (Inflight.kinds_of_unrecognized hr).isMemory
    (hr ▸ nofun)
  let d := s.fetchedOn.counted.counted.tagged
  have hd : BackEndOnly (delivering f s.pc s.lookup) d := hb.of_frontFields rfl
  have hcommits := cycleWith_commits_unrecognized (r := s.fetchedOn.counted.dispatched r) hd hr rfl
  rw [step_runs hprogram, hloaded, h.runRecord_eq, runToRetirement_continues _ hdecodes hb.running rfl,
    runToRetirement_continues _ hdispatches hd.running rfl,
    runToRetirement_retires _ hcommits (Nat.succ_ne_self _)]
  rw [← (h.idle.retiredAfter 4).carrying_nil]
  simp only [d, State.tagged, State.retiredAfter, State.fetchedOn, State.carrying, State.counted,
    State.retireHead]

end Sys2Proof.Machine

namespace Sys2Proof.Machine

/-! ### CMP alone in the machine (R340)

It goes the way of an arithmetic instruction, but its register is a token: no rename is bound to it (R137),
and commit writes no register (R284). `Z` is written in the Integer unit (R244). -/

/-- The oldest free register is taken as a token (R105, R137). -/
def State.holdingToken (p : Phys) (rest : List Phys) (s : State) : State :=
  { s with fl := rest, ready := s.ready.set p.val false p.isLt }

/-- The rest of the machine `n` cycles on, while a CMP is behind dispatch (R131, R137, R164). -/
def State.comparing (n : Nat) (p : Phys) (rest : List Phys) (s : State) : State :=
  { s.fetchedOn.holdingToken p rest with nextSeq := s.nextSeq + 1, cycle := s.cycle + n }

section Compare

variable {s : State} {look : Word → Option RecordFields} {r : Inflight} {rs1 rs2 : Reg} {p : Phys}
  {rest : List Phys}

theorem Alone.comparing (h : Alone s) (n : Nat) (p : Phys) (rest : List Phys) (f : RecordFields) :
    BackEndOnly (delivering f s.pc s.lookup) (s.comparing n p rest) :=
  (h.backEndOnly f).of_frontFields rfl

theorem holdingToken_readyBit (p : Phys) (rest : List Phys) (s : State) :
    (s.holdingToken p rest).readyBit p = false :=
  (State.readyBit_setReady s p p false).trans (if_pos rfl)

/-- R105, R106: the token comes back, and no rename is bound to it. -/
theorem token_passedThrough (hrm : s.rm = []) (v : Word) :
    ((s.holdingToken p rest).delivered p v).release p = s.passedThrough p rest v := by
  have hfreed : (s.rm.filter fun c => c.2 != p) = s.rm := by
    rw [hrm]
    rfl
  have hready : ((s.ready.set p.val false p.isLt).set p.val true p.isLt).set p.val true p.isLt =
      s.ready.set p.val true p.isLt := by rw [Vector.set_set, Vector.set_set]
  exact congrArg₂ (fun rm ready => ({ s.passedThrough p rest v with rm := rm, ready := ready } : State)) hfreed
    hready

/-- R137: the cycle that decodes a CMP. -/
theorem cycleWith_decodes_cmp (hs : BackEndOnly look s) (hrm : s.rm = []) {f : RecordFields}
    (hf : decodeFields f = .op (.cmp rs1 rs2)) (hfl : s.fl = p :: rest) (pc : Word) :
    cycleWith look (s.decoding (freshRecord f pc false)) =
      (s.counted.holdingToken p rest).dispatching { freshRecord f pc false with pd := some p } := by
  have hnone (a : Reg) : (s.counted.decoding (freshRecord f pc false)).resolve a = none :=
    State.resolve_of_rm_nil hrm a
  have hdecode := decodeStage_cmp (s := s.counted.decoding (freshRecord f pc false)) rfl hs.dsp hf hfl
  rw [cycleWith_decodes hs, hdecode, hnone, hnone]
  let t := (s.counted.holdingToken p rest).dispatching { freshRecord f pc false with pd := some p }
  exact State.clearDec_of_none (s := t) hs.dec

/-- R244: the cycle in which the Integer unit writes `Z`. -/
theorem cycleWith_compares (hs : BackEndOnly look s) (hr : r.ComputingRecord (.cmp rs1 rs2) p)
    (hbusy : s.readyBit p = false) :
    let v := cmpFlag r.v1 r.v2
    cycleWith look (s.carrying [] [] [r] (some r) none) =
      (({ s with z := v } : State).counted.delivered p v).carrying [] [] [r] none none := by
  intro v
  have hz : BackEndOnly look { s with z := v } := hs.of_frontFields rfl
  refine cycleWith_delivers hz hs.running rfl hr hbusy rfl rfl ?_
  let u := s.counted.carrying [] [] [r] (some r) none
  have hmul : mulStage u = u := mulStage_none hs.mul1 hs.mul2 hs.mul3 hs.mul4
  have hlog : logStage u = u := logStage_none hs.log
  calc intStage (logStage (mulStage u))
      _ = unitCmp r { u with int := none } := by rw [hmul, hlog, intStage_cmp (s := u) rfl hr.insn]
      _ = _ := by rw [unitCmp, hr.pd]; rfl

/-- R284: the cycle that commits a CMP. -/
theorem cycleWith_commits_cmp (hs : BackEndOnly look s) (hr : r.ComputingRecord (.cmp rs1 rs2) p)
    (hready : s.readyBit p = true) :
    cycleWith look (s.carrying [] [] [r] none none) =
      (s.counted.release p).retireHead.carrying [] [] [] none none := by
  let c := s.counted.carrying [] [] [r] none none
  have hcommit : commitStage c = (c.release p).retireHead :=
    (commitStage_acts (s := c) rfl hr.exc).trans ((commitAction_cmp hr.insn hr.pd).trans (if_pos hready))
  exact cycleWith_commits hs hcommit rfl

/-- R340, R416: one cycle in each of six stages. -/
theorem exec_cmp_alone (h : Alone s) (hfl : s.fl = p :: rest) (rs1 rs2 : Reg) :
    let v := cmpFlag (s.readReg rs1) (s.readReg rs2)
    exec (.cmp rs1 rs2) s = .next { (s.passedThrough p rest v).retiredAfter 6 with z := v } := by
  intro v
  let i : Instr := .cmp rs1 rs2
  let f := s.recordOf i
  have hf : decodeFields f = .op i := s.decodeFields_recordOf i
  have hback := h.backEndOnly f
  have hqueued : (s.queued i p).ComputingRecord i p := ⟨hf, rfl, rfl, rfl, rfl, rfl, rfl⟩
  have hexecuting : (s.executing i p).ComputingRecord i p :=
    hqueued.of_sameRecord (issued_sameRecord _ s i)
  have hbusy (n : Nat) : (s.comparing n p rest).readyBit p = false := holdingToken_readyBit p rest s.fetchedOn
  let b := s.fetchedOn.counted.holdingToken p rest
  have hb : BackEndOnly (delivering f s.pc s.lookup) b := hback.of_frontFields rfl
  have h3 := h.comparing 3 p rest f
  have h4 := h.comparing 4 p rest f
  have hdecodes := cycleWith_decodes_cmp hback h.idle.rm hf hfl s.pc
  have hdispatches : cycleWith _ (b.dispatching _) =
      (s.comparing 3 p rest).carrying [s.queued i p] [] [s.queued i p] none none :=
    cycleWith_dispatches_computing (r := { freshRecord f s.pc false with pd := some p }) hb
      ⟨hf, rfl, rfl, rfl, rfl, rfl, rfl⟩
  have hissues : cycleWith _ ((s.comparing 3 p rest).carrying _ _ _ _ _) =
      (s.comparing 4 p rest).carrying [] [] [s.executing i p] (some (s.executing i p)) none :=
    cycleWith_issues_computing h3 hqueued (hbusy 3) (c := .integer) rfl
  let d := ({ s.comparing 4 p rest with z := v } : State).counted.delivered p v
  have hd : BackEndOnly (delivering f s.pc s.lookup) d := h4.of_frontFields rfl
  have hcompares : cycleWith _ ((s.comparing 4 p rest).carrying _ _ _ _ _) =
      d.carrying [] [] [s.executing i p] none none := cycleWith_compares h4 hexecuting (hbusy 4)
  have hcommits := cycleWith_commits_cmp hd hexecuting ((State.readyBit_setReady _ p p true).trans (if_pos rfl))
  rw [exec_eq_runRecord, h.runRecord_eq, runToRetirement_continues _ hdecodes hb.running rfl,
    runToRetirement_continues _ hdispatches h3.running rfl,
    runToRetirement_continues _ hissues h4.running rfl,
    runToRetirement_continues _ hcompares hd.running rfl,
    runToRetirement_retires _ hcommits (Nat.succ_ne_self _)]
  refine congrArg Host.Outcome.next ?_
  calc (d.counted.release p).retireHead.carrying [] [] [] none none
      _ = { ((((s.retiredAfter 6).carrying [] [] [] none none).holdingToken p rest).delivered p v).release p
            with z := v } := by
        simp only [d, State.comparing, State.holdingToken, State.delivered, State.carrying, State.fetchedOn,
          State.counted, State.release, State.retireHead, State.retiredAfter]
      _ = { (s.retiredAfter 6).passedThrough p rest v with z := v } := by
        rw [(h.idle.retiredAfter 6).carrying_nil, token_passedThrough (s := s.retiredAfter 6) h.idle.rm]

/-- R5: differences modulo 2^32 are those of the words. -/
theorem wrap32_sub_eq_zero_iff (a b : Word) : wrap32 (a.toInt - b.toInt) = 0#32 ↔ a = b := by
  rw [wrap32, Int.sub_eq_add_neg, BitVec.ofInt_add, BitVec.ofInt_neg, BitVec.ofInt_toInt,
    BitVec.ofInt_toInt, ← BitVec.sub_eq_add_neg]
  exact sub_eq_zero

end Compare

/-- Settles O22: `exec_cmp_alone`, and a difference is 0 exactly for equal words. -/
theorem compareAlone : Obligations.CompareAlone := by
  intro s p rest rs1 rs2 h hfl v
  exact ⟨exec_cmp_alone h hfl rs1 rs2, wrap32_sub_eq_zero_iff _ _⟩

end Sys2Proof.Machine

namespace Sys2Proof.Machine

/-! ### Branches and JUMP alone in the machine (R341 to R343)

A branch or a JUMP goes through `DEC`, `DSP`, the IQ and `INT`. Its commit leaves the machine idle, and the
fetch of that cycle goes on where the instruction leads. -/

/-- A record of the branch or JUMP `i`: it has no register, waits for none, and is not resolved. -/
structure Inflight.ControlRecord (e : Inflight) (i : Instr) : Prop where
  insn : e.insn = .op i
  control : (isCondBranch i || isJumpOp i) = true
  pd : e.pd = none
  ps1 : e.ps1 = none
  exc : e.exc = none
  done : e.done = false

namespace Inflight.ControlRecord

variable {e r : Inflight} {i : Instr}

theorem of_sameRecord (he : e.ControlRecord i) (hr : SameRecord e r) : r.ControlRecord i :=
  ⟨hr.insn_eq.trans he.insn, he.control, hr.pd_eq.trans he.pd, hr ▸ he.ps1, hr.exc_eq.trans he.exc,
    hr.done_eq.trans he.done⟩

/-- R162: so it is with its age tag. -/
theorem dispatched (he : e.ControlRecord i) (s : State) : (s.dispatched e).ControlRecord i :=
  ⟨he.insn, he.control, he.pd, he.ps1, rfl, rfl⟩

/-- R182. -/
theorem fuClass_eq (he : e.ControlRecord i) : fuClass i = some .integer := by
  obtain ⟨_, rfl⟩ | ⟨_, rfl⟩ | ⟨_, _, rfl⟩ := control_cases he.control <;> rfl

/-- R184, R186: it waits for nothing and has no effect at issue. -/
theorem issues (he : e.ControlRecord i) (s : State) :
    e.gateReady s i ∧ ∀ r : Inflight, issueEffect i r s = s := by
  obtain ⟨_, rfl⟩ | ⟨_, rfl⟩ | ⟨_, _, rfl⟩ := control_cases he.control <;> exact ⟨trivial, fun _ => rfl⟩

theorem isMemory (he : e.ControlRecord i) : e.isMemory = false := by
  rw [(Inflight.kinds_of_op he.insn).isMemory]
  obtain ⟨_, rfl⟩ | ⟨_, rfl⟩ | ⟨_, _, rfl⟩ := control_cases he.control <;> rfl

theorem isStoreRecord (he : e.ControlRecord i) : e.isStoreRecord = false := by
  rw [(Inflight.kinds_of_op he.insn).isStoreRecord]
  obtain ⟨_, rfl⟩ | ⟨_, rfl⟩ | ⟨_, _, rfl⟩ := control_cases he.control <;> rfl

theorem not_halt (he : e.ControlRecord i) : e.insn ≠ .op .halt := by
  have hcontrol := he.control
  rw [he.insn]
  rintro ⟨⟩
  cases hcontrol

theorem unitClass (he : e.ControlRecord i) : e.unitClass = some .integer :=
  (Inflight.kinds_of_op he.insn).unitClass.trans he.fuClass_eq

/-- R285, R286: commit waits for it until it has been in `INT`. -/
theorem commitStage_keeps (he : e.ControlRecord i) {s : State} (hrob : s.rob = [e])
    (hjump : s.jumpTaken = false) : commitStage s = s := by
  refine commitStage_waits hrob he.exc (by simp [he.unitClass]) (commitGate_eq_false
    (by simp [he.unitClass]) (fun p hp => ?_) he.done (fun h => ?_) fun _ => hjump)
  · exact absurd (he.pd.symm.trans hp) nofun
  · exact absurd (he.isStoreRecord.symm.trans h) nofun

end Inflight.ControlRecord

section ControlCycles

variable {s u : State} {look : Word → Option RecordFields} {e : Inflight} {i : Instr}

/-- R186, R187: the cycle that issues the record to `INT`. -/
theorem cycleWith_issues_control (hs : BackEndOnly look s) (he : e.ControlRecord i)
    (hjump : s.jumpTaken = false) :
    let r := e.issued s i
    cycleWith look (s.carrying [e] [] [e] none none) = s.counted.carrying [] [] [r] (some r) none := by
  intro r
  let c := s.counted.carrying [e] [] [e] none none
  obtain ⟨hready, heffect⟩ := he.issues c
  have hback : BackEndOnly look c := hs.of_frontFields rfl
  have hissued : e.issued c i = r := issued_congr rfl rfl e i
  have hissue := issueStage_alone (s := c) he.insn he.fuClass_eq hready rfl (by simp [c, State.carrying])
  simp only [hissued, heffect] at hissue
  refine cycleWith_backEnd hs.running (he.commitStage_keeps (s := c) rfl hjump) hback ?_
    (hs.of_frontFields rfl)
  rw [dataCacheStage_none (s := c) rfl, lsqStage_nil (s := c) rfl, intStage_none (s := c) rfl, hissue]
  simp only [c, r, State.carrying, List.map_cons, List.map_nil, if_true, if_false, reduceCtorEq,
    issued_operands]

/-- R101: a cycle in which `INT` alone holds a record: its action, and what the later stages make of it. -/
theorem cycleWith_executes_control (hs : BackEndOnly look s) (he : e.ControlRecord i)
    (hjump : s.jumpTaken = false) :
    cycleWith look (s.carrying [] [] [e] (some e) none) =
      fetchStage look (decodeStage (dispatchStage (issueStage (intStage
        (s.counted.carrying [] [] [e] (some e) none))))) := by
  let c := s.counted.carrying [] [] [e] (some e) none
  have hcommit : commitStage c = c := he.commitStage_keeps rfl hjump
  have hcache : dataCacheStage c = c := dataCacheStage_none rfl
  have hlsq : lsqStage c = c := lsqStage_nil rfl
  have hmul : mulStage c = c := mulStage_none hs.mul1 hs.mul2 hs.mul3 hs.mul4
  have hlog : logStage c = c := logStage_none hs.log
  have hboth : dataCacheStage (commitStage c) = c := by rw [hcommit, hcache]
  calc cycleWith look (s.carrying [] [] [e] (some e) none)
      _ = laterStages look (dataCacheStage (commitStage c)) :=
        cycleWith_completes hs.running (hcommit.symm ▸ hs.running) (hboth.symm ▸ hs.running)
      _ = _ := by rw [hboth, laterStages, hlsq, hmul, hlog]

/-- R160: a recovery with an empty `DSP` is over. -/
theorem recoverDispatch_of_none (h : s.dsp = none) : recoverDispatch s = s.recovered := by
  simp only [recoverDispatch, State.recovered, h]

/-- R160: what the later stages make of a machine idle but for a recovery. -/
theorem laterStages_of_idle (h : Idle s.recovered) :
    laterStages look s = fetchStage look s.recovered := by
  have hdsp : s.dsp = none := h.dsp
  have hdispatch : dispatchStage s = s.recovered := by
    cases hb : s.branchRecovery with
    | false => rw [dispatchStage_none hdsp hb, State.recovered, ← hb]
    | true => rw [dispatchStage_recovers hb, recoverDispatch_of_none hdsp]
  rw [laterStages, lsqStage_nil (s := s) h.lsq, mulStage_none (s := s) h.mul1 h.mul2 h.mul3 h.mul4,
    logStage_none (s := s) h.log, intStage_none (s := s) h.int, issueStage_nil (s := s) h.iq, hdispatch,
    decodeStage_none h.dec]

/-- The cycle that commits the last record in flight ends with a fetch. -/
theorem runToRetirement_empties (n : Nat) (hrun : s.status = .running)
    (hcommit : (commitStage s.counted).recovered = u) (hidle : Idle u)
    (hretired : u.retired ≠ s.retired) :
    runToRetirement look (n + 1) s = fetchStage look u := by
  subst hcommit
  have hcache : dataCacheStage (commitStage s.counted) = commitStage s.counted :=
    dataCacheStage_none hidle.dc
  have hcycle : cycleWith look s = _ :=
    cycleWith_completes hrun hidle.running (hcache.symm ▸ hidle.running)
  rw [hcache, laterStages_of_idle hidle] at hcycle
  exact runToRetirement_retires n hcycle (by simpa using hretired)

/-- R248: the registers of older entries stay. -/
theorem releaseYounger_of_older {q : Nat} {l : List Inflight} (h : ∀ e ∈ l, e.seq ≤ q) (s : State) :
    releaseYounger q l s = s := by
  induction l with
  | nil => rfl
  | cons e l ih =>
    obtain ⟨he, hl⟩ := List.forall_mem_cons.1 h
    rw [releaseYounger, if_neg (Nat.not_lt.2 he), ih hl]

theorem olderThan_of_older {q : Nat} {l : List Inflight} (h : ∀ e ∈ l, e.seq ≤ q) : olderThan q l = l :=
  List.filter_eq_self.2 fun e he => decide_eq_true (h e he)

theorem squashLatch_of_older {q : Nat} {l : Option Inflight} (h : ∀ e ∈ l.toList, e.seq ≤ q) :
    squashLatch q l = l := by
  cases l with
  | none => rfl
  | some e => exact if_neg (Nat.not_lt.2 (h e (.head _)))

/-- R248: with nothing younger in flight a flush only clears `DEC` and sets the control flags. -/
theorem flush_of_nothingYounger {q : Nat} (h : NothingYounger q s) : flush q s = s.flushed := by
  obtain ⟨hrob, hiq, hlsq, hunits⟩ := h
  simp only [State.inUnits, List.forall_mem_append] at hunits
  obtain ⟨⟨⟨⟨⟨⟨-, hlog⟩, hmul1⟩, hmul2⟩, hmul3⟩, hmul4⟩, hdc⟩ := hunits
  simp only [flush, State.flushed, releaseYounger_of_older hrob, olderThan_of_older hrob,
    olderThan_of_older hiq, olderThan_of_older hlsq, squashLatch_of_older hlog, squashLatch_of_older hmul1,
    squashLatch_of_older hmul2, squashLatch_of_older hmul3, squashLatch_of_older hmul4,
    squashLatch_of_older hdc]

theorem BackEndOnly.nothingYounger (hs : BackEndOnly look s) (rob : List Inflight) {q : Nat}
    (h : ∀ e ∈ rob, e.seq ≤ q) : NothingYounger q (s.carrying [] [] rob none none) := by
  have hunits : (s.carrying [] [] rob none none).inUnits = [] := hs.inUnits_carrying
  exact ⟨h, List.forall_mem_nil _, List.forall_mem_nil _, by simp [hunits]⟩

end ControlCycles

/-! #### The front end -/

/-- The record of the branch or JUMP `i` at the present pc, as it waits in the IQ (R131, R164). -/
def State.steering (i : Instr) (s : State) : Inflight :=
  { freshRecord (s.recordOf i) s.pc s.predictedTaken with seq := s.nextSeq }

/-- The state behind the cycle that fetches the record at the present pc, where fetch goes on as the BTB says
(R131). -/
def State.followedOn (s : State) : State :=
  { s with pc := s.followed, btb := s.fetchedBtb, cycle := s.cycle + 1 }

section ControlFrontEnd

variable {s : State} {look : Word → Option RecordFields}

theorem Idle.backEndOnly (h : Idle s) (hlook : look s.followed = none) : BackEndOnly look s.followedOn :=
  ⟨h.running, h.dec, h.dsp, h.log, h.mul1, h.mul2, h.mul3, h.mul4, h.redirectPending, h.branchRecovery,
    hlook⟩

/-- R130, R131: the cycle that fetches the record of `exec`. -/
theorem Idle.runRecord_eq (h : Idle s) (f : RecordFields) :
    runRecord f s = runToRetirement (delivering f s.pc s.lookup) 15
      (s.followedOn.decoding (freshRecord f s.pc s.predictedTaken)) := by
  rw [runRecord_fetched f h]
  simp only [State.decoding, State.carrying, State.followedOn, h.iq, h.lsq, h.rob, h.int, h.dc]

theorem steering_controlRecord (i : Instr) (hcontrol : (isCondBranch i || isJumpOp i) = true) (s : State) :
    (s.steering i).ControlRecord i :=
  ⟨s.decodeFields_recordOf i, hcontrol, rfl, rfl, rfl, rfl⟩

end ControlFrontEnd

/-! #### JUMP (R343, R249, R286)

While the JUMP is in flight nothing is fetched (R139), so that its cycles are those of a machine to which no
record is delivered. -/

/-- An instruction space without records. -/
def noRecords : Word → Option RecordFields := fun _ => none

section Jump

variable {s t : State} {look : Word → Option RecordFields} {e : Inflight} {rs1 : Reg} {imm : Word}

/-- R130, R139: with a JUMP in flight fetch does not look. -/
theorem fetchStage_of_jumpInFlight (h : s.jumpInFlight = true) (look' : Word → Option RecordFields) :
    fetchStage look s = fetchStage look' s := by
  simp only [fetchStage, h, if_true]

theorem cycleWith_of_jumpInFlight (hcycle : cycleWith noRecords s = t) (hjump : t.jumpInFlight = true) :
    cycleWith look s = t := by
  subst hcycle
  simp only [cycleWith, laterStages] at hjump ⊢
  split_ifs at hjump ⊢ with hrun hcommit hcache
  · exact fetchStage_of_jumpInFlight (by simpa using hjump) noRecords
  all_goals rfl

/-- A cycle of a JUMP in flight is followed by the next one. -/
theorem runToRetirement_jumping (n : Nat) (hcycle : cycleWith noRecords s = t) (ht : t.status = .running)
    (hretired : t.retired = s.retired) (hjump : t.jumpInFlight = true) :
    runToRetirement look (n + 1) s = runToRetirement look n t :=
  runToRetirement_continues n (cycleWith_of_jumpInFlight hcycle hjump) ht hretired

/-- R139: the cycle that decodes a JUMP. -/
theorem cycleWith_decodes_jump (hs : BackEndOnly look s) (hrm : s.rm = []) {f : RecordFields}
    (hf : decodeFields f = .op (.jump rs1 imm)) (pc : Word) (predTaken : Bool) :
    cycleWith look (s.decoding (freshRecord f pc predTaken)) =
      ({ s.counted with jumpInFlight := true } : State).dispatching (freshRecord f pc predTaken) := by
  have hnone : (s.counted.decoding (freshRecord f pc predTaken)).resolve rs1 = none :=
    State.resolve_of_rm_nil hrm rs1
  have hdecode := decodeStage_jump (s := s.counted.decoding (freshRecord f pc predTaken)) rfl hs.dsp hf
  rw [cycleWith_decodes hs, hdecode, hnone]
  let t := ({ s.counted with jumpInFlight := true } : State).dispatching (freshRecord f pc predTaken)
  exact State.clearDec_of_none (s := t) hs.dec

/-- R249: the cycle in which the Integer unit computes the target. -/
theorem cycleWith_jumps (hs : BackEndOnly look s) (he : e.ControlRecord (.jump rs1 imm))
    (hjump : s.jumpTaken = false) :
    cycleWith look (s.carrying [] [] [e] (some e) none) =
      ({ s.counted with jumpTarget := e.v1 + imm, jumpTaken := true } : State).carrying [] [] [e] none
        none := by
  let t := ({ s.counted with jumpTarget := e.v1 + imm, jumpTaken := true } : State).carrying [] [] [e]
    none none
  have hint : intStage (s.counted.carrying [] [] [e] (some e) none) = t := intStage_jump rfl he.insn
  have hback : BackEndOnly look t := hs.of_frontFields rfl
  rw [cycleWith_executes_control hs he hjump, hint, issueStage_nil (s := t) rfl,
    dispatchStage_none hback.dsp hback.branchRecovery, decodeStage_none hback.dec,
    fetchStage_invalid hback.invalid hback.redirectPending]

/-- R286: what the commit of a JUMP leaves, the recovery it asks for apart. -/
theorem commitStage_jump_alone (hs : BackEndOnly look s) (he : e.ControlRecord (.jump rs1 imm))
    (htaken : s.jumpTaken = true) :
    (commitStage (s.carrying [] [] [e] none none)).recovered =
      ({ s.retireHead with pc := s.jumpTarget, jumpInFlight := false, jumpTaken := false } :
        State).carrying [] [] [] none none := by
  let c := ({ s.retireHead with pc := s.jumpTarget, jumpInFlight := false, jumpTaken := false } :
    State).carrying [] [] [] none none
  have hcommit : commitStage (s.carrying [] [] [e] none none) = flush e.seq c :=
    (commitStage_acts rfl he.exc).trans ((commitAction_jump he.insn).trans (if_pos htaken))
  have hc : NothingYounger e.seq c := by
    obtain ⟨hrob, hiq, hlsq, hunits⟩ := hs.nothingYounger (q := e.seq) [] (List.forall_mem_nil _)
    exact ⟨hrob, hiq, hlsq, hunits⟩
  rw [hcommit, flush_of_nothingYounger hc]
  exact State.flushed_recovered (s := c) hs.dec hs.branchRecovery rfl rfl

/-- The rest of the machine `n` cycles on, while a JUMP is behind dispatch. -/
def State.jumping (n : Nat) (s : State) : State :=
  { s.followedOn with jumpInFlight := true, nextSeq := s.nextSeq + 1, cycle := s.cycle + n }

theorem Idle.jumping (h : Idle s) (n : Nat) : BackEndOnly noRecords (s.jumping n) :=
  (h.backEndOnly rfl).of_frontFields rfl

/-- R131, R139, R164, R187: fetch, decode, dispatch and issue, in one cycle each. -/
theorem exec_jump_issues (h : Idle s) (rs1 : Reg) (imm : Word) :
    let i : Instr := .jump rs1 imm
    let e := (s.steering i).issued s i
    exec i s = .next (runToRetirement (delivering (s.recordOf i) s.pc s.lookup) 12
      ((s.jumping 4).carrying [] [] [e] (some e) none)) := by
  intro i e
  let r := freshRecord (s.recordOf i) s.pc s.predictedTaken
  have hf : decodeFields (s.recordOf i) = .op i := s.decodeFields_recordOf i
  have hr : r.ControlRecord i := ⟨hf, rfl, rfl, rfl, rfl, rfl⟩
  have hback : BackEndOnly noRecords s.followedOn := h.backEndOnly rfl
  have hb : BackEndOnly noRecords ({ s.followedOn.counted with jumpInFlight := true } : State) :=
    hback.of_frontFields rfl
  have hdecodes := cycleWith_decodes_jump hback h.rm hf s.pc s.predictedTaken
  have hdispatches : cycleWith _ (State.dispatching r _) =
      (s.jumping 3).carrying [s.steering i] [] [s.steering i] none none :=
    cycleWith_dispatches_to_iq hb hr.isMemory hr.not_halt
  have hissues : cycleWith _ ((s.jumping 3).carrying _ _ _ _ _) =
      (s.jumping 4).carrying [] [] [e] (some e) none :=
    cycleWith_issues_control (h.jumping 3) (steering_controlRecord i rfl s) h.jumpTaken
  rw [exec_eq_runRecord, h.runRecord_eq, runToRetirement_jumping _ hdecodes hb.running rfl rfl,
    runToRetirement_jumping _ hdispatches (h.jumping 3).running rfl rfl,
    runToRetirement_jumping _ hissues (h.jumping 4).running rfl rfl]

theorem Idle.jumpRun (h : Idle s) (target : Word) : Idle (s.jumpRun target) := by
  obtain ⟨⟩ := h
  constructor <;> assumption

end Jump

/-- Settles O24: the JUMP is in `INT` in the fifth cycle, with nothing fetched behind it, and its commit in the
sixth redirects fetch. -/
theorem jumpAlone : Obligations.JumpAlone := by
  intro s rs1 imm h
  let i : Instr := .jump rs1 imm
  let e := (s.steering i).issued s i
  have he : e.ControlRecord i :=
    (steering_controlRecord i rfl s).of_sameRecord (issued_sameRecord _ s i)
  let t : State := { s.jumping 5 with jumpTarget := s.readReg rs1 + imm, jumpTaken := true }
  have ht : BackEndOnly noRecords t := (h.jumping 5).of_frontFields rfl
  have hjumps : cycleWith noRecords ((s.jumping 4).carrying [] [] [e] (some e) none) =
      t.carrying [] [] [e] none none := cycleWith_jumps (h.jumping 4) he h.jumpTaken
  have hcommit : (commitStage (t.carrying [] [] [e] none none).counted).recovered =
      s.jumpRun (s.readReg rs1 + imm) := by
    have hcounted : BackEndOnly noRecords t.counted := ht.of_frontFields rfl
    have hend := h.jumpRun (s.readReg rs1 + imm)
    refine (commitStage_jump_alone hcounted he rfl).trans ?_
    rw [← hend.carrying_nil, ← State.endJump_of_none hend.jumpInFlight hend.jumpTaken]
    simp only [t, State.jumping, State.jumpRun, State.retiredAfter, State.followedOn, State.carrying,
      State.counted, State.retireHead]
  rw [exec_jump_issues h, runToRetirement_jumping _ hjumps ht.running rfl rfl,
    runToRetirement_empties (s := t.carrying [] [] [e] none none) _ ht.running hcommit
      (h.jumpRun _) (Nat.succ_ne_self _)]

end Sys2Proof.Machine

namespace Sys2Proof.Machine

/-! #### BZ and BNZ (R341, R342, R246, R247)

With and against its prediction the branch leaves `INT` in one state but for the pc: the flush of a
misprediction finds nothing younger, and its recovery and its bubble end in the same cycle. -/

/-- What the resolution of the branch `e` leaves in the BTB and the pc (R246, R247). -/
def State.resolved (taken : Bool) (target : Word) (e : Inflight) (s : State) : State :=
  { s with
    btb := Sparse.write BtbEntry.absent s.btb (recordIndex e.pc) ⟨true, true, taken, target⟩
    pc := if taken = e.predTaken then s.pc else if taken then target else nextPc e.pc }

/-- The state with an entry in the BTB for the branch at `pc` (R138). -/
def State.withBranchEntry (pc : Word) (s : State) : State :=
  { s with
    btb :=
      if (s.btbAt pc).present then s.btb
      else Sparse.write BtbEntry.absent s.btb (recordIndex pc) ⟨true, false, false, 0#32⟩ }

/-- The rest of the machine `n` cycles on, while a branch is behind dispatch. -/
def State.branching (n : Nat) (s : State) : State :=
  { s.followedOn.withBranchEntry s.pc with nextSeq := s.nextSeq + 1, cycle := s.cycle + n }

section Branch

variable {s : State} {look : Word → Option RecordFields} {e : Inflight} {i : Instr} {imm : Word}
  {taken : Bool}

theorem Idle.branching (h : Idle s) (hlook : look s.followed = none) (n : Nat) :
    BackEndOnly look (s.branching n) :=
  (h.backEndOnly hlook).of_frontFields rfl

/-- R138: the entry that decode makes is overwritten when the branch resolves. -/
theorem write_withBranchEntry (s : State) (pc : Word) (entry : BtbEntry) :
    Sparse.write BtbEntry.absent (s.withBranchEntry pc).btb (recordIndex pc) entry =
      Sparse.write BtbEntry.absent s.btb (recordIndex pc) entry := by
  simp only [State.withBranchEntry]
  split
  · rfl
  · exact Sparse.write_write BtbEntry.absent s.btb (recordIndex pc) _ entry

/-- R138: the cycle that decodes a branch. -/
theorem cycleWith_decodes_branch (hs : BackEndOnly look s) {f : RecordFields}
    (hf : decodeFields f = .op (.bz imm) ∨ decodeFields f = .op (.bnz imm)) (pc : Word) (predTaken : Bool) :
    cycleWith look (s.decoding (freshRecord f pc predTaken)) =
      (s.counted.withBranchEntry pc).dispatching (freshRecord f pc predTaken) := by
  let r := freshRecord f pc predTaken
  have hdec : (s.counted.withBranchEntry pc).dec = none := hs.dec
  have hdecode : decodeStage (s.counted.decoding r) =
      { (s.counted.withBranchEntry pc).decoding r with dec := none, dsp := some r } :=
    decodeStage_branch (s := s.counted.decoding r) rfl hs.dsp hf
  rw [cycleWith_decodes hs, hdecode]
  exact State.clearDec_of_none (s := (s.counted.withBranchEntry pc).dispatching r) hdec

/-- R246: what the resolution writes into the BTB and the ROB entry. -/
theorem setBtb_markDone_carrying (s : State) (e : Inflight) (entry : BtbEntry) :
    ((s.carrying [] [] [e] none none).setBtb e.pc entry).markDone e.seq =
      ({ s with btb := Sparse.write BtbEntry.absent s.btb (recordIndex e.pc) entry } : State).carrying [] []
        [{ e with done := true }] none none := by
  simp only [State.setBtb, State.markDone, State.onRobEntry, State.carrying, onTag_singleton]

/-- R247: what the rest of its cycle makes of a misprediction with nothing younger in flight. -/
theorem stages_behind_mispredict_alone (hs : BackEndOnly look s) (hjump : s.jumpInFlight = false)
    (htaken : s.jumpTaken = false) (taken : Bool) (target : Word) (r : Inflight) (hr : r.seq = e.seq) :
    fetchStage look (decodeStage (dispatchStage (issueStage
        (mispredict taken target e (s.carrying [] [] [r] none none))))) =
      ({ s with pc := if taken then target else nextPc e.pc } : State).carrying [] [] [r] none none := by
  let c := s.carrying [] [] [r] none none
  let m := mispredict taken target e c
  have hold : NothingYounger e.seq c := hs.nothingYounger [r] (by simp [hr])
  have hm : m = { c.flushed with
      pc := if taken then target else nextPc e.pc
      redirectPending := true } :=
    congrArg (fun f : State => { f with
      pc := if taken then target else nextPc e.pc
      redirectPending := true }) (flush_of_nothingYounger hold)
  have hissue : issueStage m = m := issueStage_nil (hm ▸ rfl)
  have hrecover : recoverDispatch m = m.recovered := recoverDispatch_of_none (hm ▸ hs.dsp)
  rw [stages_behind_misprediction look (s := m) (hm ▸ rfl) (hm ▸ rfl) (hm ▸ rfl), hissue, hrecover, hm]
  have hends := State.endBubble_of_none (s := { c.flushed.recovered with
    pc := if taken then target else nextPc e.pc }) hs.redirectPending
  exact hends.trans (congrArg (fun f : State => { f with pc := if taken then target else nextPc e.pc })
    (State.flushed_recovered (s := c) hs.dec hs.branchRecovery hjump htaken))

/-- R246, R247: the cycle that resolves the branch. -/
theorem cycleWith_resolves (hs : BackEndOnly look s) (he : e.ControlRecord i)
    (hjump : s.jumpInFlight = false) (htaken : s.jumpTaken = false)
    (hbranch : (e.insn = .op (.bz imm) ∧ taken = decide (s.z = 0#32)) ∨
      (e.insn = .op (.bnz imm) ∧ taken = decide (s.z ≠ 0#32))) :
    cycleWith look (s.carrying [] [] [e] (some e) none) =
      (s.counted.resolved taken (e.pc + imm) e).carrying [] [] [{ e with done := true }] none none := by
  let d : State := { s.counted with
    btb := Sparse.write BtbEntry.absent s.btb (recordIndex e.pc) ⟨true, true, taken, e.pc + imm⟩ }
  let r : Inflight := { e with done := true }
  let c := s.counted.carrying [] [] [e] none none
  have hd : BackEndOnly look d := hs.of_frontFields rfl
  have hwrites : (c.setBtb e.pc ⟨true, true, taken, e.pc + imm⟩).markDone e.seq =
      d.carrying [] [] [r] none none := setBtb_markDone_carrying s.counted e _
  have hint : intStage (s.counted.carrying [] [] [e] (some e) none) = resolveBranch taken imm e c :=
    intStage_resolves rfl hbranch
  rw [cycleWith_executes_control hs he htaken, hint]
  by_cases hpred : taken = e.predTaken
  · let t := d.carrying [] [] [r] none none
    have ht : BackEndOnly look t := hd.of_frontFields rfl
    rw [resolveBranch_of_predicted hpred, hwrites, issueStage_nil (s := t) rfl,
      dispatchStage_none ht.dsp ht.branchRecovery, decodeStage_none ht.dec,
      fetchStage_invalid ht.invalid ht.redirectPending, State.resolved, if_pos hpred]
    rfl
  · rw [resolveBranch_of_mispredicted hpred, hwrites,
      stages_behind_mispredict_alone (e := e) hd hjump htaken taken _ r rfl, State.resolved, if_neg hpred]
    rfl

/-- R131, R138, R164, R187: fetch, decode, dispatch and issue, in one cycle each. -/
theorem exec_branch_issues (h : Idle s) (hlook : delivering (s.recordOf i) s.pc s.lookup s.followed = none)
    (hi : i = .bz imm ∨ i = .bnz imm) :
    exec i s = .next (runToRetirement (delivering (s.recordOf i) s.pc s.lookup) 12
      ((s.branching 4).carrying [] [] [s.steering i] (some (s.steering i)) none)) := by
  let r := freshRecord (s.recordOf i) s.pc s.predictedTaken
  have hcontrol : (isCondBranch i || isJumpOp i) = true := by rcases hi with rfl | rfl <;> rfl
  have hissued : (s.steering i).issued (s.branching 3) i = s.steering i := by
    rcases hi with rfl | rfl <;> rfl
  have hf : decodeFields (s.recordOf i) = .op (.bz imm) ∨ decodeFields (s.recordOf i) = .op (.bnz imm) := by
    rw [s.decodeFields_recordOf i]
    exact hi.imp (congrArg Fetched.op) (congrArg Fetched.op)
  have hr : r.ControlRecord i := ⟨s.decodeFields_recordOf i, hcontrol, rfl, rfl, rfl, rfl⟩
  have hback := h.backEndOnly hlook
  have hb : BackEndOnly (delivering (s.recordOf i) s.pc s.lookup)
      (s.followedOn.counted.withBranchEntry s.pc) := hback.of_frontFields rfl
  have hdecodes : cycleWith _ (s.followedOn.decoding r) =
      (s.followedOn.counted.withBranchEntry s.pc).dispatching r :=
    cycleWith_decodes_branch hback hf s.pc s.predictedTaken
  have hdispatches : cycleWith _ (State.dispatching r _) =
      (s.branching 3).carrying [s.steering i] [] [s.steering i] none none :=
    cycleWith_dispatches_to_iq hb hr.isMemory hr.not_halt
  have hissues : cycleWith _ ((s.branching 3).carrying _ _ _ _ _) =
      (s.branching 4).carrying [] [] [(s.steering i).issued (s.branching 3) i]
        (some ((s.steering i).issued (s.branching 3) i)) none :=
    cycleWith_issues_control (h.branching hlook 3) (steering_controlRecord i hcontrol s) h.jumpTaken
  rw [hissued] at hissues
  rw [exec_eq_runRecord, h.runRecord_eq, runToRetirement_continues _ hdecodes hb.running rfl,
    runToRetirement_continues _ hdispatches (h.branching hlook 3).running rfl,
    runToRetirement_continues _ hissues (h.branching hlook 4).running rfl]

/-- R246, R247: the rest of the machine behind the resolution. -/
theorem branching_resolved (s : State) (n : Nat) (taken : Bool) (target : Word) (hpc : e.pc = s.pc)
    (hpred : e.predTaken = s.predictedTaken) :
    (s.branching n).resolved taken target e =
      { s.followedOn with
        btb := Sparse.write BtbEntry.absent s.fetchedBtb (recordIndex s.pc) ⟨true, true, taken, target⟩
        pc := if taken = s.predictedTaken then s.followed else if taken then target else nextPc s.pc
        nextSeq := s.nextSeq + 1
        cycle := s.cycle + n } := by
  have hbtb := write_withBranchEntry s.followedOn s.pc ⟨true, true, taken, target⟩
  rw [State.resolved, hpc, hpred]
  exact congrArg (fun btb => ({ s.branching n with
    btb := btb
    pc := if taken = s.predictedTaken then s.followed else if taken then target else nextPc s.pc } : State))
    hbtb

theorem Idle.branchRun (h : Idle s) (taken : Bool) (target : Word) : Idle (s.branchRun taken target) := by
  obtain ⟨⟩ := h
  constructor <;> assumption

/-- R285: what the commit of the resolved branch leaves. -/
theorem commitStage_branch_alone (h : Idle s) (hi : i = .bz imm ∨ i = .bnz imm) (taken : Bool) :
    (commitStage (((s.branching 5).resolved taken (s.pc + imm) (s.steering i)).carrying [] []
        [{ s.steering i with done := true }] none none).counted).recovered =
      s.branchRun taken (s.pc + imm) := by
  let r : Inflight := { s.steering i with done := true }
  have hr : r.insn = .op i := s.decodeFields_recordOf i
  have hbranch : r.insn = .op (.bz imm) ∨ r.insn = .op (.bnz imm) := by
    rw [hr]
    exact hi.imp (congrArg Fetched.op) (congrArg Fetched.op)
  rw [commitStage_acts (h := r) (rest := []) rfl rfl, commitAction_branch hbranch, if_pos rfl,
    branching_resolved s 5 taken _ (e := s.steering i) rfl rfl]
  have hend := h.branchRun taken (s.pc + imm)
  rw [← hend.carrying_nil, ← State.recovered_of_none hend.branchRecovery]
  simp only [State.branchRun, State.retiredAfter, State.followedOn, State.recovered, State.carrying,
    State.counted, State.retireHead, List.tail_cons]

/-- R341, R342, R416: one cycle in each of six stages. -/
theorem exec_branch_alone (h : Idle s) (hne : s.followed ≠ s.pc) (hlast : s.lookup s.followed = none)
    (hbranch : (i = .bz imm ∧ taken = decide (s.z = 0#32)) ∨
      (i = .bnz imm ∧ taken = decide (s.z ≠ 0#32))) :
    exec i s = .next (fetchStage (delivering (s.recordOf i) s.pc s.lookup)
      (s.branchRun taken (s.pc + imm))) := by
  have hlook : delivering (s.recordOf i) s.pc s.lookup s.followed = none :=
    (delivering_other hne).trans hlast
  have hi : i = .bz imm ∨ i = .bnz imm := hbranch.imp And.left And.left
  have he : (s.steering i).ControlRecord i :=
    steering_controlRecord i (by rcases hi with rfl | rfl <;> rfl) s
  have hresolves : ((s.steering i).insn = .op (.bz imm) ∧ taken = decide (s.z = 0#32)) ∨
      ((s.steering i).insn = .op (.bnz imm) ∧ taken = decide (s.z ≠ 0#32)) := by
    rcases hbranch with ⟨rfl, ht⟩ | ⟨rfl, ht⟩
    · exact .inl ⟨he.insn, ht⟩
    · exact .inr ⟨he.insn, ht⟩
  let t := ((s.branching 5).resolved taken (s.pc + imm) (s.steering i)).carrying [] []
    [{ s.steering i with done := true }] none none
  have hcycle : cycleWith _ ((s.branching 4).carrying [] [] [s.steering i] (some (s.steering i)) none) = t :=
    cycleWith_resolves (h.branching hlook 4) he h.jumpInFlight h.jumpTaken hresolves
  have hrun : t.status = .running := h.running
  rw [exec_branch_issues h hlook hi, runToRetirement_continues _ hcycle hrun rfl,
    runToRetirement_empties _ hrun (commitStage_branch_alone h hi taken) (h.branchRun _ _)
      (Nat.succ_ne_self _)]

end Branch

/-- Settles O23: resolved in the fifth cycle, with and against the prediction, and committed in the sixth. -/
theorem branchAlone : Obligations.BranchAlone := by
  intro s imm h hne hlast
  exact ⟨exec_branch_alone h hne hlast (.inl ⟨rfl, rfl⟩), exec_branch_alone h hne hlast (.inr ⟨rfl, rfl⟩)⟩

end Sys2Proof.Machine

namespace Sys2Proof.Machine

/-! ### The step as a run of calls of `advance` (R7, R100) -/

/-- `n` calls of `advance` from `s` are the run to the next retirement, stop or bound: the last call stops the
machine, retires one instruction or uses up the bound, and those before it do none of this. -/
structure EndsRun (bound : Nat) (s : State) (n : Nat) : Prop where
  positive : 1 ≤ n
  bounded : n ≤ bound
  goesOn : ∀ m : Nat, 0 < m → m < n →
    (s.advances m).status = .running ∧ (s.advances m).retired = s.retired
  ends : n = bound ∨ (s.advances n).status ≠ .running ∨ (s.advances n).retired = s.retired + 1

section Advances

variable {s : State} {n bound : Nat}

theorem State.advance_lookup (s : State) : s.advance.1.lookup = s.lookup := by
  have hprogram : s.advance.1.program = s.program := by
    by_cases hrun : s.status = .running
    · obtain ⟨-, hprogram, -, -⟩ := oneRetirementPerCycle s hrun
      exact hprogram
    · rw [State.advance_stopped hrun]
  funext pc
  simp only [State.lookup, State.lookupWord, hprogram]

/-- R280: a call that does not leave the machine running with nothing more retired is a run of its own. -/
theorem EndsRun.one (hpos : 1 ≤ bound)
    (h : ¬ (s.advance.1.status = .running ∧ s.advance.1.retired = s.retired)) : EndsRun bound s 1 := by
  refine ⟨le_rfl, hpos, fun m hm hlt => by omega, .inr ?_⟩
  show s.advance.1.status ≠ .running ∨ s.advance.1.retired = s.retired + 1
  by_cases hrun : s.status = .running
  · obtain ⟨-, -, hsame | hmore, -⟩ := oneRetirementPerCycle s hrun
    · exact .inl fun hstill => h ⟨hstill, hsame⟩
    · exact .inr hmore
  · exact .inl (by rwa [State.advance_stopped hrun])

/-- A call that does leave it so goes before a run of what it leaves. -/
theorem EndsRun.succ (hrun : s.advance.1.status = .running) (hretired : s.advance.1.retired = s.retired)
    (h : EndsRun bound s.advance.1 n) : EndsRun (bound + 1) s (n + 1) := by
  obtain ⟨hpos, hbound, hgoes, hends⟩ := h
  rw [hretired] at hends
  refine ⟨by omega, by omega, fun m hm hlt => ?_, hends.imp_left (congrArg (· + 1))⟩
  obtain ⟨k, rfl⟩ := Nat.exists_eq_succ_of_ne_zero (Nat.ne_of_gt hm)
  cases k with
  | zero => exact ⟨hrun, hretired⟩
  | succ k =>
    have hmore := hgoes (k + 1) (Nat.succ_pos k) (Nat.lt_of_succ_lt_succ hlt)
    rwa [hretired] at hmore

/-- The run to the next retirement over the loaded program is such a run. -/
theorem runToRetirement_endsRun (bound : Nat) (s : State) :
    ∃ n : Nat, runToRetirement s.lookup (bound + 1) s = s.advances n ∧ EndsRun (bound + 1) s n := by
  induction bound generalizing s with
  | zero =>
    refine ⟨1, ?_, le_rfl, le_rfl, fun m hm hlt => by omega, .inl rfl⟩
    exact ite_self _
  | succ bound ih =>
    have hfirst : runToRetirement s.lookup (bound + 1 + 1) s =
        continueRun s.lookup (bound + 1) s.retired s.advance.1 := runToRetirement_succ _ _ _
    rw [hfirst]
    by_cases hmore : s.advance.1.status = .running ∧ s.advance.1.retired = s.retired
    · obtain ⟨hrun, hretired⟩ := hmore
      obtain ⟨n, hn, hends⟩ := ih s.advance.1
      rw [State.advance_lookup] at hn
      exact ⟨n + 1, (continueRun_more hrun hretired).trans hn, hends.succ hrun hretired⟩
    · exact ⟨1, if_neg hmore, .one (Nat.le_add_left _ _) hmore⟩

end Advances

/-- Settles O8: a step is the run over the loaded program (`step_runs`). -/
theorem stepIsARunOfAdvances : Obligations.StepIsARunOfAdvances := by
  refine ⟨fun s hprogram => ?_, fun s hempty => ?_⟩
  · obtain ⟨n, hrun, hpos, hbound, hgoes, hends⟩ := runToRetirement_endsRun 15 s
    exact ⟨n, (step_runs hprogram).trans (congrArg Host.Outcome.next hrun), hpos, hbound, hgoes, hends⟩
  · simp [step, hempty]

end Sys2Proof.Machine

namespace Sys2Proof.Machine

/-! ### The pipeline path and the architectural effect (R8, R320) -/

/-- `t` shows what the in-order machine `m` holds, and while that one runs it goes on at the same
instruction. -/
structure State.Shows (t : State) (m : Arch) : Prop where
  x : t.x = m.x
  xvalid : t.xvalid = m.xvalid
  z : t.z = m.z
  dmem : t.dmem = m.dmem
  retired : t.retired = m.retired
  status : t.status = m.status
  next : m.status = .running → t.nextInstructionPc = m.pc

section Shows

variable {s t : State} {m : Arch} {i : Instr} {p : Phys} {rest : List Phys} {rd : Reg}

theorem State.nextInstructionPc_of_dec_none (h : s.dec = none) : s.nextInstructionPc = s.pc := by
  simp [State.nextInstructionPc, h]

/-- R131: a fetch moves the next instruction from the fetch pc into `DEC`. -/
theorem fetchStage_nextInstructionPc (look : Word → Option RecordFields) (s : State) :
    (fetchStage look s).nextInstructionPc = s.nextInstructionPc := by
  have hcase := fetchStage_case look s
  generalize fetchStage look s = t at hcase ⊢
  cases hcase with
  | waits | bubbles => rfl
  | fetches _ _ hdec => exact (State.nextInstructionPc_of_dec_none hdec).symm

/-- Fetch, ahead of the next instruction, changes nothing that is shown. -/
theorem State.Shows.fetched (h : t.Shows m) (look : Word → Option RecordFields) :
    (fetchStage look t).Shows m := by
  obtain ⟨hx, hxvalid, hz, hdmem, hretired, hstatus, hnext⟩ := h
  exact ⟨by simpa using hx, by simpa using hxvalid, by simpa using hz, by simpa using hdmem,
    by simpa using hretired, by simpa using hstatus,
    fun hrun => (fetchStage_nextInstructionPc look t).trans (hnext hrun)⟩

/-- R282, R283: a destination-writing instruction's run, with the `z` it leaves. -/
theorem registerRun_shows (hdec : s.dec = none) (p : Phys) (rest : List Phys) (rd : Reg)
    (v z : Word) (n : Nat) :
    ({ s.registerRun p rest rd v n with z := z } : State).Shows { s.arch.writeDest rd v with z := z } :=
  ⟨rfl, rfl, rfl, rfl, rfl, rfl, fun _ => State.nextInstructionPc_of_dec_none hdec⟩

/-- R340. -/
theorem passedThrough_shows (hdec : s.dec = none) (p : Phys) (rest : List Phys) (v z : Word) (n : Nat) :
    ({ (s.passedThrough p rest v).retiredAfter n with z := z } : State).Shows
      { s.arch.goTo (nextPc s.pc) with z := z } :=
  ⟨rfl, rfl, rfl, rfl, rfl, rfl, fun _ => State.nextInstructionPc_of_dec_none hdec⟩

/-- R363, R364. -/
theorem stored_shows (hdec : s.dec = none) (ea v : Word) (n : Nat) :
    ((s.stored ea v).retiredAfter n).Shows
      { s.arch.goTo (nextPc s.pc) with dmem := Sparse.write 0#32 s.dmem (location ea) v } := by
  have hempty : ((s.stored ea v).retiredAfter n).dec = none := by
    simpa [State.retiredAfter, State.stored] using hdec
  refine ⟨?_, ?_, ?_, ?_, ?_, ?_, fun _ => (State.nextInstructionPc_of_dec_none hempty).trans ?_⟩
  all_goals simp [State.retiredAfter, State.stored, Arch.goTo, State.arch]

/-- R346: fetch follows a branch that nothing predicted taken to its target exactly when it is taken. -/
theorem branchRun_shows (hdec : s.dec = none) (hpred : s.predictedTaken = false) (taken : Bool)
    (target : Word) :
    (s.branchRun taken target).Shows (s.arch.goTo (if taken then target else nextPc s.pc)) := by
  have hpc : (s.branchRun taken target).pc = if taken then target else nextPc s.pc := by
    cases taken <;> simp [State.branchRun, State.followed, hpred]
  exact ⟨rfl, rfl, rfl, rfl, rfl, rfl, fun _ =>
    (State.nextInstructionPc_of_dec_none (s := s.branchRun taken target) hdec).trans hpc⟩

/-- R286. -/
theorem jumpRun_shows (hdec : s.dec = none) (target : Word) :
    (s.jumpRun target).Shows (s.arch.goTo target) :=
  ⟨rfl, rfl, rfl, rfl, rfl, rfl, fun _ => State.nextInstructionPc_of_dec_none hdec⟩

/-- R383: a precise fault. -/
theorem FaultedRun.shows {f : FaultCode} {n : Nat} (h : FaultedRun s t f n) : t.Shows (s.arch.fault f) := by
  obtain ⟨hstatus, ⟨hx, hxvalid, hz, hdmem⟩, hretired, -⟩ := h
  exact ⟨hx, hxvalid, hz, hdmem, hretired, hstatus, nofun⟩

/-- R361, R362: a load, at a location of data memory and at none. -/
theorem exec_load_shows (h : Alone s) (hfl : s.fl ≠ []) (hload : isLoad i = true)
    (hrd : destReg i = some rd) :
    ∃ t : State, exec i s = .next t ∧ t.Shows (s.arch.loadFrom rd (s.addressOf i)) := by
  unfold Arch.loadFrom
  split
  · obtain ⟨p, rest, hfl⟩ := List.exists_cons_of_ne_nil hfl
    exact ⟨_, exec_load_alone h hload hrd hfl ‹_›,
      registerRun_shows (s := s.addressed (s.addressOf i)) h.idle.dec p rest rd _ s.z 8⟩
  · obtain ⟨t, hrun, hfault⟩ := exec_load_faults h hfl hload hrd (Bool.eq_false_iff.2 ‹_›)
    exact ⟨t, hrun, hfault.shows⟩

/-- R363, R364: a store, at a location of data memory and at none. -/
theorem exec_store_shows (h : Alone s) (hstore : isStore i = true) {a : Reg}
    (ha : sourceReg i .one = some a) :
    ∃ t : State, exec i s = .next t ∧ t.Shows (s.arch.storeTo (s.addressOf i) (s.readReg a)) := by
  unfold Arch.storeTo
  split
  · exact ⟨_, exec_store_alone h hstore ha ‹_›, stored_shows h.idle.dec _ _ 8⟩
  · obtain ⟨t, hrun, hfault⟩ := exec_store_faults h hstore ha (Bool.eq_false_iff.2 ‹_›)
    exact ⟨t, hrun, hfault.shows⟩

/-- R325: a division, by a divisor that is not 0 and by 0. -/
theorem exec_div_shows (h : Alone s) (hfl : s.fl ≠ []) (rd rs1 rs2 : Reg) :
    ∃ t : State, exec (.div rd rs1 rs2) s = .next t ∧ t.Shows (effectDiv rd rs1 rs2 s.arch) := by
  by_cases hzero : s.readReg rs2 = 0#32
  · obtain ⟨t, hrun, hfault⟩ := divideByZeroAlone s rd rs1 rs2 h hfl hzero
    have heffect : effectDiv rd rs1 rs2 s.arch = s.arch.fault .divideByZero := if_pos hzero
    exact ⟨t, hrun, heffect ▸ hfault.shows⟩
  · obtain ⟨p, rest, hfl⟩ := List.exists_cons_of_ne_nil hfl
    have hresult : divResult (s.readReg rs1) (s.readReg rs2) =
        wrap32 ((s.readReg rs1).toInt.tdiv (s.readReg rs2).toInt) := if_neg hzero
    have heffect : effectDiv rd rs1 rs2 s.arch =
        s.arch.writeDest rd (divResult (s.readReg rs1) (s.readReg rs2)) := if_neg hzero
    rw [heffect, hresult]
    exact ⟨_, divideAlone s p rest rd rs1 rs2 h hfl hzero, registerRun_shows h.idle.dec p rest rd _ s.z 6⟩

/-- R341, R342: a branch with outcome `taken`, from where fetch goes on. -/
theorem exec_branch_shows (h : Alone s) (taken : Bool) (imm : Word)
    (hbranch : (i = .bz imm ∧ taken = decide (s.z = 0#32)) ∨
      (i = .bnz imm ∧ taken = decide (s.z ≠ 0#32))) :
    ∃ t : State, exec i s = .next t ∧
      t.Shows (s.arch.goTo (if taken then s.pc + imm else nextPc s.pc)) := by
  obtain ⟨hidle, hpred, hlast⟩ := h
  have hfollowed : s.followed = nextPc s.pc := by simp [State.followed, hpred]
  have hne : s.followed ≠ s.pc := hfollowed ▸ nextPc_ne s.pc
  exact ⟨_, exec_branch_alone hidle hne (hfollowed ▸ hlast) hbranch,
    (branchRun_shows hidle.dec hpred taken _).fetched _⟩

end Shows

/-- R8: every instruction alone leaves what its architectural effect says. -/
theorem exec_shows_architecturalEffect (s : State) (i : Instr) (h : Alone s) (hfl : s.fl ≠ []) :
    ∃ t : State, exec i s = .next t ∧ t.Shows (architecturalEffect i s.arch) := by
  obtain ⟨p, rest, hfree⟩ := List.exists_cons_of_ne_nil hfl
  have hdec := h.idle.dec
  have hwrites (rd : Reg) (v z : Word) (n : Nat) := registerRun_shows hdec p rest rd v z n
  obtain ⟨hmovc, hadd, haddl⟩ := moveAndAddAlone s p rest h hfree
  obtain ⟨hsub, hsubl⟩ := subtractAlone s p rest h hfree
  cases i with
  | movc rd imm => exact ⟨_, hmovc rd imm, hwrites rd _ s.z 6⟩
  | add rd rs1 rs2 => exact ⟨_, hadd rd rs1 rs2, hwrites rd _ s.z 6⟩
  | addl rd rs1 imm => exact ⟨_, haddl rd rs1 imm, hwrites rd _ s.z 6⟩
  | sub rd rs1 rs2 => exact ⟨_, hsub rd rs1 rs2, hwrites rd _ _ 6⟩
  | subl rd rs1 imm => exact ⟨_, hsubl rd rs1 imm, hwrites rd _ _ 6⟩
  | mul rd rs1 rs2 => exact ⟨_, multiplyAlone s p rest rd rs1 rs2 h hfree, hwrites rd _ s.z 9⟩
  | div rd rs1 rs2 => exact exec_div_shows h hfl rd rs1 rs2
  | and rd rs1 rs2 =>
    obtain ⟨hand, -, -⟩ := logicAlone s p rest rd rs1 rs2 h hfree
    exact ⟨_, hand, hwrites rd _ s.z 6⟩
  | or rd rs1 rs2 =>
    obtain ⟨-, hor, -⟩ := logicAlone s p rest rd rs1 rs2 h hfree
    exact ⟨_, hor, hwrites rd _ s.z 6⟩
  | xor rd rs1 rs2 =>
    obtain ⟨-, -, hxor⟩ := logicAlone s p rest rd rs1 rs2 h hfree
    exact ⟨_, hxor, hwrites rd _ s.z 6⟩
  | load rd rs1 imm => exact exec_load_shows h hfl rfl rfl
  | ldr rd rs1 rs2 => exact exec_load_shows h hfl rfl rfl
  | store rs1 rs2 imm => exact exec_store_shows h rfl rfl
  | str rs1 rs2 rs3 => exact exec_store_shows h rfl rfl
  | cmp rs1 rs2 => exact ⟨_, exec_cmp_alone h hfree rs1 rs2, passedThrough_shows hdec p rest _ _ 6⟩
  | bz imm => exact exec_branch_shows h (bzTaken s.z) imm (.inl ⟨rfl, rfl⟩)
  | bnz imm => exact exec_branch_shows h (bnzTaken s.z) imm (.inr ⟨rfl, by simp [bnzTaken, zeroCondition]⟩)
  | jump rs1 imm => exact ⟨_, jumpAlone s rs1 imm h.idle, (jumpRun_shows hdec _).fetched _⟩
  | halt =>
    obtain ⟨t, hrun, hstatus, ⟨hx, hxvalid, hz, hdmem⟩, hretired, -⟩ := haltAlone s h.idle
    exact ⟨t, hrun, hx, hxvalid, hz, hdmem, hretired, hstatus, nofun⟩

/-- Settles O27: `exec_shows_architecturalEffect`, field by field. -/
theorem isolatedRunIsTheArchitecturalEffect : Obligations.IsolatedRunIsTheArchitecturalEffect := by
  intro s i h hfl
  obtain ⟨t, hrun, hx, hxvalid, hz, hdmem, hretired, hstatus, hnext⟩ :=
    exec_shows_architecturalEffect s i h hfl
  exact ⟨t, hrun, hx, hxvalid, hz, hdmem, hretired, hstatus, hnext⟩

end Sys2Proof.Machine
